-- ==== Sys2Proof/Word.lean ====
section
/-! DEFINITION. The word types of the 2240's interfaces: bytes, 34-bit byte addresses, 32-bit fields. -/

namespace Sys2Proof

/-- One byte of DRAM. -/
abbrev Byte := BitVec 8

/-- A 34-bit byte address (`RG_ADDR_BITS`). -/
abbrev Addr := BitVec 34

/-- A 32-bit field of the control block, of a header or of a record. -/
abbrev Word32 := BitVec 32

end Sys2Proof
end

