-- ==== Sys2Proof/Config.lean ====
section
/-! DEFINITION. The parameters of the part (00_scope.md, Parameters). The spec fixes every one of them and
leaves no value to an implementation, so there is no free constant here: what a faulted write leaves in DRAM is
an operand of the command that carries memory's answer (notes/assumptions/3.md). -/

namespace Sys2Proof.Config

/-- `RG_PORTS`' outstanding limit: the most requests a port has outstanding (`RG_TAGS`, R128). -/
abbrev outstandingMax : Nat := 8
/-- `RG_PWB_ENTRIES`: writes held by the posted write buffer (R137). -/
abbrev pwbEntries : Nat := 8
/-- `RG_AREA_SLOTS_MAX` (R1). -/
abbrev areaSlotsMax : Nat := 65536
/-- `RG_REC_BYTES` (R1). -/
abbrev recBytes : Nat := 64
/-- `RG_CLASSES` (R19). -/
abbrev classes : Nat := 32
/-- `RG_REGRADE_LIMIT` (R41). -/
abbrev regradeLimit : Nat := 3
/-- `RG_BINS` (R65). -/
abbrev bins : Nat := 2048
/-- `RG_BIN_CAP_MAX` (R65). -/
abbrev binCapMax : Nat := 255
/-- `RG_RESV`: reservation table capacity (R88). -/
abbrev resv : Nat := 1024
/-- `RG_CQ_ENTRIES`: places of the command queue, commands and notices together (R38). -/
abbrev cqEntries : Nat := 24
/-- `RG_CQ_HOST_MAX`: places that commands may hold at once (R14). -/
abbrev cqHostMax : Nat := 16
/-- `RG_QCAP_MIN` (R103). -/
abbrev qcapMin : Nat := 16
/-- `RG_QCAP_MAX` (R103). -/
abbrev qcapMax : Nat := 4096
/-- `RG_QCAP_TOTAL`: the sum of the six capacities is at most this (R103). -/
abbrev qcapTotal : Nat := 8192
/-- `RG_ENTRY_BYTES` (R103). -/
abbrev entryBytes : Nat := 16
/-- `RG_HDR_BYTES` (R103). -/
abbrev hdrBytes : Nat := 64
/-- `RG_CB_BYTES` (R145). -/
abbrev cbBytes : Nat := 20480
/-- `RG_CB_STEP`: 64 MiB (R145). -/
abbrev cbStep : Nat := 67108864
/-- `RG_DEADLINE_MIN`, seconds (R93). -/
abbrev deadlineMin : Nat := 30
/-- `RG_DEADLINE_DEF`, seconds (R90). -/
abbrev deadlineDef : Nat := 600
/-- `RG_DEADLINE_MAX`, seconds (R93). -/
abbrev deadlineMax : Nat := 3600
/-- The largest value of NOW (R91). -/
abbrev nowMax : Nat := 4294967295
/-- The size of the 34-bit address space (`RG_ADDR_BITS`). -/
abbrev addrSpace : Nat := 17179869184

end Sys2Proof.Config
end

