-- ==== Sys2Proof/Syntax.lean ====
section
/-! DEFINITION. The commands of the part: one constructor of `Instr` for each row of spec/opcode_table.json, with
the operands that come from outside the part (a controller's request, memory's answer, the straps). -/

namespace Sys2Proof

/-- Line port A (grading controller) or B (putaway controller). -/
inductive Port where
  | A
  | B
deriving DecidableEq, Repr

/-- Memory's answer to one read: OK with data, or FAULT (R141). -/
inductive ReadAnswer where
  | ok
  | fault
deriving DecidableEq, Repr

/-- Memory's answer to one write. After a FAULT the write's bytes stand "as the memory left them" (R143, R144):
`left` gives, for the write's enabled bytes in rising address order, what stands there; a byte the list does not
reach keeps what it held. Nothing constrains `left`. -/
inductive WriteAnswer where
  | ok
  | fault (left : List Byte)
deriving DecidableEq, Repr

/-- A read request (R127). `mem` is what memory answers to the memory reads the request comes to, in order; reads
beyond the list are answered OK. -/
structure ReadReq where
  addr : Addr
  len  : Nat
  tag  : Fin 8
  mem  : List ReadAnswer
deriving DecidableEq, Repr

/-- A write request (R127). `bytes` holds, per byte of the length, the value of an enabled byte or `none` for a byte
whose enable is clear. `mem` is memory's answer where the write is forwarded unposted and its answer is no row of
its own (a plain item write, a control block table write, an EVENT_ENABLE write). -/
structure WriteReq where
  addr  : Addr
  len   : Nat
  tag   : Fin 8
  bytes : List (Option Byte)
  mem   : WriteAnswer
deriving DecidableEq, Repr

/-- One memory request presented at a line port (R127). -/
inductive Request where
  | read  (r : ReadReq)
  | write (r : WriteReq)
deriving DecidableEq, Repr

/-- A read of a start or of a RELOAD, in the units in which the spec tells their faults apart (R153, R161, R162,
R164, R165). -/
inductive ReadSite where
  /-- A table of R153, by its number 1 to 7 (1 the header, … 7 the queue descriptor table). -/
  | table (n : Nat)
  /-- EVENT_ENABLE, counted with the header (R161). -/
  | eventEnable
  /-- The 64-byte read of bin images 8·i to 8·i + 7 (R162). -/
  | imageBlock (i : Nat)
  /-- The 48-byte read of a queue header (R164). -/
  | queueHeader (q : Fin 6)
  /-- The read of the entry `k` places behind HEAD of a queue (R165). -/
  | ringEntry (q : Fin 6) (k : Nat)
deriving DecidableEq, Repr

/-- What a command of a start or of a RELOAD serves: how many of the operation's reads, so that any other command may come
between two reads, and the read that memory answers FAULT, if any (R153, R160, R171). -/
structure ReadsServed where
  reads : Nat
  fault : Option ReadSite
deriving DecidableEq, Repr

/-- What memory has done with the part's other requests at the entry into `MODE_HALTED` (R144): `granted` tells how many
requests of the own side it had granted, oldest first, beyond those the state shows as granted; the answers are memory's to
each write of the part that had been granted and not answered (`cuWrite` is the MODE echo or bias image write before a result
write), and to the echo write of HALTED. The part ignores them (R144, R151), but a write answered FAULT leaves its bytes as
the memory left them. -/
structure HaltAnswers where
  granted     : Nat
  writeBack   : WriteAnswer
  queueWrite  : WriteAnswer
  imageWrite  : WriteAnswer
  cuWrite     : WriteAnswer
  resultWrite : WriteAnswer
  echo        : WriteAnswer
deriving DecidableEq, Repr

/-- Which access of the part memory answered FAULT (R156). -/
inductive HaltCause where
  /-- The record write-back of the item command unit. -/
  | writeBack
  /-- The ring entry, header or TICKET_IMAGE write of the queue unit. -/
  | queueWrite
  /-- The bin image write of the bin unit. -/
  | imageWrite
  /-- The station bias image write of SET_BIAS or NUDGE. -/
  | biasImage
  /-- The MODE echo write of a start, FREEZE, THAW or CLEAR_HALT. -/
  | modeEcho
  /-- The mailbox result write. -/
  | resultWrite
  /-- The item command unit's fetch for a notice. -/
  | noticeFetch
  /-- The queue unit's ring read of the take in progress of a queue. -/
  | takeRead (q : Fin 6)
deriving DecidableEq, Repr

/-- The commands of spec/opcode_table.json, in the table's order. A row that is a controller's request carries the
port and the request. A row that is a completion of memory carries memory's answer where the spec gives that row an
outcome for FAULT. START_FRESH, START_RESTORE and RELOAD carry the reads that are served now. -/
inductive Instr where
  | powerOn (cbsel : Fin 16) (autoload : Bool)
  | lineReset (cbsel : Fin 16) (autoload : Bool)
  | autoloadRestore
  | badRequest (p : Port) (r : Request)
  | takeWordMisuse (p : Port) (r : ReadReq)
  | passRead (p : Port) (r : ReadReq)
  | passWrite (p : Port) (r : WriteReq)
  | postedWriteDrain (a : WriteAnswer)
  | itemRead (p : Port) (r : ReadReq)
  | itemPlainWrite (p : Port) (r : WriteReq)
  | commandWrite (p : Port) (r : WriteReq)
  | commandWriteComplete (p : Port) (a : WriteAnswer)
  | cmdOpen
  | cmdCommit
  | appendEntryWriteDone
  | cmdRegrade
  | cmdPlaced
  | cmdMisfit
  | cmdWithdraw
  | cmdClear
  | badCommand
  | fetchFault
  | takeNotice
  | expiryNotice
  | writeBackComplete
  | takeRead (p : Port) (r : ReadReq)
  | takeComplete (q : Fin 6)
  | viewRead (p : Port) (r : ReadReq)
  | viewWrite (p : Port) (r : WriteReq)
  | ringRead (p : Port) (r : ReadReq)
  | ringWrite (p : Port) (r : WriteReq)
  | quWriteDone
  | binImageWriteDone
  | tick
  | expiry
  | eventRead (p : Port) (r : ReadReq)
  | eventEnableWrite (p : Port) (r : WriteReq)
  | cbTableWrite (p : Port) (r : WriteReq)
  | mailboxReadFault
  | badOp
  | startFresh (r : ReadsServed)
  | startRestore (r : ReadsServed)
  | startSwitch
  | reload (r : ReadsServed)
  | reloadSwitch
  | freeze
  | thaw
  | setBias
  | nudge
  | binSet
  | binLock
  | binUnlock
  | binRetire
  | binPicked
  | clearHalt
  | mailboxResultWriteDone (a : WriteAnswer) (h : HaltAnswers)
  | halt (c : HaltCause) (left : List Byte) (h : HaltAnswers)
  | mailboxWrite (p : Port) (r : WriteReq)
  | mailboxWriteDone (p : Port) (a : WriteAnswer)
deriving DecidableEq, Repr

end Sys2Proof
end

