-- ==== Sys2Proof/Decode.lean ====
section
/-! DEFINITION. Commands as words: the table of commands gives no row any bits. -/

namespace Sys2Proof

/-- The command that a word spells by the table's bits: spec/opcode_table.json gives none of its rows bits, so no word spells
a command (notes/assumptions/15.md). -/
def decodeTableWord (_nbits _w : Nat) : Option Instr := none

end Sys2Proof
end

