-- ==== Sys2Proof/Machine/State.lean ====
section
/-! DEFINITION. The state of the part, unit by unit (00_scope.md, Block overview: each block owns its state), the
DRAM behind it, the responses it has returned, and the queue of commands that wait. Plain data throughout. -/

namespace Sys2Proof.Machine

/-- A finite map from numbers, as a list of pairs in strictly rising order of key (`Map.wf` in Machine/Ops.lean). -/
abbrev Map (α : Type) := List (Nat × α)

/-- DRAM: the 34-bit byte-addressed memory behind the part, listed where it differs from what an unlisted byte reads
as (`Memory.wf`, `Memory.unlisted` in Machine/Ops.lean). -/
abbrev Memory := List Host.Cell

/-- A write as memory performs it: the enabled bytes with their addresses, in rising order. -/
abbrev Cells := List Host.Cell

/-! ## Enumerations of the spec -/

/-- `MODE_` values (R150). -/
inductive Mode where
  | init | run | frozen | halted
deriving DecidableEq, Repr

/-- `EVT_` kinds, in the order of their values 0 to 11 (10.1). -/
inductive EventKind where
  | cmdRefused | protection | expired | latePlace | nearFull | hold | misfit | mailbox | memFault | halt | lockedBin
  | badRequest
deriving DecidableEq, Repr

/-- `REC_` states, values 0 to 7 (1.1). -/
inductive RecState where
  | empty | opened | routed | taken | closed | lost | void | trialed
deriving DecidableEq, Repr

/-- `RES_` results, values 0 to 15 (1.1). -/
inductive RecResult where
  | ok | badCommand | badState | badClass | badReading | noReadings | noRoom | tooLate | notTaken | wrongBin
  | regradeLimit | lateAccepted | lateRefused | okLockedBin | frozen | memFault
deriving DecidableEq, Repr

/-- Grades A to X, values 0 to 4 (2.1). -/
inductive Grade where
  | A | B | C | D | X
deriving DecidableEq, Repr

/-- Dispositions, values 0 to 5; each has the queue of its number (2.1). -/
inductive Disp where
  | pick | reserve | refurb | outlet | vendor | hold
deriving DecidableEq, Repr

/-- Hold reasons, values 0 to 6 (2.1). -/
inductive Reason where
  | none | policy | passMissing | disagree | noBin | noReservation | queueFull
deriving DecidableEq, Repr

/-- Pass rules, values 0 to 3 (2.1). -/
inductive PassRule where
  | any | surfaceReq | detailReq | bothReq
deriving DecidableEq, Repr

/-- Pass kinds of a reading (2.1). -/
inductive PassKind where
  | surface | detail
deriving DecidableEq, Repr

/-- `BIN_` states, values 0 to 3 (4.1). -/
inductive BinState where
  | opened | full | locked | retired
deriving DecidableEq, Repr

/-- Zone kinds a zone table entry can hold (4.1). -/
inductive ZoneKind where
  | pick | reserve
deriving DecidableEq, Repr

/-- `MB_` results, values 0 to 10 (8.1). -/
inductive MbResult where
  | ok | notNow | badOp | badArg | tableInvalid | memFault | binBusy | saturated | queueBusy | areaBusy | restoreFailed
deriving DecidableEq, Repr

/-- The two sides of the memory arbiter (R140). -/
inductive Side where
  | forwarded | own
deriving DecidableEq, Repr

/-! ## Memory arbiter -/

/-- A request of the own side, by the unit that issued it (R139): the item command unit's fetch and record write-back, the
ring read of a queue's take, the write in flight of the queue unit and of the bin unit, and the control unit's reads, its
MODE echo or bias image write, and its mailbox result write. Each unit has at most one of a kind at a time. -/
inductive OwnReq where
  | fetch | writeBack | takeRead (q : Fin 6) | queueWrite | imageWrite | cuRead | cuWrite | result
deriving DecidableEq, Repr

/-- A write in the order in which memory performs the writes it has granted (R141). -/
inductive Grant where
  /-- A forwarded write that memory has not answered. These are the oldest of the forwarded side, in its order (R139). -/
  | forwarded
  /-- A write of the part that memory has not answered. -/
  | own (r : OwnReq)
  /-- A write that memory has answered while one granted before it is unanswered, with the bytes it has set. -/
  | done (cells : Cells)
deriving DecidableEq, Repr

/-- The memory arbiter: the side granted last (R140); the own side's requests that wait for a grant, in the order they
became ready (R139); the writes granted, from the oldest that memory has not answered on, in the order of their grants; and
the part's reads granted and not answered, each with memory as its grant found it (R141). -/
structure Arbiter where
  last  : Side
  own   : List OwnReq
  order : List Grant
  found : List (OwnReq × Memory)
deriving DecidableEq, Repr

/-! ## Item records -/

/-- A slot, named by its area number and slot number (R1). -/
structure SlotId where
  area : Nat
  slot : Nat
deriving DecidableEq, Repr

/-- The four flags of a record (R7). -/
structure RecFlags where
  trial    : Bool
  rerouted : Bool
  fellBack : Bool
  late     : Bool
deriving DecidableEq, Repr

/-- One position of READINGS (R5). -/
structure Reading where
  valid   : Bool
  kind    : PassKind
  station : Nat
  raw     : Nat
deriving DecidableEq, Repr

/-- A record as the item command unit fetched it, with the fields taken as R9 and R177 give. `bin` and `ringIndex` are
the 16-bit values as read, `defects` the six codes of six bits. -/
structure Rec where
  tag       : Nat
  cls       : Nat
  cmd       : Nat
  cmdArg    : Nat
  defects   : List Nat
  readings  : List Reading
  state     : RecState
  grade     : Grade
  disp      : Disp
  regrades  : Nat
  flags     : RecFlags
  queue     : Option (Fin 6)
  bin       : Nat
  ringIndex : Nat
  served    : Nat
  ticket    : Word32
deriving DecidableEq, Repr

/-! ## Line ports -/

/-- Why the decoder holds a request (R135). -/
inductive Hold where
  | busySlot (id : SlotId)
  | cqCommand
  | cqNotice
  | mailbox
deriving DecidableEq, Repr

/-- Why the decoder stalls a PASS write (R135). -/
inductive Stall where
  | bufferFull
  | postingStopped
deriving DecidableEq, Repr

/-- Response status (7.1). -/
inductive Status where
  | ok | fault
deriving DecidableEq, Repr

/-- A response: the request's tag, its status and the data of a read answered OK (R127). -/
structure Response where
  tag    : Fin 8
  status : Status
  data   : List Byte
deriving DecidableEq, Repr

/-- One part of a read: bytes read from memory, or bytes the part answers itself (R119, R175). -/
inductive ReadPart where
  | mem (addr len : Nat)
  | synth (bytes : List Byte)
deriving DecidableEq, Repr

/-- How far an accepted request has come (R128, R129). -/
inductive Stage where
  /-- Accepted and not yet taken by the decoder, or released from a hold or stall and ready again. -/
  | waiting
  /-- Held by the decoder; still its port's head request (R135). -/
  | held (h : Hold)
  /-- Stalled by the decoder; still its port's head request (R135). -/
  | stalled (c : Stall)
  /-- A take read that waits at the queue unit for a take of the same queue; still the head request (R115, R129). -/
  | atQueue (q : Fin 6)
  /-- A forwarded read that waits for older forwarded writes it overlaps (R138, R139): `behind` counts the writes of the
  forwarded side from the oldest up to the last of those, `older` counts every write of the side that the decoder dispatched
  before the read, and `turn` rises in the order it dispatched the reads. -/
  | reading (parts : List ReadPart) (behind older turn : Nat)
  /-- An unposted write that has been forwarded and that memory has not answered (R132). -/
  | writing
  /-- The take read of the take in progress of a queue (R115). -/
  | taking (q : Fin 6)
  /-- Complete: the response is decided (R128). -/
  | complete (r : Response)
deriving DecidableEq, Repr

/-- An entry of a port's outstanding list (R128); `twin` tells that its tag was that of a request in the list when the port
accepted it. -/
structure Outstanding where
  req   : Request
  twin  : Bool
  stage : Stage
deriving DecidableEq, Repr

/-- A line port: its outstanding list, oldest first (R128), and the responses it has returned since the last reset,
oldest first (notes/assumptions/7.md: the observation of the model, not a register of the part). -/
structure PortState where
  outstanding : List Outstanding
  returned    : List Response
deriving DecidableEq, Repr

/-! ## Forwarded writes -/

/-- What a write of the forwarded side is. -/
inductive FwdKind where
  /-- A write of the posted write buffer (R137). -/
  | posted
  /-- A plain item write or a control block table write of a port, with the answer memory will give it (R142). -/
  | plain (p : Port) (a : WriteAnswer)
  /-- A write to the event block of a port, with the answer memory will give it (R176). -/
  | eventEnable (p : Port) (a : WriteAnswer)
  /-- An admitted command-carrying write of a port (R14). -/
  | command (p : Port) (id : SlotId)
  /-- A command-carrying write admitted before a halt (R18). -/
  | abandoned (p : Port)
  /-- A mailbox write of a port; `starts` when it covers OP with a non-zero value (R147). -/
  | mailbox (p : Port) (starts : Bool)
deriving DecidableEq, Repr

/-- A write of the forwarded side that memory has not answered (R139): the bytes it covers, whatever its enables (R138), and
its enabled bytes. -/
structure FwdWrite where
  addr  : Nat
  len   : Nat
  cells : Cells
  kind  : FwdKind
deriving DecidableEq, Repr

/-! ## Window decoder -/

/-- An item-area descriptor (R1). -/
structure AreaDesc where
  base  : Nat
  slots : Nat
  trial : Bool
  valid : Bool
deriving DecidableEq, Repr

/-- A queue descriptor (R103). -/
structure QDesc where
  ringBase : Nat
  viewBase : Nat
  capacity : Nat
  near     : Nat
deriving DecidableEq, Repr

/-- The layout in force beside the control block range (R131, R134): the item areas, and the ring areas and view windows
of the six queues, none before the first switch. -/
structure Layout where
  areas : Vector AreaDesc 4
  descs : Option (Vector QDesc 6)
deriving DecidableEq, Repr

/-! ## Grading unit -/

/-- A class table entry whose VALID is yes (R19). -/
structure ClassEntry where
  tA          : Nat
  tB          : Nat
  tC          : Nat
  spreadLimit : Nat
  passRule    : PassRule
  dispA       : Disp
  dispB       : Disp
  dispC       : Disp
  dispD       : Disp
  dispX       : Disp
deriving DecidableEq, Repr

/-- The grading unit's tables. A class the map does not list has VALID no (R19), a code it does not list has cap A (R20),
a station it does not list has bias 0 (R21). -/
structure Gu where
  classes : Map ClassEntry
  caps    : Map Grade
  bias    : Map Int
deriving DecidableEq, Repr

/-- A graded result (R24). -/
structure Graded where
  score  : Nat
  spread : Nat
  grade  : Grade
  disp   : Disp
  reason : Reason
deriving DecidableEq, Repr

/-! ## Bin unit -/

/-- A bin table entry (R65). -/
structure Bin where
  cls      : Nat
  capacity : Nat
  occupied : Nat
  reserved : Nat
  state    : BinState
deriving DecidableEq, Repr

/-- A zone table entry (R68); the END and KIND of an entry whose VALID is no are not read, and are kept as 0 and PICK. -/
structure Zone where
  valid : Bool
  last  : Nat
  kind  : ZoneKind
deriving DecidableEq, Repr

/-- A bin image as DRAM holds it (12.4): the five fields as numbers, in range or not. -/
structure BinImage where
  cls      : Nat
  state    : Nat
  capacity : Nat
  occupied : Nat
  reserved : Nat
deriving DecidableEq, Repr

/-- The image write in flight (R85). -/
structure ImageWrite where
  bin   : Nat
  cells : Cells
deriving DecidableEq, Repr

/-- The bin unit: the bin table (a bin not listed has the reset entry of R67), the zone table, the 64 availability lists
(key 2·class for PICK, 2·class + 1 for RESERVE; a list not listed is empty), the image write queue and its write in
flight (R85). -/
structure Bu where
  bins          : Map Bin
  zones         : List Zone
  avail         : Map (List Nat)
  imageQueue    : List Nat
  imageInFlight : Option ImageWrite
deriving DecidableEq, Repr

/-! ## Reservation unit -/

/-- `RSV_` states; a TAKEN reservation has its DEADLINE (R88). -/
inductive ResvState where
  | queued
  | taken (deadline : Nat)
deriving DecidableEq, Repr

/-- A reservation (R88). -/
structure Reservation where
  id     : SlotId
  bin    : Nat
  queue  : Fin 6
  ticket : Word32
  state  : ResvState
deriving DecidableEq, Repr

/-- The reservation unit: the reservation table (no order of its own; listed in order of creation), the deadline list, the
seconds count, the deadline setting in force, and whether an expiry pass is running (R88, R90, R91, R92, R93, R100). -/
structure Ru where
  table     : List Reservation
  deadlines : List SlotId
  now       : Nat
  setting   : Nat
  pass      : Bool
deriving DecidableEq, Repr

/-! ## Queue unit -/

/-- The state of a ring position that is not FREE (6.1). -/
inductive PosState where
  | live | void | taking
deriving DecidableEq, Repr

/-- An entry status table position that is not FREE (R105). -/
structure Position where
  state  : PosState
  ticket : Word32
  id     : SlotId
deriving DecidableEq, Repr

/-- One queue (R104): its counts, its run of the entry status table (a ring position not listed is FREE, R105), and the
ports whose take reads wait at the queue unit, in the order the decoder passed them (R115). -/
structure QState where
  head       : Nat
  tail       : Nat
  count      : Nat
  live       : Nat
  lastTicket : Word32
  appended   : Word32
  taken      : Word32
  voided     : Word32
  positions  : Map Position
  waiters    : List Port
deriving DecidableEq, Repr

/-- An item of the queue unit's write queue (R109). An entry write carries its cells, which are addressed when it joins;
`isAppend` tells an append's entry write from a void's. -/
inductive QuItem where
  | entry (cells : Cells) (isAppend : Bool)
  | header (q : Fin 6)
  | ticketImage
deriving DecidableEq, Repr

/-- The write of the queue unit in flight, with the bytes it was issued with (R109). -/
structure QuFlight where
  item  : QuItem
  cells : Cells
deriving DecidableEq, Repr

/-- The queue unit: six queues, the write queue and its write in flight (R109), and the ticket of the last append accepted
by any queue, which the ticket image write carries (R110). -/
structure Qu where
  queues     : Vector QState 6
  waiting    : List QuItem
  inFlight   : Option QuFlight
  lastTicket : Word32
deriving DecidableEq, Repr

/-! ## Item command unit -/

/-- An entry of the command queue (3.1). -/
inductive CqEntry where
  | command (id : SlotId)
  | take (id : SlotId) (q : Fin 6) (ticket : Word32)
  | expiry (id : SlotId) (ticket : Word32)
deriving DecidableEq, Repr

/-- An entry in service: the note of R39 whether the mode was FROZEN at its take, and the address of its slot in the layout
in force at the take (`none` for a notice whose slot no longer lies in a valid area, R3). -/
structure Service where
  entry  : CqEntry
  frozen : Bool
  addr   : Option Nat
deriving DecidableEq, Repr

/-- Which command runs the routing chain (3.5). -/
inductive ChainKind where
  | commit | regrade | misfit
deriving DecidableEq, Repr

/-- The working state of a routing chain (3.5, R47, R48): the grade the entry carries and, for COMMIT and REGRADE, the score
and spread to be written; the working disposition and reason; the fall-back note; the bin reserved; the candidate ticket. -/
structure Route where
  kind     : ChainKind
  grade    : Grade
  score    : Nat
  spread   : Nat
  disp     : Disp
  reason   : Reason
  fellBack : Bool
  bin      : Option Nat
  ticket   : Word32
deriving DecidableEq, Repr

/-- What the item command unit does at the moment (R39, R42, R43): idle, paused, or serving, and then how far. -/
inductive IcuStage where
  | idle
  | paused
  /-- Serving; the fetch is made, or for a notice without a slot the discard is due (R3, R40). -/
  | fetching (svc : Service)
  /-- Serving; a void claim waits at the queue unit (R112). For REGRADE the graded result, for WITHDRAW none. -/
  | voiding (svc : Service) (rec : Rec) (graded : Option Graded)
  /-- Serving a MISFIT whose misfit claim was answered REMOVED; the re-route's claims are due (R55, R56). -/
  | rerouting (svc : Service) (rec : Rec)
  /-- Serving; an append claim waits at the queue unit (R110). -/
  | appending (svc : Service) (rec : Rec) (route : Route)
  /-- Serving; the queue unit has taken the append and its entry write is not complete (R110). -/
  | entryWrite (svc : Service) (rec : Rec) (route : Route)
  /-- Serving; the record write-back is not complete; the outcome's events are raised at its completion (R43). -/
  | writeBack (svc : Service) (cells : Cells) (events : List EventKind)
deriving DecidableEq, Repr

/-- The item command unit: the joined entries of CQ that wait, oldest first; the slots of the commands whose places are
given and whose writes memory has not completed (R38); its stage, which holds the entry in service; whether the control
unit has asked it to pause (R39); the next-ticket counter (R45). The busy set and the count of places are computed from
these (`State.busy`, `State.places`, `State.commandPlaces` in Machine/Ops.lean). -/
structure Icu where
  cq       : List CqEntry
  given    : List SlotId
  stage    : IcuStage
  pauseAsked : Bool
  counter  : Word32
deriving DecidableEq, Repr

/-! ## Control unit -/

/-- The tables a start or a RELOAD has read and validated (R153). -/
structure Tables where
  deadline    : Nat
  ticketImage : Word32
  classes     : Map ClassEntry
  caps        : Map Grade
  bias        : Map Int
  zones       : List Zone
  areas       : Vector AreaDesc 4
  descs       : Vector QDesc 6
deriving DecidableEq, Repr

/-- What the reads of the tables phase have returned so far (R153, R161): the header's FORMAT, DEADLINE_S and TICKET_IMAGE,
the mask of EVENT_ENABLE, and each table, the first four `none` where an entry breaks its rule. -/
structure TablesRead where
  format      : Nat
  deadline    : Nat
  ticketImage : Word32
  mask        : BitVec 12
  classes     : Option (Map ClassEntry)
  caps        : Option (Map Grade)
  bias        : Option (Map Int)
  zones       : Option (List Zone)
  areas       : Vector AreaDesc 4
  descs       : Vector QDesc 6
deriving DecidableEq, Repr

/-- The fields of a queue header (R108). -/
structure QHeader where
  head       : Nat
  tail       : Nat
  count      : Nat
  live       : Nat
  lastTicket : Word32
  appended   : Word32
  taken      : Word32
  voided     : Word32
deriving DecidableEq, Repr

/-- A ring entry as the entry phase of START_RESTORE has read it (R165): its queue, its ring position, what the entry status
table holds for it, and the bin it names. -/
structure RingEntry where
  queue    : Fin 6
  pos      : Nat
  position : Position
  bin      : Nat
deriving DecidableEq, Repr

/-- Which operation reads the tables (R153). -/
inductive TableUse where
  | fresh | restore | reload
deriving DecidableEq, Repr

/-- What a start holds when its tables phase has ended (R161): its SEQ, the tables and the enable mask to be put in force,
and the images as read so far (R162). -/
structure StartData where
  seq    : Word32
  tables : Tables
  mask   : BitVec 12
  images : Map BinImage
deriving DecidableEq, Repr

/-- A start that waits for its switch (R168): what it has read, the DETAIL of its result, and the ticket counter. -/
structure StartPlan where
  data    : StartData
  detail  : Word32
  counter : Word32
deriving DecidableEq, Repr

/-- The write of the control unit that memory has still to answer before the result write is issued (R37, R151). -/
inductive CuPrior where
  | nothing
  /-- The MODE echo write of a mode. -/
  | echo (m : Mode)
  /-- The bias image write of a station. -/
  | bias (station : Nat) (value : Int)
deriving DecidableEq, Repr

/-- What takes effect when the result write completes (R149). -/
inductive CuAfter where
  | nothing
  | bias (station : Nat) (value : Int)
  | mode (m : Mode)
deriving DecidableEq, Repr

/-- The mailbox result write (R149), which is made at once, or behind the write `prior` that is outstanding before it; `seq`
is `none` for the write that follows a faulted mailbox read, which leaves RSEQ (R147). -/
structure ResultWrite where
  seq    : Option Word32
  result : MbResult
  detail : Word32
  prior  : CuPrior
  after  : CuAfter
deriving DecidableEq, Repr

/-- What the control unit executes (R147, R148, R149, R159). -/
inductive CuWork where
  /-- No operation executes. -/
  | idle
  /-- After a reset with AUTOLOAD sampled as 1: executing, the restore not yet begun (R159). -/
  | autoload
  /-- An operation has started and the mailbox block read is made (R147). -/
  | reading
  /-- The automatic restore has begun, with SEQ 0 and no mailbox read (R159). -/
  | automatic
  /-- The tables phase of a start or a RELOAD (R153, R161): `made` of its reads have been served. -/
  | tables (use : TableUse) (seq : Word32) (made : Nat) (t : TablesRead)
  /-- The bin image phase of a start (R162): `made` of its 256 reads have been served. -/
  | images (fresh : Bool) (d : StartData) (made : Nat)
  /-- The header phase of START_RESTORE (R164): the headers read so far, Q0 first. -/
  | headers (d : StartData) (read : List QHeader)
  /-- The entry phase of START_RESTORE (R165): the six headers, and the entries read so far, in the order read. -/
  | entries (d : StartData) (headers : List QHeader) (read : List RingEntry)
  /-- A start waits for its switch; posting is stopped (R134). -/
  | startSwitch (p : StartPlan)
  /-- A RELOAD waits for its switch; posting is stopped and the item command unit is asked to pause (R155). -/
  | reloadSwitch (seq : Word32) (t : Tables)
  /-- A bin operation waits for an image write of its bin; `issued` once one was issued after the change (R79). -/
  | waitImage (seq : Word32) (bin : Nat) (detail : Word32) (issued : Bool)
  /-- The result write is made, or the write before it (R37, R149, R151). -/
  | result (r : ResultWrite)
deriving DecidableEq, Repr

/-- The control unit: the mode, the straps as last sampled, and the operation it executes (R150, R159). -/
structure Cu where
  mode     : Mode
  cbsel    : Fin 16
  autoload : Bool
  work     : CuWork
deriving DecidableEq, Repr

/-! ## Event unit -/

/-- The event unit: the pending set and the enable mask, bit n for the kind of value n (R172, R173). -/
structure Eu where
  pending : BitVec 12
  mask    : BitVec 12
deriving DecidableEq, Repr

/-! ## The whole -/

/-- The machine. `ia` is the ingress arbiter's pointer (R130), `ma` the memory arbiter (R139, R140), `fwd` the
writes of the forwarded side that memory has not answered, in the order the decoder took them (R139), of which those of
kind `posted` are the posted write buffer (R137); `pending` holds the commands that wait, first in, first out. -/
structure State where
  portA   : PortState
  portB   : PortState
  ia      : Port
  fwd     : List FwdWrite
  ma      : Arbiter
  layout  : Layout
  gu      : Gu
  bu      : Bu
  ru      : Ru
  qu      : Qu
  icu     : Icu
  cu      : Cu
  eu      : Eu
  dram    : Memory
  pending : List Instr
deriving DecidableEq, Repr

/-- The reasons a step could stop with a fault. There is none: the part answers every refused or failed request with a
FAULT response and every failed write of its own with a change of mode, and goes on (R127, R142, R144). Safe: no claim
can rest on a stop. -/
inductive Fault where
deriving DecidableEq, Repr

/-- The reasons a step could be refused. -/
inductive Refusal where
  /-- Raised by a refused arm of Machine/Dispatch.lean for a command that has no meaning yet; no arm raises it now. Safe. -/
  | notModelled (mnemonic : String)
deriving DecidableEq, Repr

/-! ## Reset -/

/-- A port after reset: nothing outstanding (R128). -/
def PortState.reset : PortState := { outstanding := [], returned := [] }

/-- The memory arbiter after reset: the alternation state names the own side (R140), and nothing waits. -/
def Arbiter.reset : Arbiter := { last := .own, own := [], order := [], found := [] }

/-- The layout after reset: the control block range alone (R134); no area is valid and the queue unit holds no descriptors
(R126). -/
def Layout.reset : Layout :=
  { areas := Vector.replicate 4 { base := 0, slots := 0, trial := false, valid := false }, descs := none }

/-- The grading unit after reset: every class VALID no, every cap A, every bias 0 (R23). -/
def Gu.reset : Gu := { classes := [], caps := [], bias := [] }

/-- The bin table entry after reset (R67). -/
def Bin.reset : Bin := { cls := 0, capacity := 0, occupied := 0, reserved := 0, state := .opened }

/-- The zone table after reset: eight entries with VALID no (R67). -/
def Zone.resetTable : List Zone := List.replicate 8 { valid := false, last := 0, kind := .pick }

/-- The bin unit after reset (R67). -/
def Bu.reset : Bu :=
  { bins := [], zones := Zone.resetTable, avail := [], imageQueue := [], imageInFlight := none }

/-- The reservation unit after reset (R90). -/
def Ru.reset : Ru := { table := [], deadlines := [], now := 0, setting := Config.deadlineDef, pass := false }

/-- A queue after reset (R126). -/
def QState.reset : QState :=
  { head := 0, tail := 0, count := 0, live := 0, lastTicket := 0, appended := 0, taken := 0, voided := 0,
    positions := [], waiters := [] }

/-- The queue unit after reset (R126). -/
def Qu.reset : Qu :=
  { queues := Vector.replicate 6 QState.reset, waiting := [], inFlight := none, lastTicket := 0 }

/-- The item command unit after reset: idle, CQ and busy set empty, the counter 1 (R44). -/
def Icu.reset : Icu := { cq := [], given := [], stage := .idle, pauseAsked := false, counter := 1 }

/-- The control unit after reset with the straps as sampled (R159): with AUTOLOAD 1 an operation executes from the
sampling. -/
def Cu.reset (cbsel : Fin 16) (autoload : Bool) : Cu :=
  { mode := .init, cbsel := cbsel, autoload := autoload, work := if autoload then .autoload else .idle }

/-- The event unit after reset: nothing pending, no kind enabled (R172, R173). -/
def Eu.reset : Eu := { pending := 0, mask := 0 }

/-- Every unit after reset, with the straps as sampled, the DRAM as it stands and the commands that wait. -/
def State.resetWith (cbsel : Fin 16) (autoload : Bool) (dram : Memory) (pending : List Instr) : State :=
  { portA := PortState.reset
    portB := PortState.reset
    ia := .A
    fwd := []
    ma := Arbiter.reset
    layout := Layout.reset
    gu := Gu.reset
    bu := Bu.reset
    ru := Ru.reset
    qu := Qu.reset
    icu := Icu.reset
    cu := Cu.reset cbsel autoload
    eu := Eu.reset
    dram := dram
    pending := pending }

/-- The machine right after reset, with CBSEL sampled as 0 and AUTOLOAD as 0 (DESIGN CHOICE, notes/assumptions/2.md: the
straps are inputs), DRAM with nothing listed, and no command waiting. -/
def State.reset : State := State.resetWith 0 false [] []

end Sys2Proof.Machine
end

