-- ==== Sys2Proof/Machine/Flags.lean ====
section
/-! DEFINITION. The event flags: the pending set, the enable mask and the EVENT line (10_events.md, R172 to R176). -/

namespace Sys2Proof.Machine

/-- The value of an event kind: its position in the EVENT word and in EVENT_ENABLE (10.1). -/
def EventKind.index : EventKind → Nat
  | .cmdRefused => 0
  | .protection => 1
  | .expired => 2
  | .latePlace => 3
  | .nearFull => 4
  | .hold => 5
  | .misfit => 6
  | .mailbox => 7
  | .memFault => 8
  | .halt => 9
  | .lockedBin => 10
  | .badRequest => 11

/-- The set that holds one kind. -/
def EventKind.bit (k : EventKind) : BitVec 12 := BitVec.ofNat 12 (2 ^ k.index)

/-- A raise: the kind joins the pending set, or leaves it as it is when already pending (R172). -/
def Eu.raise (k : EventKind) (u : Eu) : Eu := { u with pending := u.pending ||| k.bit }

/-- Raises, one after the other. -/
def Eu.raiseAll (ks : List EventKind) (u : Eu) : Eu := ks.foldl (fun v k => v.raise k) u

/-- The EVENT line is asserted exactly when the pending set and the enable mask share a kind (R174). -/
def Eu.line (u : Eu) : Bool := (u.pending &&& u.mask) != 0

/-- A setting of the mask from a value of EVENT_ENABLE, for the kinds in `covered` alone (R173, R176). -/
def Eu.setMask (covered value : BitVec 12) (u : Eu) : Eu :=
  { u with mask := (u.mask &&& ~~~covered) ||| (value &&& covered) }

/-- A raise at the event unit of the machine. -/
def State.raise (k : EventKind) (s : State) : State := { s with eu := s.eu.raise k }

/-- Raises at the event unit of the machine. -/
def State.raiseAll (ks : List EventKind) (s : State) : State := { s with eu := s.eu.raiseAll ks }

end Sys2Proof.Machine
end

