-- ==== Sys2Proof/Machine/Arbiter.lean ====
section
/-! DEFINITION. The memory arbiter (R139, R140): what each side offers, the choice between them, and the grants that a
request of either side waits for. Memory grants no earlier than a request's answer needs it (notes/assumptions/9.md), so
each operation says how far the grants have come when its request is answered. `mem` is what memory holds when it has
performed the writes of an order of grants, and `n` the number of forwarded writes that memory has not answered, or for a
forwarded read of those that are older than it. -/

namespace Sys2Proof.Machine

/-- The side that is not `x`. -/
def otherSide : Side → Side
  | .forwarded => .own
  | .own => .forwarded

/-- The arbiter's choice (R140): the side that alone offers, and of two the one not named as granted last. -/
def grantChoice (last : Side) (forwarded own : Bool) : Option Side :=
  match forwarded, own with
  | true, true => some (otherSide last)
  | true, false => some .forwarded
  | false, true => some .own
  | false, false => none

/-- A request of the own side is a write. -/
def OwnReq.isWrite : OwnReq → Bool
  | .writeBack => true
  | .queueWrite => true
  | .imageWrite => true
  | .cuWrite => true
  | .result => true
  | _ => false

/-- How many forwarded writes have been granted and not answered: they are the oldest ones (R139). -/
def Arbiter.sent (m : Arbiter) : Nat := m.order.count .forwarded

/-- The forwarded side offers its oldest write that waits for a grant (R139). -/
def Arbiter.offersWrite (n : Nat) (m : Arbiter) : Bool := decide (m.sent < n)

/-- The own side offers its oldest request (R139). -/
def Arbiter.offersOwn (m : Arbiter) : Bool := !m.own.isEmpty

/-- A grant: the oldest request of a side goes to memory, a write behind every write granted before it, a read with what those
writes have left of memory (R141), and the state names the side (R139, R140). -/
def Arbiter.grant (mem : List Grant → Memory) (m : Arbiter) : Side → Arbiter
  | .forwarded => { m with last := .forwarded, order := m.order ++ [.forwarded] }
  | .own =>
    { last := .own
      own := m.own.tail
      order := m.order ++ ((m.own.take 1).filter (·.isWrite)).map .own
      found := m.found ++ ((m.own.take 1).filter (fun r => !r.isWrite)).map (fun r => (r, mem m.order)) }

/-- One grant, where a side offers. -/
def Arbiter.grantNext (mem : List Grant → Memory) (n : Nat) (m : Arbiter) : Arbiter :=
  match grantChoice m.last (m.offersWrite n) m.offersOwn with
  | some x => m.grant mem x
  | none => m

/-- Grants until `done`, at most as many as the last number says. -/
def Arbiter.grantUntil (mem : List Grant → Memory) (n : Nat) (done : Arbiter → Bool) : Nat → Arbiter → Arbiter
  | 0, m => m
  | k + 1, m => if done m then m else Arbiter.grantUntil mem n done k (m.grantNext mem n)

/-- The number of requests that can wait for a grant. -/
def Arbiter.waiting (n : Nat) (m : Arbiter) : Nat := m.own.length + n

/-- A request of the own side becomes ready, behind those that are (R139). -/
def Arbiter.ask (r : OwnReq) (m : Arbiter) : Arbiter := { m with own := m.own ++ [r] }

/-- A request of the own side waits no longer, granted or not. -/
def Arbiter.drop (r : OwnReq) (m : Arbiter) : Arbiter := { m with own := m.own.filter (fun x => x != r) }

/-- A request of the own side is granted. -/
def Arbiter.grantOwn (mem : List Grant → Memory) (n : Nat) (r : OwnReq) (m : Arbiter) : Arbiter :=
  Arbiter.grantUntil mem n (fun x => !x.own.contains r) (m.waiting n) m

/-- The oldest forwarded write is granted. -/
def Arbiter.grantWrite (mem : List Grant → Memory) (n : Nat) (m : Arbiter) : Arbiter :=
  Arbiter.grantUntil mem n (fun x => decide (0 < x.sent)) (m.waiting n) m

/-- What a read of the part that has been granted and not answered found in memory (R141). -/
def Arbiter.found? (r : OwnReq) (m : Arbiter) : Option Memory := (m.found.find? (fun x => x.1 == r)).map (·.2)

/-- A read of the part is answered. -/
def Arbiter.answerRead (r : OwnReq) (m : Arbiter) : Arbiter := { m with found := m.found.filter (fun x => x.1 != r) }

/-- The bytes that answered writes in an order of grants have set. -/
def doneCells : List Grant → Cells
  | [] => []
  | .done c :: r => c ++ doneCells r
  | _ :: r => doneCells r

/-- The bytes that writes granted after a write, and answered before it, have set (R141). -/
def laterCells (g : Grant) : List Grant → Cells
  | [] => []
  | x :: r => if x = g then doneCells r else laterCells g r

/-- The first write of a name in an order of grants is answered, and stands with the bytes it sets. -/
def markDone (g : Grant) (cells : Cells) : List Grant → List Grant
  | [] => []
  | x :: r => if x = g then .done cells :: r else x :: markDone g cells r

/-- An order of grants from the oldest unanswered write on. -/
def dropDone : List Grant → List Grant
  | .done _ :: r => dropDone r
  | l => l

/-- A write that memory has granted is answered, with the bytes it sets (R141). -/
def Arbiter.answer (g : Grant) (cells : Cells) (m : Arbiter) : Arbiter :=
  { m with order := dropDone (markDone g cells m.order) }

/-- A forwarded read with `n` older writes on the forwarded side is granted: each of those has been, and no younger one for
its sake (R139), and the own side goes first where it offers and was not granted last (R140). -/
def Arbiter.grantRead (mem : List Grant → Memory) (n : Nat) (m : Arbiter) : Arbiter :=
  let g := Arbiter.grantUntil mem n (fun x => !x.offersWrite n) (m.waiting n) m
  match grantChoice g.last true g.offersOwn with
  | some .own => { g.grant mem .own with last := .forwarded }
  | _ => { g with last := .forwarded }

end Sys2Proof.Machine
end

