-- ==== Sys2Proof/Machine/Ops.lean ====
section
/-! DEFINITION. The shared operations: finite maps, DRAM, the line ports' lists, the places of the command queue and the
busy set, and the ranges the window decoder watches. -/

namespace Sys2Proof.Machine

/-! ## Finite maps -/

/-- The value listed for a key. -/
def Map.at? {α : Type} : Map α → Nat → Option α
  | [], _ => none
  | (j, v) :: r, k => if j = k then some v else Map.at? r k

/-- The value of a key in a map whose unlisted keys have the value `d`. -/
def Map.getD {α : Type} (d : α) (m : Map α) (k : Nat) : α := (Map.at? m k).getD d

/-- A map with one key listed anew, in its place by rising key. -/
def Map.ins {α : Type} (k : Nat) (v : α) : Map α → Map α
  | [] => [(k, v)]
  | (j, w) :: r =>
    if k < j then (k, v) :: (j, w) :: r else if k = j then (k, v) :: r else (j, w) :: Map.ins k v r

/-- A map with one key not listed. -/
def Map.del {α : Type} (k : Nat) (m : Map α) : Map α := m.filter (fun c => c.1 != k)

/-- Setting a key of a map whose unlisted keys have the value `d`: a key set to `d` is not listed. -/
def Map.put {α : Type} [DecidableEq α] (d : α) (k : Nat) (v : α) (m : Map α) : Map α :=
  if v = d then Map.del k m else Map.ins k v m

/-- The canonical form: keys strictly rising, and no key listed with the value `d` of an unlisted one. -/
def Map.wf {α : Type} [DecidableEq α] (d : α) (m : Map α) : Bool :=
  decide (m.Pairwise (fun a b => a.1 < b.1)) && m.all (fun c => decide (c.2 ≠ d))

/-! ## DRAM -/

/-- What a byte of DRAM that nothing has written reads as (DESIGN CHOICE, notes/assumptions/1.md). -/
def Memory.unlisted : Byte := 0

/-- The canonical form of DRAM: addresses strictly rising, no byte listed that an unlisted address reads as. -/
def Memory.wf (d : Memory) : Bool := Map.wf Memory.unlisted d

/-- The byte at an address. -/
def Memory.read (d : Memory) (a : Nat) : Byte := Map.getD Memory.unlisted d a

/-- DRAM with one byte written. -/
def Memory.write (d : Memory) (a : Nat) (b : Byte) : Memory := Map.put Memory.unlisted a b d

/-- The bytes of `n` addresses from `a` up. -/
def Memory.bytes (d : Memory) (a n : Nat) : List Byte := (List.range n).map (fun i => Memory.read d (a + i))

/-- DRAM after a write of enabled bytes that memory answered OK (R141). -/
def Memory.writeCells (d : Memory) (cells : Cells) : Memory := cells.foldl (fun m c => Memory.write m c.1 c.2) d

/-- The bytes that a write sets when memory answers it: with FAULT they are as the memory left them (R143, R144). -/
def answeredCells (cells : Cells) : WriteAnswer → Cells
  | .ok => cells
  | .fault left => List.zipWith (fun c b => (c.1, b)) cells left

/-- DRAM after bytes of a write are set, but for those that writes granted after it have set already (R141). -/
def Memory.setUnder (later : Cells) (d : Memory) (cells : Cells) : Memory :=
  Memory.writeCells d (cells.filter (fun c => !later.any (fun x => x.1 == c.1)))

/-- The enabled bytes of a run of bytes from address `a` up. -/
def enabledCells (a : Nat) : List (Option Byte) → Cells
  | [] => []
  | none :: r => enabledCells (a + 1) r
  | some b :: r => (a, b) :: enabledCells (a + 1) r

/-- Cells of a run of bytes that are all enabled. -/
def cellsAt (a : Nat) : List Byte → Cells
  | [] => []
  | b :: r => (a, b) :: cellsAt (a + 1) r

/-- The enabled bytes of a controller's write (R127); entries beyond its length are no bytes of it. -/
def writeCellsOf (r : WriteReq) : Cells := enabledCells r.addr.toNat (r.bytes.take r.len)

/-! ## Line ports -/

/-- The other port. -/
def otherPort : Port → Port
  | .A => .B
  | .B => .A

/-- A port's state. -/
def State.port (s : State) : Port → PortState
  | .A => s.portA
  | .B => s.portB

/-- The machine with one port's state replaced. -/
def State.setPort (s : State) (p : Port) (v : PortState) : State :=
  match p with
  | .A => { s with portA := v }
  | .B => { s with portB := v }

/-- The tag of a request. -/
def tagOf : Request → Fin 8
  | .read r => r.tag
  | .write r => r.tag

/-- A read's OK response with its data (R127). -/
def okData (tag : Fin 8) (data : List Byte) : Stage := .complete { tag := tag, status := .ok, data := data }

/-- A write's OK response (R127). -/
def okDone (tag : Fin 8) : Stage := .complete { tag := tag, status := .ok, data := [] }

/-- A FAULT response; it carries no data (7.1). -/
def faulted (tag : Fin 8) : Stage := .complete { tag := tag, status := .fault, data := [] }

/-- Memory's answer to an unposted write as the response to its port (R142). -/
def answeredWrite (tag : Fin 8) : WriteAnswer → Stage
  | .ok => okDone tag
  | .fault _ => faulted tag

/-- Whether a request has not been dispatched: the first such request of a port is its head request (R129). -/
def Stage.undispatched : Stage → Bool
  | .waiting => true
  | .held _ => true
  | .stalled _ => true
  | .atQueue _ => true
  | _ => false

/-- A port's head request (R129). -/
def headRequest (l : List Outstanding) : Option Outstanding := l.find? (fun o => o.stage.undispatched)

/-- A port's list with the stage of its head request set. -/
def setHeadStage (st : Stage) : List Outstanding → List Outstanding
  | [] => []
  | o :: r => if o.stage.undispatched then { o with stage := st } :: r else o :: setHeadStage st r

/-- A port's list with the stage set of its oldest request whose stage `f` selects. -/
def setOldest (f : Stage → Bool) (st : Outstanding → Stage) : List Outstanding → List Outstanding
  | [] => []
  | o :: r => if f o.stage then { o with stage := st o } :: r else o :: setOldest f st r

/-- A port's list with every stage passed through a function. -/
def mapStages (f : Outstanding → Stage) (l : List Outstanding) : List Outstanding :=
  l.map (fun o => { o with stage := f o })

/-- Both ports' lists with every stage passed through a function. -/
def State.mapStages (f : Outstanding → Stage) (s : State) : State :=
  { s with
    portA := { s.portA with outstanding := Machine.mapStages f s.portA.outstanding }
    portB := { s.portB with outstanding := Machine.mapStages f s.portB.outstanding } }

/-- The head request of a port is set to a stage. -/
def State.setHead (p : Port) (st : Stage) (s : State) : State :=
  s.setPort p { s.port p with outstanding := setHeadStage st (s.port p).outstanding }

/-- The oldest request of a port whose stage `f` selects is set to a stage. -/
def State.setOldest (p : Port) (f : Stage → Bool) (st : Outstanding → Stage) (s : State) : State :=
  s.setPort p { s.port p with outstanding := Machine.setOldest f st (s.port p).outstanding }

/-- The responses a list is ready to return, oldest first, and the list that remains: a response is returned only for
the oldest request, and only when it is complete (R128). -/
def returnable : List Outstanding → List Response × List Outstanding
  | [] => ([], [])
  | o :: r =>
    match o.stage with
    | .complete x => (x :: (returnable r).1, (returnable r).2)
    | _ => ([], o :: r)

/-- A port returns every response it may (R128). -/
def PortState.deliver (p : PortState) : PortState :=
  { outstanding := (returnable p.outstanding).2, returned := p.returned ++ (returnable p.outstanding).1 }

/-- Both ports return every response they may. -/
def State.deliver (s : State) : State := { s with portA := s.portA.deliver, portB := s.portB.deliver }

/-- Every hold whose cause `c` selects ends: its request is ready again (R130, R135). -/
def State.releaseHolds (c : Hold → Bool) (s : State) : State :=
  s.mapStages (fun o => match o.stage with
    | .held h => if c h then .waiting else .held h
    | st => st)

/-- Every stall whose cause `c` selects ends (R135). -/
def State.releaseStalls (c : Stall → Bool) (s : State) : State :=
  s.mapStages (fun o => match o.stage with
    | .stalled h => if c h then .waiting else .stalled h
    | st => st)

/-- The holds on the mailbox (R135, R147). -/
def Hold.isMailbox : Hold → Bool
  | .mailbox => true
  | _ => false

/-- A mailbox write that covers OP with a non-zero value has been forwarded and is unanswered (R147). -/
def State.operationWritePending (s : State) : Bool :=
  s.fwd.any (fun w => match w.kind with | .mailbox _ starts => starts | _ => false)

/-! ## Command queue, busy set -/

/-- The slot of a CQ entry. -/
def CqEntry.slot : CqEntry → SlotId
  | .command id => id
  | .take id _ _ => id
  | .expiry id _ => id

/-- Whether a CQ entry is a command of a controller. -/
def CqEntry.isCommand : CqEntry → Bool
  | .command _ => true
  | _ => false

/-- The entry in service. -/
def IcuStage.service : IcuStage → Option Service
  | .idle => none
  | .paused => none
  | .fetching svc => some svc
  | .voiding svc _ _ => some svc
  | .rerouting svc _ => some svc
  | .appending svc _ _ => some svc
  | .entryWrite svc _ _ => some svc
  | .writeBack svc _ _ => some svc

/-- The places of CQ that are given: to commands not yet joined, to joined entries, and to the entry in service (R38). -/
def State.places (s : State) : Nat :=
  s.icu.given.length + s.icu.cq.length + (if s.icu.stage.service.isSome then 1 else 0)

/-- The places of CQ that commands hold (R38). -/
def State.commandPlaces (s : State) : Nat :=
  s.icu.given.length + s.icu.cq.countP (·.isCommand)
    + (match s.icu.stage.service with
       | some svc => if svc.entry.isCommand then 1 else 0
       | none => 0)

/-- The slot that the service in progress keeps busy; a notice that is to be discarded keeps none (R3, R16). -/
def State.serviceSlots (s : State) : List SlotId :=
  match s.icu.stage.service with
  | some svc => if svc.addr.isSome then [svc.entry.slot] else []
  | none => []

/-- The busy set (R16): the slots of the commands that hold places, and the slot in service. -/
def State.busySlots (s : State) : List SlotId :=
  s.icu.given ++ (s.icu.cq.filter (·.isCommand)).map (·.slot) ++ s.serviceSlots

/-- Whether a slot is in the busy set. -/
def State.busy (s : State) (id : SlotId) : Bool := s.busySlots.contains id

/-! ## Ranges the decoder watches -/

/-- The base of the control block (R145). -/
def State.cbBase (s : State) : Nat := Config.cbStep * s.cu.cbsel.val

/-- The item area that an address falls in, with the slot (R1, R131), among the areas numbered from `i` on. -/
def findSlot (a : Nat) : Nat → List AreaDesc → Option SlotId
  | _, [] => none
  | i, d :: r =>
    if d.valid && decide (d.base ≤ a) && decide (a < d.base + Config.recBytes * d.slots) then
      some { area := i, slot := (a - d.base) / Config.recBytes }
    else findSlot a (i + 1) r

/-- The address of a slot in the layout in force, when it lies in a valid area (R3). -/
def Layout.slotAddr (l : Layout) (id : SlotId) : Option Nat :=
  match l.areas[id.area]? with
  | some d => if d.valid && decide (id.slot < d.slots) then some (d.base + Config.recBytes * id.slot) else none
  | none => none

/-- Whether the area of a slot is a trial area in the layout in force (R2). -/
def Layout.isTrial (l : Layout) (id : SlotId) : Bool :=
  match l.areas[id.area]? with
  | some d => d.trial
  | none => false

/-- The bytes of a ring area (R103). -/
def QDesc.ringLen (d : QDesc) : Nat := Config.hdrBytes + Config.entryBytes * d.capacity

/-- The bytes of a view window (R103). -/
def QDesc.viewLen (d : QDesc) : Nat := Config.entryBytes * d.capacity

/-- The address of a ring position (R103). -/
def QDesc.entryAddr (d : QDesc) (pos : Nat) : Nat := d.ringBase + Config.hdrBytes + Config.entryBytes * pos

/-- The numbers of the six queues. -/
def queueIds : List (Fin 6) := [0, 1, 2, 3, 4, 5]

/-- The descriptor of a queue in force. -/
def State.desc? (s : State) (q : Fin 6) : Option QDesc := s.layout.descs.map (fun v => v[q])

/-- What an address falls in (R131). -/
inductive Place where
  | mailbox
  | event
  | controlBlock (off : Nat)
  | item (id : SlotId)
  | ring (q : Fin 6) (off : Nat)
  | view (q : Fin 6) (off : Nat)
  | outside
deriving DecidableEq, Repr

/-- The place of an address within the control block (R133, 12.4). -/
def controlBlockPlace (off : Nat) : Place :=
  if 0x40 ≤ off ∧ off < 0x80 then .mailbox
  else if 0x80 ≤ off ∧ off < 0xC0 then .event
  else .controlBlock off

/-- The ring area or view window an address falls in, among the queues listed. -/
def findQueue (v : Vector QDesc 6) (a : Nat) : List (Fin 6) → Place
  | [] => .outside
  | q :: r =>
    if v[q].ringBase ≤ a ∧ a < v[q].ringBase + v[q].ringLen then .ring q (a - v[q].ringBase)
    else if v[q].viewBase ≤ a ∧ a < v[q].viewBase + v[q].viewLen then .view q (a - v[q].viewBase)
    else findQueue v a r

/-- The place of an address under the layout in force, whatever the mode. -/
def State.placeOf (s : State) (a : Nat) : Place :=
  if s.cbBase ≤ a ∧ a < s.cbBase + Config.cbBytes then controlBlockPlace (a - s.cbBase)
  else
    match findSlot a 0 s.layout.areas.toList with
    | some id => .item id
    | none =>
      match s.layout.descs with
      | some v => findQueue v a queueIds
      | none => .outside

/-- The place the decoder classes a request by: in `MODE_INIT` only the control block is watched (R131). -/
def State.classOf (s : State) (a : Nat) : Place :=
  match s.placeOf a with
  | .item id => if s.cu.mode = .init then .outside else .item id
  | .ring q o => if s.cu.mode = .init then .outside else .ring q o
  | .view q o => if s.cu.mode = .init then .outside else .view q o
  | pl => pl

/-- Posting is stopped from the request for a layout switch until the switch or the end of the operation (R134). -/
def State.postingStopped (s : State) : Bool :=
  match s.cu.work with
  | .startSwitch _ => true
  | .reloadSwitch _ _ => true
  | _ => false

/-! ## Forwarded writes -/

/-- A write of the posted write buffer (R137). -/
def FwdWrite.isPosted (w : FwdWrite) : Bool := decide (w.kind = .posted)

/-- The number of writes the posted write buffer holds (R137). -/
def State.buffered (s : State) : Nat := s.fwd.countP (·.isPosted)

/-- Two runs of bytes share an address (R138). -/
def runsOverlap (a n b m : Nat) : Bool := decide (a < b + m) && decide (b < a + n) && decide (0 < n) && decide (0 < m)

/-- A run of bytes overlaps a forwarded write, whatever that write's byte enables (R138). -/
def overlapsForward (fwd : List FwdWrite) (a n : Nat) : Bool := fwd.any (fun w => runsOverlap a n w.addr w.len)

end Sys2Proof.Machine
end

