-- ==== Sys2Proof/Machine/Operands.lean ====
section
/-! DEFINITION. The byte layouts of 12_formats.md: numbers in little-endian bytes, the encodings of the enumerations,
item records, ring entries, queue headers, the mailbox block, bin images. -/

namespace Sys2Proof.Machine

/-! ## Little-endian numbers (00_scope.md, Conventions) -/

/-- The number that bytes hold, least significant first. -/
def leNat : List Byte → Nat
  | [] => 0
  | b :: r => b.toNat + 256 * leNat r

/-- The `n` bytes of a number, least significant first. -/
def leBytes : Nat → Nat → List Byte
  | 0, _ => []
  | n + 1, v => BitVec.ofNat 8 v :: leBytes n (v / 256)

/-- The number in `n` bytes of DRAM. -/
def Memory.nat (d : Memory) (a n : Nat) : Nat := leNat (Memory.bytes d a n)

/-- The 32-bit field at an address of DRAM. -/
def Memory.word (d : Memory) (a : Nat) : Word32 := BitVec.ofNat 32 (Memory.nat d a 4)

/-! ## Encodings of the enumerations -/

/-- `MODE_` values (8.1). -/
def Mode.code : Mode → Nat
  | .init => 0 | .run => 1 | .frozen => 2 | .halted => 3

/-- `REC_` values (1.1). -/
def RecState.code : RecState → Nat
  | .empty => 0 | .opened => 1 | .routed => 2 | .taken => 3 | .closed => 4 | .lost => 5 | .void => 6 | .trialed => 7

/-- A fetched STATE: above 7 it is taken as EMPTY (R9). -/
def RecState.ofCode : Nat → RecState
  | 1 => .opened | 2 => .routed | 3 => .taken | 4 => .closed | 5 => .lost | 6 => .void | 7 => .trialed | _ => .empty

/-- `RES_` values (1.1). -/
def RecResult.code : RecResult → Nat
  | .ok => 0 | .badCommand => 1 | .badState => 2 | .badClass => 3 | .badReading => 4 | .noReadings => 5 | .noRoom => 6
  | .tooLate => 7 | .notTaken => 8 | .wrongBin => 9 | .regradeLimit => 10 | .lateAccepted => 11 | .lateRefused => 12
  | .okLockedBin => 13 | .frozen => 14 | .memFault => 15

/-- Grade values (2.1); the order from best to worst is the order of the values. -/
def Grade.code : Grade → Nat
  | .A => 0 | .B => 1 | .C => 2 | .D => 3 | .X => 4

/-- A grade value of a table (R20). -/
def Grade.ofCode? : Nat → Option Grade
  | 0 => some .A | 1 => some .B | 2 => some .C | 3 => some .D | 4 => some .X | _ => none

/-- A fetched GRADE: above 4 it is taken as X (R177). -/
def Grade.ofFetched (n : Nat) : Grade := (Grade.ofCode? n).getD .X

/-- Disposition values (2.1); each is also the number of its queue. -/
def Disp.code : Disp → Nat
  | .pick => 0 | .reserve => 1 | .refurb => 2 | .outlet => 3 | .vendor => 4 | .hold => 5

/-- A disposition value of a table (R19). -/
def Disp.ofCode? : Nat → Option Disp
  | 0 => some .pick | 1 => some .reserve | 2 => some .refurb | 3 => some .outlet | 4 => some .vendor | 5 => some .hold
  | _ => none

/-- The queue of a disposition (00_scope.md, Queues and dispositions). -/
def Disp.queue : Disp → Fin 6
  | .pick => 0 | .reserve => 1 | .refurb => 2 | .outlet => 3 | .vendor => 4 | .hold => 5

/-- The restock dispositions PICK and RESERVE. -/
def Disp.isRestock : Disp → Bool
  | .pick => true | .reserve => true | _ => false

/-- The restock queues Q0 and Q1. -/
def isRestockQueue (q : Fin 6) : Bool := decide (q.val < 2)

/-- Hold reason values (2.1). -/
def Reason.code : Reason → Nat
  | .none => 0 | .policy => 1 | .passMissing => 2 | .disagree => 3 | .noBin => 4 | .noReservation => 5 | .queueFull => 6

/-- A pass rule value of a table (2.1). -/
def PassRule.ofCode? : Nat → Option PassRule
  | 0 => some .any | 1 => some .surfaceReq | 2 => some .detailReq | 3 => some .bothReq | _ => none

/-- `BIN_` values (4.1). -/
def BinState.code : BinState → Nat
  | .opened => 0 | .full => 1 | .locked => 2 | .retired => 3

/-- A STATE value of a bin image (R162). -/
def BinState.ofCode? : Nat → Option BinState
  | 0 => some .opened | 1 => some .full | 2 => some .locked | 3 => some .retired | _ => none

/-- `MB_` values (8.1). -/
def MbResult.code : MbResult → Nat
  | .ok => 0 | .notNow => 1 | .badOp => 2 | .badArg => 3 | .tableInvalid => 4 | .memFault => 5 | .binBusy => 6
  | .saturated => 7 | .queueBusy => 8 | .areaBusy => 9 | .restoreFailed => 10

/-! ## Item record (12.1) -/

/-- The bytes 0 to 31 and 52 to 63 of a slot form the host region (12.1). -/
def inHostRegion (off : Nat) : Bool := decide (off < 32) || decide (52 ≤ off)

/-- FLAGS as a byte; bits 4 to 7 are written 0 (R177). -/
def RecFlags.code (f : RecFlags) : Nat :=
  f.trial.toNat + 2 * f.rerouted.toNat + 4 * f.fellBack.toNat + 8 * f.late.toNat

/-- FLAGS of a fetched byte (12.1). -/
def RecFlags.ofByte (b : Byte) : RecFlags :=
  { trial := b.getLsbD 0, rerouted := b.getLsbD 1, fellBack := b.getLsbD 2, late := b.getLsbD 3 }

/-- A position of READINGS from its two bytes (12.1). -/
def Reading.ofBytes (b0 b1 : Byte) : Reading :=
  { valid := b0.getLsbD 0
    kind := if b0.getLsbD 1 then .detail else .surface
    station := b0.toNat / 16
    raw := b1.toNat % 128 }

/-- A fetched QUEUE: 0 to 5, and every other value none (R177). -/
def queueOfFetched (n : Nat) : Option (Fin 6) := if h : n < 6 then some ⟨n, h⟩ else none

/-- The record in the slot at an address, as the item command unit takes its fields (R4, R5, R6, R9, R177). -/
def Memory.record (d : Memory) (a : Nat) : Rec :=
  { tag := Memory.nat d a 6
    cls := (Memory.read d (a + 6)).toNat
    cmd := (Memory.read d (a + 7)).toNat
    cmdArg := Memory.nat d (a + 8) 2
    defects := (Memory.bytes d (a + 10) 6).map (fun b => b.toNat % 64)
    readings := [0, 1, 2, 3].map (fun i =>
      Reading.ofBytes (Memory.read d (a + 16 + 2 * i)) (Memory.read d (a + 17 + 2 * i)))
    state := RecState.ofCode (Memory.read d (a + 32)).toNat
    grade := Grade.ofFetched (Memory.read d (a + 34)).toNat
    disp := if (Memory.read d (a + 35)).toNat = 0 then .pick else .reserve
    regrades := min (Memory.read d (a + 37)).toNat 3
    flags := RecFlags.ofByte (Memory.read d (a + 38))
    queue := queueOfFetched (Memory.read d (a + 41)).toNat
    bin := Memory.nat d (a + 42) 2
    ringIndex := Memory.nat d (a + 44) 2
    served := Memory.nat d (a + 46) 2
    ticket := Memory.word d (a + 48) }

/-- The fields a record write-back covers (R43): a field that is `none` has its byte enables clear. `clearCmd` covers CMD
and CMD_ARG with 0. QUEUE and BIN none are `some none`. -/
structure RecUpdate where
  clearCmd  : Bool := false
  state     : Option RecState := none
  result    : Option RecResult := none
  grade     : Option Grade := none
  disp      : Option Disp := none
  reason    : Option Reason := none
  regrades  : Option Nat := none
  flags     : Option RecFlags := none
  score     : Option Nat := none
  spread    : Option Nat := none
  queue     : Option (Option (Fin 6)) := none
  bin       : Option (Option Nat) := none
  ringIndex : Option Nat := none
  served    : Option Nat := none
  ticket    : Option Word32 := none
deriving DecidableEq, Repr

/-- The cells of a field of `n` bytes at an address, when it is covered. -/
def fieldCells (a n : Nat) : Option Nat → Cells
  | some v => cellsAt a (leBytes n v)
  | none => []

/-- QUEUE as a byte: 255 for none (12.1). -/
def queueCode : Option (Fin 6) → Nat
  | some q => q.val
  | none => 255

/-- BIN as a 16-bit number: 65,535 for none (12.1). -/
def binCode : Option Nat → Nat
  | some b => b
  | none => 65535

/-- The bytes of a record write-back on the slot at an address (12.1, R177). -/
def RecUpdate.cells (a : Nat) (u : RecUpdate) : Cells :=
  (if u.clearCmd then cellsAt (a + 7) [0, 0, 0] else [])
    ++ fieldCells (a + 32) 1 (u.state.map (·.code))
    ++ fieldCells (a + 33) 1 (u.result.map (·.code))
    ++ fieldCells (a + 34) 1 (u.grade.map (·.code))
    ++ fieldCells (a + 35) 1 (u.disp.map (·.code))
    ++ fieldCells (a + 36) 1 (u.reason.map (·.code))
    ++ fieldCells (a + 37) 1 u.regrades
    ++ fieldCells (a + 38) 1 (u.flags.map (·.code))
    ++ fieldCells (a + 39) 1 u.score
    ++ fieldCells (a + 40) 1 u.spread
    ++ fieldCells (a + 41) 1 (u.queue.map queueCode)
    ++ fieldCells (a + 42) 2 (u.bin.map binCode)
    ++ fieldCells (a + 44) 2 u.ringIndex
    ++ fieldCells (a + 46) 2 u.served
    ++ fieldCells (a + 48) 4 (u.ticket.map (·.toNat))

/-! ## Ring entry (12.2) -/

/-- `ENT_` values (6.1). -/
def entLive : Nat := 1
/-- `ENT_VOID` (6.1). -/
def entVoid : Nat := 2

/-- BIN in a location word: 4095 for none (12.2). -/
def entryBinCode : Option Nat → Nat
  | some b => b
  | none => 4095

/-- The 16 bytes of a ring entry as appended, with STATE `ENT_LIVE` (R107, 12.2). -/
def entryBytesOf (ticket : Word32) (id : SlotId) (bin : Option Nat) (tag : Nat) (grade : Grade) (reason : Reason)
    (cls : Nat) (rerouted fellBack : Bool) : List Byte :=
  leBytes 4 ticket.toNat
    ++ leBytes 4 (entLive + 4 * id.area + 16 * id.slot + 1048576 * entryBinCode bin)
    ++ leBytes 6 tag
    ++ leBytes 2 (grade.code + 8 * reason.code + 64 * cls + 2048 * rerouted.toNat + 4096 * fellBack.toNat)

/-- The byte at offset 4 that a void writes: `ENT_VOID`, the AREA and the low four bits of SLOT (R177). -/
def voidByte (id : SlotId) : Byte := BitVec.ofNat 8 (entVoid + 4 * id.area + 16 * (id.slot % 16))

/-- The synthesized `ENT_EMPTY` entry: 0 but for the location word, which reads 0xFFF00000 (12.2). -/
def synthEntry : List Byte := [0, 0, 0, 0] ++ leBytes 4 0xFFF00000 ++ [0, 0, 0, 0, 0, 0, 0, 0]

/-- A ring entry as a start reads it (R165, 12.2): TICKET, STATE, AREA, SLOT and the 12-bit BIN. -/
structure EntryRead where
  ticket : Word32
  state  : Nat
  id     : SlotId
  bin    : Nat
deriving DecidableEq, Repr

/-- The ring entry at an address (12.2). -/
def Memory.entry (d : Memory) (a : Nat) : EntryRead :=
  let w := Memory.nat d (a + 4) 4
  { ticket := Memory.word d a
    state := w % 4
    id := { area := w / 4 % 4, slot := w / 16 % 65536 }
    bin := w / 1048576 }

/-! ## Queue header (12.3) -/

/-- The 48 bytes of a header write: the eight fields, and bytes 24 to 47 as 0 (R108, R177). -/
def headerBytes (q : QState) : List Byte :=
  leBytes 2 q.head ++ leBytes 2 q.tail ++ leBytes 2 q.count ++ leBytes 2 q.live
    ++ leBytes 4 q.lastTicket.toNat ++ leBytes 4 q.appended.toNat ++ leBytes 4 q.taken.toNat ++ leBytes 4 q.voided.toNat
    ++ List.replicate 24 0

/-- The header fields at a RING_BASE (R164, 12.3). -/
def Memory.header (d : Memory) (a : Nat) : QHeader :=
  { head := Memory.nat d a 2
    tail := Memory.nat d (a + 2) 2
    count := Memory.nat d (a + 4) 2
    live := Memory.nat d (a + 6) 2
    lastTicket := Memory.word d (a + 8)
    appended := Memory.word d (a + 12)
    taken := Memory.word d (a + 16)
    voided := Memory.word d (a + 20) }

/-! ## Control block (12.4) -/

/-- Offset of TICKET_IMAGE in the control block. -/
def ticketImageOff : Nat := 8
/-- Offset of the MODE echo. -/
def modeEchoOff : Nat := 4
/-- Offset of the mailbox block. -/
def mailboxOff : Nat := 0x40
/-- Offset of the event block. -/
def eventOff : Nat := 0x80
/-- Offset of the station bias table. -/
def biasOff : Nat := 0x140
/-- Offset of the bin images. -/
def imagesOff : Nat := 0x1000

/-- The four fields the control unit reads from the mailbox block (R147). -/
structure Mailbox where
  seq  : Word32
  op   : Nat
  arg0 : Nat
  arg1 : Word32
deriving DecidableEq, Repr

/-- The mailbox block as one read returns it (R147, 12.4). -/
def Memory.mailbox (d : Memory) (cb : Nat) : Mailbox :=
  { seq := Memory.word d (cb + mailboxOff)
    op := Memory.nat d (cb + mailboxOff + 4) 4
    arg0 := Memory.nat d (cb + mailboxOff + 8) 4
    arg1 := Memory.word d (cb + mailboxOff + 12) }

/-- The bytes of the mailbox result write: OP as 0, RSEQ unless the mailbox read faulted, RESULT and DETAIL (R149, 12.4). -/
def resultCells (cb : Nat) (r : ResultWrite) : Cells :=
  cellsAt (cb + mailboxOff + 4) [0, 0, 0, 0]
    ++ fieldCells (cb + mailboxOff + 16) 4 (r.seq.map (·.toNat))
    ++ cellsAt (cb + mailboxOff + 20) (leBytes 4 r.result.code)
    ++ cellsAt (cb + mailboxOff + 24) (leBytes 4 r.detail.toNat)

/-- The bytes of a result write that memory may leave changed when it answers FAULT: RESULT and DETAIL. OP and RSEQ stay as
they were (R149). -/
def resultLeftCells (cb : Nat) (r : ResultWrite) : Cells :=
  cellsAt (cb + mailboxOff + 20) (leBytes 4 r.result.code)
    ++ cellsAt (cb + mailboxOff + 24) (leBytes 4 r.detail.toNat)

/-- The bytes of a result write that an answer of memory concerns. -/
def resultAnswered (cb : Nat) (r : ResultWrite) : WriteAnswer → Cells
  | .ok => resultCells cb r
  | .fault _ => resultLeftCells cb r

/-- The bytes of a MODE echo write (R151). -/
def echoCells (cb : Nat) (m : Mode) : Cells := cellsAt (cb + modeEchoOff) (leBytes 4 m.code)

/-- The byte of a station's entry of the bias image: two's complement (12.4). -/
def biasCells (cb station : Nat) (v : Int) : Cells := [(cb + biasOff + station, BitVec.ofInt 8 v)]

/-- The 8 bytes of a bin image (12.4). -/
def binImageBytes (b : Bin) : List Byte :=
  leBytes 1 b.cls ++ leBytes 1 b.state.code ++ leBytes 2 b.capacity ++ leBytes 2 b.occupied ++ leBytes 2 b.reserved

/-- The address of a bin's image (12.4). -/
def binImageAddr (cb b : Nat) : Nat := cb + imagesOff + 8 * b

/-- A bin image as read (12.4). -/
def Memory.binImage (d : Memory) (a : Nat) : BinImage :=
  { cls := Memory.nat d a 1
    state := Memory.nat d (a + 1) 1
    capacity := Memory.nat d (a + 2) 2
    occupied := Memory.nat d (a + 4) 2
    reserved := Memory.nat d (a + 6) 2 }

/-- The image that an entry of the bin table is written as. -/
def Bin.image (b : Bin) : BinImage :=
  { cls := b.cls, state := b.state.code, capacity := b.capacity, occupied := b.occupied, reserved := b.reserved }

/-- The low twelve bits of an EVENT_ENABLE value as a set of kinds (R173, R176). -/
def maskOfWord (w : Word32) : BitVec 12 := BitVec.ofNat 12 w.toNat

/-- The 64 bytes of the event block as the event unit answers them (R175): the pending set at 0, the mask in force at 8, 0
elsewhere. -/
def eventBlockBytes (u : Eu) : List Byte :=
  leBytes 8 u.pending.toNat ++ leBytes 8 u.mask.toNat ++ List.replicate 48 0

/-! ## Memory as a read finds it (R141) -/

/-- The cells of the record write-back that is outstanding. -/
def State.writeBackCells (s : State) : Cells :=
  match s.icu.stage with
  | .writeBack _ cells _ => cells
  | _ => []

/-- The cells of the queue unit's write in flight. -/
def State.quFlightCells (s : State) : Cells :=
  match s.qu.inFlight with
  | some f => f.cells
  | none => []

/-- The cells of the bin image write in flight. -/
def State.imageFlightCells (s : State) : Cells :=
  match s.bu.imageInFlight with
  | some f => f.cells
  | none => []

/-- The cells of the write before a result write. -/
def CuPrior.cells (cb : Nat) : CuPrior → Cells
  | .nothing => []
  | .echo m => echoCells cb m
  | .bias n v => biasCells cb n v

/-- The cells of the control unit's write that is outstanding: the write before the result write, or the result write (R37,
R149, R151). -/
def ResultWrite.cells (cb : Nat) (r : ResultWrite) : Cells :=
  match r.prior with
  | .nothing => resultCells cb r
  | p => p.cells cb

/-- The cells of the control unit's outstanding write of an operation's end. -/
def State.cuFlightCells (s : State) : Cells :=
  match s.cu.work with
  | .result r => r.cells s.cbBase
  | _ => []

/-- The cells of a write of the part that is outstanding. -/
def State.ownCells (s : State) : OwnReq → Cells
  | .writeBack => s.writeBackCells
  | .queueWrite => s.quFlightCells
  | .imageWrite => s.imageFlightCells
  | .cuWrite => s.cuFlightCells
  | .result => s.cuFlightCells
  | _ => []

/-- The bytes of the writes granted, in the order of their grants, from the part's outstanding writes and the forwarded writes,
the oldest first. A write that memory has not answered stands with its full data: that a read granted behind it finds them,
also where memory answers the write FAULT later, is the model's choice (notes/assumptions/37.md). -/
def orderCells (own : OwnReq → Cells) : List FwdWrite → List Grant → Cells
  | w :: r, .forwarded :: l => w.cells ++ orderCells own r l
  | [], .forwarded :: l => orderCells own [] l
  | f, .own q :: l => own q ++ orderCells own f l
  | f, .done c :: l => c ++ orderCells own f l
  | _, [] => []

/-- DRAM when the writes of an order of grants are performed in that order, whatever side they came from (R141). A write that
is not answered yet counts with its full data, as if its answer were to be OK: what a read granted behind it returns when the
answer is FAULT, the spec leaves open, and this is the model's choice (notes/assumptions/37.md). -/
def State.finds (s : State) (order : List Grant) : Memory := Memory.writeCells s.dram (orderCells s.ownCells s.fwd order)

/-- DRAM as a read granted now finds it: under the writes granted before it (R141), those without an answer with their full
data (notes/assumptions/37.md). -/
def State.memory (s : State) : Memory := s.finds s.ma.order

/-! ## Requests at the memory arbiter (R139, R140, R141) -/

/-- A request of the own side becomes ready (R139). -/
def State.askOwn (r : OwnReq) (s : State) : State := { s with ma := s.ma.ask r }

/-- A request of the own side is granted, with what is granted before it (R139, R140). -/
def State.grantOwn (r : OwnReq) (s : State) : State := { s with ma := s.ma.grantOwn s.finds s.fwd.length r }

/-- A write that memory has granted is answered: the bytes it sets reach DRAM in the order of the grants, under those of a
write granted after it that was answered before it (R141). -/
def State.performed (g : Grant) (cells : Cells) (s : State) : State :=
  { s with dram := Memory.setUnder (laterCells g s.ma.order) s.dram cells, ma := s.ma.answer g cells }

/-- A write of the own side is granted and answered by memory (R140, R141). -/
def State.ownWrite (r : OwnReq) (cells : Cells) (a : WriteAnswer) (s : State) : State :=
  (s.grantOwn r).performed (.own r) (answeredCells cells a)

/-- A read of the own side is granted and answered by memory (R140, R141). -/
def State.ownRead (r : OwnReq) (s : State) : State :=
  { s with ma := (s.ma.grantOwn s.finds s.fwd.length r).answerRead r }

/-- Memory as a read of the own side returns it: as its grant found it, whatever was performed since (R141). A read that is
not outstanding has no such memory. -/
def State.readBy (r : OwnReq) (s : State) : Memory := ((s.grantOwn r).ma.found? r).getD (s.grantOwn r).memory

/-- The oldest write of the forwarded side is granted and answered by memory (R139, R140, R141). -/
def State.forwardedWrite (cells : Cells) (a : WriteAnswer) (s : State) : State :=
  ({ s with ma := s.ma.grantWrite s.finds s.fwd.length }).performed .forwarded (answeredCells cells a)

/-- A read of the forwarded side is granted, behind the `n` oldest writes of the side (R139, R140). -/
def State.grantRead (n : Nat) (s : State) : State := { s with ma := s.ma.grantRead s.finds n }

end Sys2Proof.Machine
end

