-- ==== Sys2Proof/Machine/Grading.lean ====
section
/-! DEFINITION. A grading (02_grading.md, R24 to R31): the grading unit's answer to a request, from the record's class,
readings and defects and from its own tables. -/

namespace Sys2Proof.Machine

/-- The bias of a station (R21). -/
def Gu.biasOf (g : Gu) (station : Nat) : Int := Map.getD 0 g.bias station

/-- The cap a defect code brings (R20). -/
def Gu.capOf (g : Gu) (code : Nat) : Grade := Map.getD .A g.caps code

/-- The effective score of a reading: RAW plus the station's bias, clamped to 0 to 100 (R26). -/
def Gu.effective (g : Gu) (r : Reading) : Nat := min ((r.raw : Int) + g.biasOf r.station).toNat 100

/-- The worse of two grades, in the order A, B, C, D, X (R29). -/
def Grade.worse (a b : Grade) : Grade := if a.code < b.code then b else a

/-- The score grade (R28). -/
def ClassEntry.scoreGrade (c : ClassEntry) (score : Nat) : Grade :=
  if c.tA ≤ score then .A else if c.tB ≤ score then .B else if c.tC ≤ score then .C else .D

/-- The final grade: the worst of the score grade and the caps of the non-zero defect codes (R29). -/
def Gu.finalGrade (g : Gu) (base : Grade) (defects : List Nat) : Grade :=
  defects.foldl (fun w c => if c = 0 then w else w.worse (g.capOf c)) base

/-- Whether a pass rule is met by the kinds present among the valid readings (R30). -/
def PassRule.met (p : PassRule) (valid : List Reading) : Bool :=
  match p with
  | .any => true
  | .surfaceReq => valid.any (fun r => r.kind == .surface)
  | .detailReq => valid.any (fun r => r.kind == .detail)
  | .bothReq => valid.any (fun r => r.kind == .surface) && valid.any (fun r => r.kind == .detail)

/-- The class's disposition of a grade (R19). -/
def ClassEntry.dispOf (c : ClassEntry) : Grade → Disp
  | .A => c.dispA
  | .B => c.dispB
  | .C => c.dispC
  | .D => c.dispD
  | .X => c.dispX

/-- The graded disposition and reason (R31). -/
def ClassEntry.decide (c : ClassEntry) (valid : List Reading) (spread : Nat) (grade : Grade) : Disp × Reason :=
  if !c.passRule.met valid then (.hold, .passMissing)
  else if c.spreadLimit < spread then (.hold, .disagree)
  else if c.dispOf grade = .hold then (.hold, .policy)
  else (c.dispOf grade, .none)

/-- SCORE: the mean of the effective scores, rounded down (R27). -/
def meanScore (scores : List Nat) : Nat := scores.sum / scores.length

/-- SPREAD: the largest effective score less the smallest (R27). -/
def spreadOf (scores : List Nat) : Nat := scores.foldl max 0 - scores.foldl min 100

/-- The graded result of a record that has passed the checks of R25 (R26 to R31). -/
def Gu.gradeValid (g : Gu) (c : ClassEntry) (valid : List Reading) (defects : List Nat) : Graded :=
  let scores := valid.map g.effective
  let grade := g.finalGrade (c.scoreGrade (meanScore scores)) defects
  let dr := c.decide valid (spreadOf scores) grade
  { score := meanScore scores, spread := spreadOf scores, grade := grade, disp := dr.1, reason := dr.2 }

/-- The class entry a record's CLASS names: none above 31, and none when VALID is no (R19, R25). -/
def Gu.classOf (g : Gu) (cls : Nat) : Option ClassEntry := if cls < Config.classes then Map.at? g.classes cls else none

/-- The grading unit's answer: the first refusal of R25, or the graded result. -/
def Gu.grade (g : Gu) (cls : Nat) (readings : List Reading) (defects : List Nat) : Except RecResult Graded :=
  match g.classOf cls with
  | none => .error .badClass
  | some c =>
    let valid := readings.filter (fun r => r.valid)
    if valid.any (fun r => decide (100 < r.raw)) then .error .badReading
    else if valid.isEmpty then .error .noReadings
    else .ok (g.gradeValid c valid defects)

end Sys2Proof.Machine
end

