-- ==== Sys2Proof/Machine/Bins.lean ====
section
/-! DEFINITION. The bin unit (04_bins_and_availability_lists.md): eligibility and the availability lists, the image write
queue, and the claims on bins. -/

namespace Sys2Proof.Machine

/-- A bin table entry (R65). -/
def Bu.bin (u : Bu) (b : Nat) : Bin := Map.getD Bin.reset u.bins b

/-- FREE: CAPACITY less OCCUPIED less RESERVED when that is above 0, and 0 otherwise (R65). -/
def Bin.free (b : Bin) : Nat := b.capacity - b.occupied - b.reserved

/-- The kind of a bin under a zone table: that of the first valid entry whose END is at or above its number (R68). -/
def kindOf (zones : List Zone) (b : Nat) : Option ZoneKind :=
  (zones.find? (fun z => z.valid && decide (b ≤ z.last))).map (·.kind)

/-- The key of an availability list (R70). -/
def listKey (cls : Nat) : ZoneKind → Nat
  | .pick => 2 * cls
  | .reserve => 2 * cls + 1

/-- An availability list, head first (R70). -/
def Bu.list (u : Bu) (key : Nat) : List Nat := Map.getD [] u.avail key

/-- STATE OPEN and FREE above 0: with a kind that is not NONE, the bin is eligible (R70). -/
def Bin.takesReservation (b : Bin) : Bool := decide (b.state = .opened) && decide (0 < b.free)

/-- A bin leaves a list, from whatever place (R71). -/
def leaveList (key b : Nat) (avail : Map (List Nat)) : Map (List Nat) :=
  Map.put [] key ((Map.getD [] avail key).filter (fun c => c != b)) avail

/-- A bin joins the tail of a list (R71). -/
def joinList (key b : Nat) (avail : Map (List Nat)) : Map (List Nat) :=
  Map.put [] key (Map.getD [] avail key ++ [b]) avail

/-- The lists after a bin has changed from `old` to `new`, decided again as R71 gives. -/
def relist (zones : List Zone) (b : Nat) (old new : Bin) (avail : Map (List Nat)) : Map (List Nat) :=
  match kindOf zones b with
  | none => avail
  | some k =>
    let was := (Map.getD [] avail (listKey old.cls k)).contains b
    if was && new.takesReservation && decide (old.cls = new.cls) then avail
    else
      let left := if was then leaveList (listKey old.cls k) b avail else avail
      if new.takesReservation then joinList (listKey new.cls k) b left else left

/-- A bin joins the tail of the image write queue unless it waits there already (R85). -/
def joinImages (b : Nat) (queue : List Nat) : List Nat := if queue.contains b then queue else queue ++ [b]

/-- A change of a bin: its entry, the lists (R71) and its place in the image write queue (R85). -/
def Bu.change (b : Nat) (f : Bin → Bin) (u : Bu) : Bu :=
  { u with
    bins := Map.put Bin.reset b (f (u.bin b)) u.bins
    avail := relist u.zones b (u.bin b) (f (u.bin b)) u.avail
    imageQueue := joinImages b u.imageQueue }

/-- The control unit's note that an image write of a bin has been issued after a bin operation's change (R79). -/
def CuWork.noteIssued (b : Nat) : CuWork → CuWork
  | .waitImage seq bin detail issued => .waitImage seq bin detail (issued || bin == b)
  | w => w

/-- When no image write is in flight, the head of the image write queue is taken off and its image issued as the bin
stands (R85). -/
def State.kickImages (s : State) : State :=
  match s.bu.imageInFlight, s.bu.imageQueue with
  | none, b :: r =>
    { s with
      bu := { s.bu with
              imageQueue := r
              imageInFlight := some { bin := b, cells := cellsAt (binImageAddr s.cbBase b) (binImageBytes (s.bu.bin b)) } }
      cu := { s.cu with work := s.cu.work.noteIssued b }
      ma := s.ma.ask .imageWrite }
  | _, _ => s

/-- A claim or operation that changes a bin (R71, R85). -/
def State.changeBin (b : Nat) (f : Bin → Bin) (s : State) : State := ({ s with bu := s.bu.change b f }).kickImages

/-- Reserve (R73): the head of a list, with one added to its RESERVED, or EMPTY. -/
def State.reserveBin (cls : Nat) (k : ZoneKind) (s : State) : Option Nat × State :=
  match s.bu.list (listKey cls k) with
  | [] => (none, s)
  | b :: _ => (some b, s.changeBin b (fun x => { x with reserved := x.reserved + 1 }))

/-- Release (R74). -/
def State.releaseBin (b : Nat) (s : State) : State := s.changeBin b (fun x => { x with reserved := x.reserved - 1 })

/-- A bin's lock state, as the answers carry it (R75). -/
def Bin.isLocked (b : Bin) : Bool := decide (b.state = .locked)

/-- Occupy (R75): one count moves from RESERVED to OCCUPIED; the answer is the lock state. -/
def State.occupyBin (b : Nat) (s : State) : Bool × State :=
  ((s.bu.bin b).isLocked, s.changeBin b (fun x => { x with reserved := x.reserved - 1, occupied := x.occupied + 1 }))

/-- Late occupy (R76): ACCEPTED with the lock state, or REFUSED with nothing changed. -/
def State.lateOccupyBin (b : Nat) (s : State) : Option Bool × State :=
  if (s.bu.bin b).state ≠ .retired ∧ 0 < (s.bu.bin b).free then
    (some (s.bu.bin b).isLocked, s.changeBin b (fun x => { x with occupied := x.occupied + 1 }))
  else (none, s)

/-- Mark full (R77). -/
def State.markFullBin (b : Nat) (s : State) : State :=
  s.changeBin b (fun x =>
    { x with reserved := x.reserved - 1, state := if x.state = .opened then .full else x.state })

/-- Restore count (R78): COUNTED, or REFUSED when OCCUPIED + RESERVED has reached 255. No list and no image is touched. -/
def Bu.restoreCount (b : Nat) (u : Bu) : Option Bu :=
  if (u.bin b).occupied + (u.bin b).reserved < Config.binCapMax then
    some { u with bins := Map.put Bin.reset b { u.bin b with reserved := (u.bin b).reserved + 1 } u.bins }
  else none

/-- The lists with a bin joined, when it is eligible under a zone table (R70). -/
def joinEligible (zones : List Zone) (bins : Map Bin) (avail : Map (List Nat)) (b : Nat) : Map (List Nat) :=
  match kindOf zones b with
  | some k =>
    if (Map.getD Bin.reset bins b).takesReservation then joinList (listKey (Map.getD Bin.reset bins b).cls k) b avail
    else avail
  | none => avail

/-- The lists built afresh from a bin table, in ascending bin number (R72). -/
def buildLists (zones : List Zone) (bins : Map Bin) : Map (List Nat) :=
  (List.range Config.bins).foldl (joinEligible zones bins) []

end Sys2Proof.Machine
end

