-- ==== Sys2Proof/Machine/Reservations.lean ====
section
/-! DEFINITION. The reservation unit (05_reservations_and_placement_deadlines.md): the table, the deadline list and the
claims and notices it serves. -/

namespace Sys2Proof.Machine

/-- The reservation of a slot (R88). -/
def Ru.find? (u : Ru) (id : SlotId) : Option Reservation := u.table.find? (fun r => r.id == id)

/-- The DEADLINE of a slot's reservation while it is TAKEN. -/
def Ru.deadlineOf (u : Ru) (id : SlotId) : Nat :=
  match u.find? id with
  | some r => (match r.state with | .taken d => d | .queued => 0)
  | none => 0

/-- The removal of a slot's reservation, from the table and from the deadline list (R92). -/
def Ru.remove (id : SlotId) (u : Ru) : Ru :=
  { u with table := u.table.filter (fun r => r.id != id), deadlines := u.deadlines.filter (fun j => j != id) }

/-- Room (R94). -/
def Ru.hasRoom (u : Ru) : Bool := decide (u.table.length < Config.resv)

/-- A QUEUED reservation joins the table. -/
def Ru.add (id : SlotId) (bin : Nat) (q : Fin 6) (ticket : Word32) (u : Ru) : Ru :=
  { u with table := u.table ++ [{ id := id, bin := bin, queue := q, ticket := ticket, state := .queued }] }

/-- Removal of a reservation at the reservation unit of the machine. -/
def State.removeResv (id : SlotId) (s : State) : State := { s with ru := s.ru.remove id }

/-- Cancel (R96): CANCELLED with the bin released, or NONE with nothing changed. -/
def State.cancelResv (id : SlotId) (s : State) : State :=
  match s.ru.find? id with
  | some r => (s.removeResv id).releaseBin r.bin
  | none => s

/-- Create (R95): a reservation the table already holds for the slot is removed first and its bin released. -/
def State.createResv (id : SlotId) (bin : Nat) (q : Fin 6) (ticket : Word32) (s : State) : State :=
  let s1 := s.cancelResv id
  { s1 with ru := s1.ru.add id bin q ticket }

/-- The answers to a confirm (R97). -/
inductive ConfirmAnswer where
  | confirmed (locked : Bool)
  | wrongBin
  | none
deriving DecidableEq, Repr

/-- Confirm (R97). -/
def State.confirmResv (id : SlotId) (bin : Nat) (s : State) : ConfirmAnswer × State :=
  match s.ru.find? id with
  | some r =>
    match r.state with
    | .taken _ =>
      if r.bin = bin then
        let o := (s.removeResv id).occupyBin r.bin
        (.confirmed o.1, o.2)
      else (.wrongBin, s)
    | .queued => (.none, s)
  | none => (.none, s)

/-- Misfit (R98): REMOVED with the bin marked full, or NONE. -/
def State.misfitResv (id : SlotId) (s : State) : Bool × State :=
  match s.ru.find? id with
  | some r =>
    match r.state with
    | .taken _ => (true, (s.removeResv id).markFullBin r.bin)
    | .queued => (false, s)
  | none => (false, s)

/-- The deadline list with a slot inserted behind every reservation whose DEADLINE is equal or earlier, and ahead of every
one whose DEADLINE is later (R92). -/
def insertDeadline (deadlineOf : SlotId → Nat) (id : SlotId) (d : Nat) : List SlotId → List SlotId
  | [] => [id]
  | j :: r => if deadlineOf j ≤ d then j :: insertDeadline deadlineOf id d r else id :: j :: r

/-- Take notice (R99): a QUEUED reservation of the slot with the notice's queue and ticket becomes TAKEN, its DEADLINE NOW
plus the setting in force; otherwise nothing changes. -/
def Ru.takeNotice (id : SlotId) (q : Fin 6) (ticket : Word32) (u : Ru) : Ru :=
  match u.find? id with
  | some r =>
    if r.state = .queued ∧ r.queue = q ∧ r.ticket = ticket then
      { u with
        table := u.table.map (fun x => if x.id = id then { x with state := .taken (u.now + u.setting) } else x)
        deadlines := insertDeadline u.deadlineOf id (u.now + u.setting) u.deadlines }
    else u
  | none => u

/-- The answers to a restore create (R102). -/
inductive RestoreAnswer where
  | created (u : Ru)
  | full
  | duplicate
deriving DecidableEq, Repr

/-- Restore create (R102). -/
def Ru.restoreCreate (id : SlotId) (bin : Nat) (q : Fin 6) (ticket : Word32) (u : Ru) : RestoreAnswer :=
  if !u.hasRoom then .full
  else if (u.find? id).isSome then .duplicate
  else .created (u.add id bin q ticket)

/-- The reservation at the head of the deadline list, when its DEADLINE has been reached (R100). -/
def Ru.due? (u : Ru) : Option Reservation :=
  match u.deadlines with
  | [] => none
  | id :: _ =>
    match u.find? id with
    | some r => if u.deadlineOf id ≤ u.now then some r else none
    | none => none

/-- The look of an expiry pass at the head of the deadline list: the pass goes on only while the head is due and CQ has a
free place, and ends otherwise (R100, R101). -/
def State.lookPass (s : State) : State :=
  { s with ru := { s.ru with pass := s.ru.due?.isSome && decide (s.places < Config.cqEntries) } }

/-- NOW advances by one, and stays at its largest value (R91). -/
def Ru.advance (u : Ru) : Ru := { u with now := min (u.now + 1) Config.nowMax }

end Sys2Proof.Machine
end

