-- ==== Sys2Proof/Machine/Service.lean ====
section
/-! DEFINITION. The item command unit's queue (3.2): joining CQ, taking the head entry, the pause, and the end of a
service. -/

namespace Sys2Proof.Machine

/-- The mode is RUN or FROZEN. -/
def Mode.serves : Mode → Bool
  | .run => true
  | .frozen => true
  | _ => false

/-- The fetch becomes ready at the memory arbiter; an entry whose slot lies in no valid area has none (R3, R40). -/
def Arbiter.askFetch (addr : Option Nat) (m : Arbiter) : Arbiter :=
  match addr with
  | some _ => m.ask .fetch
  | none => m

/-- An idle item command unit in RUN or FROZEN takes the head entry of CQ, notes whether the mode is FROZEN, resolves the
entry's slot against the layout in force (R39), and issues the fetch (R40). -/
def State.takeNext (s : State) : State :=
  match s.icu.stage, s.icu.cq with
  | .idle, e :: r =>
    if s.cu.mode.serves then
      { s with
        icu := { s.icu with
          cq := r
          stage := .fetching { entry := e, frozen := s.cu.mode == .frozen, addr := s.layout.slotAddr e.slot } }
        ma := s.ma.askFetch (s.layout.slotAddr e.slot) }
    else s
  | _, _ => s

/-- An entry joins the tail of CQ (R38); an idle item command unit takes it when it is the head (R39). -/
def State.joinCq (e : CqEntry) (s : State) : State := ({ s with icu := { s.icu with cq := s.icu.cq ++ [e] } }).takeNext

/-- The holds that end when a place of CQ is freed (R15, R38, R115). -/
def Hold.waitsForPlace : Hold → Bool
  | .cqCommand => true
  | .cqNotice => true
  | _ => false

/-- The holds on a slot that is not in the busy set. -/
def Hold.onFreeSlot (s : State) : Hold → Bool
  | .busySlot id => !s.busy id
  | _ => false

/-- A place of CQ has been freed, and a slot may have left the busy set: the holds on either end (R16, R38). -/
def State.releasePlace (s : State) : State :=
  (s.releaseHolds Hold.waitsForPlace).releaseHolds (Hold.onFreeSlot s)

/-- The end of a service (R43): the slot leaves the busy set, the place is freed, and the unit is idle, or paused when a
pause was asked; idle, it takes the next head, before the decoder takes the requests whose hold has ended again
(notes/assumptions/6.md). -/
def State.endService (s : State) : State :=
  (({ s with icu := { s.icu with stage := if s.icu.pauseAsked then .paused else .idle } }).releasePlace).takeNext

/-- The record write-back is issued; the outcome's events wait for its completion (R43). -/
def State.startWriteBack (svc : Service) (cells : Cells) (events : List EventKind) (s : State) : State :=
  { s with icu := { s.icu with stage := .writeBack svc cells events }, ma := s.ma.ask .writeBack }

/-- The control unit's request for the end of an operation: the write before the result write, or the result write. -/
def ResultWrite.request (r : ResultWrite) : OwnReq :=
  match r.prior with
  | .nothing => .result
  | _ => .cuWrite

/-- The result write of an operation is issued, or the write before it (R37, R149, R151). -/
def State.startResult (r : ResultWrite) (s : State) : State :=
  { s with cu := { s.cu with work := .result r }, ma := s.ma.ask r.request }

/-- An operation ends with a result and a DETAIL, and nothing else changes. -/
def State.answerOp (seq : Word32) (res : MbResult) (detail : Word32) (s : State) : State :=
  s.startResult { seq := some seq, result := res, detail := detail, prior := .nothing, after := .nothing }

/-- The control unit asks the item command unit to pause: an idle one is paused at once (R39). -/
def State.askPause (s : State) : State :=
  { s with icu := { s.icu with
      pauseAsked := true
      stage := match s.icu.stage with | .idle => .paused | st => st } }

/-- The control unit resumes the item command unit: it is idle and takes the head under the layout then in force (R39). -/
def State.resumeIcu (s : State) : State :=
  ({ s with icu := { s.icu with
      pauseAsked := false
      stage := match s.icu.stage with | .paused => .idle | st => st } }).takeNext

/-- The value of the ticket counter after `t`: 1 follows the largest (R45). -/
def ticketAfter (t : Word32) : Word32 := if t = BitVec.allOnes 32 then 1 else t + 1

/-- The first value from `t` on that is not among the tickets held (R45); `fuel` above the number of tickets held is
enough. -/
def skipHeld (held : List Word32) : Nat → Word32 → Word32
  | 0, t => t
  | n + 1, t => if held.contains t then skipHeld held n (ticketAfter t) else t

/-- The tickets that the entry status table holds at LIVE, VOID or TAKING positions (R45). -/
def heldTickets (queues : Vector QState 6) : List Word32 :=
  queueIds.flatMap (fun q => queues[q].positions.map (fun c => c.2.ticket))

/-- A counter value from `t` on, passing over the tickets a set of queues holds (R45, R167). -/
def freeTicket (queues : Vector QState 6) (t : Word32) : Word32 :=
  skipHeld (heldTickets queues) ((heldTickets queues).length + 1) t

end Sys2Proof.Machine
end

