-- ==== Sys2Proof/Machine/Queues.lean ====
section
/-! DEFINITION. The queue unit (06_disposition_queues.md): the write queue, appends, voids, the head clean-up, takes and
view windows. -/

namespace Sys2Proof.Machine

/-! ## Positions and counts -/

/-- A queue of the machine. -/
def State.queue (s : State) (q : Fin 6) : QState := s.qu.queues[q]

/-- The machine with a queue replaced. -/
def State.setQueue (q : Fin 6) (v : QState) (s : State) : State :=
  { s with qu := { s.qu with queues := s.qu.queues.set q v } }

/-- The state of a ring position; `none` is FREE (R105). -/
def QState.position (v : QState) (p : Nat) : Option Position := Map.at? v.positions p

/-- The first position of a queue's run in the entry status table: the runs follow one another in the order of the queue
numbers (R105). -/
def runStart (descs : Vector QDesc 6) (q : Fin 6) : Nat :=
  ((queueIds.filter (fun i => decide (i < q))).map (fun i => descs[i].capacity)).sum

/-- A take of the queue is in progress: its head position is TAKING (R105). -/
def QState.takeInProgress (v : QState) : Bool :=
  match v.position v.head with
  | some p => decide (p.state = .taking)
  | none => false

/-- The head clean-up (R113), with COUNT as its bound. -/
def cleanSteps (cap : Nat) : Nat → QState → QState
  | 0, v => v
  | n + 1, v =>
    match v.position v.head with
    | some p =>
      if p.state = .void then
        cleanSteps cap n
          { v with positions := Map.del v.head v.positions, head := (v.head + 1) % cap, count := v.count - 1 }
      else v
    | none => v

/-- The head clean-up of a queue of a capacity: while COUNT is above 0 and the position at HEAD is VOID (R113). -/
def QState.cleanHead (cap : Nat) (v : QState) : QState := cleanSteps cap v.count v

/-! ## The write queue (R109) -/

/-- Whether an item is an entry write. -/
def QuItem.isEntry : QuItem → Bool
  | .entry _ _ => true
  | _ => false

/-- The cells an item is issued with: a header or ticket image write carries the values that stand at its issue, a header
write at the RING_BASE in force (R109). -/
def State.quCells (s : State) : QuItem → Cells
  | .entry cells _ => cells
  | .header q =>
    match s.desc? q with
    | some d => cellsAt d.ringBase (headerBytes (s.queue q))
    | none => []
  | .ticketImage => cellsAt (s.cbBase + ticketImageOff) (leBytes 4 s.qu.lastTicket.toNat)

/-- When no write of the queue unit is in flight, the head of its write queue is issued (R109). -/
def State.kickQu (s : State) : State :=
  match s.qu.inFlight, s.qu.waiting with
  | none, i :: r =>
    { s with
      qu := { s.qu with waiting := r, inFlight := some { item := i, cells := s.quCells i } }
      ma := s.ma.ask .queueWrite }
  | _, _ => s

/-- An item joins the write queue: an entry write always at the tail, another item unless it waits there already (R109). -/
def joinWrite (i : QuItem) (l : List QuItem) : List QuItem := if !i.isEntry && l.contains i then l else l ++ [i]

/-- An item joins the write queue of the machine, and is issued when nothing is in flight. -/
def State.joinQu (i : QuItem) (s : State) : State := ({ s with qu := { s.qu with waiting := joinWrite i s.qu.waiting } }).kickQu

/-- An entry write is waiting or in flight: the queue unit takes no append or void claim (R110, R112). -/
def Qu.entryPending (u : Qu) : Bool :=
  u.waiting.any (·.isEntry) || (match u.inFlight with | some f => f.item.isEntry | none => false)

/-! ## Append (R110, R111) -/

/-- COUNT equals CAPACITY: an append is answered FULL (R110). -/
def State.queueFull (q : Fin 6) (s : State) : Bool :=
  match s.desc? q with
  | some d => decide (d.capacity ≤ (s.queue q).count)
  | none => true

/-- The entry write of an append to ring position TAIL (R110). -/
def State.issueEntry (q : Fin 6) (bytes : List Byte) (s : State) : State :=
  match s.desc? q with
  | some d => s.joinQu (.entry (cellsAt (d.entryAddr (s.queue q).tail) bytes) true)
  | none => s

/-- The counts and the table after an append takes effect (R110). -/
def QState.appendEntry (cap : Nat) (ticket : Word32) (id : SlotId) (v : QState) : QState :=
  { v with
    positions := Map.ins v.tail { state := .live, ticket := ticket, id := id } v.positions
    tail := (v.tail + 1) % cap
    count := v.count + 1
    live := v.live + 1
    appended := v.appended + 1
    lastTicket := ticket }

/-- The effect of an append whose entry write has completed, on the queue unit and the ticket counter; `EVT_NEAR_FULL` when
COUNT has risen from below NEAR to NEAR (R45, R110, R111). -/
def State.appendEffect (q : Fin 6) (ticket : Word32) (id : SlotId) (s : State) : State :=
  match s.desc? q with
  | some d =>
    let v := (s.queue q).appendEntry d.capacity ticket id
    let s1 := s.setQueue q v
    let s2 := { s1 with
      qu := { s1.qu with lastTicket := ticket }
      icu := { s1.icu with counter := freeTicket s1.qu.queues (ticketAfter ticket) } }
    let s3 := if (s.queue q).count < d.near ∧ v.count = d.near then s2.raise .nearFull else s2
    (s3.joinQu (.header q)).joinQu .ticketImage
  | none => s

/-! ## Void (R112) -/

/-- A void the queue unit takes: VOIDED (`true`) or ALREADY_TAKEN, and the state after it. -/
def State.voidEntry (q : Fin 6) (ring : Nat) (ticket : Word32) (id : SlotId) (s : State) : Bool × State :=
  match s.desc? q, (s.queue q).position ring with
  | some d, some p =>
    if ring < d.capacity ∧ p.ticket = ticket ∧ p.id = id then
      match p.state with
      | .live =>
        let v := s.queue q
        let v1 := { v with
          positions := Map.ins ring { p with state := .void } v.positions
          live := v.live - 1
          voided := v.voided + 1 }
        let s1 := (s.setQueue q v1).joinQu (.entry [(d.entryAddr ring + 4, voidByte p.id)] false)
        let s2 := s1.setQueue q ((s1.queue q).cleanHead d.capacity)
        (true, s2.joinQu (.header q))
      | .void => (true, s)
      | .taking => (false, s)
    else (false, s)
  | _, _ => (false, s)

/-! ## Take (R115, R116) -/

/-- A take read the queue unit can begin (R115): an empty queue is answered with a synthesized entry, a take without a place
in CQ is held, and otherwise the take begins and its ring read is issued. A head position that is FREE while COUNT is above 0, which R105 excludes, is
answered as an empty queue (notes/assumptions/16.md). The fetch of the TAKE notice stands ahead of the ring read at the memory
arbiter (notes/assumptions/34.md). -/
def State.beginTake (q : Fin 6) (tag : Fin 8) (s : State) : Stage × State :=
  let v := s.queue q
  if v.count = 0 then (okData tag synthEntry, s)
  else if Config.cqEntries ≤ s.places then (.held .cqNotice, s)
  else
    match v.position v.head with
    | some p =>
      let v1 := { v with
        positions := Map.ins v.head { p with state := .taking } v.positions
        live := v.live - 1 }
      let s1 := s.setQueue q v1
      let s2 := if isRestockQueue q then { s1 with ru := s1.ru.takeNotice p.id q p.ticket } else s1
      (.taking q, (s2.joinCq (.take p.id q p.ticket)).askOwn (.takeRead q))
    | none => (okData tag synthEntry, s)

/-- A take read that reaches the queue unit: it waits while a take of the queue is in progress (R115). -/
def State.serveTake (p : Port) (q : Fin 6) (tag : Fin 8) (s : State) : Stage × State :=
  let v := s.queue q
  if v.takeInProgress then (.atQueue q, s.setQueue q { v with waiters := v.waiters ++ [p] })
  else s.beginTake q tag

/-- The take reads that wait at the queue unit are served one at a time, in order, until one begins a take (R115). -/
def serveWaiters (q : Fin 6) : List Port → State → State
  | [], s => s
  | p :: r, s =>
    if (s.queue q).takeInProgress then s.setQueue q { s.queue q with waiters := p :: r }
    else
      match headRequest (s.port p).outstanding with
      | some o =>
        let t := s.beginTake q (tagOf o.req)
        serveWaiters q r (t.2.setHead p t.1)
      | none => serveWaiters q r s

/-- The counts and the table after a take completes, before its head clean-up (R116). -/
def QState.finishTake (cap : Nat) (v : QState) : QState :=
  { v with
    positions := Map.del v.head v.positions
    head := (v.head + 1) % cap
    count := v.count - 1
    taken := v.taken + 1 }

/-- The completion of the take in progress of a queue, whose ring read was granted and answered OK (R116): the take read's
answer, with the entry as the grant of the ring read found it (R141), the counts, the head clean-up, the header write, and then the take reads that wait. The header write stands ahead of
what the next take issues at the memory arbiter (notes/assumptions/34.md). -/
def State.completeTake (q : Fin 6) (d : QDesc) (s0 : State) : State :=
  let s := s0.ownRead (.takeRead q)
  let data := Memory.bytes (s0.readBy (.takeRead q)) (d.entryAddr (s.queue q).head) Config.entryBytes
  let answer (p : Port) (t : State) : State :=
    t.setOldest p (fun st => st == .taking q) (fun o => okData (tagOf o.req) data)
  let waiters := (s.queue q).waiters
  let s1 := answer .B (answer .A s)
  let s2 := s1.setQueue q { ((s1.queue q).finishTake d.capacity).cleanHead d.capacity with waiters := [] }
  serveWaiters q waiters (s2.joinQu (.header q))

/-! ## View windows (R119) -/

/-- One part of a view read: the entry `k` places behind the head, from `off` within the entry. -/
def viewPart (d : QDesc) (v : QState) (k off len : Nat) : ReadPart :=
  if k < v.count then .mem (d.entryAddr ((v.head + k) % d.capacity) + off) len
  else .synth ((synthEntry.drop off).take len)

/-- The parts of a view read at an offset of the window (R119): one for 8 and 16 bytes, two or four for 32 and 64. -/
def viewParts (d : QDesc) (v : QState) (off len : Nat) : List ReadPart :=
  if len ≤ 16 then [viewPart d v (off / 16) (off % 16) len]
  else (List.range (len / 16)).map (fun i => viewPart d v (off / 16 + i) 0 16)

end Sys2Proof.Machine
end

