-- ==== Sys2Proof/Machine/Routing.lean ====
section
/-! DEFINITION. What the services of the item commands share (03_item_commands.md): the fetched command, the checks of R41,
refusals, the routing chain (3.5), and the claims that wait at the queue unit. -/

namespace Sys2Proof.Machine

/-- SERVED after a command (R60). -/
def servedAfter (rec : Rec) : Nat := (rec.served + 1) % 65536

/-- The address of the slot in service. -/
def Service.base (svc : Service) : Nat := svc.addr.getD 0

/-- The write-back of a command (R43): the fields named, with CMD and CMD_ARG cleared and SERVED counted. -/
def State.endCommand (svc : Service) (rec : Rec) (u : RecUpdate) (events : List EventKind) (s : State) : State :=
  s.startWriteBack svc (RecUpdate.cells svc.base { u with clearCmd := true, served := some (servedAfter rec) }) events

/-- A refusal of a command whose code is 1 to 7 (R9, R41). -/
def State.refuseCommand (svc : Service) (rec : Rec) (res : RecResult) (s : State) : State :=
  s.endCommand svc rec { result := some res } [.cmdRefused]

/-- The seven command codes (1.1). -/
inductive ItemCommand where
  | opened | commit | regrade | placed | misfit | withdraw | clear
deriving DecidableEq, Repr

/-- The value of a command code (1.1). -/
def ItemCommand.code : ItemCommand → Nat
  | .opened => 1 | .commit => 2 | .regrade => 3 | .placed => 4 | .misfit => 5 | .withdraw => 6 | .clear => 7

/-- The states in which a command is served: those the transitions table of Item Records lists for it (R9). -/
def ItemCommand.servedIn : ItemCommand → List RecState
  | .opened => [.empty]
  | .commit => [.opened]
  | .regrade => [.routed, .trialed]
  | .placed => [.taken, .lost]
  | .misfit => [.taken]
  | .withdraw => [.opened, .routed, .taken, .trialed, .lost]
  | .clear => [.closed, .void, .lost, .trialed]

/-- COMMIT and REGRADE, which a freeze refuses (R41). -/
def ItemCommand.grades : ItemCommand → Bool
  | .commit => true | .regrade => true | _ => false

/-- PLACED and MISFIT, which a ROUTED record refuses with `RES_NOT_TAKEN` (R9). -/
def ItemCommand.reportsPlacement : ItemCommand → Bool
  | .placed => true | .misfit => true | _ => false

/-- Cases 2, 3 and 4 of R41, in order: the refusal of a command before it is served. -/
def refusalOf (c : ItemCommand) (frozen : Bool) (rec : Rec) : Option RecResult :=
  if c.grades && frozen && [RecState.opened, .routed, .trialed].contains rec.state then some .frozen
  else if !c.servedIn.contains rec.state then
    some (if c.reportsPlacement && rec.state == .routed then .notTaken else .badState)
  else if c == .regrade && rec.state == .routed && decide (Config.regradeLimit ≤ rec.regrades) then some .regradeLimit
  else none

/-- The fetch granted and answered. -/
def State.fetched (s : State) : State := s.ownRead .fetch

/-- The record that the fetch of the slot at an address returns (R40). -/
def State.recordAt (a : Nat) (s : State) : Rec := Memory.record (s.readBy .fetch) a

/-- The fetch of a command answered OK (R40): when the entry in service is a command whose fetch is made, its record. -/
def State.fetched? (s : State) : Option (Service × Rec) :=
  match s.icu.stage with
  | .fetching svc =>
    match svc.entry, svc.addr with
    | .command _, some a => some (svc, s.recordAt a)
    | _, _ => none
  | _ => none

/-- The service of a command of a code (R41): refused by cases 2 to 4, or served by its rule `f`. Where the fetched code is
another, or no command's fetch is made, the event has no occasion and nothing changes (notes/assumptions/4.md). -/
def State.onCommand (c : ItemCommand) (f : Service → Rec → State → State) (s : State) : State :=
  match s.fetched? with
  | some (svc, rec) =>
    if rec.cmd = c.code then
      match refusalOf c svc.frozen rec with
      | some res => s.fetched.refuseCommand svc rec res
      | none => f svc rec s.fetched
    else s
  | none => s

/-! ## The end of a grading in a trial area (R34, R52) -/

/-- The record becomes TRIALED (R2, R34). REGRADES is covered only by a REGRADE that undid a route (R52). -/
def State.endTrial (svc : Service) (rec : Rec) (g : Graded) (regrades : Option Nat) (s : State) : State :=
  s.endCommand svc rec
    { state := some .trialed, result := some .ok, grade := some g.grade, disp := some g.disp, reason := some g.reason,
      regrades := regrades, flags := some { rec.flags with trial := true }, score := some g.score,
      spread := some g.spread, queue := some none, bin := some none, ringIndex := some 0, ticket := some 0 } []

/-! ## The routing chain -/

/-- The flags a routing's service writes, into the record and the entry (R7, R48, R50, R56). -/
def Route.flags (r : Route) (rec : Rec) : RecFlags :=
  { rec.flags with rerouted := rec.flags.rerouted || decide (r.kind = .misfit), fellBack := r.fellBack }

/-- The fields of the outcome of a routing that every chain writes alike: GRADE, SCORE and SPREAD but for MISFIT, and
REGRADES for REGRADE (R46, R49, R50, R51, R56). -/
def Route.update (r : Route) (rec : Rec) : RecUpdate :=
  { disp := some r.disp
    reason := some r.reason
    flags := some (r.flags rec)
    grade := if r.kind = .misfit then none else some r.grade
    score := if r.kind = .misfit then none else some r.score
    spread := if r.kind = .misfit then none else some r.spread
    regrades := if r.kind = .regrade then some (rec.regrades + 1) else none }

/-- `EVT_MISFIT` at the end of every outcome of a re-route (R56, R60). -/
def Route.misfitEvent (r : Route) : List EventKind := if r.kind = .misfit then [.misfit] else []

/-- The chain ends in `RES_NO_ROOM` (R49): `r` has come to HOLD with its reason and holds no bin. -/
def State.endNoRoom (svc : Service) (rec : Rec) (r : Route) (s : State) : State :=
  s.endCommand svc rec
    { r.update rec with
      state := some .opened, result := some .noRoom, queue := some none, bin := some none, ringIndex := some 0,
      ticket := some 0 }
    (.cmdRefused :: r.misfitEvent)

/-- The chain ends with its accepted append at a ring index (R50). -/
def State.endRouted (svc : Service) (rec : Rec) (r : Route) (ring : Nat) (s : State) : State :=
  s.endCommand svc rec
    { r.update rec with
      state := some .routed, result := some .ok, queue := some (some r.disp.queue), bin := some r.bin,
      ringIndex := some ring, ticket := some r.ticket }
    ((if r.disp = .hold then [.hold] else []) ++ r.misfitEvent)

/-- The entry the chain appends (R48). -/
def Route.entry (r : Route) (svc : Service) (rec : Rec) : List Byte :=
  entryBytesOf r.ticket svc.entry.slot r.bin rec.tag r.grade r.reason rec.cls (r.flags rec).rerouted r.fellBack

/-- The queue unit has taken the append: its entry write joins the write queue, and the service waits for it (R110). -/
def State.appendTaken (svc : Service) (rec : Rec) (r : Route) (s : State) : State :=
  let s1 := { s with icu := { s.icu with stage := .entryWrite svc rec r } }
  s1.issueEntry r.disp.queue (r.entry svc rec)

/-- The first append was answered FULL: a restock reservation is cancelled, and the working disposition becomes HOLD with
reason QUEUE_FULL (R48). -/
def State.fallToHold (svc : Service) (r : Route) (s : State) : Route × State :=
  ({ r with disp := .hold, reason := .queueFull, fellBack := false, bin := none },
   if r.disp.isRestock then s.cancelResv svc.entry.slot else s)

/-- An append claim the queue unit answers or takes at once (R48, R110): it makes at most two appends, the second to HOLD. -/
def State.takeAppend (svc : Service) (rec : Rec) (r : Route) (s : State) : State :=
  if s.queueFull r.disp.queue then
    if r.disp = .hold then s.endNoRoom svc rec r
    else
      let h := s.fallToHold svc r
      if h.2.queueFull Disp.hold.queue then h.2.endNoRoom svc rec h.1 else h.2.appendTaken svc rec h.1
  else s.appendTaken svc rec r

/-- An append claim: it waits at the queue unit while an entry write is waiting or in flight (R110). -/
def State.claimAppend (svc : Service) (rec : Rec) (r : Route) (s : State) : State :=
  if s.qu.entryPending then { s with icu := { s.icu with stage := .appending svc rec r } }
  else s.takeAppend svc rec r

/-- The chain's search for a bin (R47): for PICK the pick list and then the reserve list, with the fall-back noted; for
RESERVE the reserve list alone. -/
def State.seekBin (r : Route) (cls : Nat) (s : State) : Option Route × State :=
  if r.disp = .pick then
    match s.reserveBin cls .pick with
    | (some b, s1) => (some { r with bin := some b }, s1)
    | (none, _) =>
      match s.reserveBin cls .reserve with
      | (some b, s1) => (some { r with disp := .reserve, fellBack := true, bin := some b }, s1)
      | (none, _) => (none, s)
  else
    match s.reserveBin cls .reserve with
    | (some b, s1) => (some { r with bin := some b }, s1)
    | (none, _) => (none, s)

/-- The routing chain from a start disposition and reason (R47, R48), with the counter's value as candidate ticket (R45).
DESIGN CHOICE (notes/assumptions/35.md): its claims up to an append that waits are made in one step, so that no arrival comes
between two of them, where 3.12 lets arrivals come between any two claims of a service (R42). -/
def State.runChain (svc : Service) (rec : Rec) (r : Route) (s : State) : State :=
  if r.disp.isRestock then
    if s.ru.hasRoom then
      match s.seekBin r rec.cls with
      | (some r1, s1) =>
        (s1.createResv svc.entry.slot (r1.bin.getD 0) r1.disp.queue r1.ticket).claimAppend svc rec r1
      | (none, s1) => s1.claimAppend svc rec { r with disp := .hold, reason := .noBin }
    else s.claimAppend svc rec { r with disp := .hold, reason := .noReservation }
  else s.claimAppend svc rec r

/-- The chain's start from a graded result (R46, R51). -/
def State.routeGraded (kind : ChainKind) (svc : Service) (rec : Rec) (g : Graded) (s : State) : State :=
  s.runChain svc rec
    { kind := kind, grade := g.grade, score := g.score, spread := g.spread, disp := g.disp, reason := g.reason,
      fellBack := false, bin := none, ticket := s.icu.counter }

/-! ## Void claims of REGRADE and WITHDRAW -/

/-- A REGRADE after the answer to its void (R51, R52, R177). -/
def State.regradeAfterVoid (svc : Service) (rec : Rec) (g : Graded) (voided : Bool) (s : State) : State :=
  if voided then
    let restock := match rec.queue with | some q => isRestockQueue q | none => false
    let s1 := if restock then s.cancelResv svc.entry.slot else s
    if s1.layout.isTrial svc.entry.slot then s1.endTrial svc rec g (some (rec.regrades + 1))
    else s1.routeGraded .regrade svc rec g
  else s.refuseCommand svc rec .tooLate

/-- The record is written VOID (R57). -/
def State.endVoid (svc : Service) (rec : Rec) (s : State) : State :=
  s.endCommand svc rec { state := some .void, result := some .ok } []

/-- A WITHDRAW on a ROUTED record after either answer to its void (R57, R177). -/
def State.withdrawAfterVoid (svc : Service) (rec : Rec) (s : State) : State :=
  let restock := match rec.queue with | some q => isRestockQueue q | none => false
  (if restock then s.cancelResv svc.entry.slot else s).endVoid svc rec

/-- What follows a void's answer: for a REGRADE its graded result is kept with the claim, for a WITHDRAW none. -/
def State.afterVoid (svc : Service) (rec : Rec) (graded : Option Graded) (voided : Bool) (s : State) : State :=
  match graded with
  | some g => s.regradeAfterVoid svc rec g voided
  | none => s.withdrawAfterVoid svc rec

/-- A void claim the queue unit takes (R112); a QUEUE taken as none sends none, and goes on as on ALREADY_TAKEN (R177). -/
def State.takeVoid (svc : Service) (rec : Rec) (graded : Option Graded) (s : State) : State :=
  match rec.queue with
  | some q =>
    let a := s.voidEntry q rec.ringIndex rec.ticket svc.entry.slot
    a.2.afterVoid svc rec graded a.1
  | none => s.afterVoid svc rec graded false

/-- A void claim: it waits at the queue unit while an entry write is waiting or in flight (R112). -/
def State.claimVoid (svc : Service) (rec : Rec) (graded : Option Graded) (s : State) : State :=
  if s.qu.entryPending && rec.queue.isSome then { s with icu := { s.icu with stage := .voiding svc rec graded } }
  else s.takeVoid svc rec graded

/-- With no entry write waiting or in flight, the queue unit takes the claim that waits (R110, R112). -/
def State.resumeClaim (s : State) : State :=
  if s.qu.entryPending then s
  else
    match s.icu.stage with
    | .voiding svc rec graded => s.takeVoid svc rec graded
    | .appending svc rec r => s.takeAppend svc rec r
    | _ => s

end Sys2Proof.Machine
end

