-- ==== Sys2Proof/Machine/Traffic.lean ====
section
/-! DEFINITION. The traffic path (07_the_traffic_path.md): the window decoder's decision on each class of request, the
ingress arbiter, and the rows of the opcode table that are a controller's request. -/

namespace Sys2Proof.Machine

/-! ## Forwarded reads (R138, R139, R142) -/

/-- A part of a read that comes from memory overlaps a forwarded write. -/
def ReadPart.overlaps (w : FwdWrite) : ReadPart → Bool
  | .mem a n => runsOverlap a n w.addr w.len
  | .synth _ => false

/-- Whether a part of a read is read from memory. -/
def ReadPart.isMem : ReadPart → Bool
  | .mem _ _ => true
  | .synth _ => false

/-- The bytes of the parts of a read in order, behind the `older` writes of the forwarded side that were dispatched before it
(R139). Each part that comes from memory is read at a grant of its own (R119, R140, notes/assumptions/29.md). -/
def State.readParts (older : Nat) : List ReadPart → State → List Byte × State
  | [], s => ([], s)
  | .mem a n :: r, s =>
    (Memory.bytes (s.grantRead older).memory a n ++ (State.readParts older r (s.grantRead older)).1,
      (State.readParts older r (s.grantRead older)).2)
  | .synth b :: r, s => (b ++ (State.readParts older r s).1, (State.readParts older r s).2)

/-- The response to a read whose parts are served: OK with the parts in order, or FAULT when memory answers any of its reads
FAULT (R119, R142). -/
def State.answerParts (r : ReadReq) (parts : List ReadPart) (older : Nat) (s : State) : Stage × State :=
  (if (r.mem.take (parts.countP (·.isMem))).contains .fault then faulted r.tag
   else okData r.tag (s.readParts older parts).1,
   (s.readParts older parts).2)

/-- The number of forwarded writes from the oldest up to the last that a part of a read overlaps. -/
def lastOverlap (parts : List ReadPart) : List FwdWrite → Nat
  | [] => 0
  | w :: r =>
    if lastOverlap parts r = 0 then (if parts.any (·.overlaps w) then 1 else 0) else lastOverlap parts r + 1

/-- The turns of a port's forwarded reads that wait (R139). -/
def turnsOf (l : List Outstanding) : List Nat :=
  l.filterMap (fun o => match o.stage with | .reading _ _ _ t => some t | _ => none)

/-- The turn of the next forwarded read to wait: behind those that wait (R139). -/
def State.nextTurn (s : State) : Nat := (turnsOf s.portA.outstanding ++ turnsOf s.portB.outstanding).foldl max 0 + 1

/-- A forwarded read: it waits for the older writes it overlaps, and is answered at once where there is none (R138, R139). -/
def State.forwardRead (r : ReadReq) (parts : List ReadPart) (s : State) : Stage × State :=
  if lastOverlap parts s.fwd = 0 then s.answerParts r parts s.fwd.length
  else (.reading parts (lastOverlap parts s.fwd) s.fwd.length s.nextTurn, s)

/-- The read of a request's own bytes. -/
def wholeRead (r : ReadReq) : List ReadPart := [.mem r.addr.toNat r.len]

/-- The oldest forwarded write has been answered: a read that waits has one write less ahead of it (R138). -/
def State.countDown (s : State) : State :=
  s.mapStages (fun o => match o.stage with
    | .reading parts n older t => .reading parts (n - 1) (older - 1) t
    | st => st)

/-- The turns of a port's forwarded reads that may go: no write they overlap is ahead of them (R138, R139). -/
def freeTurns (l : List Outstanding) : List Nat :=
  l.filterMap (fun o => match o.stage, o.req with | .reading _ 0 _ t, .read _ => some t | _, _ => none)

/-- The oldest forwarded read that may go, by its turn (R139). -/
def State.firstTurn (s : State) : Option Nat := (freeTurns s.portA.outstanding ++ freeTurns s.portB.outstanding).min?

/-- A stage is that of the forwarded read with a turn, which may go. -/
def Stage.hasTurn (t : Nat) : Stage → Bool
  | .reading _ 0 _ u => u == t
  | _ => false

/-- The request and the parts of the forwarded read of a port with a turn, when it may go, and the number of the forwarded
writes older than it. -/
def readAt (t : Nat) (l : List Outstanding) : Option (ReadReq × List ReadPart × Nat) :=
  l.findSome? (fun o => match o.stage, o.req with
    | .reading parts 0 older u, .read r => if u = t then some (r, parts, older) else none
    | _, _ => none)

/-- The forwarded read of a port with a turn is answered, where it may go. -/
def State.serveTurn (t : Nat) (p : Port) (s : State) : State :=
  match readAt t (s.port p).outstanding with
  | some (r, parts, older) =>
    (s.answerParts r parts (min older s.fwd.length)).2.setOldest p (Stage.hasTurn t)
      (fun _ => (s.answerParts r parts (min older s.fwd.length)).1)
  | none => s

/-- The forwarded reads that may go are answered, oldest first (R139): at most as many as the first argument says. -/
def State.serveTurns : Nat → State → State
  | 0, s => s
  | n + 1, s =>
    match s.firstTurn with
    | some t => State.serveTurns n ((s.serveTurn t .A).serveTurn t .B)
    | none => s

/-- The oldest forwarded write has been answered: the reads that waited for it alone go (R138, R139). The two ports hold at
most sixteen. -/
def State.serveReads (s : State) : State := s.countDown.serveTurns 16

/-! ## Forwarded writes (R139, R142) -/

/-- An unposted write joins the forwarded side's list (R139). -/
def State.joinForward (r : WriteReq) (cells : Cells) (k : FwdKind) (s : State) : State :=
  { s with fwd := s.fwd ++ [{ addr := r.addr.toNat, len := r.len, cells := cells, kind := k }] }

/-- The oldest write of the forwarded side, with cells `cells`, is answered by memory: DRAM takes it, it leaves the list, and
the reads that waited for it go (R138, R139, R141). -/
def State.answerForward (cells : Cells) (a : WriteAnswer) (s : State) : State :=
  ({ s.forwardedWrite cells a with fwd := s.fwd.tail }).serveReads

/-- A port's oldest unanswered unposted write gets its response. -/
def State.answerPort (p : Port) (f : Fin 8 → Stage) (s : State) : State :=
  s.setOldest p (fun st => st == .writing) (fun o => f (tagOf o.req))

/-- The value and the positions that the written bytes of EVENT_ENABLE give the mask (R176). -/
def enableBits (cb : Nat) (cells : Cells) (f : Byte → Nat) : BitVec 12 :=
  BitVec.ofNat 12
    (((Map.at? cells (cb + eventOff + 8)).map f).getD 0 + 256 * ((Map.at? cells (cb + eventOff + 9)).map f).getD 0)

/-- The mask takes the written bytes of EVENT_ENABLE when memory answers OK (R176). -/
def State.takeEnable (cells : Cells) (a : WriteAnswer) (s : State) : State :=
  match a with
  | .ok => { s with eu := s.eu.setMask (enableBits s.cbBase cells (fun _ => 255)) (enableBits s.cbBase cells (·.toNat)) }
  | .fault _ => s

/-- Memory answers the plain writes at the head of the forwarded side's list: a write goes when no older one waits (R139),
and its answer is its response (R142). -/
def State.serveForward : List FwdWrite → State → State
  | [], s => s
  | w :: r, s =>
    match w.kind with
    | .plain p a => State.serveForward r ((s.answerForward w.cells a).answerPort p (fun t => answeredWrite t a))
    | .eventEnable p a =>
      State.serveForward r
        (((s.answerForward w.cells a).takeEnable w.cells a).answerPort p (fun t => answeredWrite t a))
    | _ => s

/-- The forwarded side serves what may go. -/
def State.goForward (s : State) : State := State.serveForward s.fwd s

/-! ## Item slots (R12 to R17) -/

/-- A read of an item slot in RUN, FROZEN or HALTED (R12, R16, R17). -/
def State.takeItemRead (id : SlotId) (r : ReadReq) (s : State) : Stage × State :=
  if s.cu.mode = .halted then (faulted r.tag, s)
  else if s.busy id then (.held (.busySlot id), s)
  else s.forwardRead r (wholeRead r)

/-- The enabled bytes of a write to a slot that lie in the host region (R13). -/
def hostCells (r : WriteReq) : Cells :=
  (writeCellsOf r).filter (fun c => inHostRegion (c.1 % Config.recBytes))

/-- A write to a slot is command-carrying when it enables the CMD byte with a value that is not 0 (R13). -/
def carriesCommand (r : WriteReq) : Bool :=
  (writeCellsOf r).any (fun c => decide (c.1 % Config.recBytes = 7) && decide (c.2 ≠ 0))

/-- Protection: `EVT_PROTECTION` once when some enabled byte was dropped (R13, R133, R146). -/
def State.protect (all kept : Cells) (s : State) : State := if kept.length < all.length then s.raise .protection else s

/-- A write forwarded unposted (R142). One with no byte left goes nowhere and is answered OK at once: R13 says so of a write to
a slot and R176 of one to the event block, and for the mailbox block and the control block tables the model reads R133 and R146
in the same way (notes/assumptions/18.md). -/
def State.forwardWrite (r : WriteReq) (cells : Cells) (k : FwdKind) (s : State) : Stage × State :=
  if cells.isEmpty then (okDone r.tag, s) else (.writing, s.joinForward r cells k)

/-- A write to an item slot in RUN, FROZEN or HALTED, some byte of it enabled (R12 to R16). A command-carrying write that is
held for want of a place raises no protection event until it is admitted (notes/assumptions/26.md). -/
def State.takeItemWrite (p : Port) (id : SlotId) (r : WriteReq) (s : State) : Stage × State :=
  if s.cu.mode = .halted then (faulted r.tag, s)
  else if s.busy id then (.held (.busySlot id), s)
  else if carriesCommand r then
    if s.commandPlaces < Config.cqHostMax ∧ s.places < Config.cqEntries then
      let s1 := s.protect (writeCellsOf r) (hostCells r)
      (.writing, ({ s1 with icu := { s1.icu with given := s1.icu.given ++ [id] } }).joinForward r (hostCells r) (.command p id))
    else (.held .cqCommand, s)
  else (s.protect (writeCellsOf r) (hostCells r)).forwardWrite r (hostCells r) (.plain p r.mem)

/-! ## Ring areas, take words and view windows (R114, R115, R119, R121, R122) -/

/-- A read covers some byte of the take word (R114). -/
def coversTakeWord (off len : Nat) : Bool := decide (off < 64) && decide (48 < off + len)

/-- A read of a ring area: a take read, a misuse of the take word, or a raw read (R114, R115, R122, R132). -/
def State.takeRingRead (p : Port) (q : Fin 6) (off : Nat) (r : ReadReq) (s : State) : Stage × State :=
  if coversTakeWord off r.len && !(off == 48 && r.len == 16) then (faulted r.tag, s.raise .badRequest)
  else if s.cu.mode = .halted then (faulted r.tag, s)
  else if off = 48 ∧ r.len = 16 then s.serveTake p q r.tag
  else s.forwardRead r (wholeRead r)

/-- A read of a view window (R119). -/
def State.takeViewRead (q : Fin 6) (off : Nat) (r : ReadReq) (s : State) : Stage × State :=
  if s.cu.mode = .halted then (faulted r.tag, s)
  else
    match s.desc? q with
    | some d => s.forwardRead r (viewParts d (s.queue q) off r.len)
    | none => s.forwardRead r (wholeRead r)

/-- A write to a ring area or a view window: dropped with `EVT_PROTECTION`, or answered FAULT in HALTED (R121). -/
def State.takeDroppedWrite (r : WriteReq) (s : State) : Stage × State :=
  if s.cu.mode = .halted then (faulted r.tag, s) else (okDone r.tag, s.raise .protection)

/-! ## The control block (R133, R146, R147, R175, R176) -/

/-- The bytes of the control block, outside the mailbox and event blocks, that the part owns in a mode (R146): none in INIT;
otherwise MODE, TICKET_IMAGE, the station bias table and the bin images. -/
def partOwns (m : Mode) (off : Nat) : Bool :=
  !(m == .init) &&
    ((decide (modeEchoOff ≤ off) && decide (off < modeEchoOff + 8))
      || (decide (biasOff ≤ off) && decide (off < biasOff + 16))
      || decide (imagesOff ≤ off))

/-- A write to the control block outside the mailbox and event blocks (R133, R146). -/
def State.takeTableWrite (p : Port) (r : WriteReq) (s : State) : Stage × State :=
  let kept := (writeCellsOf r).filter (fun c => !partOwns s.cu.mode (c.1 - s.cbBase))
  (s.protect (writeCellsOf r) kept).forwardWrite r kept (.plain p r.mem)

/-- The bytes of the mailbox block that the part owns: RSEQ, RESULT and DETAIL (R133, R146). -/
def mailboxOwned (off : Nat) : Bool := decide (mailboxOff + 16 ≤ off) && decide (off < mailboxOff + 28)

/-- A mailbox write covers every byte of OP and gives it a value that is not 0 (R147). -/
def startsOperation (cb : Nat) (cells : Cells) : Bool :=
  let op := [0, 1, 2, 3].map (fun i => Map.at? cells (cb + mailboxOff + 4 + i))
  op.all (·.isSome) && op.any (fun b => decide (b ≠ some 0))

/-- A CB_MAILBOX write is held while a write that starts an operation is unanswered or an operation executes (R135, R147). -/
def State.mailboxHeld (s : State) : Bool := s.operationWritePending || decide (s.cu.work ≠ .idle)

/-- A write to the mailbox block, some byte of it enabled (R133, R147). A held write raises no protection event before the take
that forwards it (notes/assumptions/26.md). -/
def State.takeMailboxWrite (p : Port) (r : WriteReq) (s : State) : Stage × State :=
  if s.mailboxHeld then (.held .mailbox, s)
  else
    let kept := (writeCellsOf r).filter (fun c => !mailboxOwned (c.1 - s.cbBase))
    (s.protect (writeCellsOf r) kept).forwardWrite r kept (.mailbox p (startsOperation s.cbBase kept))

/-- A read of the event block (R175): answered by the event unit; a read that covers the EVENT word removes from the pending
set the kinds it carries. -/
def State.takeEventRead (r : ReadReq) (s : State) : Stage × State :=
  let off := r.addr.toNat - s.cbBase - eventOff
  (okData r.tag (((eventBlockBytes s.eu).drop off).take r.len),
   if off = 0 then { s with eu := { s.eu with pending := 0 } } else s)

/-- A write to the event block, some byte of it enabled (R176). -/
def State.takeEventWrite (p : Port) (r : WriteReq) (s : State) : Stage × State :=
  let kept := (writeCellsOf r).filter (fun c => decide (s.cbBase + eventOff + 4 ≤ c.1))
  (s.protect (writeCellsOf r) kept).forwardWrite r kept (.eventEnable p r.mem)

/-! ## PASS requests (R132, R137) -/

/-- A PASS write: posted, or stalled while posting is stopped or the buffer is full (R135, R137). -/
def State.takePassWrite (r : WriteReq) (s : State) : Stage × State :=
  if s.postingStopped then (.stalled .postingStopped, s)
  else if Config.pwbEntries ≤ s.buffered then (.stalled .bufferFull, s)
  else (okDone r.tag, s.joinForward r (writeCellsOf r) .posted)

/-! ## The decoder -/

/-- The lengths of legal requests (R127). -/
def legalLength (n : Nat) : Bool := [8, 16, 32, 64].contains n

/-- A tag is that of a request in a port's list (R127, R128). -/
def tagListed (l : List Outstanding) (tag : Fin 8) : Bool := l.any (fun o => tagOf o.req == tag)

/-- A request is illegal by its length, its alignment, or its tag, which a request in its port's list carried when the port
accepted it (R127, R128). -/
def illegal (twin : Bool) (addr : Addr) (len : Nat) : Bool := !legalLength len || addr.toNat % len != 0 || twin

/-- The decoder's decision on a read (R131, R132, R133). -/
def State.decideRead (p : Port) (r : ReadReq) (s : State) : Stage × State :=
  match s.classOf r.addr.toNat with
  | .outside => s.forwardRead r (wholeRead r)
  | .item id => s.takeItemRead id r
  | .ring q off => s.takeRingRead p q off r
  | .view q off => s.takeViewRead q off r
  | .event => s.takeEventRead r
  | .mailbox => s.forwardRead r (wholeRead r)
  | .controlBlock _ => s.forwardRead r (wholeRead r)

/-- The class of a place is one of ITEM, RING, VIEW or TAKE. -/
def Place.isWatchedArea : Place → Bool
  | .item _ => true
  | .ring _ _ => true
  | .view _ _ => true
  | _ => false

/-- The decoder's decision on a write (R127, R131, R132, R133). A write with every enable clear is answered at once: FAULT in
HALTED for a watched area, OK otherwise (R127). -/
def State.decideWrite (p : Port) (r : WriteReq) (s : State) : Stage × State :=
  let pl := s.classOf r.addr.toNat
  if (writeCellsOf r).isEmpty then
    (if pl.isWatchedArea && s.cu.mode == .halted then faulted r.tag else okDone r.tag, s)
  else
    match pl with
    | .outside => s.takePassWrite r
    | .item id => s.takeItemWrite p id r
    | .ring _ _ => s.takeDroppedWrite r
    | .view _ _ => s.takeDroppedWrite r
    | .event => s.takeEventWrite p r
    | .mailbox => s.takeMailboxWrite p r
    | .controlBlock _ => s.takeTableWrite p r

/-- The decoder takes a request of a port, with the port's note on its tag (R127, R128): an illegal one is answered FAULT with
`EVT_BAD_REQUEST`. -/
def State.decideRequest (p : Port) (twin : Bool) (req : Request) (s : State) : Stage × State :=
  match req with
  | .read r => if illegal twin r.addr r.len then (faulted r.tag, s.raise .badRequest) else s.decideRead p r
  | .write r => if illegal twin r.addr r.len then (faulted r.tag, s.raise .badRequest) else s.decideWrite p r

/-- The decoder takes a port's head request and sets how far it has come (R129). -/
def State.takeHead (p : Port) (s : State) : State :=
  match headRequest (s.port p).outstanding with
  | some o =>
    let t := s.decideRequest p o.twin o.req
    t.2.setHead p t.1
  | none => s

/-! ## The ingress arbiter (R130) -/

/-- A port has a ready head request: one that is neither held nor stalled (R130). -/
def PortState.ready (v : PortState) : Bool :=
  match headRequest v.outstanding with
  | some o => o.stage == .waiting
  | none => false

/-- The port whose head request the decoder takes next (R130). -/
def State.chosenPort (s : State) : Option Port :=
  match s.portA.ready, s.portB.ready with
  | true, true => some s.ia
  | true, false => some .A
  | false, true => some .B
  | false, false => none

/-- One choice of the arbiter: the pointer names the other port, the decoder takes the head request, the forwarded side
serves what may go, and the ports return what they may. -/
def State.takeOne (p : Port) (s : State) : State := ((({ s with ia := otherPort p }).takeHead p).goForward).deliver

/-- The decoder takes ready requests until there is none (notes/assumptions/6.md). Each take leaves one ready request fewer,
and the two ports hold at most sixteen. -/
def settle : Nat → State → State
  | 0, s => s
  | n + 1, s =>
    match s.chosenPort with
    | some p => settle n (s.takeOne p)
    | none => s

/-- The end of a command that may leave requests ready or complete: responses are returned and ready requests taken. -/
def State.finish (s : State) : State := settle 16 (s.goForward).deliver

/-- The entry of a request that a port accepts behind a list (R128). -/
def accepted (l : List Outstanding) (req : Request) : Outstanding :=
  { req := req, twin := tagListed l (tagOf req), stage := .waiting }

/-- A controller issues a request: its port accepts it at the tail of the outstanding list unless the list holds 8
(R128), and the decoder takes what is ready. -/
def State.issue (p : Port) (req : Request) (s : State) : State :=
  if Config.outstandingMax ≤ (s.port p).outstanding.length then s
  else
    (s.setPort p { s.port p with
      outstanding := (s.port p).outstanding ++ [accepted (s.port p).outstanding req] }).finish

/-! ## The rows that are a controller's request

The decoder classes a request when it takes it (R12, R131). A row names the case a request falls in when it is taken; the
request is the operand, and what it comes to is decided by the rules alone (notes/assumptions/5.md). -/

/-- BAD_REQUEST (R127): answered FAULT with `EVT_BAD_REQUEST` in `State.decideRequest`. -/
def execBadRequest (p : Port) (r : Request) (s : State) : Host.Outcome State Fault Refusal := .next (s.issue p r)

/-- TAKE_WORD_MISUSE (R114): `State.takeRingRead`. -/
def execTakeWordMisuse (p : Port) (r : ReadReq) (s : State) : Host.Outcome State Fault Refusal :=
  .next (s.issue p (.read r))

/-- PASS_READ (R139): `State.forwardRead`. -/
def execPassRead (p : Port) (r : ReadReq) (s : State) : Host.Outcome State Fault Refusal := .next (s.issue p (.read r))

/-- PASS_WRITE (R137): `State.takePassWrite`. -/
def execPassWrite (p : Port) (r : WriteReq) (s : State) : Host.Outcome State Fault Refusal := .next (s.issue p (.write r))

/-- ITEM_READ (R17): `State.takeItemRead`. -/
def execItemRead (p : Port) (r : ReadReq) (s : State) : Host.Outcome State Fault Refusal := .next (s.issue p (.read r))

/-- ITEM_PLAIN_WRITE (R13): `State.takeItemWrite`. -/
def execItemPlainWrite (p : Port) (r : WriteReq) (s : State) : Host.Outcome State Fault Refusal :=
  .next (s.issue p (.write r))

/-- COMMAND_WRITE (R14): `State.takeItemWrite`. -/
def execCommandWrite (p : Port) (r : WriteReq) (s : State) : Host.Outcome State Fault Refusal :=
  .next (s.issue p (.write r))

/-- TAKE_READ (R115): `State.serveTake`. -/
def execTakeRead (p : Port) (r : ReadReq) (s : State) : Host.Outcome State Fault Refusal := .next (s.issue p (.read r))

/-- VIEW_READ (R119): `State.takeViewRead`. -/
def execViewRead (p : Port) (r : ReadReq) (s : State) : Host.Outcome State Fault Refusal := .next (s.issue p (.read r))

/-- VIEW_WRITE (R121): `State.takeDroppedWrite`. -/
def execViewWrite (p : Port) (r : WriteReq) (s : State) : Host.Outcome State Fault Refusal := .next (s.issue p (.write r))

/-- RING_READ (R122): `State.takeRingRead`. -/
def execRingRead (p : Port) (r : ReadReq) (s : State) : Host.Outcome State Fault Refusal := .next (s.issue p (.read r))

/-- RING_WRITE (R121): `State.takeDroppedWrite`. -/
def execRingWrite (p : Port) (r : WriteReq) (s : State) : Host.Outcome State Fault Refusal := .next (s.issue p (.write r))

/-- EVENT_READ (R175): `State.takeEventRead`. -/
def execEventRead (p : Port) (r : ReadReq) (s : State) : Host.Outcome State Fault Refusal := .next (s.issue p (.read r))

/-- EVENT_ENABLE_WRITE (R176): `State.takeEventWrite`. -/
def execEventEnableWrite (p : Port) (r : WriteReq) (s : State) : Host.Outcome State Fault Refusal :=
  .next (s.issue p (.write r))

/-- CB_TABLE_WRITE (R133): `State.takeTableWrite`. -/
def execCbTableWrite (p : Port) (r : WriteReq) (s : State) : Host.Outcome State Fault Refusal :=
  .next (s.issue p (.write r))

/-- MAILBOX_WRITE (R133): `State.takeMailboxWrite`. -/
def execMailboxWrite (p : Port) (r : WriteReq) (s : State) : Host.Outcome State Fault Refusal :=
  .next (s.issue p (.write r))

end Sys2Proof.Machine
end

