-- ==== Sys2Proof/Machine/ItemCommands.lean ====
section
/-! DEFINITION. The rows of the item command unit (03_item_commands.md): the completion of a command-carrying write, the seven
item commands, the refusals before service, the notices, and the completion of a record write-back. -/

namespace Sys2Proof.Machine

/-! ## The completion of a command-carrying write (R14, R18) -/

/-- A command leaves the places given and not yet joined. -/
def State.dropGiven (id : SlotId) (s : State) : State :=
  { s with icu := { s.icu with given := s.icu.given.erase id } }

/-- Memory answers an admitted command-carrying write (R14). -/
def State.completeCommand (p : Port) (id : SlotId) (cells : Cells) (a : WriteAnswer) (s : State) : State :=
  match a with
  | .ok => ((((s.answerForward cells a).dropGiven id).joinCq (.command id)).answerPort p okDone).finish
  | .fault _ => ((((s.answerForward cells a).dropGiven id).releasePlace).answerPort p faulted).finish

/-- COMMAND_WRITE_COMPLETE (R14): the oldest forwarded write is a command-carrying write of the port. One admitted before a
halt is answered FAULT and joins nothing (R18). -/
def execCommandWriteComplete (p : Port) (a : WriteAnswer) (s : State) : Host.Outcome State Fault Refusal :=
  .next (match s.fwd with
    | [] => s
    | w :: _ =>
      match w.kind with
      | .command p' id => if p' = p then s.completeCommand p id w.cells a else s
      | .abandoned p' => if p' = p then ((s.answerForward w.cells a).answerPort p faulted).finish else s
      | _ => s)

/-! ## OPEN and CLEAR (R10, R11) -/

/-- OPEN on an EMPTY record: every part field at its cleared value, SERVED 1. -/
def State.serveOpen (svc : Service) (_ : Rec) (s : State) : State :=
  s.startWriteBack svc
    (RecUpdate.cells svc.base
      { clearCmd := true, state := some .opened, result := some .ok, grade := some .A, disp := some .pick,
        reason := some .none, regrades := some 0,
        flags := some { trial := false, rerouted := false, fellBack := false, late := false },
        score := some 0, spread := some 0, queue := some none, bin := some none, ringIndex := some 0,
        served := some 1, ticket := some 0 })
    []

/-- CLEAR: STATE EMPTY, and the other part fields but RESULT and SERVED kept. -/
def State.serveClear (svc : Service) (rec : Rec) (s : State) : State :=
  s.endCommand svc rec { state := some .empty, result := some .ok } []

/-- OPEN (R10). -/
def execCmdOpen (s : State) : Host.Outcome State Fault Refusal := .next (s.onCommand .opened State.serveOpen)

/-- CLEAR (R11). -/
def execCmdClear (s : State) : Host.Outcome State Fault Refusal := .next (s.onCommand .clear State.serveClear)

/-! ## COMMIT and REGRADE (R33, R34, R46, R51, R52) -/

/-- COMMIT on an OPEN record. -/
def State.serveCommit (svc : Service) (rec : Rec) (s : State) : State :=
  match s.gu.grade rec.cls rec.readings rec.defects with
  | .error res => s.refuseCommand svc rec res
  | .ok g =>
    if s.layout.isTrial svc.entry.slot then s.endTrial svc rec g none else s.routeGraded .commit svc rec g

/-- REGRADE on a ROUTED or TRIALED record: a grading first, and then for a ROUTED record the void of its entry. -/
def State.serveRegrade (svc : Service) (rec : Rec) (s : State) : State :=
  match s.gu.grade rec.cls rec.readings rec.defects with
  | .error res => s.refuseCommand svc rec res
  | .ok g => if rec.state = .trialed then s.endTrial svc rec g none else s.claimVoid svc rec (some g)

/-- COMMIT (R46). -/
def execCmdCommit (s : State) : Host.Outcome State Fault Refusal := .next (s.onCommand .commit State.serveCommit)

/-- REGRADE (R51, R52). -/
def execCmdRegrade (s : State) : Host.Outcome State Fault Refusal := .next (s.onCommand .regrade State.serveRegrade)

/-! ## PLACED (R53, R54) -/

/-- The event of a placement into a LOCKED bin. -/
def lockedEvent (locked : Bool) : List EventKind := if locked then [.lockedBin] else []

/-- The late path, after a confirm answered NONE (R54). A CMD_ARG above 2047 makes no claim. -/
def State.servePlacedLate (svc : Service) (rec : Rec) (s : State) : State :=
  let late := some { rec.flags with late := true }
  match (if rec.cmdArg < Config.bins then s.lateOccupyBin rec.cmdArg else (none, s)) with
  | (some locked, s1) =>
    s1.endCommand svc rec
      { state := some .closed, result := some .lateAccepted, bin := some (some rec.cmdArg), flags := late }
      (.latePlace :: lockedEvent locked)
  | (none, s1) =>
    s1.endCommand svc rec
      { state := some .lost, result := some .lateRefused, bin := some (some rec.bin), flags := late } [.latePlace]

/-- PLACED on a TAKEN or LOST record (R53). -/
def State.servePlaced (svc : Service) (rec : Rec) (s : State) : State :=
  match s.confirmResv svc.entry.slot rec.cmdArg with
  | (.confirmed locked, s1) =>
    s1.endCommand svc rec
      { state := some .closed, result := some (if locked then .okLockedBin else .ok) } (lockedEvent locked)
  | (.wrongBin, s1) => s1.refuseCommand svc rec .wrongBin
  | (.none, s1) => s1.servePlacedLate svc rec

/-- PLACED (R53, R54). -/
def execCmdPlaced (s : State) : Host.Outcome State Fault Refusal := .next (s.onCommand .placed State.servePlaced)

/-! ## MISFIT (R55, R56) -/

/-- The start of a MISFIT's re-route: the record's DISP with reason NONE and the record's GRADE (R56). -/
def misfitRoute (rec : Rec) (ticket : Word32) : Route :=
  { kind := .misfit, grade := rec.grade, score := 0, spread := 0, disp := rec.disp, reason := .none, fellBack := false,
    bin := none, ticket := ticket }

/-- The re-route of a MISFIT: the routing chain from the disposition of the record as fetched (R56). -/
def State.reroute (svc : Service) (rec : Rec) (s : State) : State := s.runChain svc rec (misfitRoute rec s.icu.counter)

/-- MISFIT on a TAKEN record. The bin is marked full by the answer REMOVED. The re-route's claims follow in the same step but
where the mailbox block read of an operation is made: there they wait for the next MISFIT command, so that a bin operation may
reopen the bin in between or come after them (R56, R63). DESIGN CHOICE (notes/assumptions/36.md). -/
def State.serveMisfit (svc : Service) (rec : Rec) (s : State) : State :=
  if Config.classes ≤ rec.cls then s.refuseCommand svc rec .badClass
  else
    match s.misfitResv svc.entry.slot with
    | (true, s1) =>
      if s.cu.work = .reading then { s1 with icu := { s1.icu with stage := .rerouting svc rec } } else s1.reroute svc rec
    | (false, s1) =>
      s1.endCommand svc rec { state := some .lost, result := some .tooLate } [.cmdRefused]

/-- A re-route that waits is made, and otherwise a MISFIT fetched is served. -/
def State.misfit (s : State) : State :=
  match s.icu.stage with
  | .rerouting svc rec => s.reroute svc rec
  | _ => s.onCommand .misfit State.serveMisfit

/-- MISFIT (R55, R56). -/
def execCmdMisfit (s : State) : Host.Outcome State Fault Refusal := .next s.misfit

/-! ## WITHDRAW (R57) -/

/-- WITHDRAW, by the fetched state. -/
def State.serveWithdraw (svc : Service) (rec : Rec) (s : State) : State :=
  match rec.state with
  | .routed => s.claimVoid svc rec none
  | .taken => (s.cancelResv svc.entry.slot).endVoid svc rec
  | _ => s.endVoid svc rec

/-- WITHDRAW (R57). -/
def execCmdWithdraw (s : State) : Host.Outcome State Fault Refusal := .next (s.onCommand .withdraw State.serveWithdraw)

/-! ## Commands ended without service (R40, R41) -/

/-- BAD_COMMAND (R41): a fetched CMD above 7 is refused, SERVED unchanged. -/
def execBadCommand (s : State) : Host.Outcome State Fault Refusal :=
  .next (match s.fetched? with
    | some (svc, rec) =>
      if 7 < rec.cmd then
        s.fetched.startWriteBack svc (RecUpdate.cells svc.base { clearCmd := true, result := some .badCommand })
          [.cmdRefused]
      else s
    | none => s)

/-- FETCH_FAULT (R40): memory answers the fetch of a command FAULT. -/
def execFetchFault (s : State) : Host.Outcome State Fault Refusal :=
  .next (match s.fetched? with
    | some (svc, _) =>
      s.fetched.startWriteBack svc (RecUpdate.cells svc.base { clearCmd := true, result := some .memFault }) [.memFault]
    | none => s)

/-! ## Notices (R58, R59) -/

/-- The end of a notice that writes nothing, a discarded one among them (R3, R43). -/
def State.endNotice (s : State) : State := s.endService.finish

/-- The fields a TAKE notice writes on a record, when it finds it ROUTED with its ticket (R58). -/
def takeUpdate (q : Fin 6) (ticket : Word32) (rec : Rec) : Option RecUpdate :=
  if rec.state = .routed ∧ rec.ticket = ticket then
    some { state := some (if isRestockQueue q then .taken else .closed), flags := some rec.flags }
  else none

/-- The fields an EXPIRY notice writes on a record, when it finds it TAKEN with its ticket (R59). -/
def expiryUpdate (ticket : Word32) (rec : Rec) : Option RecUpdate :=
  if rec.state = .taken ∧ rec.ticket = ticket then
    some { state := some .lost, flags := some { rec.flags with late := true } }
  else none

/-- The service of a notice (R43): its write-back, or its end where it writes nothing or its slot left the layout (R3). -/
def State.serveNotice (svc : Service) (f : Rec → Option RecUpdate) (s : State) : State :=
  match svc.addr with
  | none => s.endNotice
  | some a =>
    match f (s.recordAt a) with
    | some u => s.fetched.startWriteBack svc (RecUpdate.cells a u) []
    | none => s.fetched.endNotice

/-- TAKE_NOTICE (R58). -/
def execTakeNotice (s : State) : Host.Outcome State Fault Refusal :=
  .next (match s.icu.stage with
    | .fetching svc =>
      (match svc.entry with
       | .take _ q ticket => s.serveNotice svc (takeUpdate q ticket)
       | _ => s)
    | _ => s)

/-- EXPIRY_NOTICE (R59). -/
def execExpiryNotice (s : State) : Host.Outcome State Fault Refusal :=
  .next (match s.icu.stage with
    | .fetching svc =>
      (match svc.entry with
       | .expiry _ ticket => s.serveNotice svc (expiryUpdate ticket)
       | _ => s)
    | _ => s)

/-! ## The completion of a write-back (R43) -/

/-- WRITE_BACK_COMPLETE (R43, R60): memory has completed the record write-back with OK. -/
def execWriteBackComplete (s : State) : Host.Outcome State Fault Refusal :=
  .next (match s.icu.stage with
    | .writeBack _ cells events => ((((s.ownWrite .writeBack cells .ok).raiseAll events).endService)).finish
    | _ => s)

end Sys2Proof.Machine
end

