-- ==== Sys2Proof/Machine/QueueCommands.lean ====
section
/-! DEFINITION. The rows of the queue unit, the bin unit, the reservation unit and the posted write buffer: completions of
their writes and reads, the tick and the expiry. -/

namespace Sys2Proof.Machine

/-! ## The queue unit (R109, R110, R116) -/

/-- A write of the queue unit has been answered OK: DRAM takes it, and nothing is in flight. -/
def State.landQuWrite (f : QuFlight) (s : State) : State :=
  let s1 := s.ownWrite .queueWrite f.cells .ok
  { s1 with qu := { s1.qu with inFlight := none } }

/-- The append takes effect and is answered ACCEPTED with the ring index at the old TAIL; the service writes its record back
(R50, R110). A header write that is issued with the effect stands ahead of the write-back at the memory arbiter
(notes/assumptions/28.md). -/
def State.acceptAppend (svc : Service) (rec : Rec) (r : Route) (s : State) : State :=
  (s.appendEffect r.disp.queue r.ticket svc.entry.slot).endRouted svc rec r (s.queue r.disp.queue).tail

/-- APPEND_ENTRY_WRITE_DONE (R110): the append takes effect, and then the next item is issued (notes/assumptions/30.md). -/
def execAppendEntryWriteDone (s : State) : Host.Outcome State Fault Refusal :=
  .next (match s.qu.inFlight, s.icu.stage with
    | some f, .entryWrite svc rec r =>
      (match f.item with
       | .entry _ true => ((s.landQuWrite f).acceptAppend svc rec r).kickQu
       | _ => s)
    | _, _ => s)

/-- Whether an item is the entry write of an append, whose completion is a row of its own. -/
def QuItem.isAppendEntry : QuItem → Bool
  | .entry _ isAppend => isAppend
  | _ => false

/-- QU_WRITE_DONE (R109): the next item is issued, and then, with no entry write left, the claim that waits is taken (R110,
R112, notes/assumptions/31.md). -/
def execQuWriteDone (s : State) : Host.Outcome State Fault Refusal :=
  .next (match s.qu.inFlight with
    | some f => if f.item.isAppendEntry then s else ((s.landQuWrite f).kickQu).resumeClaim
    | none => s)

/-- TAKE_COMPLETE (R116): the ring read of the take in progress of a queue is answered OK. -/
def execTakeComplete (q : Fin 6) (s : State) : Host.Outcome State Fault Refusal :=
  .next (match s.desc? q with
    | some d => if (s.queue q).takeInProgress then (s.completeTake q d).finish else s
    | none => s)

/-! ## The bin unit (R79, R85) -/

/-- The bin operation that waits for an image write of a bin goes on to its result when the write answered was issued after
its change (R79). -/
def State.imageDone (bin : Nat) (s : State) : State :=
  match s.cu.work with
  | .waitImage seq b detail issued => if issued && b == bin then s.answerOp seq .ok detail else s
  | _ => s

/-- BIN_IMAGE_WRITE_DONE (R85). The result write of the operation that the answer completes stands ahead of the next image
write at the memory arbiter (notes/assumptions/34.md). -/
def execBinImageWriteDone (s : State) : Host.Outcome State Fault Refusal :=
  .next (match s.bu.imageInFlight with
    | some f =>
      let s1 := s.ownWrite .imageWrite f.cells .ok
      (({ s1 with bu := { s1.bu with imageInFlight := none } }).imageDone f.bin).kickImages
    | none => s)

/-! ## The posted write buffer (R137, R143) -/

/-- The stalls that end when a buffered write leaves the buffer (R135). -/
def Stall.isFull : Stall → Bool
  | .bufferFull => true
  | .postingStopped => false

/-- `EVT_MEM_FAULT` for a posted write answered FAULT (R143). -/
def State.raisePosted (a : WriteAnswer) (s : State) : State :=
  match a with
  | .ok => s
  | .fault _ => s.raise .memFault

/-- POSTED_WRITE_DRAIN (R143): memory answers the oldest forwarded write, which is a buffered one. -/
def execPostedWriteDrain (a : WriteAnswer) (s : State) : Host.Outcome State Fault Refusal :=
  .next (match s.fwd with
    | w :: _ =>
      if w.isPosted then (((s.answerForward w.cells a).raisePosted a).releaseStalls Stall.isFull).finish else s
    | [] => s)

/-! ## The reservation unit (R91, R100, R101) -/

/-- TICK (R91): NOW advances, and an expiry pass begins (R100). -/
def execTick (s : State) : Host.Outcome State Fault Refusal := .next ({ s with ru := s.ru.advance }).lookPass

/-- An expiry carried out whole (R100): the removal, the release, the EXPIRY notice, the event. The image write of the release
stands ahead of the notice's fetch at the memory arbiter (notes/assumptions/34.md). -/
def State.expire (r : Reservation) (s : State) : State :=
  ((((s.removeResv r.id).releaseBin r.bin).joinCq (.expiry r.id r.ticket)).raise .expired)

/-- EXPIRY (R100, R101): one step of the pass that runs, looking at the head and at the places of CQ as they then stand. -/
def execExpiry (s : State) : Host.Outcome State Fault Refusal :=
  .next (if s.ru.pass then
      let s1 := s.lookPass
      (match s1.ru.due? with
       | some r => if s1.ru.pass then (s1.expire r).lookPass else s1
       | none => s1)
    else s)

end Sys2Proof.Machine
end

