-- ==== Sys2Proof/Machine/Tables.lean ====
section
/-! DEFINITION. Reading and validating the tables of the control block (R153), and the tests a RELOAD makes (R154). -/

namespace Sys2Proof.Machine

/-! ## Table entries -/

/-- A map collected from the keys of a list in order; an entry `none` fails, an entry `some none` is not listed. -/
def collect {α : Type} (f : Nat → Option (Option α)) : List Nat → Option (Map α)
  | [] => some []
  | k :: r =>
    match f k, collect f r with
    | some (some v), some m => some ((k, v) :: m)
    | some none, some m => some m
    | _, _ => none

/-- The byte at an address of DRAM as a number. -/
def Memory.byte (d : Memory) (a : Nat) : Nat := (Memory.read d a).toNat

/-- A class table entry (R19, 12.4): none when it is valid and breaks R19. -/
def Memory.classEntry (d : Memory) (a : Nat) : Option (Option ClassEntry) :=
  if Memory.byte d a = 0 then some none
  else
    match PassRule.ofCode? (Memory.byte d (a + 5)), Disp.ofCode? (Memory.byte d (a + 6)),
      Disp.ofCode? (Memory.byte d (a + 7)), Disp.ofCode? (Memory.byte d (a + 8)), Disp.ofCode? (Memory.byte d (a + 9)),
      Disp.ofCode? (Memory.byte d (a + 10)) with
    | some rule, some dA, some dB, some dC, some dD, some dX =>
      if Memory.byte d (a + 1) ≤ 100 ∧ Memory.byte d (a + 2) ≤ Memory.byte d (a + 1)
          ∧ Memory.byte d (a + 3) ≤ Memory.byte d (a + 2) then
        some (some { tA := Memory.byte d (a + 1), tB := Memory.byte d (a + 2), tC := Memory.byte d (a + 3),
                     spreadLimit := Memory.byte d (a + 4), passRule := rule,
                     dispA := dA, dispB := dB, dispC := dC, dispD := dD, dispX := dX })
      else none
    | _, _, _, _, _, _ => none

/-- A defect cap (R20): none outside A to X; a cap of A is not listed. -/
def Memory.cap (d : Memory) (a : Nat) : Option (Option Grade) :=
  match Grade.ofCode? (Memory.byte d a) with
  | some .A => some none
  | some g => some (some g)
  | none => none

/-- A station bias (R21, 12.4): none outside −32 to +31; a bias of 0 is not listed. -/
def Memory.bias (d : Memory) (a : Nat) : Option (Option Int) :=
  let v := (Memory.read d a).toInt
  if v < -32 ∨ 31 < v then none else if v = 0 then some none else some (some v)

/-- A zone table entry (R68, 12.4): none when it is valid and its END or KIND is out of range. -/
def Memory.zone (d : Memory) (a : Nat) : Option Zone :=
  if Memory.byte d (a + 3) = 0 then some { valid := false, last := 0, kind := .pick }
  else if Memory.nat d a 2 < Config.bins then
    match Memory.byte d (a + 2) with
    | 0 => some { valid := true, last := Memory.nat d a 2, kind := .pick }
    | 1 => some { valid := true, last := Memory.nat d a 2, kind := .reserve }
    | _ => none
  else none

/-- The zones of a list of entry addresses. -/
def Memory.zoneList (d : Memory) : List Nat → Option (List Zone)
  | [] => some []
  | a :: r =>
    match Memory.zone d a, Memory.zoneList d r with
    | some z, some zs => some (z :: zs)
    | _, _ => none

/-- The ends of the valid zones strictly increase (R68). -/
def zonesRise (zones : List Zone) : Bool :=
  decide ((zones.filter (·.valid)).Pairwise (fun x y => x.last < y.last))

/-- An item-area descriptor (12.4). -/
def Memory.area (d : Memory) (a : Nat) : AreaDesc :=
  { base := Memory.nat d a 8
    slots := Memory.nat d (a + 8) 4
    trial := Memory.byte d (a + 12) != 0
    valid := Memory.byte d (a + 13) != 0 }

/-- A queue descriptor (12.4). -/
def Memory.qdesc (d : Memory) (a : Nat) : QDesc :=
  { ringBase := Memory.nat d a 8
    viewBase := Memory.nat d (a + 8) 8
    capacity := Memory.nat d (a + 16) 4
    near := Memory.nat d (a + 20) 4 }

/-! ## Validation -/

/-- A run of bytes lies within the 34-bit address space. -/
def withinSpace (r : Nat × Nat) : Bool := decide (r.1 + r.2 ≤ Config.addrSpace)

/-- Two runs of bytes, each by its base and length, are disjoint. -/
def disjointRuns (x y : Nat × Nat) : Bool := !runsOverlap x.1 x.2 y.1 y.2

/-- The bytes of an item area (R1). -/
def AreaDesc.run (d : AreaDesc) : Nat × Nat := (d.base, Config.recBytes * d.slots)

/-- The ring areas and view windows of a set of descriptors (R103). -/
def queueRuns (v : Vector QDesc 6) : List (Nat × Nat) :=
  queueIds.flatMap (fun q => [(v[q].ringBase, v[q].ringLen), (v[q].viewBase, v[q].viewLen)])

/-- The check of the item-area table (R1): the valid descriptors alone, against one another, the control block, and the ring
areas and view windows as read. -/
def areasOk (cb : Nat) (areas : List AreaDesc) (descs : Vector QDesc 6) : Bool :=
  let valid := areas.filter (·.valid)
  let runs := valid.map (·.run)
  valid.all (fun d => decide (d.base % 64 = 0) && decide (0 < d.slots) && decide (d.slots ≤ Config.areaSlotsMax))
    && runs.all withinSpace
    && decide (runs.Pairwise (fun x y => disjointRuns x y = true))
    && runs.all (fun r => disjointRuns r (cb, Config.cbBytes) && (queueRuns descs).all (disjointRuns r))

/-- A CAPACITY is a power of two from 16 to 4096 (R103). -/
def capacityOk (c : Nat) : Bool := [16, 32, 64, 128, 256, 512, 1024, 2048, 4096].contains c

/-- The check of the queue descriptor table (R103). -/
def queuesOk (cb : Nat) (descs : Vector QDesc 6) : Bool :=
  queueIds.all (fun q =>
      capacityOk descs[q].capacity && decide (1 ≤ descs[q].near) && decide (descs[q].near ≤ descs[q].capacity)
        && decide (descs[q].ringBase % 64 = 0) && decide (descs[q].viewBase % descs[q].viewLen = 0))
    && decide ((queueIds.map (fun q => descs[q].capacity)).sum ≤ Config.qcapTotal)
    && (queueRuns descs).all withinSpace
    && (queueRuns descs).all (disjointRuns (cb, Config.cbBytes))
    && decide ((queueRuns descs).Pairwise (fun x y => disjointRuns x y = true))

/-- Offset of the item-area table. -/
def areasOff : Nat := 0xC0
/-- Offset of the zone table. -/
def zonesOff : Nat := 0x100
/-- Offset of the queue descriptor table. -/
def descsOff : Nat := 0x180
/-- Offset of the defect cap table. -/
def capsOff : Nat := 0x240
/-- Offset of the class table. -/
def classesOff : Nat := 0x280

/-! ## The reads of the tables phase -/

/-- What has been read before the first read. -/
def TablesRead.none : TablesRead :=
  { format := 0, deadline := 0, ticketImage := 0, mask := 0, classes := .none, caps := .none, bias := .none, zones := .none,
    areas := Layout.reset.areas,
    descs := Vector.replicate 6 { ringBase := 0, viewBase := 0, capacity := 0, near := 0 } }

/-- The reads of the tables phase, in order (R153, R161): a start reads EVENT_ENABLE with the header. -/
def tableSites : TableUse → List ReadSite
  | .reload => [.table 1, .table 2, .table 3, .table 4, .table 5, .table 6, .table 7]
  | _ => [.table 1, .eventEnable, .table 2, .table 3, .table 4, .table 5, .table 6, .table 7]

/-- The offset and the length of a read of the tables phase within the control block (12.4). -/
def tableRun : ReadSite → Nat × Nat
  | .table 1 => (0, 64)
  | .table 2 => (classesOff, 512)
  | .table 3 => (capsOff, 64)
  | .table 4 => (biasOff, 16)
  | .table 5 => (zonesOff, 32)
  | .table 6 => (areasOff, 64)
  | .table 7 => (descsOff, 192)
  | .eventEnable => (eventOff + 8, 4)
  | _ => (0, 0)

/-- The number of the table a read of the tables phase is counted with (R153, R161). -/
def tableNumber : ReadSite → Nat
  | .table n => n
  | _ => 1

/-- What has been read, with one more read served: the values that DRAM holds (R153). -/
def TablesRead.take (d : Memory) (cb : Nat) (t : TablesRead) : ReadSite → TablesRead
  | .table 1 =>
    { t with
      format := Memory.nat d cb 4, deadline := Memory.nat d (cb + 12) 4, ticketImage := Memory.word d (cb + ticketImageOff) }
  | .eventEnable => { t with mask := maskOfWord (Memory.word d (cb + eventOff + 8)) }
  | .table 2 =>
    { t with classes := collect (fun c => Memory.classEntry d (cb + classesOff + 16 * c)) (List.range 32) }
  | .table 3 => { t with caps := collect (fun c => Memory.cap d (cb + capsOff + c)) ((List.range 64).tail) }
  | .table 4 => { t with bias := collect (fun n => Memory.bias d (cb + biasOff + n)) (List.range 16) }
  | .table 5 => { t with zones := Memory.zoneList d ((List.range 8).map (fun i => cb + zonesOff + 4 * i)) }
  | .table 6 =>
    { t with
      areas := #v[Memory.area d (cb + areasOff), Memory.area d (cb + areasOff + 16), Memory.area d (cb + areasOff + 32),
        Memory.area d (cb + areasOff + 48)] }
  | .table 7 =>
    { t with
      descs := #v[Memory.qdesc d (cb + descsOff), Memory.qdesc d (cb + descsOff + 32), Memory.qdesc d (cb + descsOff + 64),
        Memory.qdesc d (cb + descsOff + 96), Memory.qdesc d (cb + descsOff + 128), Memory.qdesc d (cb + descsOff + 160)] }
  | _ => t

/-- What has been read, validated in the order of R153: the tables, or the number of the first one that fails. -/
def TablesRead.check (cb : Nat) (t : TablesRead) : Except Nat Tables :=
  if t.format ≠ 1 ∨ t.deadline < Config.deadlineMin ∨ Config.deadlineMax < t.deadline then .error 1
  else
    match t.classes, t.caps, t.bias, t.zones with
    | .none, _, _, _ => .error 2
    | _, .none, _, _ => .error 3
    | _, _, .none, _ => .error 4
    | _, _, _, .none => .error 5
    | some classes, some caps, some bias, some zones =>
      if !zonesRise zones then .error 5
      else if !areasOk cb t.areas.toList t.descs then .error 6
      else if !queuesOk cb t.descs then .error 7
      else
        .ok { deadline := t.deadline, ticketImage := t.ticketImage, classes := classes, caps := caps, bias := bias,
              zones := zones, areas := t.areas, descs := t.descs }

/-! ## The tests of a RELOAD (R154) -/

/-- The lowest queue whose descriptor would change while its COUNT is above 0. -/
def State.busyQueue (descs : Vector QDesc 6) (s : State) : Option (Fin 6) :=
  queueIds.find? (fun q => decide (s.desc? q ≠ some descs[q]) && decide (0 < (s.queue q).count))

/-- A reservation names a slot of an area, or a slot of it is in the busy set. -/
def State.areaInUse (area : Nat) (s : State) : Bool :=
  s.ru.table.any (fun r => r.id.area == area) || s.busySlots.any (fun id => id.area == area)

/-- The lowest item area whose descriptor would change while it is in use. -/
def State.busyArea (areas : Vector AreaDesc 4) (s : State) : Option (Fin 4) :=
  ([0, 1, 2, 3] : List (Fin 4)).find? (fun i => decide (s.layout.areas[i] ≠ areas[i]) && s.areaInUse i.val)

/-- The refusal the tests give, with its DETAIL; the queues are tested first. -/
def State.reloadRefusal (t : Tables) (s : State) : Option (MbResult × Nat) :=
  match s.busyQueue t.descs with
  | some q => some (.queueBusy, q.val)
  | none =>
    match s.busyArea t.areas with
    | some i => some (.areaBusy, i.val)
    | none => none

end Sys2Proof.Machine
end

