-- ==== Sys2Proof/Machine/Halt.lean ====
section
/-! DEFINITION. The entry into `MODE_HALTED` (R156) and the faults of the part's own writes and reads that cause it. -/

namespace Sys2Proof.Machine

/-! ## The end of an operation -/

/-- A mailbox operation ends, with or without completing: nothing executes, no result write waits, and the mailbox hold is
released (R149). -/
def State.endOperation (s : State) : State :=
  ({ s with cu := { s.cu with work := .idle }, ma := s.ma.drop .result }).releaseHolds Hold.isMailbox

/-- The write before a result write is answered OK, and the result write is issued (R37, R151). -/
def State.answerPrior (s : State) : State :=
  match s.cu.work with
  | .result r =>
    (match r.prior with
     | .nothing => s
     | p => (s.ownWrite .cuWrite (p.cells s.cbBase) .ok).startResult { r with prior := .nothing })
  | _ => s

/-! ## The writes outstanding at the halt (R144) -/

/-- The request of the own side whose FAULT is a cause. -/
def causeRequest : HaltCause → OwnReq
  | .writeBack => .writeBack
  | .queueWrite => .queueWrite
  | .imageWrite => .imageWrite
  | .biasImage => .cuWrite
  | .modeEcho => .cuWrite
  | .resultWrite => .result
  | .noticeFetch => .fetch
  | .takeRead q => .takeRead q

/-- The cause is a FAULT on a write of the control unit, behind which it issues no other. -/
def causeOfCu : HaltCause → Bool
  | .biasImage => true
  | .modeEcho => true
  | .resultWrite => true
  | _ => false

/-- The write before a result write is outstanding. -/
def State.priorPending (s : State) : Bool :=
  match s.cu.work with
  | .result r => r.request == .cuWrite
  | _ => false

/-- The requests of the own side that can have been granted by the halt: those that wait for a grant, and the result write
that is issued when the write before it is answered OK, unless the cause is a FAULT of that write (R37, R151, R170). -/
def State.toGrant (c : HaltCause) (s : State) : Arbiter :=
  if s.priorPending && !causeOfCu c then s.ma.ask .result else s.ma

/-- Grants until `n` requests of the own side wait no longer (R139, R140). -/
def Arbiter.grantMany (mem : List Grant → Memory) (fwd n : Nat) (m : Arbiter) : Arbiter :=
  Arbiter.grantUntil mem fwd (fun x => decide (x.own.length ≤ m.own.length - n)) (m.waiting fwd) m

/-- The cells of the outstanding result write that memory's answer concerns. -/
def State.resultOutstanding (s : State) (a : WriteAnswer) : Cells :=
  match s.cu.work with
  | .result r => resultAnswered s.cbBase r a
  | _ => []

/-- The cells of the outstanding write before a result write. -/
def State.priorCells (s : State) : Cells :=
  match s.cu.work with
  | .result r => r.prior.cells s.cbBase
  | _ => []

/-- A write of the part that memory had granted is performed at the halt, and one that it had not is discarded (R144). -/
def State.ifGranted (r : OwnReq) (cells : Cells) (a : WriteAnswer) (s : State) : State :=
  if s.ma.order.contains (.own r) then s.ownWrite r cells a else s

/-- Memory's answer to the write before a result write: OK when the result write had been granted behind it (R37, R151). -/
def State.priorAnswer (h : HaltAnswers) (s : State) : WriteAnswer :=
  if s.ma.order.contains (.own .result) then .ok else h.cuWrite

/-- The writes of the part outstanding at the halt, as memory performs them (R144). -/
def State.endWrites (c : HaltCause) (h : HaltAnswers) (s : State) : State :=
  let g : State := { s with ma := (s.toGrant c).grantMany s.finds s.fwd.length h.granted }
  ((((g.ifGranted .writeBack s.writeBackCells h.writeBack).ifGranted .queueWrite s.quFlightCells h.queueWrite).ifGranted
      .imageWrite s.imageFlightCells h.imageWrite).ifGranted .cuWrite s.priorCells (g.priorAnswer h)).ifGranted
    .result (s.resultOutstanding h.resultWrite) h.resultWrite

/-! ## The clearing of the units (R156) -/

/-- The item command unit after a halt (R44). -/
def Icu.halted (u : Icu) : Icu := { Icu.reset with counter := u.counter }

/-- The reservation unit after a halt (R90). -/
def Ru.halted (u : Ru) : Ru := { u with table := [], deadlines := [], pass := false }

/-- The bin unit after a halt (R67). -/
def Bu.halted (u : Bu) : Bu := { Bu.reset with zones := u.zones }

/-- A request at its port after a halt (R117, R125, R136): held for a watched area or at the queue unit, it is answered FAULT;
a mailbox write held while an operation executed, and a write stalled for a switch, are ready again. One held behind an
unanswered mailbox write while no operation executed stays held (R147, notes/assumptions/32.md). -/
def haltedStage (executing : Bool) (o : Outstanding) : Stage :=
  match o.stage with
  | .held .mailbox => if executing then .waiting else .held .mailbox
  | .held _ => faulted (tagOf o.req)
  | .stalled .postingStopped => .waiting
  | .atQueue _ => faulted (tagOf o.req)
  | .taking _ => faulted (tagOf o.req)
  | st => st

/-- A command-carrying write admitted before the halt joins nothing when memory answers it (R18). -/
def FwdWrite.halted (w : FwdWrite) : FwdWrite :=
  match w.kind with
  | .command p _ => { w with kind := .abandoned p }
  | _ => w

/-- A granted write is one of the part that memory has not answered. -/
def Grant.isOwn : Grant → Bool
  | .own _ => true
  | _ => false

/-- The units cleared and the mode HALTED: no request of the part is left at the memory arbiter. -/
def State.clearUnits (s : State) : State :=
  { s.mapStages (haltedStage (decide (s.cu.work ≠ .idle))) with
    fwd := s.fwd.map (·.halted)
    bu := s.bu.halted
    ru := s.ru.halted
    qu := Qu.reset
    icu := s.icu.halted
    cu := { s.cu with mode := .halted, work := .idle }
    ma := { s.ma with own := [], order := dropDone (s.ma.order.filter (fun g => !g.isOwn)), found := [] } }

/-- The entry into `MODE_HALTED` (R156): what memory does with the writes outstanding, the clearing, which discards every
request of the part that waits for a grant (R144), the echo write of HALTED with its answer ignored (R151), and
`EVT_HALT`. The echo write of HALTED is granted and answered in this step (notes/assumptions/10.md). -/
def State.enterHalt (c : HaltCause) (h : HaltAnswers) (s : State) : State :=
  let s1 := (s.endWrites c h).clearUnits
  (((s1.askOwn .cuWrite).ownWrite .cuWrite (echoCells s.cbBase .halted) h.echo).raise .halt).finish

/-! ## The causes -/

/-- The bytes that the faulted write of a cause may leave changed; no bytes for a read. `none` where the access is not
outstanding. -/
def State.haltCells (c : HaltCause) (s : State) : Option Cells :=
  match c with
  | .writeBack => match s.icu.stage with | .writeBack _ cells _ => some cells | _ => none
  | .queueWrite => s.qu.inFlight.map (·.cells)
  | .imageWrite => s.bu.imageInFlight.map (·.cells)
  | .biasImage =>
    (match s.cu.work with
     | .result r => (match r.prior with | .bias n v => some (biasCells s.cbBase n v) | _ => none)
     | _ => none)
  | .modeEcho =>
    (match s.cu.work with
     | .result r => (match r.prior with | .echo m => some (echoCells s.cbBase m) | _ => none)
     | _ => none)
  | .resultWrite => match s.cu.work with | .result r => some (resultLeftCells s.cbBase r) | _ => none
  | .noticeFetch =>
    (match s.icu.stage with
     | .fetching svc => if svc.entry.isCommand || svc.addr.isNone then none else some []
     | _ => none)
  | .takeRead q => if (s.queue q).takeInProgress then some [] else none

/-- A cause's access as it stands when memory answers it: a result write has been issued when the write before it was answered
OK (R37, R151). -/
def State.atCause (c : HaltCause) (s : State) : State :=
  match c with
  | .resultWrite => s.answerPrior
  | _ => s

/-- An access of the part is answered FAULT, with the bytes of a write as memory left them: in RUN and FROZEN the part halts;
in HALTED the operation that issued it ends without completing (R151, R156); in INIT the one such write is a result write,
whose operation ends with `EVT_MEM_FAULT` (R149). -/
def State.ownFault (c : HaltCause) (cells : Cells) (left : List Byte) (h : HaltAnswers) (s : State) : State :=
  let s1 := (s.atCause c).ownWrite (causeRequest c) cells (.fault left)
  match s.cu.mode with
  | .run => s1.enterHalt c h
  | .frozen => s1.enterHalt c h
  | .halted => s1.endOperation.finish
  | .init => (s1.endOperation.raise .memFault).finish

/-- HALT (R156). -/
def execHalt (c : HaltCause) (left : List Byte) (h : HaltAnswers) (s : State) : Host.Outcome State Fault Refusal :=
  .next (match s.haltCells c with
    | some cells => s.ownFault c cells left h
    | none => s)

end Sys2Proof.Machine
end

