-- ==== Sys2Proof/Machine/Mailbox.lean ====
section
/-! DEFINITION. The rows of the control unit that the mailbox gives (08_control_block_and_operating_modes.md): the mailbox
write's completion, the operations but for the two starts, the switch of a RELOAD, and the result write. -/

namespace Sys2Proof.Machine

/-! ## Deciding an operation (R147, R148, R149) -/

/-- The modes in which an operation is available (R148). -/
def opAvailable (op : Nat) : Mode → Bool
  | .init => decide (op = 1) || decide (op = 2)
  | .run => decide (3 ≤ op ∧ op ≤ 4) || decide (6 ≤ op ∧ op ≤ 12)
  | .frozen => decide (op = 3) || decide (5 ≤ op ∧ op ≤ 12)
  | .halted => decide (op = 13)

/-- The read of the mailbox block granted and answered. -/
def State.mailboxFetched (s : State) : State := s.ownRead .cuRead

/-- The mailbox block as the read that begins an operation returns it (R147). -/
def State.mailbox (s : State) : Mailbox := Memory.mailbox (s.readBy .cuRead) s.cbBase

/-- An operation of a code is decided (R148): `MB_NOT_NOW` where the mode does not have it, and its rule `f` otherwise. Where
no operation of this code has been read, the event has no occasion (notes/assumptions/4.md). -/
def State.onOperation (op : Nat) (f : Mailbox → State → State) (s : State) : State :=
  if s.cu.work = .reading ∧ s.mailbox.op = op then
    if opAvailable op s.cu.mode then f s.mailbox s.mailboxFetched
    else s.mailboxFetched.answerOp s.mailbox.seq .notNow 0
  else s

/-- MAILBOX_READ_FAULT (R147). -/
def execMailboxReadFault (s : State) : Host.Outcome State Fault Refusal :=
  .next (if s.cu.work = .reading then
      s.mailboxFetched.startResult
        { seq := none, result := .memFault, detail := 9, prior := .nothing, after := .nothing }
    else s)

/-- BAD_OP (R148). -/
def execBadOp (s : State) : Host.Outcome State Fault Refusal :=
  .next (if s.cu.work = .reading ∧ 13 < s.mailbox.op then s.mailboxFetched.answerOp s.mailbox.seq .badOp 0
    else s)

/-! ## FREEZE, THAW, CLEAR_HALT (R151, R152, R158) -/

/-- A mode operation: the echo write of the new mode, and then the result write, whose completion changes the mode. -/
def State.changeMode (m : Mode) (mb : Mailbox) (s : State) : State :=
  s.startResult { seq := some mb.seq, result := .ok, detail := 0, prior := .echo m, after := .mode m }

/-- FREEZE (R152). -/
def execFreeze (s : State) : Host.Outcome State Fault Refusal := .next (s.onOperation 4 (State.changeMode .frozen))

/-- THAW (R152). -/
def execThaw (s : State) : Host.Outcome State Fault Refusal := .next (s.onOperation 5 (State.changeMode .run))

/-- CLEAR_HALT (R158). -/
def execClearHalt (s : State) : Host.Outcome State Fault Refusal := .next (s.onOperation 13 (State.changeMode .init))

/-! ## SET_BIAS, NUDGE (R35, R36, R37) -/

/-- A bias operation that sets a value: the image write, and then the result write, whose completion changes the table. -/
def State.writeBias (mb : Mailbox) (v : Int) (s : State) : State :=
  s.startResult
    { seq := some mb.seq, result := .ok, detail := BitVec.ofInt 32 v, prior := .bias mb.arg0 v, after := .bias mb.arg0 v }

/-- SET_BIAS, available (R35). -/
def State.setBias (mb : Mailbox) (s : State) : State :=
  if 15 < mb.arg0 ∨ mb.arg1.toInt < -32 ∨ 31 < mb.arg1.toInt then s.answerOp mb.seq .badArg 0
  else s.writeBias mb mb.arg1.toInt

/-- NUDGE, available (R36). -/
def State.nudge (mb : Mailbox) (s : State) : State :=
  if 15 < mb.arg0 ∨ (mb.arg1 ≠ 1 ∧ mb.arg1 ≠ 2) then s.answerOp mb.seq .badArg 0
  else
    let old := s.gu.biasOf mb.arg0
    let new := if mb.arg1 = 1 then old + 1 else old - 1
    if new < -32 ∨ 31 < new then s.answerOp mb.seq .saturated (BitVec.ofInt 32 old) else s.writeBias mb new

/-- SET_BIAS (R35). -/
def execSetBias (s : State) : Host.Outcome State Fault Refusal := .next (s.onOperation 6 State.setBias)

/-- NUDGE (R36). -/
def execNudge (s : State) : Host.Outcome State Fault Refusal := .next (s.onOperation 7 State.nudge)

/-! ## Bin operations (R79 to R84) -/

/-- What the bin unit decides on a bin operation. -/
inductive BinVerdict where
  | busy
  | badArg
  | change (new : Bin)
deriving DecidableEq, Repr

/-- A bin operation, available (R79): refused, or the change made, and the result when an image write of the bin issued after
it has completed. -/
def State.binOperation (verdict : Mailbox → Bin → BinVerdict) (mb : Mailbox) (s : State) : State :=
  if Config.bins ≤ mb.arg0 then s.answerOp mb.seq .badArg 0
  else
    let b := s.bu.bin mb.arg0
    match verdict mb b with
    | .badArg => s.answerOp mb.seq .badArg 0
    | .busy => s.answerOp mb.seq .binBusy (BitVec.ofNat 32 (b.occupied + b.reserved))
    | .change new =>
      ({ s with cu := { s.cu with
          work := .waitImage mb.seq mb.arg0 (BitVec.ofNat 32 new.free) false } }).changeBin mb.arg0 (fun _ => new)

/-- BIN_SET (R80). -/
def binSetVerdict (mb : Mailbox) (b : Bin) : BinVerdict :=
  let cap := mb.arg1.toNat % 65536
  let cls := mb.arg1.toNat / 65536
  if Config.binCapMax < cap ∨ Config.classes ≤ cls then .badArg
  else if cls ≠ b.cls ∧ 0 < b.occupied + b.reserved then .busy
  else
    .change { b with
      cls := cls
      capacity := cap
      state := if b.state = .full ∨ b.state = .retired then .opened else b.state }

/-- BIN_LOCK (R81). -/
def binLockVerdict (_ : Mailbox) (b : Bin) : BinVerdict :=
  if b.state = .retired then .badArg else .change { b with state := .locked }

/-- BIN_UNLOCK (R82). -/
def binUnlockVerdict (_ : Mailbox) (b : Bin) : BinVerdict :=
  if b.state = .retired then .badArg
  else .change { b with state := if b.state = .locked then .opened else b.state }

/-- BIN_RETIRE (R83). -/
def binRetireVerdict (_ : Mailbox) (b : Bin) : BinVerdict :=
  if 0 < b.occupied + b.reserved then .busy else .change { b with state := .retired }

/-- BIN_PICKED (R84). -/
def binPickedVerdict (mb : Mailbox) (b : Bin) : BinVerdict :=
  if b.occupied < mb.arg1.toNat then .badArg
  else
    .change { b with
      occupied := b.occupied - mb.arg1.toNat
      state := if b.state = .full then .opened else b.state }

/-- BIN_SET (R80). -/
def execBinSet (s : State) : Host.Outcome State Fault Refusal :=
  .next (s.onOperation 8 (State.binOperation binSetVerdict))

/-- BIN_LOCK (R81). -/
def execBinLock (s : State) : Host.Outcome State Fault Refusal :=
  .next (s.onOperation 9 (State.binOperation binLockVerdict))

/-- BIN_UNLOCK (R82). -/
def execBinUnlock (s : State) : Host.Outcome State Fault Refusal :=
  .next (s.onOperation 10 (State.binOperation binUnlockVerdict))

/-- BIN_RETIRE (R83). -/
def execBinRetire (s : State) : Host.Outcome State Fault Refusal :=
  .next (s.onOperation 11 (State.binOperation binRetireVerdict))

/-- BIN_PICKED (R84). -/
def execBinPicked (s : State) : Host.Outcome State Fault Refusal :=
  .next (s.onOperation 12 (State.binOperation binPickedVerdict))

/-! ## RELOAD (R154, R155) -/

/-- RELOAD with its tables read and validated: the tests of R154, and then the wait for its switch (R155). -/
def State.reloadTests (seq : Word32) (t : Tables) (s : State) : State :=
  match s.reloadRefusal t with
  | some r => s.answerOp seq r.1 (BitVec.ofNat 32 r.2)
  | none => ({ s with cu := { s.cu with work := .reloadSwitch seq t } }).askPause

/-- Posting is stopped no longer: the stalled writes are ready (R134). -/
def Stall.isPosting : Stall → Bool
  | .postingStopped => true
  | .bufferFull => false

/-- A queue at the switch of a RELOAD (R124): one whose descriptor changes is empty, and keeps its totals and LAST_TICKET. -/
def QState.relaid (changed : Bool) (v : QState) : QState :=
  if changed then { v with head := 0, tail := 0, count := 0, live := 0, positions := [] } else v

/-- The queues whose descriptor a set of descriptors changes. -/
def State.changedQueues (descs : Vector QDesc 6) (s : State) : List (Fin 6) :=
  queueIds.filter (fun q => decide (s.desc? q ≠ some descs[q]))

/-- The tables of a switch at the grading unit (R22). -/
def Tables.gu (t : Tables) : Gu := { classes := t.classes, caps := t.caps, bias := t.bias }

/-- The state put in force by the switch of a RELOAD (R155). The header writes of the queues whose descriptors changed join
the write queue in ascending queue number (notes/assumptions/27.md). -/
def State.reloaded (t : Tables) (s : State) : State :=
  let changed := s.changedQueues t.descs
  let s1 := { s with
    gu := t.gu
    bu := { s.bu with
            zones := t.zones
            avail := if t.zones = s.bu.zones then s.bu.avail else buildLists t.zones s.bu.bins }
    ru := { s.ru with setting := t.deadline }
    layout := { areas := t.areas, descs := some t.descs } }
  changed.foldl
    (fun u q => (u.setQueue q ((u.queue q).relaid true)).joinQu (.header q)) s1

/-- The end of a RELOAD's wait, with its switch made or not: the item command unit is resumed, its result is written, and
posting restarts (R155). A header write of the switch, a fetch that the resume issues and the result write stand at the memory
arbiter in this order (notes/assumptions/33.md). -/
def State.endReload (seq : Word32) (res : MbResult) (detail : Nat) (s : State) : State :=
  (((s.resumeIcu).answerOp seq res (BitVec.ofNat 32 detail)).releaseStalls Stall.isPosting).finish

/-- RELOAD_SWITCH (R155): with the buffer empty and the item command unit paused, the tests are made again, and then the
switch. -/
def execReloadSwitch (s : State) : Host.Outcome State Fault Refusal :=
  .next (match s.cu.work with
    | .reloadSwitch seq t =>
      if s.buffered = 0 ∧ s.icu.stage = .paused then
        match s.reloadRefusal t with
        | some r => s.endReload seq r.1 r.2
        | none => (s.reloaded t).endReload seq .ok (if t.zones = s.bu.zones then 0 else 1)
      else s
    | _ => s)

/-! ## The result write (R149) -/

/-- What takes effect when the result write completes (R37, R152, R158). -/
def State.applyAfter (a : CuAfter) (s : State) : State :=
  match a with
  | .nothing => s
  | .bias n v => { s with gu := { s.gu with bias := Map.put 0 n v s.gu.bias } }
  | .mode m => { s with cu := { s.cu with mode := m } }

/-- MAILBOX_RESULT_WRITE_DONE (R149): with OK the operation ends and its change takes effect; with FAULT it ends without
completing, in RUN and FROZEN by a halt. The write before the result write has then been answered OK
(notes/assumptions/10.md). -/
def execMailboxResultWriteDone (a : WriteAnswer) (h : HaltAnswers) (s : State) : Host.Outcome State Fault Refusal :=
  .next (match s.cu.work with
    | .result r =>
      (match a with
       | .ok =>
         ((((s.answerPrior.ownWrite .result (resultCells s.cbBase r) .ok).applyAfter r.after).raise .mailbox).endOperation).finish
       | .fault left => s.ownFault .resultWrite (resultLeftCells s.cbBase r) left h)
    | _ => s)

/-! ## The completion of a mailbox write (R147) -/

/-- A starting mailbox write starts an operation when memory answers it OK, whose read of the mailbox block is issued, and
releases the mailbox hold when memory answers it FAULT (R135, R147). -/
def State.afterMailboxWrite (starts : Bool) (a : WriteAnswer) (s : State) : State :=
  match starts, a with
  | true, .ok => ({ s with cu := { s.cu with work := .reading } }).askOwn .cuRead
  | true, .fault _ => s.releaseHolds Hold.isMailbox
  | false, _ => s

/-- MAILBOX_WRITE_DONE (R147): the oldest forwarded write is a mailbox write of the port. -/
def execMailboxWriteDone (p : Port) (a : WriteAnswer) (s : State) : Host.Outcome State Fault Refusal :=
  .next (match s.fwd with
    | [] => s
    | w :: _ =>
      match w.kind with
      | .mailbox p' starts =>
        if p' = p then
          (((s.answerForward w.cells a).answerPort p (fun t => answeredWrite t a)).afterMailboxWrite starts a).finish
        else s
      | _ => s)

end Sys2Proof.Machine
end

