-- ==== Sys2Proof/Machine/Start.lean ====
section
/-! DEFINITION. The reads of START_FRESH, START_RESTORE and RELOAD, what the starts build from them, and the switch of a start
(09_start_and_restore.md, R153, R154). Each read is served by itself, so that whatever else happens between two reads is seen
by the later one (R171, notes/assumptions/22.md). -/

namespace Sys2Proof.Machine

/-! ## Failure (R169) -/

/-- The RESULT and DETAIL of a phase that fails. -/
structure StartFail where
  result : MbResult
  detail : Nat
deriving DecidableEq, Repr

/-- The units after a failed start (R169): the internal tables at their reset values, everything else as before it. -/
def State.clearStart (s : State) : State :=
  { s with
    gu := Gu.reset
    bu := Bu.reset
    ru := { s.ru with table := [], deadlines := [], setting := Config.deadlineDef }
    qu := Qu.reset }

/-- A start that fails before its switch. -/
def State.failStart (seq : Word32) (f : StartFail) (s : State) : State :=
  (s.clearStart).answerOp seq f.result (BitVec.ofNat 32 f.detail)

/-- A tables phase that fails: a start is cleared, a RELOAD changes nothing (R154, R169). -/
def State.failTables (use : TableUse) (seq : Word32) (f : StartFail) (s : State) : State :=
  match use with
  | .reload => s.answerOp seq f.result (BitVec.ofNat 32 f.detail)
  | _ => s.failStart seq f

/-! ## A read of the control unit (R138, R160) -/

/-- No forwarded write that memory has not answered overlaps a run of bytes, so a read of it need not wait (R138, R161). -/
def State.cuMayRead (a n : Nat) (s : State) : Bool := !overlapsForward s.fwd a n

/-- A read of the control unit becomes ready and is granted and answered (R139, R140). It becomes ready at the command that serves it, behind
the part's requests that are ready by then (notes/assumptions/22.md). -/
def State.cuRead (s : State) : State := (s.askOwn .cuRead).ownRead .cuRead

/-- The operation the control unit executes goes on. -/
def State.working (w : CuWork) (s : State) : State := { s with cu := { s.cu with work := w } }

/-! ## The bin image phase (R162) -/

/-- An image passes the check of R162. -/
def BinImage.ok (i : BinImage) : Bool :=
  decide (i.cls < Config.classes) && decide (i.capacity ≤ Config.binCapMax) && decide (i.occupied ≤ Config.binCapMax)
    && (BinState.ofCode? i.state).isSome && !(i.state == 3 && decide (0 < i.occupied))

/-- The image of a bin that the map of images does not list. -/
def BinImage.zero : BinImage := Bin.image Bin.reset

/-- The images of a run of bins, each checked as it arrives. -/
def readImages (d : Memory) (cb : Nat) : List Nat → Option (Map BinImage)
  | [] => some []
  | b :: r =>
    if (Memory.binImage d (binImageAddr cb b)).ok then
      match readImages d cb r with
      | some m => some (if Memory.binImage d (binImageAddr cb b) = BinImage.zero then m
          else (b, Memory.binImage d (binImageAddr cb b)) :: m)
      | none => none
    else none

/-- The bins of the read `i` of the bin image phase. -/
def blockBins (i : Nat) : List Nat := (List.range 8).map (8 * i + ·)

/-- The reads of the bin image phase. -/
def imageReads : Nat := 256

/-- A bin as a start loads it from its image: RESERVED 0, and FULL taken as OPEN by START_FRESH (R87, R162). -/
def BinImage.load (fresh : Bool) (i : BinImage) : Bin :=
  { cls := i.cls
    capacity := i.capacity
    occupied := i.occupied
    reserved := 0
    state := match BinState.ofCode? i.state with
      | some .full => if fresh then .opened else .full
      | some st => st
      | none => .opened }

/-- The bin table loaded from the images: the bins that do not have the reset entry. -/
def loadBins (fresh : Bool) (images : Map BinImage) : Map Bin :=
  (List.range Config.bins).filterMap (fun b =>
    if (Map.getD BinImage.zero images b).load fresh = Bin.reset then none
    else some (b, (Map.getD BinImage.zero images b).load fresh))

/-- The bin unit with the bin table loaded; its lists and its image write queue stay empty (R162). -/
def Bu.loaded (fresh : Bool) (images : Map BinImage) (u : Bu) : Bu :=
  { u with bins := loadBins fresh images, avail := [], imageQueue := [] }

/-- The start waits for its switch: posting is stopped (R134). -/
def State.awaitSwitch (p : StartPlan) (s : State) : State := s.working (.startSwitch p)

/-- What START_FRESH builds (R163): every queue empty, no reservation, the counter 1. -/
def State.buildFresh (d : StartData) (s : State) : State :=
  ({ s with
     bu := s.bu.loaded true d.images
     ru := { s.ru with table := [], deadlines := [] }
     qu := Qu.reset }).awaitSwitch { data := d, detail := 0, counter := 1 }

/-- A read of eight bin images (R162). -/
def State.readImageBlock (fault : Option ReadSite) (fresh : Bool) (d : StartData) (made : Nat) (s : State) : State :=
  if s.cuMayRead (s.cbBase + imagesOff + 64 * made) 64 then
    if fault = some (.imageBlock made) then s.cuRead.failStart d.seq { result := .memFault, detail := 8 }
    else
      match readImages s.cuRead.memory s.cbBase (blockBins made) with
      | none => s.cuRead.failStart d.seq { result := .tableInvalid, detail := 8 }
      | some m =>
        let d1 := { d with images := d.images ++ m }
        if made + 1 < imageReads then s.cuRead.working (.images fresh d1 (made + 1))
        else if fresh then s.cuRead.buildFresh d1
        else s.cuRead.working (.headers d1 [])
  else s

/-! ## The tables phase (R153, R161) -/

/-- The tables have been read: they are validated, and the operation goes on (R154, R161). -/
def State.endTables (use : TableUse) (seq : Word32) (t : TablesRead) (s : State) : State :=
  match t.check s.cbBase with
  | .error n => s.failTables use seq { result := .tableInvalid, detail := n }
  | .ok tables =>
    match use with
    | .reload => s.reloadTests seq tables
    | .fresh => s.working (.images true { seq := seq, tables := tables, mask := t.mask, images := [] } 0)
    | .restore => s.working (.images false { seq := seq, tables := tables, mask := t.mask, images := [] } 0)

/-- A read of the tables phase. -/
def State.readTable (fault : Option ReadSite) (use : TableUse) (seq : Word32) (made : Nat) (t : TablesRead) (s : State) :
    State :=
  match (tableSites use)[made]? with
  | none => s
  | some site =>
    if s.cuMayRead (s.cbBase + (tableRun site).1) (tableRun site).2 then
      if fault = some site then s.cuRead.failTables use seq { result := .memFault, detail := tableNumber site }
      else
        let t1 := t.take s.cuRead.memory s.cbBase site
        if made + 1 < (tableSites use).length then s.cuRead.working (.tables use seq (made + 1) t1)
        else s.cuRead.endTables use seq t1
    else s

/-! ## START_RESTORE: reservations (R166) -/

/-- Restore creates and restore counts for the LIVE entries of Q0 and Q1, in the order the entries were read, and how many were
made. -/
def recreate : List RingEntry → Ru × Bu × Nat → Except StartFail (Ru × Bu × Nat)
  | [], x => .ok x
  | e :: r, (ru, bu, n) =>
    if e.position.state = .live ∧ isRestockQueue e.queue = true then
      match ru.restoreCreate e.position.id e.bin e.queue e.position.ticket with
      | .full => .error { result := .restoreFailed, detail := 7 }
      | .duplicate => .error { result := .restoreFailed, detail := 8 }
      | .created ru1 =>
        match bu.restoreCount e.bin with
        | some bu1 => recreate r (ru1, bu1, n + 1)
        | none => .error { result := .restoreFailed, detail := 9 }
    else recreate r (ru, bu, n)

/-! ## START_RESTORE: entries (R165) -/

/-- A failed check of the rings (9.1). -/
def checkFail (check : Nat) (q : Fin 6) : StartFail := { result := .restoreFailed, detail := check + 256 * q.val }

/-- A read of a header or a ring answered FAULT (R164, R165). -/
def ringFault : StartFail := { result := .memFault, detail := 7 }

/-- The header fields of a queue among those read, Q0 first. -/
def headerOf (headers : List QHeader) (q : Fin 6) : QHeader :=
  headers.getD q.val { head := 0, tail := 0, count := 0, live := 0, lastTicket := 0, appended := 0, taken := 0, voided := 0 }

/-- The entries that the entry phase reads, in order: for each queue the COUNT entries from HEAD on, by their distance behind
HEAD (R165). -/
def entrySites (headers : List QHeader) : List (Fin 6 × Nat) :=
  queueIds.flatMap (fun q => (List.range (headerOf headers q).count).map (fun k => (q, k)))

/-- The ring position of the entry `k` places behind HEAD (R165). -/
def entryPos (cap : Nat) (h : QHeader) (k : Nat) : Nat := (h.head + k) % cap

/-- The entry checks of R165: the number of the one that fails. -/
def checkEntry (areas : Vector AreaDesc 4) (images : Map BinImage) (seen : List Word32) (q : Fin 6) (e : EntryRead) :
    Option Nat :=
  if e.state ≠ entLive ∧ e.state ≠ entVoid then some 3
  else if e.ticket = 0 ∨ seen.contains e.ticket then some 4
  else if e.state = entLive ∧ isRestockQueue q then
    match areas[e.id.area]? with
    | some a =>
      if a.valid ∧ e.id.slot < a.slots then
        if e.bin < Config.bins ∧ (Map.getD BinImage.zero images e.bin).state ≠ 3 then none else some 6
      else some 5
    | none => some 5
  else none

/-- An entry that has passed its checks, as it is entered at its position (R165). -/
def EntryRead.entered (q : Fin 6) (pos : Nat) (e : EntryRead) : RingEntry :=
  { queue := q, pos := pos, bin := e.bin,
    position := { state := if e.state = entLive then .live else .void, ticket := e.ticket, id := e.id } }

/-- A queue rebuilt from its header and its entries (R123, R164, R165). -/
def rebuildQueue (h : QHeader) (l : List RingEntry) : QState :=
  { head := h.head
    tail := h.tail
    count := h.count
    live := l.countP (fun x => x.position.state == .live)
    lastTicket := h.lastTicket
    appended := h.appended
    taken := h.taken
    voided := h.voided
    positions := l.foldl (fun m x => Map.ins x.pos x.position m) []
    waiters := [] }

/-- The entries of a queue among those read. -/
def entriesOf (read : List RingEntry) (q : Fin 6) : List RingEntry := read.filter (fun e => e.queue == q)

/-- The queue unit with the queues that a restore has read. -/
def rebuildQueues (headers : List QHeader) (read : List RingEntry) : Qu :=
  let v (q : Fin 6) : QState := rebuildQueue (headerOf headers q) (entriesOf read q)
  { Qu.reset with queues := #v[v 0, v 1, v 2, v 3, v 4, v 5] }

/-- The entries have been read: the reservations are recreated, the counter is that of R167, and the start waits for its
switch. -/
def State.endEntries (d : StartData) (headers : List QHeader) (read : List RingEntry) (s : State) : State :=
  match recreate read ({ s.ru with table := [], deadlines := [] }, s.bu.loaded false d.images, 0) with
  | .error f => s.failStart d.seq f
  | .ok (ru, bu, n) =>
    ({ s with qu := rebuildQueues headers read, ru := ru, bu := bu }).awaitSwitch
      { data := d
        detail := BitVec.ofNat 32 n
        counter := freeTicket (rebuildQueues headers read).queues (ticketAfter d.tables.ticketImage) }

/-- The entry phase goes on to its next read, or ends when every entry has been read. -/
def State.toEntries (d : StartData) (headers : List QHeader) (read : List RingEntry) (s : State) : State :=
  if read.length < (entrySites headers).length then s.working (.entries d headers read) else s.endEntries d headers read

/-- A read of a ring entry (R165). -/
def State.readEntry (fault : Option ReadSite) (d : StartData) (headers : List QHeader) (read : List RingEntry) (s : State) :
    State :=
  match (entrySites headers)[read.length]? with
  | none => s
  | some (q, k) =>
    let pos := entryPos d.tables.descs[q].capacity (headerOf headers q) k
    let a := d.tables.descs[q].entryAddr pos
    if s.cuMayRead a Config.entryBytes then
      if fault = some (.ringEntry q k) then s.cuRead.failStart d.seq ringFault
      else
        let e := Memory.entry s.cuRead.memory a
        match checkEntry d.tables.areas d.images (read.map (·.position.ticket)) q e with
        | some c => s.cuRead.failStart d.seq (checkFail c q)
        | none => s.cuRead.toEntries d headers (read ++ [e.entered q pos])
    else s

/-! ## START_RESTORE: headers (R164) -/

/-- The checks of a header (R164): the number of the one that fails. -/
def QHeader.check (cap : Nat) (h : QHeader) : Option Nat :=
  if cap ≤ h.head ∨ cap ≤ h.tail ∨ cap < h.count then some 1
  else if h.count = (h.tail + cap - h.head) % cap ∨ (h.count = cap ∧ h.tail = h.head) then none
  else some 2

/-- The headers checked in order of queue number. -/
def checkHeaders (descs : Vector QDesc 6) (headers : List QHeader) : List (Fin 6) → Option StartFail
  | [] => none
  | q :: r =>
    match (headerOf headers q).check descs[q].capacity with
    | some n => some (checkFail n q)
    | none => checkHeaders descs headers r

/-- The six headers have been read. -/
def State.endHeaders (d : StartData) (headers : List QHeader) (s : State) : State :=
  match checkHeaders d.tables.descs headers queueIds with
  | some f => s.failStart d.seq f
  | none => s.toEntries d headers []

/-- A read of a queue header: 48 bytes at its RING_BASE (R164). -/
def State.readHeader (fault : Option ReadSite) (d : StartData) (read : List QHeader) (s : State) : State :=
  match queueIds[read.length]? with
  | none => s
  | some q =>
    if s.cuMayRead d.tables.descs[q].ringBase 48 then
      if fault = some (.queueHeader q) then s.cuRead.failStart d.seq ringFault
      else
        let h := Memory.header s.cuRead.memory d.tables.descs[q].ringBase
        if read.length + 1 < queueIds.length then s.cuRead.working (.headers d (read ++ [h]))
        else s.cuRead.endHeaders d (read ++ [h])
    else s

/-! ## The operations (R154, R160) -/

/-- The next read of the operation that reads, unless a forwarded write it overlaps keeps it waiting (R138). -/
def State.readNext (fault : Option ReadSite) (s : State) : State :=
  match s.cu.work with
  | .tables use seq made t => s.readTable fault use seq made t
  | .images fresh d made => s.readImageBlock fault fresh d made
  | .headers d read => s.readHeader fault d read
  | .entries d headers read => s.readEntry fault d headers read
  | _ => s

/-- A number of the operation's reads, one after the other. -/
def State.reads (fault : Option ReadSite) : Nat → State → State
  | 0, s => s
  | n + 1, s => State.reads fault n (s.readNext fault)

/-- An operation begins its tables phase. -/
def State.beginTables (use : TableUse) (seq : Word32) (s : State) : State :=
  s.working (.tables use seq 0 TablesRead.none)

/-- The operation that the control unit executes is in a phase of reads of START_FRESH, START_RESTORE or RELOAD. -/
def CuWork.readsFor (use : TableUse) : CuWork → Bool
  | .tables u _ _ _ => u == use
  | .images fresh _ _ => use == (if fresh then .fresh else .restore)
  | .headers _ _ => use == .restore
  | .entries _ _ _ => use == .restore
  | _ => false

/-- An operation of a code that reads the tables: decided when its mailbox block has been read, and gone on with while it
reads (R148, R154, R160). -/
def State.readingOperation (use : TableUse) (op reads : Nat) (fault : Option ReadSite) (s : State) : State :=
  if s.cu.work.readsFor use then s.reads fault reads
  else s.onOperation op (fun mb t => (t.beginTables use mb.seq).reads fault reads)

/-- RELOAD (R154). -/
def execReload (r : ReadsServed) (s : State) : Host.Outcome State Fault Refusal :=
  .next (s.readingOperation .reload 3 r.reads r.fault)

/-- START_FRESH (R160, R163). -/
def execStartFresh (r : ReadsServed) (s : State) : Host.Outcome State Fault Refusal :=
  .next (s.readingOperation .fresh 1 r.reads r.fault)

/-- START_RESTORE (R160): given by the mailbox, or begun by AUTOLOAD with SEQ 0 (R159). -/
def execStartRestore (r : ReadsServed) (s : State) : Host.Outcome State Fault Refusal :=
  .next (if s.cu.work = .automatic then (s.beginTables .restore 0).reads r.fault r.reads
    else s.readingOperation .restore 2 r.reads r.fault)

/-- AUTOLOAD_RESTORE (R159): the control unit starts START_RESTORE by itself. -/
def execAutoloadRestore (s : State) : Host.Outcome State Fault Refusal :=
  .next (if s.cu.work = .autoload then s.working .automatic else s)

/-! ## The switch of a start (R168) -/

/-- The queues after the head clean-up that the switch runs on each (R123). -/
def cleanAll (descs : Vector QDesc 6) (queues : Vector QState 6) : Vector QState 6 :=
  queueIds.foldl (fun v (q : Fin 6) => v.set q (v[q].cleanHead descs[q].capacity)) queues

/-- The bins whose entry differs in any field from its image as loaded, in ascending bin number (R87). -/
def changedBins (bins : Map Bin) (images : Map BinImage) : List Nat :=
  (List.range Config.bins).filter (fun b =>
    decide ((Map.getD Bin.reset bins b).image ≠ Map.getD BinImage.zero images b))

/-- The state put in force by the switch of a start. -/
def State.switched (p : StartPlan) (s : State) : State :=
  { s with
    gu := p.data.tables.gu
    bu := { s.bu with
            zones := p.data.tables.zones
            avail := buildLists p.data.tables.zones s.bu.bins
            imageQueue := changedBins s.bu.bins p.data.images }
    ru := { s.ru with setting := p.data.tables.deadline }
    qu := { s.qu with queues := cleanAll p.data.tables.descs s.qu.queues }
    icu := { s.icu with counter := p.counter }
    eu := { s.eu with mask := p.data.mask }
    layout := { areas := p.data.tables.areas, descs := some p.data.tables.descs }
    cu := { s.cu with mode := .run } }

/-- The writes that follow the switch: the six headers, the bin images, the MODE echo of RUN, and the result write. The first
header write, the first image write and the echo write stand at the memory arbiter in this order (notes/assumptions/34.md). -/
def State.afterSwitch (p : StartPlan) (s : State) : State :=
  let s1 := (queueIds.foldl (fun u q => u.joinQu (.header q)) s).kickImages
  s1.startResult
    { seq := some p.data.seq, result := .ok, detail := p.detail, prior := .echo .run, after := .nothing }

/-- START_SWITCH (R168): with the posted write buffer empty, everything the start has built is put in force. -/
def execStartSwitch (s : State) : Host.Outcome State Fault Refusal :=
  .next (match s.cu.work with
    | .startSwitch p =>
      if s.buffered = 0 then
        ((((s.switched p).afterSwitch p).releaseStalls Stall.isPosting)).finish
      else s
    | _ => s)

end Sys2Proof.Machine
end

