-- ==== Sys2Proof/Machine/Reset.lean ====
section
/-! DEFINITION. Power-on and line reset (R159). -/

namespace Sys2Proof.Machine

/-- POWER_ON (R159): the straps are sampled and every unit is set to its reset state; DRAM is not changed. -/
def execPowerOn (cbsel : Fin 16) (autoload : Bool) (s : State) : Host.Outcome State Fault Refusal :=
  .next (State.resetWith cbsel autoload s.dram s.pending)

/-- LINE_RESET (R128, R159): as power-on; both controllers are reset with the part, and requests outstanding before the reset
are given no response. -/
def execLineReset (cbsel : Fin 16) (autoload : Bool) (s : State) : Host.Outcome State Fault Refusal :=
  .next (State.resetWith cbsel autoload s.dram s.pending)

end Sys2Proof.Machine
end

