-- ==== Sys2Proof/Machine/Dispatch.lean ====
section
/-! DEFINITION. One arm per command: its meaning. -/

namespace Sys2Proof.Machine

/-- The effect of a command on everything but the queue of waiting commands. -/
def exec (i : Instr) (s : State) : Host.Outcome State Fault Refusal :=
  match i with
  | .powerOn cbsel autoload => Sys2Proof.Machine.execPowerOn cbsel autoload s
  | .lineReset cbsel autoload => Sys2Proof.Machine.execLineReset cbsel autoload s
  | .autoloadRestore => Sys2Proof.Machine.execAutoloadRestore s
  | .badRequest p r => Sys2Proof.Machine.execBadRequest p r s
  | .takeWordMisuse p r => Sys2Proof.Machine.execTakeWordMisuse p r s
  | .passRead p r => Sys2Proof.Machine.execPassRead p r s
  | .passWrite p r => Sys2Proof.Machine.execPassWrite p r s
  | .postedWriteDrain a => Sys2Proof.Machine.execPostedWriteDrain a s
  | .itemRead p r => Sys2Proof.Machine.execItemRead p r s
  | .itemPlainWrite p r => Sys2Proof.Machine.execItemPlainWrite p r s
  | .commandWrite p r => Sys2Proof.Machine.execCommandWrite p r s
  | .commandWriteComplete p a => Sys2Proof.Machine.execCommandWriteComplete p a s
  | .cmdOpen => Sys2Proof.Machine.execCmdOpen s
  | .cmdCommit => Sys2Proof.Machine.execCmdCommit s
  | .appendEntryWriteDone => Sys2Proof.Machine.execAppendEntryWriteDone s
  | .cmdRegrade => Sys2Proof.Machine.execCmdRegrade s
  | .cmdPlaced => Sys2Proof.Machine.execCmdPlaced s
  | .cmdMisfit => Sys2Proof.Machine.execCmdMisfit s
  | .cmdWithdraw => Sys2Proof.Machine.execCmdWithdraw s
  | .cmdClear => Sys2Proof.Machine.execCmdClear s
  | .badCommand => Sys2Proof.Machine.execBadCommand s
  | .fetchFault => Sys2Proof.Machine.execFetchFault s
  | .takeNotice => Sys2Proof.Machine.execTakeNotice s
  | .expiryNotice => Sys2Proof.Machine.execExpiryNotice s
  | .writeBackComplete => Sys2Proof.Machine.execWriteBackComplete s
  | .takeRead p r => Sys2Proof.Machine.execTakeRead p r s
  | .takeComplete q => Sys2Proof.Machine.execTakeComplete q s
  | .viewRead p r => Sys2Proof.Machine.execViewRead p r s
  | .viewWrite p r => Sys2Proof.Machine.execViewWrite p r s
  | .ringRead p r => Sys2Proof.Machine.execRingRead p r s
  | .ringWrite p r => Sys2Proof.Machine.execRingWrite p r s
  | .quWriteDone => Sys2Proof.Machine.execQuWriteDone s
  | .binImageWriteDone => Sys2Proof.Machine.execBinImageWriteDone s
  | .tick => Sys2Proof.Machine.execTick s
  | .expiry => Sys2Proof.Machine.execExpiry s
  | .eventRead p r => Sys2Proof.Machine.execEventRead p r s
  | .eventEnableWrite p r => Sys2Proof.Machine.execEventEnableWrite p r s
  | .cbTableWrite p r => Sys2Proof.Machine.execCbTableWrite p r s
  | .mailboxReadFault => Sys2Proof.Machine.execMailboxReadFault s
  | .badOp => Sys2Proof.Machine.execBadOp s
  | .startFresh r => Sys2Proof.Machine.execStartFresh r s
  | .startRestore r => Sys2Proof.Machine.execStartRestore r s
  | .startSwitch => Sys2Proof.Machine.execStartSwitch s
  | .reload r => Sys2Proof.Machine.execReload r s
  | .reloadSwitch => Sys2Proof.Machine.execReloadSwitch s
  | .freeze => Sys2Proof.Machine.execFreeze s
  | .thaw => Sys2Proof.Machine.execThaw s
  | .setBias => Sys2Proof.Machine.execSetBias s
  | .nudge => Sys2Proof.Machine.execNudge s
  | .binSet => Sys2Proof.Machine.execBinSet s
  | .binLock => Sys2Proof.Machine.execBinLock s
  | .binUnlock => Sys2Proof.Machine.execBinUnlock s
  | .binRetire => Sys2Proof.Machine.execBinRetire s
  | .binPicked => Sys2Proof.Machine.execBinPicked s
  | .clearHalt => Sys2Proof.Machine.execClearHalt s
  | .mailboxResultWriteDone a h => Sys2Proof.Machine.execMailboxResultWriteDone a h s
  | .halt c left h => Sys2Proof.Machine.execHalt c left h s
  | .mailboxWrite p r => Sys2Proof.Machine.execMailboxWrite p r s
  | .mailboxWriteDone p a => Sys2Proof.Machine.execMailboxWriteDone p a s

end Sys2Proof.Machine
end

