-- ==== Sys2Proof/WellFormed.lean ====
section
/-! DEFINITION. Which terms of `Instr` are commands the part can meet: the operands fit the interfaces (R127, R153, R162,
R165). A term that is not well formed still has a meaning; the check says which terms stand for a command of the spec. -/

namespace Sys2Proof

/-- A write carries one byte enable, and a value where it is set, per byte of its length (R127). -/
def WriteReq.wf (r : WriteReq) : Bool := r.bytes.length == r.len

/-- A request of either kind. -/
def Request.wf : Request → Bool
  | .read _ => true
  | .write r => r.wf

/-- A read a start makes: a table 1 to 7, one of the 256 image reads, a ring entry within the largest capacity. -/
def ReadSite.wf : ReadSite → Bool
  | .table n => decide (1 ≤ n) && decide (n ≤ 7)
  | .eventEnable => true
  | .imageBlock i => decide (i < 256)
  | .queueHeader _ => true
  | .ringEntry _ k => decide (k < Config.qcapMax)

/-- A read of the tables alone, which RELOAD makes (R154). -/
def ReadSite.isTable : ReadSite → Bool
  | .table _ => true
  | _ => false

/-- A read of a ring area, which START_FRESH makes none of (R163). -/
def ReadSite.isRing : ReadSite → Bool
  | .queueHeader _ => true
  | .ringEntry _ _ => true
  | _ => false

/-- A command whose operands fit the spec's interfaces. -/
def Instr.wf : Instr → Bool
  | .badRequest _ r => r.wf
  | .passWrite _ r => r.wf
  | .itemPlainWrite _ r => r.wf
  | .commandWrite _ r => r.wf
  | .viewWrite _ r => r.wf
  | .ringWrite _ r => r.wf
  | .eventEnableWrite _ r => r.wf
  | .cbTableWrite _ r => r.wf
  | .mailboxWrite _ r => r.wf
  | .startFresh ⟨_, some x⟩ => x.wf && !x.isRing
  | .startRestore ⟨_, some x⟩ => x.wf
  | .reload ⟨_, some x⟩ => x.wf && x.isTable
  | .halt c left _ => (match c with
    | .noticeFetch => left.isEmpty
    | .takeRead _ => left.isEmpty
    | _ => true)
  | _ => true

end Sys2Proof
end

