-- ==== Sys2Proof/Safety.lean ====
section
/-! DEFINITION. What the statements about the part are said with: the limits and invariants of its state, the situations in
which a command has its occasion, and the result of a request that the decoder takes at once. -/

namespace Sys2Proof.Machine

/-! ## Invariants -/

/-- Each forwarded write's enabled bytes lie among the bytes it covers (R127, R138). -/
def State.forwardCovers (s : State) : Prop := ∀ w ∈ s.fwd, ∀ c ∈ w.cells, w.addr ≤ c.1 ∧ c.1 < w.addr + w.len

/-- DRAM in its canonical form, at most 8 requests outstanding at each port (R128), at most 8 writes in the posted write
buffer (R137), no more grants of forwarded writes than writes (R139), and no forwarded write with an enabled byte outside the
bytes it covers (R127, R138). -/
def State.withinLimits (s : State) : Prop :=
  Memory.wf s.dram = true ∧ s.portA.outstanding.length ≤ 8 ∧ s.portB.outstanding.length ≤ 8 ∧ s.buffered ≤ 8 ∧
  s.ma.sent ≤ s.fwd.length ∧ s.forwardCovers

/-- The slots of the admitted command-carrying writes that memory has not answered. -/
def commandSlots (fwd : List FwdWrite) : List SlotId :=
  fwd.filterMap (fun w => match w.kind with | .command _ id => some id | _ => none)

/-- The command queue holds at most 24 places and at most 16 commands (R14, R38), and a place is given to each admitted
write. -/
def State.queueLimits (s : State) : Prop :=
  s.icu.given = commandSlots s.fwd ∧ s.places ≤ 24 ∧ s.commandPlaces ≤ 16

/-- An operation that reads or builds the units' tables, or puts them in force. -/
def CuWork.builds : CuWork → Bool
  | .autoload => true
  | .automatic => true
  | .tables _ _ _ _ => true
  | .images _ _ _ => true
  | .headers _ _ => true
  | .entries _ _ _ => true
  | .startSwitch _ => true
  | .reloadSwitch _ _ => true
  | _ => false

/-- While the mode is HALTED the item command unit is idle with no command and no notice, no reservation stands, the bin
table and the lists are as after a reset, and the queue unit holds nothing (R156); no operation executes that could build
any of them. A result write never makes the mode HALTED. -/
def State.haltedHoldsNothing (s : State) : Prop :=
  (∀ r, s.cu.work = .result r → r.after ≠ .mode .halted) ∧
  (s.cu.mode = .halted →
    s.icu.stage = .idle ∧ s.icu.cq = [] ∧ s.icu.given = [] ∧ commandSlots s.fwd = [] ∧
    s.ru.table = [] ∧ s.ru.deadlines = [] ∧ s.bu = s.bu.halted ∧ s.qu = Qu.reset ∧
    s.cu.work.builds = false)

/-! ## A settled part -/

/-- The oldest write of the forwarded side waits for an answer of memory that is a command of its own (R137, R14, R147). -/
def forwardWaits : List FwdWrite → Bool
  | [] => true
  | w :: _ => match w.kind with
    | .plain _ _ => false
    | .eventEnable _ _ => false
    | _ => true

/-- A port's oldest request is not complete, so the port has no response to return (R128). -/
def nothingToReturn : List Outstanding → Bool
  | [] => true
  | o :: _ => match o.stage with
    | .complete _ => false
    | _ => true

/-- No request is ready, no response can be returned, and no plain write can go: what every command leaves. -/
def State.settled (s : State) : Prop :=
  s.chosenPort = none ∧ forwardWaits s.fwd = true ∧ nothingToReturn s.portA.outstanding = true ∧
  nothingToReturn s.portB.outstanding = true

/-- A port that can accept a request and present it at once: the part is settled, fewer than 8 requests are outstanding, and
none of them is held or stalled (R128, R129). -/
def State.portFree (p : Port) (s : State) : Prop :=
  s.settled ∧ (s.port p).outstanding.length < Config.outstandingMax ∧ headRequest (s.port p).outstanding = none

/-- The state after a request has been taken at once by the decoder, which has changed the units to `s` and given the request
a stage: it stands last in its port's list, the pointer names the other port (R130), the forwarded side serves what may go,
and the ports return what they may. -/
def State.taken (p : Port) (req : Request) (st : Stage) (s : State) : State :=
  ((State.setPort { s with ia := otherPort p } p
      { outstanding := (s.port p).outstanding ++
          [{ req := req, twin := tagListed (s.port p).outstanding (tagOf req), stage := st }]
        returned := (s.port p).returned }).goForward).deliver

/-- A request is legal behind the requests outstanding at its port (R127). -/
def legalRead (p : Port) (r : ReadReq) (s : State) : Prop :=
  illegal (tagListed (s.port p).outstanding r.tag) r.addr r.len = false

/-- A write is legal behind the requests outstanding at its port, and enables some byte (R127). -/
def legalWrite (p : Port) (r : WriteReq) (s : State) : Prop :=
  illegal (tagListed (s.port p).outstanding r.tag) r.addr r.len = false ∧ (writeCellsOf r).isEmpty = false

/-- The state after a protection check: `EVT_PROTECTION` is raised once when an enabled byte of a write was dropped (R13,
R133, R176). -/
def protection (all kept : Cells) (s : State) : State := if kept.length < all.length then s.raise .protection else s

/-! ## The units' write queues and lists -/

/-- An item of the queue unit waits in its write queue or is in flight (R109). -/
def State.queued (i : QuItem) (s : State) : Prop :=
  i ∈ s.qu.waiting ∨ ∃ f, s.qu.inFlight = some f ∧ f.item = i

/-- Every availability list holds exactly the eligible bins of its class and kind, each once (R70). -/
def listsHoldEligible (u : Bu) : Prop :=
  ∀ (c : Nat) (k : ZoneKind), (u.list (listKey c k)).Nodup ∧
    ∀ b, b ∈ u.list (listKey c k) ↔
      (u.bin b).state = .opened ∧ 0 < (u.bin b).free ∧ kindOf u.zones b = some k ∧ (u.bin b).cls = c

/-! ## A service whose fetch is answered -/

/-- The item command unit serves a command on the slot at address `a`, and its fetch is made. -/
def State.atCommand (svc : Service) (a : Nat) (s : State) : Prop :=
  s.icu.stage = .fetching svc ∧ svc.addr = some a ∧ svc.entry.isCommand = true

/-- The state with the record write-back of a service issued: nothing else has changed (R42, R43). -/
def State.writesBack (svc : Service) (cells : Cells) (events : List EventKind) (s : State) : State :=
  { s with icu := { s.icu with stage := .writeBack svc cells events }, ma := s.ma.ask .writeBack }

/-! ## An operation whose mailbox read is answered -/

/-- An operation of a code is executing and its mailbox block has been read (R147). -/
def State.atOperation (op : Nat) (s : State) : Prop := s.cu.work = .reading ∧ s.mailbox.op = op

/-- The state with the mailbox result write of an operation issued, or the write that goes before it: nothing else has changed
(R37, R149, R151). -/
def State.answers (r : ResultWrite) (s : State) : State :=
  { s with
    cu := { s.cu with work := .result r }
    ma := s.ma.ask (match r.prior with | .nothing => .result | _ => .cuWrite) }

/-- A result write that only reports. -/
def report (seq : Word32) (res : MbResult) (detail : Word32) : ResultWrite :=
  { seq := some seq, result := res, detail := detail, prior := .nothing, after := .nothing }

/-! ## What DRAM holds for a start or a RELOAD -/

/-- The command that serves a number of reads of START_FRESH, START_RESTORE or RELOAD. -/
def readsOf (use : TableUse) (reads : Nat) (fault : Option ReadSite) : Instr :=
  match use with
  | .fresh => .startFresh ⟨reads, fault⟩
  | .restore => .startRestore ⟨reads, fault⟩
  | .reload => .reload ⟨reads, fault⟩

/-- No write of the part is outstanding, and none was answered ahead of a forwarded write granted before it: the bytes that a
read finds beside DRAM's are those of forwarded writes (R141). -/
def State.noOwnWrite (s : State) : Prop :=
  s.writeBackCells = [] ∧ s.quFlightCells = [] ∧ s.imageFlightCells = [] ∧ s.cuFlightCells = [] ∧
  ∀ c, Grant.done c ∉ s.ma.order

/-- The tables of a control block as DRAM holds them (R153, R161). -/
def tablesIn (d : Memory) (cb : Nat) (use : TableUse) : TablesRead :=
  (tableSites use).foldl (TablesRead.take d cb) TablesRead.none

/-- The six queue headers as DRAM holds them (R164). -/
def headersIn (d : Memory) (descs : Vector QDesc 6) : List QHeader :=
  queueIds.map (fun q => Memory.header d descs[q].ringBase)

/-- A ring entry as DRAM holds it, by its queue and its distance behind HEAD (R165). -/
def entryIn (d : Memory) (descs : Vector QDesc 6) (headers : List QHeader) (x : Fin 6 × Nat) : EntryRead :=
  Memory.entry d (descs[x.1].entryAddr (entryPos descs[x.1].capacity (headerOf headers x.1) x.2))

/-- The entries within the COUNT of each queue, as the entry phase enters them, in the order in which it reads them (R165). -/
def entriesIn (d : Memory) (descs : Vector QDesc 6) (headers : List QHeader) : List RingEntry :=
  (entrySites headers).map (fun x =>
    (entryIn d descs headers x).entered x.1 (entryPos descs[x.1].capacity (headerOf headers x.1) x.2))

/-- The LIVE entries of Q0 and Q1, which make reservations (R166). -/
def restockLive (l : List RingEntry) : List RingEntry :=
  l.filter (fun e => decide (e.position.state = .live) && decide (e.queue = 0 ∨ e.queue = 1))

/-- The QUEUED reservation of a ring entry (R166). -/
def RingEntry.reservation (e : RingEntry) : Reservation :=
  { id := e.position.id, bin := e.bin, queue := e.queue, ticket := e.position.ticket, state := .queued }

end Sys2Proof.Machine
end

