-- ==== Sys2Proof/Certificates/Slice0/Obligations.lean ====
section
/-! DEFINITION. The statements about the part, for the provers. Each stands for a numbered rule of spec/ or for a section of
it; the docstring says what it states. -/

open Sys2Proof Sys2Proof.Machine

/-! ## Steps and resets -/

/-- A step of a state with a command at the front of its queue is that command's effect on the state with the queue's rest;
on an empty queue nothing happens (the model's choice, notes/assumptions/14.md). -/
def Obligations.StepRunsTheFrontCommand : Prop :=
  ∀ (c : Instr) (s : State),
    step { s with pending := c :: s.pending } = exec c s ∧ (s.pending = [] → step s = .next s)

/-- Both resets put every unit at its reset value (R18, R23, R44, R67, R90, R126, R128, R130, R134, R137, R140, R150, R159,
R172, R173) and leave DRAM; with AUTOLOAD sampled as 1 an operation executes from then on, and AUTOLOAD_RESTORE begins a
restore with no mailbox read. That a write still in flight at a reset leaves DRAM as it is, is the model's choice
(notes/assumptions/12.md). -/
def Obligations.ResetsSetEveryUnit : Prop :=
  (∀ u : State, u.cu.work = .autoload →
    exec .autoloadRestore u = .next { u with cu := { u.cu with work := .automatic } }) ∧
  ∀ (cbsel : Fin 16) (autoload : Bool) (s : State), ∃ t : State,
    exec (.powerOn cbsel autoload) s = .next t ∧ exec (.lineReset cbsel autoload) s = .next t ∧
    t.portA.outstanding = [] ∧ t.portB.outstanding = [] ∧ t.ia = .A ∧ t.fwd = [] ∧
    t.ma = { last := .own, own := [], order := [], found := [] } ∧
    (∀ d ∈ t.layout.areas.toList, d.valid = false) ∧ t.layout.descs = none ∧
    (∀ c, t.gu.classOf c = none) ∧ (∀ c, t.gu.capOf c = .A) ∧ (∀ n, t.gu.biasOf n = 0) ∧
    (∀ b, t.bu.bin b = { cls := 0, capacity := 0, occupied := 0, reserved := 0, state := .opened }) ∧
    (∀ z ∈ t.bu.zones, z.valid = false) ∧ (∀ k, t.bu.list k = []) ∧ t.bu.imageQueue = [] ∧
    t.bu.imageInFlight = none ∧
    t.ru.table = [] ∧ t.ru.deadlines = [] ∧ t.ru.now = 0 ∧ t.ru.setting = 600 ∧ t.ru.pass = false ∧
    (∀ q, (t.queue q).head = 0 ∧ (t.queue q).tail = 0 ∧ (t.queue q).count = 0 ∧ (t.queue q).live = 0 ∧
      (t.queue q).lastTicket = 0 ∧ (t.queue q).appended = 0 ∧ (t.queue q).taken = 0 ∧ (t.queue q).voided = 0 ∧
      (∀ x, (t.queue q).position x = none) ∧ (t.queue q).waiters = []) ∧
    t.qu.waiting = [] ∧ t.qu.inFlight = none ∧
    t.icu.cq = [] ∧ t.icu.given = [] ∧ t.icu.stage = .idle ∧ t.icu.pauseAsked = false ∧ t.icu.counter = 1 ∧
    t.busySlots = [] ∧ t.places = 0 ∧
    t.cu.mode = .init ∧ t.cu.cbsel = cbsel ∧ t.cu.autoload = autoload ∧
    t.cu.work = (if autoload then .autoload else .idle) ∧
    t.eu.pending = 0 ∧ t.eu.mask = 0 ∧ t.eu.line = false ∧
    t.dram = s.dram ∧ t.pending = s.pending

/-- The state after a reset, whatever the straps and with any DRAM in its canonical form, has the invariants stated below and
is settled. -/
def Obligations.ResetHasTheInvariants : Prop :=
  ∀ (cbsel : Fin 16) (autoload : Bool) (d : Memory) (l : List Instr), Memory.wf d = true →
    (State.resetWith cbsel autoload d l).withinLimits ∧ (State.resetWith cbsel autoload d l).queueLimits ∧
    (State.resetWith cbsel autoload d l).haltedHoldsNothing ∧ (State.resetWith cbsel autoload d l).settled

/-! ## Invariants -/

/-- Every step keeps DRAM in its canonical form, at most 8 requests outstanding at a port, at most 8 writes in the posted
write buffer, no more grants of forwarded writes than writes that wait for an answer, and every enabled byte of a forwarded
write among the bytes it covers (R127, R128, R137, R138, R139); and from a settled state within these limits a step
leaves a settled one, so what a command has left to do at the ports is done to its end: no request is ready (R130), no response
can be returned (R128), and no plain write can go (R139). That all of it is done in the step of the command is the model's choice
(notes/assumptions/6.md). -/
def Obligations.StepsKeepTheLimits : Prop :=
  ∀ s t : State, s.withinLimits → step s = .next t → t.withinLimits ∧ (s.settled → t.settled)

/-- Every step keeps a place of CQ for each admitted write, at most 24 places and at most 16 commands (R14, R38). -/
def Obligations.StepsKeepTheQueueLimits : Prop :=
  ∀ s t : State, s.queueLimits → step s = .next t → t.queueLimits

/-- Every step keeps: while the mode is HALTED no entry, service, reservation, bin or queue stands (R156). -/
def Obligations.StepsKeepHaltedEmpty : Prop :=
  ∀ s t : State, s.haltedHoldsNothing → step s = .next t → t.haltedHoldsNothing

/-! ## Line ports and the arbiter -/

/-- The ingress arbiter's choice (R130): the one port with a ready head request, the port the pointer names when both have one,
none otherwise; after a choice the pointer names the other port. A port returns its oldest request's response, and only when
that request is complete (R128): the responses returned are those of a run of complete requests at the front of the list, in
order, and the list that remains begins with none. The memory arbiter's choice (R140): the side that alone offers, and of two
the one not granted last; each side offers its oldest request (R139), a write granted stands behind the writes granted before
it, and a read of the part granted stands with memory as those writes leave it (R141). A grant that a request waits for is
reached by grants of that kind, no more of them than it needs: that memory grants no earlier than an answer needs it is the
model's choice (notes/assumptions/9.md). The end of a command is one round of what may go and of what may be returned, and then
as many choices of the ingress arbiter as there are ready requests, each a take of the chosen port's head request and another
such round: that all of this is in the step of the command is the model's choice (notes/assumptions/6.md). -/
def Obligations.PortsTakeTurnsAndAnswerInOrder : Prop :=
  (∀ v : PortState, ∃ done : List Outstanding, ∃ responses : List Response,
    v.outstanding = done ++ v.deliver.outstanding ∧ v.deliver.returned = v.returned ++ responses ∧
    done.map (·.stage) = responses.map Stage.complete ∧ nothingToReturn v.deliver.outstanding = true) ∧
  (∀ s : State,
    (s.portA.ready = true → s.portB.ready = false → s.chosenPort = some .A) ∧
    (s.portA.ready = false → s.portB.ready = true → s.chosenPort = some .B) ∧
    (s.portA.ready = true → s.portB.ready = true → s.chosenPort = some s.ia) ∧
    (s.portA.ready = false → s.portB.ready = false → s.chosenPort = none) ∧
    ∀ p, (s.takeOne p).ia = otherPort p) ∧
  (∀ (n : Nat) (s : State), s.finish = settle 16 s.goForward.deliver ∧ settle 0 s = s ∧
    (s.chosenPort = none → settle (n + 1) s = s) ∧
    ∀ p, (s.chosenPort = some p → settle (n + 1) s = settle n (s.takeOne p)) ∧
      s.takeOne p = (({ s with ia := otherPort p }).takeHead p).goForward.deliver ∧
      ∀ o, headRequest (s.port p).outstanding = some o →
        s.takeHead p = (s.decideRequest p o.twin o.req).2.setHead p (s.decideRequest p o.twin o.req).1) ∧
  (∀ last : Side,
    grantChoice last true false = some .forwarded ∧ grantChoice last false true = some .own ∧
    grantChoice last false false = none ∧
    grantChoice .own true true = some .forwarded ∧ grantChoice .forwarded true true = some .own) ∧
  (∀ m : Arbiter, m.sent = m.order.count .forwarded) ∧
  (∀ (m : Arbiter) (r q : OwnReq) (d : Memory),
    ({ m with found := [] }).found? r = none ∧
    ({ m with found := (q, d) :: m.found }).found? r = (if q = r then some d else m.found? r) ∧
    (m.answerRead q).found? r = (if q = r then none else m.found? r) ∧
    m.answerRead q = { m with found := (m.answerRead q).found }) ∧
  ∀ (mem : List Grant → Memory) (n : Nat) (m : Arbiter),
    let ordered (r : OwnReq) : List Grant :=
      if r = .writeBack ∨ r = .queueWrite ∨ r = .imageWrite ∨ r = .cuWrite ∨ r = .result then [.own r] else []
    let ownGrant (g : Arbiter) (x : Side) : Arbiter :=
      match g.own with
      | [] => { g with last := x }
      | r :: l =>
        { last := x, own := l, order := g.order ++ ordered r,
          found := g.found ++ (if ordered r = [] then [(r, mem g.order)] else []) }
    (m.sent < n → (m.own = [] ∨ m.last = .own) →
      m.grantNext mem n = { m with last := .forwarded, order := m.order ++ [.forwarded] }) ∧
    (m.own ≠ [] → (n ≤ m.sent ∨ m.last = .forwarded) → m.grantNext mem n = ownGrant m .own) ∧
    (m.own = [] → n ≤ m.sent → m.grantNext mem n = m) ∧
    (∀ r, m.ask r = { m with own := m.own ++ [r] }) ∧
    (m.sent ≤ n →
      (∀ r, ∃ k, m.grantOwn mem n r = (Arbiter.grantNext mem n)^[k] m ∧ r ∉ ((Arbiter.grantNext mem n)^[k] m).own ∧
        ∀ j, j < k → r ∈ ((Arbiter.grantNext mem n)^[j] m).own) ∧
      (0 < n → ∃ k, m.grantWrite mem n = (Arbiter.grantNext mem n)^[k] m ∧ 0 < ((Arbiter.grantNext mem n)^[k] m).sent ∧
        ∀ j, j < k → ((Arbiter.grantNext mem n)^[j] m).sent = 0) ∧
      (∀ h, ∃ k, m.grantMany mem n h = (Arbiter.grantNext mem n)^[k] m ∧
        ((Arbiter.grantNext mem n)^[k] m).own.length ≤ m.own.length - h ∧
        ∀ j, j < k → m.own.length - h < ((Arbiter.grantNext mem n)^[j] m).own.length) ∧
      (∃ k g, g = (Arbiter.grantNext mem n)^[k] m ∧ g.sent = n ∧
        (∀ j, j < k → ((Arbiter.grantNext mem n)^[j] m).sent < n) ∧
        (g.last = .forwarded → m.grantRead mem n = ownGrant g .forwarded) ∧
        (g.last = .own → m.grantRead mem n = { g with last := .forwarded }))) ∧
    (n < m.sent →
      (m.last = .forwarded → m.grantRead mem n = ownGrant m .forwarded) ∧
      (m.last = .own → m.grantRead mem n = { m with last := .forwarded }))

/-- A port whose list holds 8 requests accepts none (R128; that the state stays as it is, is the model's choice,
notes/assumptions/8.md), and a request accepted behind a held or stalled one waits (R129); a request at a free port is taken at once, and what
it comes to is the decoder's decision, by which a request taken later is decided too (R12, R131). That every row of a request
comes to the same, whatever row it came under, is the model's reading (notes/assumptions/5.md). -/
def Obligations.RequestsThatWait : Prop :=
  ∀ (p : Port) (req : Request) (s : State),
    (8 ≤ (s.port p).outstanding.length → exec (.badRequest p req) s = .next s) ∧
    (∀ o, s.settled → (s.port p).outstanding.length < 8 → headRequest (s.port p).outstanding = some o →
      exec (.badRequest p req) s
        = .next (s.setPort p { s.port p with
            outstanding := (s.port p).outstanding ++
              [{ req := req, twin := tagListed (s.port p).outstanding (tagOf req), stage := .waiting }] })) ∧
    (s.portFree p →
      let t : Stage × State := s.decideRequest p (tagListed (s.port p).outstanding (tagOf req)) req
      exec (.badRequest p req) s = .next (State.taken p req t.1 t.2)) ∧
    (∀ r, req = .read r →
      exec (.takeWordMisuse p r) s = exec (.badRequest p req) s ∧ exec (.passRead p r) s = exec (.badRequest p req) s ∧
      exec (.itemRead p r) s = exec (.badRequest p req) s ∧ exec (.takeRead p r) s = exec (.badRequest p req) s ∧
      exec (.viewRead p r) s = exec (.badRequest p req) s ∧ exec (.ringRead p r) s = exec (.badRequest p req) s ∧
      exec (.eventRead p r) s = exec (.badRequest p req) s) ∧
    (∀ r, req = .write r →
      exec (.passWrite p r) s = exec (.badRequest p req) s ∧ exec (.itemPlainWrite p r) s = exec (.badRequest p req) s ∧
      exec (.commandWrite p r) s = exec (.badRequest p req) s ∧ exec (.viewWrite p r) s = exec (.badRequest p req) s ∧
      exec (.ringWrite p r) s = exec (.badRequest p req) s ∧
      exec (.eventEnableWrite p r) s = exec (.badRequest p req) s ∧
      exec (.cbTableWrite p r) s = exec (.badRequest p req) s ∧
      exec (.mailboxWrite p r) s = exec (.badRequest p req) s)

/-- A request is illegal by its length, its alignment, or the tag of a request that its port's list held when the port
accepted it, and is answered FAULT with `EVT_BAD_REQUEST`, at once or, accepted behind a held or stalled request, when the
decoder takes it; a legal write with every enable clear changes no state and is answered OK, but FAULT in HALTED at an item
slot, a ring area or a view window (R127, R128). That the tag is compared when the port accepts the request is the model's
reading (notes/assumptions/11.md). -/
def Obligations.RequestsAnsweredWithoutService : Prop :=
  (∀ (twin : Bool) (addr : Addr) (len : Nat),
    illegal twin addr len = true ↔
      (len ≠ 8 ∧ len ≠ 16 ∧ len ≠ 32 ∧ len ≠ 64) ∨ addr.toNat % len ≠ 0 ∨ twin = true) ∧
  (∀ (l : List Outstanding) (tag : Fin 8), tagListed l tag = true ↔ ∃ o ∈ l, tagOf o.req = tag) ∧
  (∀ (p : Port) (o : Outstanding) (s : State), headRequest (s.port p).outstanding = some o →
    (o.twin = true → s.takeHead p = (s.raise .badRequest).setHead p (faulted (tagOf o.req))) ∧
    ∀ l r : List Outstanding, ∀ st : Stage, (s.port p).outstanding = l ++ o :: r →
      (∀ x ∈ l, x.stage.undispatched = false) →
      ((s.setHead p st).port p).outstanding = l ++ { o with stage := st } :: r) ∧
  (∀ (p : Port) (r : ReadReq) (s : State), s.portFree p →
    illegal (tagListed (s.port p).outstanding r.tag) r.addr r.len = true →
    exec (.badRequest p (.read r)) s
      = .next (State.taken p (.read r) (faulted r.tag) (s.raise .badRequest))) ∧
  (∀ (p : Port) (r : WriteReq) (s : State), s.portFree p →
    illegal (tagListed (s.port p).outstanding r.tag) r.addr r.len = true →
    exec (.badRequest p (.write r)) s
      = .next (State.taken p (.write r) (faulted r.tag) (s.raise .badRequest))) ∧
  (∀ (p : Port) (r : WriteReq) (s : State), s.portFree p →
    illegal (tagListed (s.port p).outstanding r.tag) r.addr r.len = false → writeCellsOf r = [] →
    exec (.passWrite p r) s
      = .next (State.taken p (.write r)
          (if (s.classOf r.addr.toNat).isWatchedArea = true ∧ s.cu.mode = .halted then faulted r.tag else okDone r.tag) s))

/-! ## Requests that pass -/

/-- The window decoder's ranges (R1, R103, R131, R133): of the 20,480 bytes of the control block, in every mode, 64 to 127
are the mailbox and 128 to 191 the event block; outside them and in INIT nothing is watched; and otherwise an address is in the
slot of the valid area it falls in, at its offset in the ring area or view window it falls in, or outside. Where ranges overlap,
which the validation of a layout forbids, the first counts. A slot lies at its place in a valid area, and is in a trial area
when its area's TRIAL is set. A read outside every watched range, or in the control block outside the event block, is answered
with what its grant finds in memory and with memory's status, or waits behind the forwarded writes it overlaps (R12, R131,
R133, R138, R140, R141, R142). A read overlaps a write when an address is a byte of both, whatever the write's enables (R138), and
waits for the writes up to the youngest it overlaps. What a grant finds of a write that memory answers FAULT later is the model's
choice (notes/assumptions/37.md). -/
def Obligations.PassReadsReturnMemory : Prop :=
  (∀ (s : State) (x : Nat), s.cu.mode = .init → (s.classOf x).isWatchedArea = false) ∧
  (∀ s : State, s.cbBase = 67108864 * s.cu.cbsel.val) ∧
  (∀ (s : State) (x : Nat),
    let inBlock : Prop := s.cbBase ≤ x ∧ x < s.cbBase + 20480
    let inArea (i : Fin 4) : Prop := s.layout.areas[i].valid = true ∧ s.layout.areas[i].base ≤ x ∧
      x < s.layout.areas[i].base + 64 * s.layout.areas[i].slots
    let inRing (q : Fin 6) : Prop := ∃ d, s.desc? q = some d ∧ d.ringBase ≤ x ∧ x < d.ringBase + 64 + 16 * d.capacity
    let inView (q : Fin 6) : Prop := ∃ d, s.desc? q = some d ∧ d.viewBase ≤ x ∧ x < d.viewBase + 16 * d.capacity
    (∀ off, x = s.cbBase + off → off < 20480 → s.classOf x
      = (if 64 ≤ off ∧ off < 128 then .mailbox else if 128 ≤ off ∧ off < 192 then .event else .controlBlock off)) ∧
    (¬inBlock → s.cu.mode = .init → s.classOf x = .outside) ∧
    (¬inBlock → s.cu.mode ≠ .init →
      (∀ i, inArea i → (∀ j, j < i → ¬inArea j) →
        s.classOf x = .item { area := i.val, slot := (x - s.layout.areas[i].base) / 64 }) ∧
      ((∀ i, ¬inArea i) →
        (∀ q d, s.desc? q = some d → inRing q → (∀ p, p < q → ¬inRing p ∧ ¬inView p) →
          s.classOf x = .ring q (x - d.ringBase)) ∧
        (∀ q d, s.desc? q = some d → inView q → ¬inRing q → (∀ p, p < q → ¬inRing p ∧ ¬inView p) →
          s.classOf x = .view q (x - d.viewBase)) ∧
        ((∀ q, ¬inRing q ∧ ¬inView q) → s.classOf x = .outside)))) ∧
  (∀ (l : Layout) (id : SlotId) (a : Nat),
    (l.slotAddr id = some a ↔
      ∃ d, l.areas[id.area]? = some d ∧ d.valid = true ∧ id.slot < d.slots ∧ a = d.base + 64 * id.slot) ∧
    (l.isTrial id = true ↔ ∃ d, l.areas[id.area]? = some d ∧ d.trial = true)) ∧
  (∀ (s : State) (n : Nat), s.grantRead n = { s with ma := s.ma.grantRead s.finds n }) ∧
  (∀ (fwd : List FwdWrite) (r : ReadReq),
    let shares (w : FwdWrite) : Prop :=
      ∃ x, r.addr.toNat ≤ x ∧ x < r.addr.toNat + r.len ∧ w.addr ≤ x ∧ x < w.addr + w.len
    (overlapsForward fwd r.addr.toNat r.len = true ↔ ∃ w ∈ fwd, shares w) ∧
    ∀ k, lastOverlap (wholeRead r) fwd = k + 1 ↔
      ∃ l w n, fwd = l ++ w :: n ∧ l.length = k ∧ shares w ∧ ∀ v ∈ n, ¬shares v) ∧
  (∀ (p : Port) (r : ReadReq) (s : State), s.portFree p → legalRead p r s →
    (s.classOf r.addr.toNat = .outside ∨ s.classOf r.addr.toNat = .mailbox ∨
      ∃ off, s.classOf r.addr.toNat = .controlBlock off) →
    (overlapsForward s.fwd r.addr.toNat r.len = false →
      exec (.passRead p r) s
        = .next (State.taken p (.read r)
            (if r.mem.head? = some .fault then faulted r.tag
             else okData r.tag (Memory.bytes (s.grantRead s.fwd.length).memory r.addr.toNat r.len))
            (s.grantRead s.fwd.length))) ∧
    (overlapsForward s.fwd r.addr.toNat r.len = true →
      exec (.passRead p r) s
        = .next (State.taken p (.read r)
            (.reading (wholeRead r) (lastOverlap (wholeRead r) s.fwd) s.fwd.length s.nextTurn) s)))

/-- A write classed PASS joins the posted write buffer at the tail and is answered OK, or is stalled while posting is stopped
or the buffer holds 8 writes (R134, R135, R137). Posting is stopped exactly while the operation that executes waits for the
switch of a start or of a RELOAD (R134). -/
def Obligations.PassWritesArePosted : Prop :=
  (∀ s : State, (s.postingStopped = true ↔
      (∃ p, s.cu.work = .startSwitch p) ∨ ∃ seq t, s.cu.work = .reloadSwitch seq t) ∧
    s.buffered = (s.fwd.filter (fun w => decide (w.kind = .posted))).length) ∧
  ∀ (p : Port) (r : WriteReq) (s : State), s.portFree p → legalWrite p r s → s.classOf r.addr.toNat = .outside →
    (s.postingStopped = true →
      exec (.passWrite p r) s = .next (State.taken p (.write r) (.stalled .postingStopped) s)) ∧
    (s.postingStopped = false → 8 ≤ s.buffered →
      exec (.passWrite p r) s = .next (State.taken p (.write r) (.stalled .bufferFull) s)) ∧
    (s.postingStopped = false → s.buffered < 8 →
      exec (.passWrite p r) s
        = .next (State.taken p (.write r) (okDone r.tag)
            { s with fwd := s.fwd ++
                [{ addr := r.addr.toNat, len := r.len, cells := writeCellsOf r, kind := .posted }] }))

/-! ## Item slots -/

/-- A read of an item slot: FAULT in HALTED, held while the slot is busy, and otherwise forwarded (R12, R16, R17). The busy set
holds the slots of the places given to commands, of the commands in CQ and of the entry in service, but not of a notice that
waits or that is to be discarded (R3, R14, R16). What a grant finds of a write that memory answers FAULT later is the model's
choice (notes/assumptions/37.md). -/
def Obligations.ItemReads : Prop :=
  (∀ (s : State) (id : SlotId), s.busy id = true ↔
    id ∈ s.icu.given ∨ CqEntry.command id ∈ s.icu.cq ∨
    ∃ svc, s.icu.stage.service = some svc ∧ svc.addr ≠ none ∧ svc.entry.slot = id) ∧
  (∀ id : SlotId, (CqEntry.command id).slot = id ∧ ∀ ticket, (CqEntry.expiry id ticket).slot = id ∧
    ∀ q, (CqEntry.take id q ticket).slot = id) ∧
  (∀ (stage : IcuStage) (svc : Service), stage.service = some svc ↔
    stage = .fetching svc ∨ (∃ rec g, stage = .voiding svc rec g) ∨ (∃ rec, stage = .rerouting svc rec) ∨
    (∃ rec x, stage = .appending svc rec x) ∨ (∃ rec x, stage = .entryWrite svc rec x) ∨
    ∃ cells events, stage = .writeBack svc cells events) ∧
  ∀ (p : Port) (r : ReadReq) (id : SlotId) (s : State), s.portFree p → legalRead p r s →
    s.classOf r.addr.toNat = .item id →
    (s.cu.mode = .halted → exec (.itemRead p r) s = .next (State.taken p (.read r) (faulted r.tag) s)) ∧
    (s.cu.mode ≠ .halted → s.busy id = true →
      exec (.itemRead p r) s = .next (State.taken p (.read r) (.held (.busySlot id)) s)) ∧
    (s.cu.mode ≠ .halted → s.busy id = false → overlapsForward s.fwd r.addr.toNat r.len = false →
      exec (.itemRead p r) s
        = .next (State.taken p (.read r)
            (if r.mem.head? = some .fault then faulted r.tag
             else okData r.tag (Memory.bytes (s.grantRead s.fwd.length).memory r.addr.toNat r.len))
            (s.grantRead s.fwd.length))) ∧
    (s.cu.mode ≠ .halted → s.busy id = false → overlapsForward s.fwd r.addr.toNat r.len = true →
      exec (.itemRead p r) s
        = .next (State.taken p (.read r)
            (.reading (wholeRead r) (lastOverlap (wholeRead r) s.fwd) s.fwd.length s.nextTurn) s))

/-- A write to an item slot that carries no command: FAULT in HALTED, held while the slot is busy, and otherwise its
part-region bytes are dropped with `EVT_PROTECTION` and the rest forwarded unposted, or answered OK where nothing is left
(R12, R13, R16, R142). The enabled bytes of a write are those of its length whose enable is set (R127); the host region of a slot
is its bytes 0 to 31 and 52 to 63 (12.1), every slot lying at a multiple of 64 (R1); and a write carries a command when it enables
byte 7 of a slot, its CMD, with a value that is not 0 (R13). -/
def Obligations.PlainItemWrites : Prop :=
  (∀ (r : WriteReq) (c : Host.Cell), c ∈ writeCellsOf r ↔
    ∃ i b, i < r.len ∧ r.bytes[i]? = some (some b) ∧ c = (r.addr.toNat + i, b)) ∧
  (∀ r : WriteReq,
    hostCells r = (writeCellsOf r).filter (fun c => decide (c.1 % 64 < 32 ∨ 52 ≤ c.1 % 64)) ∧
    (carriesCommand r = true ↔ ∃ x b, (x, b) ∈ writeCellsOf r ∧ x % 64 = 7 ∧ b ≠ 0)) ∧
  ∀ (p : Port) (r : WriteReq) (id : SlotId) (s : State), s.portFree p → legalWrite p r s →
    s.classOf r.addr.toNat = .item id →
    (s.cu.mode = .halted → exec (.itemPlainWrite p r) s = .next (State.taken p (.write r) (faulted r.tag) s)) ∧
    (s.cu.mode ≠ .halted → s.busy id = true →
      exec (.itemPlainWrite p r) s = .next (State.taken p (.write r) (.held (.busySlot id)) s)) ∧
    (s.cu.mode ≠ .halted → s.busy id = false → carriesCommand r = false → hostCells r = [] →
      exec (.itemPlainWrite p r) s
        = .next (State.taken p (.write r) (okDone r.tag) (s.raise .protection))) ∧
    (s.cu.mode ≠ .halted → s.busy id = false → carriesCommand r = false → hostCells r ≠ [] →
      exec (.itemPlainWrite p r) s
        = .next (State.taken p (.write r) .writing
            { protection (writeCellsOf r) (hostCells r) s with
              fwd := s.fwd ++
                [{ addr := r.addr.toNat, len := r.len, cells := hostCells r, kind := .plain p r.mem }] }))

/-- A command-carrying write: FAULT in HALTED, held while the slot is busy or for want of a place, and otherwise admitted: it
has its place, its slot is busy, and its host-region bytes are forwarded unposted (R12 to R16, R38). It carries a command when it
enables byte 7 of the slot with a value that is not 0, the host region is bytes 0 to 31 and 52 to 63 of the slot (R13, 12.1), and
the places of CQ are those given to commands, those of the entries that wait and that of the entry in service (R14, R38). That a
write held for want of a place raises no protection event before it is admitted is the model's choice
(notes/assumptions/26.md). -/
def Obligations.CommandWrites : Prop :=
  (∀ s : State,
    let isCommand (e : CqEntry) : Bool := decide (e = .command e.slot)
    let inService : List Service := s.icu.stage.service.toList
    s.places = s.icu.given.length + s.icu.cq.length + inService.length ∧
    s.commandPlaces = s.icu.given.length + (s.icu.cq.filter isCommand).length
      + (inService.filter (fun svc => isCommand svc.entry)).length) ∧
  ∀ (p : Port) (r : WriteReq) (id : SlotId) (s : State), s.portFree p → legalWrite p r s →
    s.classOf r.addr.toNat = .item id → (∃ x b, (x, b) ∈ writeCellsOf r ∧ x % 64 = 7 ∧ b ≠ 0) →
    ∀ kept, kept = (writeCellsOf r).filter (fun c => decide (c.1 % 64 < 32 ∨ 52 ≤ c.1 % 64)) →
    (s.cu.mode = .halted → exec (.commandWrite p r) s = .next (State.taken p (.write r) (faulted r.tag) s)) ∧
    (s.cu.mode ≠ .halted → s.busy id = true →
      exec (.commandWrite p r) s = .next (State.taken p (.write r) (.held (.busySlot id)) s)) ∧
    (s.cu.mode ≠ .halted → s.busy id = false → (16 ≤ s.commandPlaces ∨ 24 ≤ s.places) →
      exec (.commandWrite p r) s = .next (State.taken p (.write r) (.held .cqCommand) s)) ∧
    (s.cu.mode ≠ .halted → s.busy id = false → s.commandPlaces < 16 → s.places < 24 →
      ∃ u : State,
        exec (.commandWrite p r) s = .next (State.taken p (.write r) .writing u) ∧
        u = { protection (writeCellsOf r) kept s with
              icu := { s.icu with given := s.icu.given ++ [id] }
              fwd := s.fwd ++
                [{ addr := r.addr.toNat, len := r.len, cells := kept, kind := .command p id }] } ∧
        u.busy id = true ∧ u.places = s.places + 1 ∧ u.commandPlaces = s.commandPlaces + 1)

/-! ## Rings, take words and view windows -/

/-- A read of a ring area: one that covers the take word other than as 16 bytes at offset 48 is answered FAULT with
`EVT_BAD_REQUEST` and takes nothing; in HALTED every other one is answered FAULT; and a raw read is forwarded and changes
nothing in the queue (R114, R122). What a grant finds of a write that memory answers FAULT later is the model's choice
(notes/assumptions/37.md). -/
def Obligations.RingReads : Prop :=
  ∀ (p : Port) (r : ReadReq) (q : Fin 6) (off : Nat) (s : State), s.portFree p → legalRead p r s →
    s.classOf r.addr.toNat = .ring q off →
    (off < 64 → 48 < off + r.len → ¬(off = 48 ∧ r.len = 16) →
      exec (.takeWordMisuse p r) s = .next (State.taken p (.read r) (faulted r.tag) (s.raise .badRequest))) ∧
    ((64 ≤ off ∨ off + r.len ≤ 48) → s.cu.mode = .halted →
      exec (.ringRead p r) s = .next (State.taken p (.read r) (faulted r.tag) s)) ∧
    ((64 ≤ off ∨ off + r.len ≤ 48) → s.cu.mode ≠ .halted → overlapsForward s.fwd r.addr.toNat r.len = false →
      exec (.ringRead p r) s
        = .next (State.taken p (.read r)
            (if r.mem.head? = some .fault then faulted r.tag
             else okData r.tag (Memory.bytes (s.grantRead s.fwd.length).memory r.addr.toNat r.len))
            (s.grantRead s.fwd.length))) ∧
    ((64 ≤ off ∨ off + r.len ≤ 48) → s.cu.mode ≠ .halted → overlapsForward s.fwd r.addr.toNat r.len = true →
      exec (.ringRead p r) s
        = .next (State.taken p (.read r)
            (.reading (wholeRead r) (lastOverlap (wholeRead r) s.fwd) s.fwd.length s.nextTurn) s))

/-- A take read (R114, R115): FAULT in HALTED; it waits while a take of the queue is in progress; an empty queue is answered
with a synthesized entry; with all 24 places of CQ given it is held; and otherwise the take begins: the head position becomes
TAKING, LIVE decreases, the reservation unit gets its take notice for Q0 and Q1, a TAKE notice joins CQ
(CommandWriteCompletes says how), and the ring read becomes ready at the memory arbiter. A synthesized entry is 0 but for its location word, which reads 0xFFF00000 (12.2). That the
fetch of the TAKE notice stands ahead of the ring read is the model's choice (notes/assumptions/34.md). -/
def Obligations.TakeReads : Prop :=
  (synthEntry = [0, 0, 0, 0, 0, 0, 0xF0, 0xFF, 0, 0, 0, 0, 0, 0, 0, 0]) ∧
  ∀ (p : Port) (r : ReadReq) (q : Fin 6) (s : State), s.portFree p → legalRead p r s →
    s.classOf r.addr.toNat = .ring q 48 → r.len = 16 →
    (s.cu.mode = .halted → exec (.takeRead p r) s = .next (State.taken p (.read r) (faulted r.tag) s)) ∧
    (s.cu.mode ≠ .halted → (s.queue q).takeInProgress = true →
      exec (.takeRead p r) s
        = .next (State.taken p (.read r) (.atQueue q)
            (s.setQueue q { s.queue q with waiters := (s.queue q).waiters ++ [p] }))) ∧
    (s.cu.mode ≠ .halted → (s.queue q).takeInProgress = false → (s.queue q).count = 0 →
      exec (.takeRead p r) s = .next (State.taken p (.read r) (okData r.tag synthEntry) s)) ∧
    (s.cu.mode ≠ .halted → (s.queue q).takeInProgress = false → 0 < (s.queue q).count → 24 ≤ s.places →
      exec (.takeRead p r) s = .next (State.taken p (.read r) (.held .cqNotice) s)) ∧
    (∀ x, s.cu.mode ≠ .halted → (s.queue q).takeInProgress = false → 0 < (s.queue q).count → s.places < 24 →
      (s.queue q).position (s.queue q).head = some x →
      ∃ u : State,
        exec (.takeRead p r) s = .next (State.taken p (.read r) (.taking q) u) ∧
        u = (({ s.setQueue q { s.queue q with
                 positions := Map.ins (s.queue q).head { x with state := .taking } (s.queue q).positions
                 live := (s.queue q).live - 1 } with
               ru := if q = 0 ∨ q = 1 then s.ru.takeNotice x.id q x.ticket else s.ru }).joinCq
               (.take x.id q x.ticket)).askOwn (.takeRead q) ∧
        (u.queue q).takeInProgress = true ∧ u.places = s.places + 1)

/-- A read of a view window (R119): FAULT in HALTED; otherwise its parts of 16 bytes are translated against HEAD and COUNT, a
part at or beyond COUNT reading as a synthesized empty entry, and answered in order, FAULT when memory answers any of them
FAULT. That each part that comes from memory is a ring read with a grant of its own, and what a grant finds of a write that
memory answers FAULT later, are the model's choices (notes/assumptions/29.md and 37.md). -/
def Obligations.ViewReads : Prop :=
  (∀ (d : QDesc) (v : QState) (k off len : Nat),
    (k < v.count → viewPart d v k off len
      = .mem (d.ringBase + 64 + 16 * ((v.head + k) % d.capacity) + off) len) ∧
    (v.count ≤ k → viewPart d v k off len = .synth ((synthEntry.drop off).take len))) ∧
  (∀ (d : QDesc) (v : QState) (off : Nat),
    viewParts d v off 8 = [viewPart d v (off / 16) (off % 16) 8] ∧
    viewParts d v off 16 = [viewPart d v (off / 16) (off % 16) 16] ∧
    viewParts d v off 32 = [viewPart d v (off / 16) 0 16, viewPart d v (off / 16 + 1) 0 16] ∧
    viewParts d v off 64 = [viewPart d v (off / 16) 0 16, viewPart d v (off / 16 + 1) 0 16,
      viewPart d v (off / 16 + 2) 0 16, viewPart d v (off / 16 + 3) 0 16]) ∧
  (∀ (r : ReadReq) (l : List ReadPart) (k : Nat) (s : State),
    (s.answerParts r l k).1 = (if ReadAnswer.fault ∈ r.mem.take (l.countP (·.isMem)) then faulted r.tag
      else okData r.tag (State.readParts k l s).1) ∧
    (s.answerParts r l k).2 = (State.readParts k l s).2 ∧ State.readParts k [] s = ([], s) ∧
    (∀ a n, State.readParts k (.mem a n :: l) s
      = (Memory.bytes (s.grantRead k).memory a n ++ (State.readParts k l (s.grantRead k)).1,
         (State.readParts k l (s.grantRead k)).2)) ∧
    (∀ b, State.readParts k (.synth b :: l) s = (b ++ (State.readParts k l s).1, (State.readParts k l s).2))) ∧
  (∀ (p : Port) (r : ReadReq) (q : Fin 6) (off : Nat) (d : QDesc) (s : State), s.portFree p → legalRead p r s →
    s.classOf r.addr.toNat = .view q off → s.desc? q = some d →
    ∀ parts, parts = viewParts d (s.queue q) off r.len →
    (s.cu.mode = .halted → exec (.viewRead p r) s = .next (State.taken p (.read r) (faulted r.tag) s)) ∧
    (s.cu.mode ≠ .halted → lastOverlap parts s.fwd = 0 →
      exec (.viewRead p r) s = .next (State.taken p (.read r) (s.answerParts r parts s.fwd.length).1
        (s.answerParts r parts s.fwd.length).2)) ∧
    (s.cu.mode ≠ .halted → 0 < lastOverlap parts s.fwd →
      exec (.viewRead p r) s
        = .next (State.taken p (.read r) (.reading parts (lastOverlap parts s.fwd) s.fwd.length s.nextTurn) s)))

/-- A write to a ring area or a view window is dropped with `EVT_PROTECTION` and answered OK, or answered FAULT in HALTED; no
byte of it reaches memory, now or later; in INIT no ring area and no view window is watched (R121). -/
def Obligations.RingAndViewWritesAreDropped : Prop :=
  (∀ (s : State) (x : Nat) (q : Fin 6) (off : Nat), s.cu.mode = .init →
    s.classOf x ≠ .ring q off ∧ s.classOf x ≠ .view q off) ∧
  ∀ (p : Port) (r : WriteReq) (q : Fin 6) (off : Nat) (s : State), s.portFree p → legalWrite p r s →
    (s.classOf r.addr.toNat = .ring q off ∨ s.classOf r.addr.toNat = .view q off) →
    (s.cu.mode = .halted →
      exec (.ringWrite p r) s = .next (State.taken p (.write r) (faulted r.tag) s) ∧
      exec (.viewWrite p r) s = .next (State.taken p (.write r) (faulted r.tag) s)) ∧
    (s.cu.mode ≠ .halted →
      exec (.ringWrite p r) s = .next (State.taken p (.write r) (okDone r.tag) (s.raise .protection)) ∧
      exec (.viewWrite p r) s = .next (State.taken p (.write r) (okDone r.tag) (s.raise .protection))) ∧
    (∀ t, exec (.ringWrite p r) s = .next t ∨ exec (.viewWrite p r) s = .next t →
      t.dram = s.dram ∧ t.fwd = s.fwd)

/-! ## The control block -/

/-- A read of the event block is answered by the event unit with the pending set and the mask in force; one that covers the
EVENT word empties the pending set, and every other leaves it; bit n of the EVENT word and of EVENT_ENABLE stands for the kind
of value n, and every other bit and byte of the 64 reads 0 (R172, R175, 12.4). -/
def Obligations.EventReads : Prop :=
  ([EventKind.cmdRefused, .protection, .expired, .latePlace, .nearFull, .hold, .misfit, .mailbox, .memFault, .halt,
    .lockedBin, .badRequest].map EventKind.index = List.range 12) ∧
  ∀ (p : Port) (r : ReadReq) (s : State), s.portFree p → legalRead p r s → s.classOf r.addr.toNat = .event →
    (r.addr.toNat = s.cbBase + 128 →
      exec (.eventRead p r) s
        = .next (State.taken p (.read r) (okData r.tag ((eventBlockBytes s.eu).take r.len))
            { s with eu := { s.eu with pending := 0 } })) ∧
    (r.addr.toNat ≠ s.cbBase + 128 →
      exec (.eventRead p r) s
        = .next (State.taken p (.read r)
            (okData r.tag (((eventBlockBytes s.eu).drop (r.addr.toNat - (s.cbBase + 128))).take r.len)) s)) ∧
    (∀ k : EventKind, (eventBlockBytes s.eu)[k.index / 8]?.map (fun b => b.getLsbD (k.index % 8))
      = some (s.eu.pending.getLsbD k.index)) ∧
    (∀ k : EventKind, (eventBlockBytes s.eu)[8 + k.index / 8]?.map (fun b => b.getLsbD (k.index % 8))
      = some (s.eu.mask.getLsbD k.index)) ∧
    (eventBlockBytes s.eu).length = 64 ∧
    (∀ i b n, (eventBlockBytes s.eu)[i]? = some b → n < 8 → b.getLsbD n = true →
      ∃ k : EventKind, (i = k.index / 8 ∨ i = 8 + k.index / 8) ∧ n = k.index % 8)

/-- A write to the event block: enabled bytes of the EVENT word are dropped with one `EVT_PROTECTION`, and the others are
forwarded unposted, or the write is answered OK where none is left (R176). -/
def Obligations.EventEnableWrites : Prop :=
  ∀ (p : Port) (r : WriteReq) (s : State), s.portFree p → legalWrite p r s → s.classOf r.addr.toNat = .event →
    ∀ kept, kept = (writeCellsOf r).filter (fun c => decide (s.cbBase + 132 ≤ c.1)) →
    (kept = [] →
      exec (.eventEnableWrite p r) s = .next (State.taken p (.write r) (okDone r.tag) (s.raise .protection))) ∧
    (kept ≠ [] →
      exec (.eventEnableWrite p r) s
        = .next (State.taken p (.write r) .writing
            { protection (writeCellsOf r) kept s with
              fwd := s.fwd ++ [{ addr := r.addr.toNat, len := r.len, cells := kept, kind := .eventEnable p r.mem }] }))

/-- A write to the control block outside the mailbox and event blocks: the bytes the part owns in the mode at hand are
dropped with one `EVT_PROTECTION`, and the others forwarded unposted, or the write is answered OK where none is left (R133,
R146): outside INIT the part owns MODE and TICKET_IMAGE, the station bias table and the bin images. That a write with no
byte left is answered OK at once is the model's reading (notes/assumptions/18.md). -/
def Obligations.TableWrites : Prop :=
  (∀ (m : Mode) (off : Nat), partOwns m off = true ↔
    m ≠ .init ∧ ((4 ≤ off ∧ off < 12) ∨ (320 ≤ off ∧ off < 336) ∨ 4096 ≤ off)) ∧
  (∀ (p : Port) (r : WriteReq) (off : Nat) (s : State), s.portFree p → legalWrite p r s →
    s.classOf r.addr.toNat = .controlBlock off →
    ∀ kept, kept = (writeCellsOf r).filter (fun c => !partOwns s.cu.mode (c.1 - s.cbBase)) →
    (kept = [] →
      exec (.cbTableWrite p r) s = .next (State.taken p (.write r) (okDone r.tag) (s.raise .protection))) ∧
    (kept ≠ [] →
      exec (.cbTableWrite p r) s
        = .next (State.taken p (.write r) .writing
            { protection (writeCellsOf r) kept s with
              fwd := s.fwd ++ [{ addr := r.addr.toNat, len := r.len, cells := kept, kind := .plain p r.mem }] })))

/-- A write to the mailbox block: held while a write that starts an operation is unanswered or an operation executes, and
otherwise its bytes of RSEQ, RESULT and DETAIL are dropped with one `EVT_PROTECTION` and the others forwarded unposted, or
the write is answered OK where none is left (R133, R135, R147). A write starts an operation when it covers every byte of OP
and gives it a value that is not 0 (R147). That a write with no byte left is answered OK at once is the
model's reading (notes/assumptions/18.md), and that a held write raises no event before it is forwarded its choice
(notes/assumptions/26.md). -/
def Obligations.MailboxWrites : Prop :=
  ∀ (p : Port) (r : WriteReq) (s : State), s.portFree p → legalWrite p r s → s.classOf r.addr.toNat = .mailbox →
    ∀ kept, kept = (writeCellsOf r).filter
      (fun c => !(decide (80 ≤ c.1 - s.cbBase) && decide (c.1 - s.cbBase < 92))) →
    ((s.cu.work ≠ .idle ∨ s.operationWritePending = true) →
      exec (.mailboxWrite p r) s = .next (State.taken p (.write r) (.held .mailbox) s)) ∧
    (s.cu.work = .idle → s.operationWritePending = false → kept = [] →
      exec (.mailboxWrite p r) s = .next (State.taken p (.write r) (okDone r.tag) (s.raise .protection))) ∧
    (s.cu.work = .idle → s.operationWritePending = false → kept ≠ [] →
      exec (.mailboxWrite p r) s
        = .next (State.taken p (.write r) .writing
            { protection (writeCellsOf r) kept s with
              fwd := s.fwd ++ [{ addr := r.addr.toNat, len := r.len, cells := kept,
                                 kind := .mailbox p (startsOperation s.cbBase kept) }] })) ∧
    (startsOperation s.cbBase kept = true ↔
      (∀ i, i < 4 → ∃ b, (s.cbBase + 68 + i, b) ∈ kept) ∧ ∃ i b, i < 4 ∧ (s.cbBase + 68 + i, b) ∈ kept ∧ b ≠ 0) ∧
    (s.operationWritePending = true ↔ ∃ w ∈ s.fwd, ∃ p', w.kind = .mailbox p' true)

/-! ## Writes the controllers' requests come to -/

/-- Memory answers the oldest forwarded write: DRAM takes it, it leaves the list, and a read that waited for it alone is
answered at a grant of its own, the reads in the order in which the decoder dispatched them (R138, R139, R140); a plain write
goes at once when it is the oldest, and the enable mask takes the written bytes of EVENT_ENABLE when memory answers OK (R142,
R176). A read that waited is granted behind the writes dispatched before it, and not behind younger ones (R139). Memory
performs the writes of both sides in the order of their grants: what a read's grant finds is DRAM under the granted writes in
that order, and a write answered late leaves the bytes that a write granted after it has set (R141). A read of the part returns
memory as its grant found it, whatever is performed before its answer (R141). A read waits for the writes up to the youngest that
a part of it overlaps, and they overlap when an address is a byte of both, whatever the write's enables (R138). That a plain write
is answered as soon as it is the oldest is the model's choice (notes/assumptions/9.md), and so is that a grant finds the full data
of a write granted before it, also where memory answers that write FAULT later (notes/assumptions/37.md). -/
def Obligations.ForwardedWritesReachMemory : Prop :=
  (∀ (parts : List ReadPart) (fwd : List FwdWrite),
    let shares (w : FwdWrite) : Prop :=
      ∃ a n x, ReadPart.mem a n ∈ parts ∧ a ≤ x ∧ x < a + n ∧ w.addr ≤ x ∧ x < w.addr + w.len
    (lastOverlap parts fwd = 0 ↔ ∀ w ∈ fwd, ¬shares w) ∧
    ∀ k, lastOverlap parts fwd = k + 1 ↔
      ∃ l w r, fwd = l ++ w :: r ∧ l.length = k ∧ shares w ∧ ∀ v ∈ r, ¬shares v) ∧
  (∀ (s : State) (cells : Cells) (a : WriteAnswer),
    s.answerForward cells a = ({ s.forwardedWrite cells a with fwd := s.fwd.tail }).serveReads ∧
    s.forwardedWrite cells a
      = ({ s with ma := s.ma.grantWrite s.finds s.fwd.length }).performed .forwarded (answeredCells cells a) ∧
    (∀ r, s.ownWrite r cells a
      = ({ s with ma := s.ma.grantOwn s.finds s.fwd.length r }).performed (.own r) (answeredCells cells a)) ∧
    answeredCells cells .ok = cells ∧
    (∀ left, answeredCells cells (.fault left) = List.zipWith (fun c b => (c.1, b)) cells left) ∧
    ((∀ c, Grant.done c ∉ s.ma.order) →
      (s.forwardedWrite cells a).dram = Memory.writeCells s.dram (answeredCells cells a) ∧
      ∀ r, (s.ownWrite r cells a).dram = Memory.writeCells s.dram (answeredCells cells a)) ∧
    (∀ x, (∀ c ∈ cells, c.1 ≠ x) →
      Memory.read (s.forwardedWrite cells a).dram x = Memory.read s.dram x ∧
      ∀ r, Memory.read (s.ownWrite r cells a).dram x = Memory.read s.dram x)) ∧
  (∀ (s : State) (g : Grant) (cells : Cells), ∃ m : Arbiter,
    s.performed g cells
      = { s with
          dram := Memory.writeCells s.dram (cells.filter (fun c => decide (∀ k ∈ laterCells g s.ma.order, k.1 ≠ c.1)))
          ma := m } ∧
    m.last = s.ma.last ∧ m.own = s.ma.own ∧ m.found = s.ma.found ∧ (∀ c, m.order.head? ≠ some (.done c)) ∧
    (∀ l r, s.ma.order = l ++ g :: r → g ∉ l →
      (∀ k, k ∈ laterCells g s.ma.order ↔ ∃ c, Grant.done c ∈ r ∧ k ∈ c) ∧
      ∃ x, l ++ .done cells :: r = x ++ m.order ∧ ∀ y ∈ x, ∃ c, y = .done c) ∧
    (g ∉ s.ma.order → laterCells g s.ma.order = [] ∧
      ∃ x, s.ma.order = x ++ m.order ∧ ∀ y ∈ x, ∃ c, y = .done c)) ∧
  (∀ (s : State), s.withinLimits → ∀ (p : Port) (i : Nat) (o : Outstanding), (s.port p).outstanding[i]? = some o →
    (∀ parts n k t, o.stage = .reading parts (n + 2) k t →
      (s.serveReads.port p).outstanding[i]? = some { o with stage := .reading parts (n + 1) (k - 1) t }) ∧
    (∀ parts n k t r, n ≤ 1 → o.stage = .reading parts n k t → o.req = .read r →
      ∃ m a b, (s.serveReads.port p).outstanding[i]?
        = some { o with stage := (State.answerParts r parts (min (k - 1) s.fwd.length)
            { s with ma := m, portA := a, portB := b }).1 }) ∧
    ((∀ parts n k t, o.stage ≠ .reading parts n k t) → (s.serveReads.port p).outstanding[i]? = some o)) ∧
  (∀ s : State, ∃ m a b, s.serveReads = { s with ma := m, portA := a, portB := b }) ∧
  (∀ (n : Nat) (s : State), s.serveReads = s.countDown.serveTurns 16 ∧ s.serveTurns 0 = s ∧
    (s.firstTurn = none → s.serveTurns (n + 1) = s) ∧
    (∀ t, s.firstTurn = some t →
      s.serveTurns (n + 1) = State.serveTurns n ((s.serveTurn t .A).serveTurn t .B) ∧
      (∃ p, ∃ o ∈ (s.port p).outstanding, ∃ parts k r, o.stage = .reading parts 0 k t ∧ o.req = .read r) ∧
      ∀ p, ∀ o ∈ (s.port p).outstanding, ∀ parts k u r, o.stage = .reading parts 0 k u → o.req = .read r → t ≤ u) ∧
    (∀ p, ∀ o ∈ (s.port p).outstanding, ∀ parts n k t, o.stage = .reading parts n k t → t < s.nextTurn)) ∧
  (∀ (s : State) (t : Nat) (p : Port) (l rest : List Outstanding) (o : Outstanding) (parts : List ReadPart) (k : Nat)
      (r : ReadReq),
    (s.port p).outstanding = l ++ o :: rest → o.stage = .reading parts 0 k t → o.req = .read r →
    (∀ x ∈ l, ∀ ps j, x.stage ≠ .reading ps 0 j t) →
    let a := s.answerParts r parts (min k s.fwd.length)
    s.serveTurn t p
      = a.2.setPort p { s.port p with outstanding := l ++ { o with stage := a.1 } :: rest }) ∧
  (∀ s : State, (∀ o, s.finds o = Memory.writeCells s.dram (orderCells s.ownCells s.fwd o)) ∧
    s.memory = s.finds s.ma.order) ∧
  (∀ (s : State) (r : OwnReq),
    s.ownRead r = { s with ma := (s.ma.grantOwn s.finds s.fwd.length r).answerRead r } ∧
    (s.withinLimits →
      (∀ d, r ∉ s.ma.own → s.ma.found? r = some d → s.readBy r = d) ∧
      ((r = .fetch ∨ r = .cuRead ∨ ∃ q, r = .takeRead q) → s.ma.own.Nodup → r ∈ s.ma.own → s.ma.found? r = none →
        s.readBy r = ({ s with ma := s.ma.grantOwn s.finds s.fwd.length r }).memory))) ∧
  (∀ (own : OwnReq → Cells) (w : FwdWrite) (f : List FwdWrite) (l : List Grant),
    orderCells own f [] = [] ∧ orderCells own (w :: f) (.forwarded :: l) = w.cells ++ orderCells own f l ∧
    (∀ r, orderCells own f (.own r :: l) = own r ++ orderCells own f l) ∧
    ∀ c, orderCells own f (.done c :: l) = c ++ orderCells own f l) ∧
  (∀ s : State,
    (∀ svc cells events, s.icu.stage = .writeBack svc cells events → s.ownCells .writeBack = cells) ∧
    (∀ f, s.qu.inFlight = some f → s.ownCells .queueWrite = f.cells) ∧
    (∀ f, s.bu.imageInFlight = some f → s.ownCells .imageWrite = f.cells) ∧
    (∀ r, s.cu.work = .result r →
      let cells : Cells := match r.prior with
        | .nothing => resultCells s.cbBase r
        | .echo m => cellsAt (s.cbBase + 4) (leBytes 4 m.code)
        | .bias n v => [(s.cbBase + 320 + n, BitVec.ofInt 8 v)]
      s.ownCells .cuWrite = cells ∧ s.ownCells .result = cells)) ∧
  (∀ (d : Memory) (l k : Cells) (x : Nat) (b : Byte),
    Memory.writeCells d (l ++ k) = Memory.writeCells (Memory.writeCells d l) k ∧
    Memory.read (Memory.writeCells d (l ++ [(x, b)])) x = b ∧
    ((∀ c ∈ l, c.1 ≠ x) → Memory.read (Memory.writeCells d l) x = Memory.read d x)) ∧
  (∀ s : State, forwardWaits s.goForward.fwd = true) ∧
  (∀ (s : State) (w : FwdWrite) (r : List FwdWrite) (p : Port) (a : WriteAnswer), s.fwd = w :: r → w.kind = .plain p a →
    s.goForward = ((s.answerForward w.cells a).answerPort p (fun t => answeredWrite t a)).goForward) ∧
  (∀ (s : State) (w : FwdWrite) (r : List FwdWrite) (p : Port) (a : WriteAnswer), s.fwd = w :: r →
    w.kind = .eventEnable p a →
    s.goForward
      = ({ (s.answerForward w.cells a).answerPort p (fun t => answeredWrite t a) with
           eu := if a = WriteAnswer.ok then
               s.eu.setMask (enableBits s.cbBase w.cells (fun _ => 255)) (enableBits s.cbBase w.cells (·.toNat))
             else s.eu }).goForward) ∧
  (∀ (s : State) (p : Port) (f : Fin 8 → Stage) (l r : List Outstanding) (o : Outstanding),
    (s.port p).outstanding = l ++ o :: r → (∀ x ∈ l, x.stage ≠ .writing) → o.stage = .writing →
    ((s.answerPort p f).port p).outstanding = l ++ { o with stage := f (tagOf o.req) } :: r) ∧
  (∀ (e : Eu) (covered value : BitVec 12) (n : Nat), n < 12 →
    (e.setMask covered value).mask.getLsbD n = (if covered.getLsbD n then value.getLsbD n else e.mask.getLsbD n) ∧
    (e.setMask covered value).pending = e.pending)

/-- Memory answers the oldest posted write: DRAM takes it and it leaves the buffer, with `EVT_MEM_FAULT` on FAULT, the mode
unchanged; stalls on a full buffer end (R135, R137, R143). -/
def Obligations.PostedWritesDrain : Prop :=
  ∀ (s : State) (w : FwdWrite) (r : List FwdWrite) (a : WriteAnswer), s.fwd = w :: r → w.kind = .posted →
    ∃ u : State,
      exec (.postedWriteDrain a) s = .next u.finish ∧
      u = { s.answerForward w.cells a with eu := u.eu, portA := u.portA, portB := u.portB } ∧
      (∀ p, u.port p = { (s.answerForward w.cells a).port p with
        outstanding := ((s.answerForward w.cells a).port p).outstanding.map (fun o =>
          { o with stage := if o.stage = .stalled .bufferFull then .waiting else o.stage }) }) ∧
      u.dram = (s.forwardedWrite w.cells a).dram ∧ u.fwd = r ∧ u.buffered + 1 = s.buffered ∧
      u.eu = (if a = WriteAnswer.ok then s.eu else s.eu.raise .memFault) ∧
      (∀ p, ∀ o ∈ (u.port p).outstanding, o.stage ≠ .stalled .bufferFull) ∧
      u.cu = s.cu ∧ u.layout = s.layout ∧ u.gu = s.gu ∧ u.bu = s.bu ∧ u.ru = s.ru ∧ u.qu = s.qu ∧ u.icu = s.icu ∧
      u.pending = s.pending

/-- Memory answers an admitted command-carrying write: with OK the command joins CQ and the port is answered OK; with FAULT
the place is given back, no command joins, and the port is answered FAULT (R14); one admitted before a halt is answered FAULT
and joins nothing (R18). An entry joins CQ at the tail, behind those that are there (R38); an idle unit in RUN or FROZEN then
takes the head entry at once, noting FROZEN, its slot resolved against the layout in force, and the fetch stands last at the
memory arbiter, but for an entry whose slot lies in no valid area, which has none (R3, R39, R40); otherwise the entries wait. -/
def Obligations.CommandWriteCompletes : Prop :=
  (∀ (e : CqEntry) (s : State),
    ((s.icu.stage ≠ .idle ∨ (s.cu.mode ≠ .run ∧ s.cu.mode ≠ .frozen)) →
      s.joinCq e = { s with icu := { s.icu with cq := s.icu.cq ++ [e] } }) ∧
    (∀ h l, s.icu.stage = .idle → (s.cu.mode = .run ∨ s.cu.mode = .frozen) → s.icu.cq ++ [e] = h :: l →
      s.joinCq e = { s with
        icu := { s.icu with
          cq := l
          stage := .fetching
            { entry := h, frozen := decide (s.cu.mode = .frozen), addr := s.layout.slotAddr h.slot } }
        ma := { s.ma with
          own := s.ma.own ++ (if s.layout.slotAddr h.slot = none then [] else [OwnReq.fetch]) } })) ∧
  ∀ (s : State) (w : FwdWrite) (r : List FwdWrite) (p : Port) (id : SlotId), s.fwd = w :: r →
    (w.kind = .command p id → s.queueLimits →
      (∃ u : State,
        exec (.commandWriteComplete p .ok) s
          = .next ((u.joinCq (.command id)).answerPort p okDone).finish ∧
        u = { s.answerForward w.cells .ok with icu := u.icu } ∧
        u.dram = (s.forwardedWrite w.cells .ok).dram ∧ u.fwd = r ∧
        u.icu = { s.icu with given := commandSlots r } ∧ u.eu = s.eu ∧ u.cu = s.cu ∧ u.gu = s.gu ∧ u.bu = s.bu ∧
        u.ru = s.ru ∧ u.qu = s.qu ∧ u.layout = s.layout) ∧
      (∀ left, ∃ u : State,
        exec (.commandWriteComplete p (.fault left)) s = .next (u.answerPort p faulted).finish ∧
        u = { s.answerForward w.cells (.fault left) with icu := u.icu, portA := u.portA, portB := u.portB } ∧
        (∀ q, u.port q = { (s.answerForward w.cells (.fault left)).port q with
          outstanding := ((s.answerForward w.cells (.fault left)).port q).outstanding.map (fun o =>
            { o with stage := match o.stage with
              | .held .cqCommand => .waiting
              | .held .cqNotice => .waiting
              | .held (.busySlot i) => if u.busy i = true then .held (.busySlot i) else .waiting
              | st => st }) }) ∧
        u.dram = (s.forwardedWrite w.cells (.fault left)).dram ∧ u.fwd = r ∧
        u.icu = { s.icu with given := commandSlots r } ∧ u.places + 1 = s.places ∧
        (∀ q, ∀ o ∈ (u.port q).outstanding, o.stage ≠ .held .cqCommand ∧ o.stage ≠ .held .cqNotice) ∧
        u.eu = s.eu ∧ u.cu = s.cu ∧ u.gu = s.gu ∧ u.bu = s.bu ∧ u.ru = s.ru ∧ u.qu = s.qu ∧ u.layout = s.layout)) ∧
    (∀ a, w.kind = .abandoned p →
      ∃ u : State,
        exec (.commandWriteComplete p a) s = .next (u.answerPort p faulted).finish ∧
        u = s.answerForward w.cells a ∧
        u.dram = (s.forwardedWrite w.cells a).dram ∧ u.fwd = r ∧ u.icu = s.icu ∧ u.eu = s.eu ∧ u.cu = s.cu ∧
        u.gu = s.gu ∧ u.bu = s.bu ∧ u.ru = s.ru ∧ u.qu = s.qu ∧ u.layout = s.layout)

/-- Memory answers a mailbox write: its port gets the answer, and with OK a write that covers OP with a non-zero value starts
an operation, whose read of the mailbox block becomes ready; with FAULT such a write starts nothing and the requests held for
the mailbox are ready again, every other as it was; and any other write starts nothing (R135, R142, R147). -/
def Obligations.MailboxWriteCompletes : Prop :=
  ∀ (s : State) (w : FwdWrite) (r : List FwdWrite) (p : Port) (starts : Bool) (a : WriteAnswer), s.fwd = w :: r →
    w.kind = .mailbox p starts →
    ∃ u v : State,
      exec (.mailboxWriteDone p a) s = .next v.finish ∧
      u = s.answerForward w.cells a ∧
      u.dram = (s.forwardedWrite w.cells a).dram ∧ u.fwd = r ∧
      v = (if starts = false then u.answerPort p (fun t => answeredWrite t a)
           else if a = .ok then
             ({ u.answerPort p (fun t => answeredWrite t a) with cu := { s.cu with work := .reading } }).askOwn .cuRead
           else
             let w : State := u.answerPort p (fun t => answeredWrite t a)
             let released (x : PortState) : PortState :=
               { x with outstanding := x.outstanding.map (fun o =>
                   { o with stage := if o.stage = .held .mailbox then .waiting else o.stage }) }
             { w with portA := released w.portA, portB := released w.portB }) ∧
      u.cu = s.cu ∧ u.eu = s.eu ∧ u.icu = s.icu ∧ u.gu = s.gu ∧ u.bu = s.bu ∧ u.ru = s.ru ∧ u.qu = s.qu ∧
      u.layout = s.layout

/-! ## Grading -/

/-- The score grade: A if SCORE ≥ T_A, otherwise B if SCORE ≥ T_B, otherwise C if SCORE ≥ T_C, otherwise D, and never X
(R28). -/
def Obligations.ScoreGradeFollowsTheThresholds : Prop :=
  ∀ (c : ClassEntry) (score : Nat),
    (c.tA ≤ score → c.scoreGrade score = .A) ∧
    (score < c.tA → c.tB ≤ score → c.scoreGrade score = .B) ∧
    (score < c.tA → score < c.tB → c.tC ≤ score → c.scoreGrade score = .C) ∧
    (score < c.tA → score < c.tB → score < c.tC → c.scoreGrade score = .D) ∧
    c.scoreGrade score ≠ .X

/-- The grading unit's answer (R24 to R31): the three refusals in their order, and otherwise the mean and the spread of the
effective scores, the worst of the score grade and the caps, and the disposition and reason by the class's pass rule,
spread limit and dispositions; SCORE and SPREAD lie in 0 to 100, and one reading has SPREAD 0. -/
def Obligations.GradingFollowsTheRules : Prop :=
  (∀ (g : Gu) (cls : Nat) (readings : List Reading) (defects : List Nat),
    (g.classOf cls = none → g.grade cls readings defects = .error .badClass) ∧
    (∀ c, g.classOf cls = some c →
      ((∃ r ∈ readings, r.valid = true ∧ 100 < r.raw) → g.grade cls readings defects = .error .badReading) ∧
      ((∀ r ∈ readings, r.valid = false) → g.grade cls readings defects = .error .noReadings) ∧
      ((∀ r ∈ readings, r.valid = true → r.raw ≤ 100) → (∃ r ∈ readings, r.valid = true) →
        ∃ x, g.grade cls readings defects = .ok x ∧
          x.score = ((readings.filter (·.valid)).map g.effective).sum / (readings.filter (·.valid)).length ∧
          (∃ hi ∈ (readings.filter (·.valid)).map g.effective, ∃ lo ∈ (readings.filter (·.valid)).map g.effective,
            (∀ e ∈ (readings.filter (·.valid)).map g.effective, lo ≤ e ∧ e ≤ hi) ∧ x.spread = hi - lo) ∧
          x.score ≤ 100 ∧ x.spread ≤ 100 ∧
          ((readings.filter (·.valid)).length = 1 → x.spread = 0) ∧
          (c.scoreGrade x.score).code ≤ x.grade.code ∧
          (∀ d ∈ defects, d ≠ 0 → (g.capOf d).code ≤ x.grade.code) ∧
          (x.grade = c.scoreGrade x.score ∨ ∃ d ∈ defects, d ≠ 0 ∧ x.grade = g.capOf d) ∧
          (x.disp, x.reason) =
            (if c.passRule.met (readings.filter (·.valid)) = false then (.hold, .passMissing)
             else if c.spreadLimit < x.spread then (.hold, .disagree)
             else if c.dispOf x.grade = .hold then (.hold, .policy)
             else (c.dispOf x.grade, .none))))) ∧
  (∀ (g : Gu) (r : Reading),
    ((r.raw : Int) + g.biasOf r.station < 0 → g.effective r = 0) ∧
    (100 < (r.raw : Int) + g.biasOf r.station → g.effective r = 100) ∧
    (0 ≤ (r.raw : Int) + g.biasOf r.station → (r.raw : Int) + g.biasOf r.station ≤ 100 →
      (g.effective r : Int) = (r.raw : Int) + g.biasOf r.station)) ∧
  (∀ valid : List Reading,
    PassRule.any.met valid = true ∧
    (PassRule.surfaceReq.met valid = true ↔ ∃ r ∈ valid, r.kind = .surface) ∧
    (PassRule.detailReq.met valid = true ↔ ∃ r ∈ valid, r.kind = .detail) ∧
    (PassRule.bothReq.met valid = true ↔ (∃ r ∈ valid, r.kind = .surface) ∧ ∃ r ∈ valid, r.kind = .detail)) ∧
  (∀ c : ClassEntry,
    c.dispOf .A = c.dispA ∧ c.dispOf .B = c.dispB ∧ c.dispOf .C = c.dispC ∧ c.dispOf .D = c.dispD ∧
    c.dispOf .X = c.dispX)

/-! ## Item commands -/

/-- The bytes of a slot after a record write-back: the fields it covers as 12.1 encodes them, and every other byte as it was
(R43, R177, 12.1). A record as a fetch takes it: each field at its offset and width, with a STATE above 7 taken as EMPTY, a GRADE
above 4 as X, REGRADES above 3 as 3, a QUEUE above 5 as none, and a DISP other than PICK as RESERVE (R9, R177). Numbers are
little-endian, and the enumerations have the values of 1.1 and 2.1. -/
def Obligations.WriteBacksCoverTheirFields : Prop :=
  (∀ (d : Memory) (a n v : Nat),
    Memory.nat d a 0 = 0 ∧ Memory.nat d a (n + 1) = (Memory.read d a).toNat + 256 * Memory.nat d (a + 1) n ∧
    Memory.word d a = BitVec.ofNat 32 (Memory.nat d a 4) ∧
    leBytes 0 v = [] ∧ leBytes (n + 1) v = BitVec.ofNat 8 v :: leBytes n (v / 256) ∧
    cellsAt a [] = [] ∧ ∀ b l, cellsAt a (b :: l) = (a, b) :: cellsAt (a + 1) l) ∧
  ([RecState.empty, .opened, .routed, .taken, .closed, .lost, .void, .trialed].map RecState.code = List.range 8 ∧
    [RecResult.ok, .badCommand, .badState, .badClass, .badReading, .noReadings, .noRoom, .tooLate, .notTaken, .wrongBin,
      .regradeLimit, .lateAccepted, .lateRefused, .okLockedBin, .frozen, .memFault].map RecResult.code = List.range 16 ∧
    [Grade.A, .B, .C, .D, .X].map Grade.code = List.range 5 ∧
    [Disp.pick, .reserve, .refurb, .outlet, .vendor, .hold].map Disp.code = List.range 6 ∧
    [Reason.none, .policy, .passMissing, .disagree, .noBin, .noReservation, .queueFull].map Reason.code = List.range 7 ∧
    (∀ f : RecFlags, f.code = f.trial.toNat + 2 * f.rerouted.toNat + 4 * f.fellBack.toNat + 8 * f.late.toNat) ∧
    queueCode none = 255 ∧ (∀ q, queueCode (some q) = q.val) ∧ binCode none = 65535 ∧ ∀ b, binCode (some b) = b) ∧
  (∀ (d : Memory) (a : Nat),
    let byte (o : Nat) : Nat := (Memory.read d (a + o)).toNat
    let r : Rec := Memory.record d a
    r.tag = Memory.nat d a 6 ∧ r.cls = byte 6 ∧ r.cmd = byte 7 ∧ r.cmdArg = Memory.nat d (a + 8) 2 ∧
    r.defects = [10, 11, 12, 13, 14, 15].map (fun o => byte o % 64) ∧
    r.readings = [16, 18, 20, 22].map (fun o =>
      { valid := decide (byte o % 2 = 1), kind := if byte o / 2 % 2 = 1 then .detail else .surface,
        station := byte o / 16, raw := byte (o + 1) % 128 }) ∧
    r.state.code = (if byte 32 ≤ 7 then byte 32 else 0) ∧ r.grade.code = (if byte 34 ≤ 4 then byte 34 else 4) ∧
    r.disp = (if byte 35 = 0 then .pick else .reserve) ∧ r.regrades = (if byte 37 ≤ 3 then byte 37 else 3) ∧
    r.flags = { trial := decide (byte 38 % 2 = 1), rerouted := decide (byte 38 / 2 % 2 = 1),
                fellBack := decide (byte 38 / 4 % 2 = 1), late := decide (byte 38 / 8 % 2 = 1) } ∧
    (∀ q : Fin 6, r.queue = some q ↔ byte 41 = q.val) ∧ (r.queue = none ↔ 6 ≤ byte 41) ∧
    r.bin = Memory.nat d (a + 42) 2 ∧ r.ringIndex = Memory.nat d (a + 44) 2 ∧ r.served = Memory.nat d (a + 46) 2 ∧
    r.ticket = BitVec.ofNat 32 (Memory.nat d (a + 48) 4)) ∧
  ∀ (d : Memory) (a : Nat) (u : RecUpdate) (x : Nat),
    let after := Memory.writeCells d (RecUpdate.cells a u)
    let byte (o : Nat) (v : Option Nat) : Prop :=
      Memory.read after (a + o) = (match v with | some n => BitVec.ofNat 8 n | none => Memory.read d (a + o))
    (byte 7 (if u.clearCmd then some 0 else none) ∧ byte 8 (if u.clearCmd then some 0 else none) ∧
      byte 9 (if u.clearCmd then some 0 else none)) ∧
    byte 32 (u.state.map (·.code)) ∧ byte 33 (u.result.map (·.code)) ∧ byte 34 (u.grade.map (·.code)) ∧
    byte 35 (u.disp.map (·.code)) ∧ byte 36 (u.reason.map (·.code)) ∧ byte 37 u.regrades ∧
    byte 38 (u.flags.map (·.code)) ∧ byte 39 u.score ∧ byte 40 u.spread ∧ byte 41 (u.queue.map queueCode) ∧
    byte 42 (u.bin.map binCode) ∧ byte 43 (u.bin.map (fun b => binCode b / 256)) ∧
    byte 44 u.ringIndex ∧ byte 45 (u.ringIndex.map (· / 256)) ∧
    byte 46 u.served ∧ byte 47 (u.served.map (· / 256)) ∧
    byte 48 (u.ticket.map (·.toNat)) ∧ byte 49 (u.ticket.map (fun t => t.toNat / 256)) ∧
    byte 50 (u.ticket.map (fun t => t.toNat / 65536)) ∧ byte 51 (u.ticket.map (fun t => t.toNat / 16777216)) ∧
    ((x < a + 7 ∨ (a + 10 ≤ x ∧ x < a + 32) ∨ a + 52 ≤ x) → Memory.read after x = Memory.read d x)

/-- OPEN on an EMPTY record writes every part field at its cleared value, SERVED 1 (R10); CLEAR on a CLOSED, VOID, LOST or
TRIALED record writes STATE EMPTY and keeps the other part fields but RESULT and SERVED (R11). Neither makes a claim. The
record is what the grant of the fetch finds in memory (R40, R140, R141). -/
def Obligations.OpenAndClear : Prop :=
  (∀ (s : State) (a : Nat), s.fetched = { s with ma := (s.ma.grantOwn s.finds s.fwd.length .fetch).answerRead .fetch } ∧
    s.recordAt a = Memory.record (s.readBy .fetch) a) ∧
  ∀ (svc : Service) (a : Nat) (rec : Rec) (s : State), s.atCommand svc a → s.recordAt a = rec →
    (rec.cmd = 1 → rec.state = .empty →
      exec .cmdOpen s
        = .next (s.fetched.writesBack svc
            (RecUpdate.cells a
              { clearCmd := true, state := some .opened, result := some .ok, grade := some .A, disp := some .pick,
                reason := some .none, regrades := some 0,
                flags := some { trial := false, rerouted := false, fellBack := false, late := false },
                score := some 0, spread := some 0, queue := some none, bin := some none, ringIndex := some 0,
                served := some 1, ticket := some 0 }) [])) ∧
    (rec.cmd = 7 → (rec.state = .closed ∨ rec.state = .void ∨ rec.state = .lost ∨ rec.state = .trialed) →
      exec .cmdClear s
        = .next (s.fetched.writesBack svc
            (RecUpdate.cells a
              { clearCmd := true, state := some .empty, result := some .ok, served := some (servedAfter rec) }) []))

/-- A command refused before it is served (R41, cases 2 to 4), for each of the seven codes: its write-back covers RESULT,
SERVED, CMD and CMD_ARG alone, and `EVT_CMD_REFUSED` waits for its completion; a fetched CMD above 7 is refused with SERVED
unchanged (R41, case 1), and a command whose fetch faults is ended with `RES_MEM_FAULT` and `EVT_MEM_FAULT` (R40). -/
def Obligations.CommandsRefusedBeforeService : Prop :=
  ∀ (svc : Service) (a : Nat) (rec : Rec) (s : State), s.atCommand svc a → s.recordAt a = rec →
    let refused (i : Instr) (res : RecResult) : Prop :=
      exec i s = .next (s.fetched.writesBack svc
        (RecUpdate.cells a { clearCmd := true, result := some res, served := some (servedAfter rec) }) [.cmdRefused])
    let frozenAnswer (i : Instr) : Prop :=
      svc.frozen = true → (rec.state = .opened ∨ rec.state = .routed ∨ rec.state = .trialed) → refused i .frozen
    (rec.cmd = 1 → rec.state ≠ .empty → refused .cmdOpen .badState) ∧
    (rec.cmd = 2 → frozenAnswer .cmdCommit) ∧
    (rec.cmd = 2 → (svc.frozen = false ∨ (rec.state ≠ .routed ∧ rec.state ≠ .trialed)) → rec.state ≠ .opened →
      refused .cmdCommit .badState) ∧
    (rec.cmd = 3 → frozenAnswer .cmdRegrade) ∧
    (rec.cmd = 3 → (svc.frozen = false ∨ rec.state ≠ .opened) → rec.state ≠ .routed → rec.state ≠ .trialed →
      refused .cmdRegrade .badState) ∧
    (rec.cmd = 3 → svc.frozen = false → rec.state = .routed → 3 ≤ rec.regrades → refused .cmdRegrade .regradeLimit) ∧
    (rec.cmd = 4 → rec.state = .routed → refused .cmdPlaced .notTaken) ∧
    (rec.cmd = 4 → rec.state ≠ .taken → rec.state ≠ .lost → rec.state ≠ .routed → refused .cmdPlaced .badState) ∧
    (rec.cmd = 5 → rec.state = .routed → refused .cmdMisfit .notTaken) ∧
    (rec.cmd = 5 → rec.state ≠ .taken → rec.state ≠ .routed → refused .cmdMisfit .badState) ∧
    (rec.cmd = 6 → (rec.state = .empty ∨ rec.state = .closed ∨ rec.state = .void) → refused .cmdWithdraw .badState) ∧
    (rec.cmd = 7 → (rec.state = .empty ∨ rec.state = .opened ∨ rec.state = .routed ∨ rec.state = .taken) →
      refused .cmdClear .badState) ∧
    (7 < rec.cmd →
      exec .badCommand s
        = .next (s.fetched.writesBack svc (RecUpdate.cells a { clearCmd := true, result := some .badCommand }) [.cmdRefused])) ∧
    exec .fetchFault s
      = .next (s.fetched.writesBack svc (RecUpdate.cells a { clearCmd := true, result := some .memFault }) [.memFault])

/-- COMMIT on an OPEN record (R33, R34, R46): a refused grading is its RESULT; in a trial area the record becomes TRIALED
with the graded result; in an ordinary area the routing chain runs from the graded disposition and reason. That the flags
the rules do not name stay is the model's reading (notes/assumptions/21.md). -/
def Obligations.CommitGradesAndRoutes : Prop :=
  ∀ (svc : Service) (a : Nat) (rec : Rec) (s : State), s.atCommand svc a → s.recordAt a = rec →
    rec.cmd = 2 → rec.state = .opened → svc.frozen = false →
    (∀ res, s.gu.grade rec.cls rec.readings rec.defects = .error res →
      exec .cmdCommit s
        = .next (s.fetched.writesBack svc
            (RecUpdate.cells a { clearCmd := true, result := some res, served := some (servedAfter rec) })
            [.cmdRefused])) ∧
    (∀ g, s.gu.grade rec.cls rec.readings rec.defects = .ok g → s.layout.isTrial svc.entry.slot = true →
      exec .cmdCommit s
        = .next (s.fetched.writesBack svc
            (RecUpdate.cells a
              { clearCmd := true, state := some .trialed, result := some .ok, grade := some g.grade,
                disp := some g.disp, reason := some g.reason, flags := some { rec.flags with trial := true },
                score := some g.score, spread := some g.spread, queue := some none, bin := some none,
                ringIndex := some 0, served := some (servedAfter rec), ticket := some 0 }) [])) ∧
    (∀ g, s.gu.grade rec.cls rec.readings rec.defects = .ok g → s.layout.isTrial svc.entry.slot = false →
      exec .cmdCommit s
        = .next (s.fetched.runChain svc rec
            { kind := .commit, grade := g.grade, score := g.score, spread := g.spread, disp := g.disp,
              reason := g.reason, fellBack := false, bin := none, ticket := s.icu.counter }))

/-- REGRADE (R33, R34, R51, R52): a refused grading leaves the route whole; a TRIALED record is graded again and stays
TRIALED; for a ROUTED record the void claim waits behind an entry write, is answered ALREADY_TAKEN and the command refused
with `RES_TOO_LATE`, or is answered VOIDED, and then a restock reservation is cancelled and the chain runs, or in a trial
area the record becomes TRIALED, with REGRADES one more. That the flags the rules do not name stay is the model's reading
(notes/assumptions/21.md). -/
def Obligations.RegradeVoidsAndRoutes : Prop :=
  ∀ (svc : Service) (a : Nat) (rec : Rec) (s : State), s.atCommand svc a → s.recordAt a = rec →
    rec.cmd = 3 → svc.frozen = false →
    (∀ res, (rec.state = .trialed ∨ (rec.state = .routed ∧ rec.regrades < 3)) →
      s.gu.grade rec.cls rec.readings rec.defects = .error res →
      exec .cmdRegrade s
        = .next (s.fetched.writesBack svc
            (RecUpdate.cells a { clearCmd := true, result := some res, served := some (servedAfter rec) })
            [.cmdRefused])) ∧
    (∀ g, rec.state = .trialed → s.gu.grade rec.cls rec.readings rec.defects = .ok g →
      exec .cmdRegrade s
        = .next (s.fetched.writesBack svc
            (RecUpdate.cells a
              { clearCmd := true, state := some .trialed, result := some .ok, grade := some g.grade,
                disp := some g.disp, reason := some g.reason, flags := some { rec.flags with trial := true },
                score := some g.score, spread := some g.spread, queue := some none, bin := some none,
                ringIndex := some 0, served := some (servedAfter rec), ticket := some 0 }) [])) ∧
    (∀ g, rec.state = .routed → rec.regrades < 3 → s.gu.grade rec.cls rec.readings rec.defects = .ok g →
      (rec.queue ≠ none → s.qu.entryPending = true →
        exec .cmdRegrade s = .next { s.fetched with icu := { s.icu with stage := .voiding svc rec (some g) } }) ∧
      (rec.queue = none →
        exec .cmdRegrade s
          = .next (s.fetched.writesBack svc
              (RecUpdate.cells a { clearCmd := true, result := some .tooLate, served := some (servedAfter rec) })
              [.cmdRefused])) ∧
      (∀ q, rec.queue = some q → s.qu.entryPending = false →
        (s.fetched.voidEntry q rec.ringIndex rec.ticket svc.entry.slot).1 = false →
        exec .cmdRegrade s
          = .next (s.fetched.writesBack svc
              (RecUpdate.cells a { clearCmd := true, result := some .tooLate, served := some (servedAfter rec) })
              [.cmdRefused])) ∧
      (∀ q u v, rec.queue = some q → s.qu.entryPending = false →
        s.fetched.voidEntry q rec.ringIndex rec.ticket svc.entry.slot = (true, u) →
        v = (if q = 0 ∨ q = 1 then u.cancelResv svc.entry.slot else u) →
        (s.layout.isTrial svc.entry.slot = true →
          exec .cmdRegrade s
            = .next (v.writesBack svc
                (RecUpdate.cells a
                  { clearCmd := true, state := some .trialed, result := some .ok, grade := some g.grade,
                    disp := some g.disp, reason := some g.reason, regrades := some (rec.regrades + 1),
                    flags := some { rec.flags with trial := true },
                    score := some g.score, spread := some g.spread, queue := some none, bin := some none,
                    ringIndex := some 0, served := some (servedAfter rec), ticket := some 0 }) [])) ∧
        (s.layout.isTrial svc.entry.slot = false →
          exec .cmdRegrade s
            = .next (v.runChain svc rec
                { kind := .regrade, grade := g.grade, score := g.score, spread := g.spread, disp := g.disp,
                  reason := g.reason, fellBack := false, bin := none, ticket := s.icu.counter }))))

/-- PLACED on a TAKEN or LOST record (R53, R54, R97): a TAKEN reservation of the slot whose BIN is CMD_ARG is confirmed and
the bin occupied; another bin is refused with `RES_WRONG_BIN`; and with no TAKEN reservation the late path places into the bin
of CMD_ARG when its FREE is above 0 and it is not RETIRED, and otherwise writes the record LOST. That the late path keeps the
flags other than LATE is the model's reading (notes/assumptions/21.md). -/
def Obligations.PlacedConfirmsOrPlacesLate : Prop :=
  ∀ (svc : Service) (a : Nat) (rec : Rec) (s : State), s.atCommand svc a → s.recordAt a = rec →
    rec.cmd = 4 → (rec.state = .taken ∨ rec.state = .lost) →
    (∀ r d, s.ru.find? svc.entry.slot = some r → r.state = .taken d → r.bin = rec.cmdArg →
      exec .cmdPlaced s
        = .next (((s.fetched.removeResv svc.entry.slot).occupyBin r.bin).2.writesBack svc
            (RecUpdate.cells a
              { clearCmd := true, state := some .closed,
                result := some (if (s.bu.bin r.bin).state = .locked then .okLockedBin else .ok),
                served := some (servedAfter rec) })
            (if (s.bu.bin r.bin).state = .locked then [.lockedBin] else []))) ∧
    (∀ r d, s.ru.find? svc.entry.slot = some r → r.state = .taken d → r.bin ≠ rec.cmdArg →
      exec .cmdPlaced s
        = .next (s.fetched.writesBack svc
            (RecUpdate.cells a { clearCmd := true, result := some .wrongBin, served := some (servedAfter rec) })
            [.cmdRefused])) ∧
    ((∀ r d, s.ru.find? svc.entry.slot = some r → r.state ≠ .taken d) →
      (rec.cmdArg < 2048 → (s.bu.bin rec.cmdArg).state ≠ .retired → 0 < (s.bu.bin rec.cmdArg).free →
        exec .cmdPlaced s
          = .next ((s.fetched.changeBin rec.cmdArg (fun x => { x with occupied := x.occupied + 1 })).writesBack svc
              (RecUpdate.cells a
                { clearCmd := true, state := some .closed, result := some .lateAccepted, bin := some (some rec.cmdArg),
                  flags := some { rec.flags with late := true }, served := some (servedAfter rec) })
              (if (s.bu.bin rec.cmdArg).state = .locked then [.latePlace, .lockedBin] else [.latePlace]))) ∧
      ((2048 ≤ rec.cmdArg ∨ (s.bu.bin rec.cmdArg).state = .retired ∨ (s.bu.bin rec.cmdArg).free = 0) →
        exec .cmdPlaced s
          = .next (s.fetched.writesBack svc
              (RecUpdate.cells a
                { clearCmd := true, state := some .lost, result := some .lateRefused, bin := some (some rec.bin),
                  flags := some { rec.flags with late := true }, served := some (servedAfter rec) })
              [.latePlace])))

/-- MISFIT on a TAKEN record (R55, R56, R98): a CLASS above 31 is refused before any claim; with no TAKEN reservation the
record is written LOST with `RES_TOO_LATE`; otherwise the reservation is removed, its bin marked full, and the routing chain
runs from the record's DISP with reason NONE, on the bins as they are when it runs: at once, or, where the mailbox block read of
an operation is made, at the next MISFIT command, behind whatever the operation does in between, the slot in service meanwhile
(R56, R63). That the re-route waits there and nowhere else is the model's choice (notes/assumptions/36.md). -/
def Obligations.MisfitReroutes : Prop :=
  (∀ (svc : Service) (a : Nat) (rec : Rec) (s : State), s.atCommand svc a → s.recordAt a = rec →
    rec.cmd = 5 → rec.state = .taken →
    (31 < rec.cls →
      exec .cmdMisfit s
        = .next (s.fetched.writesBack svc
            (RecUpdate.cells a { clearCmd := true, result := some .badClass, served := some (servedAfter rec) })
            [.cmdRefused])) ∧
    (rec.cls ≤ 31 → (∀ r d, s.ru.find? svc.entry.slot = some r → r.state ≠ .taken d) →
      exec .cmdMisfit s
        = .next (s.fetched.writesBack svc
            (RecUpdate.cells a
              { clearCmd := true, state := some .lost, result := some .tooLate, served := some (servedAfter rec) })
            [.cmdRefused])) ∧
    (∀ r d, rec.cls ≤ 31 → s.ru.find? svc.entry.slot = some r → r.state = .taken d →
      let marked : State := (s.fetched.removeResv svc.entry.slot).markFullBin r.bin
      (s.cu.work ≠ .reading → exec .cmdMisfit s
        = .next (marked.runChain svc rec
            { kind := .misfit, grade := rec.grade, score := 0, spread := 0, disp := rec.disp, reason := .none,
              fellBack := false, bin := none, ticket := s.icu.counter })) ∧
      (s.cu.work = .reading →
        exec .cmdMisfit s = .next { marked with icu := { s.icu with stage := .rerouting svc rec } }))) ∧
  ∀ (svc : Service) (rec : Rec) (s : State), s.icu.stage = .rerouting svc rec →
    s.icu.stage.service = some svc ∧
    exec .cmdMisfit s
      = .next (s.runChain svc rec
          { kind := .misfit, grade := rec.grade, score := 0, spread := 0, disp := rec.disp, reason := .none,
            fellBack := false, bin := none, ticket := s.icu.counter })

/-- WITHDRAW (R57): an OPEN, TRIALED or LOST record makes no claim, a TAKEN one cancels its reservation, and a ROUTED one
voids its entry, waiting behind an entry write, and whatever the answer cancels a restock reservation; each is written VOID. -/
def Obligations.WithdrawEndsTheRecord : Prop :=
  ∀ (svc : Service) (a : Nat) (rec : Rec) (s : State), s.atCommand svc a → s.recordAt a = rec →
    rec.cmd = 6 →
    let voided (u : State) : Prop :=
      exec .cmdWithdraw s
        = .next (u.writesBack svc
            (RecUpdate.cells a
              { clearCmd := true, state := some .void, result := some .ok, served := some (servedAfter rec) }) [])
    ((rec.state = .opened ∨ rec.state = .trialed ∨ rec.state = .lost) → voided s.fetched) ∧
    (rec.state = .taken → voided (s.fetched.cancelResv svc.entry.slot)) ∧
    (rec.state = .routed → rec.queue = none → voided s.fetched) ∧
    (∀ q, rec.state = .routed → rec.queue = some q → s.qu.entryPending = true →
      exec .cmdWithdraw s = .next { s.fetched with icu := { s.icu with stage := .voiding svc rec none } }) ∧
    (∀ q u, rec.state = .routed → rec.queue = some q → s.qu.entryPending = false →
      (s.fetched.voidEntry q rec.ringIndex rec.ticket svc.entry.slot).2 = u →
      voided (if q = 0 ∨ q = 1 then u.cancelResv svc.entry.slot else u))

/-- The notices (R3, R43, R58, R59): a TAKE notice makes a ROUTED record with its ticket TAKEN, or CLOSED from a queue other
than Q0 and Q1; an EXPIRY notice makes a TAKEN record with its ticket LOST with LATE set; in every other case, and where the
slot has left the layout, the notice ends and writes nothing. That a notice without a slot ends at its own row's command is
the model's choice (notes/assumptions/13.md); that a notice keeps the flags its rule does not name is its reading
(notes/assumptions/21.md). -/
def Obligations.NoticesMoveTheirRecords : Prop :=
  ∀ (svc : Service) (id : SlotId) (q : Fin 6) (ticket : Word32) (s : State), s.icu.stage = .fetching svc →
    (svc.entry = .take id q ticket →
      (∀ a, svc.addr = some a → (s.recordAt a).state = .routed → (s.recordAt a).ticket = ticket →
        exec .takeNotice s
          = .next (s.fetched.writesBack svc
              (RecUpdate.cells a
                { state := some (if q = 0 ∨ q = 1 then .taken else .closed),
                  flags := some (s.recordAt a).flags }) [])) ∧
      (svc.addr = none → exec .takeNotice s = .next s.endService.finish) ∧
      (∀ a, svc.addr = some a → ((s.recordAt a).state ≠ .routed ∨ (s.recordAt a).ticket ≠ ticket) →
        exec .takeNotice s = .next s.fetched.endService.finish)) ∧
    (svc.entry = .expiry id ticket →
      (∀ a, svc.addr = some a → (s.recordAt a).state = .taken → (s.recordAt a).ticket = ticket →
        exec .expiryNotice s
          = .next (s.fetched.writesBack svc
              (RecUpdate.cells a
                { state := some .lost, flags := some { (s.recordAt a).flags with late := true } }) [])) ∧
      (svc.addr = none → exec .expiryNotice s = .next s.endService.finish) ∧
      (∀ a, svc.addr = some a → ((s.recordAt a).state ≠ .taken ∨ (s.recordAt a).ticket ≠ ticket) →
        exec .expiryNotice s = .next s.fetched.endService.finish))

/-- The completion of a record write-back (R16, R38, R43): DRAM takes it, the events of the outcome are raised, and the
service ends: its place is freed and the holds that wait for one end, its slot leaves the busy set and the holds on a slot that
is in it no longer end (R16, R17, R135), the unit is idle or paused, and idle it takes the head entry of CQ in RUN and FROZEN,
noting FROZEN, the fetch last at the memory arbiter where the slot has an address (R39, R40); nothing else changes, and what is
ready at the ports is then taken (StepsKeepTheLimits). That it takes that entry before the decoder takes a request whose hold has
ended is the model's choice (notes/assumptions/6.md). -/
def Obligations.WriteBackEndsTheService : Prop :=
  (∀ (s : State) (svc : Service) (cells : Cells) (events : List EventKind), s.icu.stage = .writeBack svc cells events →
    ∃ u : State,
      exec .writeBackComplete s = .next u.endService.finish ∧
      u = { s.ownWrite .writeBack cells .ok with eu := s.eu.raiseAll events } ∧
      (∀ k : EventKind, u.eu.pending.getLsbD k.index = true ↔
        (s.eu.pending.getLsbD k.index = true ∨ k ∈ events)) ∧ u.eu.mask = s.eu.mask) ∧
  (∀ (s : State) (svc : Service), s.icu.stage.service = some svc →
    let released (v : PortState) : PortState :=
      { v with outstanding := v.outstanding.map (fun o =>
          { o with stage := match o.stage with
            | .held .cqCommand => .waiting
            | .held .cqNotice => .waiting
            | .held (.busySlot id) =>
              if id ∈ s.icu.given ∨ CqEntry.command id ∈ s.icu.cq then .held (.busySlot id) else .waiting
            | st => st }) }
    let ended : State := { s with portA := released s.portA, portB := released s.portB }
    (s.icu.pauseAsked = true → s.endService = { ended with icu := { s.icu with stage := .paused } }) ∧
    (s.icu.pauseAsked = false → (s.icu.cq = [] ∨ (s.cu.mode ≠ .run ∧ s.cu.mode ≠ .frozen)) →
      s.endService = { ended with icu := { s.icu with stage := .idle } }) ∧
    (∀ e r, s.icu.pauseAsked = false → s.icu.cq = e :: r → (s.cu.mode = .run ∨ s.cu.mode = .frozen) →
      s.endService = { ended with
        icu := { s.icu with
          cq := r
          stage := .fetching
            { entry := e, frozen := decide (s.cu.mode = .frozen), addr := s.layout.slotAddr e.slot } }
        ma := { s.ma with
          own := s.ma.own ++ (if s.layout.slotAddr e.slot = none then [] else [OwnReq.fetch]) } }))

/-! ## The routing chain -/

/-- The chain's search for a bin (R47, R94, R95): with no room in the reservation table a restock disposition becomes HOLD with
reason NO_RESERVATION; PICK takes the head of the pick list of the class, or else of the reserve list with the fall-back noted;
RESERVE takes the head of the reserve list; with no bin the disposition becomes HOLD with reason NO_BIN; a bin found is
reserved and a QUEUED reservation created before the append; and another disposition goes straight to the append. That these
claims are made in one step, with no other arrival between two of them, is the model's choice (notes/assumptions/35.md). -/
def Obligations.ChainSeeksABin : Prop :=
  ∀ (svc : Service) (rec : Rec) (r : Route) (s : State),
    let reserved (b : Nat) : State := s.changeBin b (fun x => { x with reserved := x.reserved + 1 })
    let created (b : Nat) (q : Fin 6) : State := (reserved b).createResv svc.entry.slot b q r.ticket
    ((r.disp ≠ .pick ∧ r.disp ≠ .reserve) → s.runChain svc rec r = s.claimAppend svc rec r) ∧
    ((r.disp = .pick ∨ r.disp = .reserve) → 1024 ≤ s.ru.table.length →
      s.runChain svc rec r = s.claimAppend svc rec { r with disp := .hold, reason := .noReservation }) ∧
    (∀ b l, r.disp = .pick → s.ru.table.length < 1024 → s.bu.list (listKey rec.cls .pick) = b :: l →
      s.runChain svc rec r = (created b 0).claimAppend svc rec { r with bin := some b }) ∧
    (∀ b l, r.disp = .pick → s.ru.table.length < 1024 → s.bu.list (listKey rec.cls .pick) = [] →
      s.bu.list (listKey rec.cls .reserve) = b :: l →
      s.runChain svc rec r
        = (created b 1).claimAppend svc rec { r with disp := .reserve, fellBack := true, bin := some b }) ∧
    (∀ b l, r.disp = .reserve → s.ru.table.length < 1024 → s.bu.list (listKey rec.cls .reserve) = b :: l →
      s.runChain svc rec r = (created b 1).claimAppend svc rec { r with bin := some b }) ∧
    ((r.disp = .pick ∨ r.disp = .reserve) → s.ru.table.length < 1024 →
      (r.disp = .pick → s.bu.list (listKey rec.cls .pick) = []) → s.bu.list (listKey rec.cls .reserve) = [] →
      s.runChain svc rec r = s.claimAppend svc rec { r with disp := .hold, reason := .noBin })

/-- The chain's appends (R48, R49, R110): the claim waits while an entry write is waiting or in flight; a queue is full when
its COUNT has reached its CAPACITY; one with room takes the entry, whose write joins the write queue; a full one other than
HOLD sends the entry to HOLD with reason QUEUE_FULL, a restock reservation cancelled; and a full HOLD ends the chain in
`RES_NO_ROOM` with the record OPEN. That the flags the rules do not name stay is the model's reading (notes/assumptions/21.md).
-/
def Obligations.ChainAppends : Prop :=
  (∀ (s : State) (q : Fin 6) (d : QDesc), s.desc? q = some d →
    (s.queueFull q = true ↔ d.capacity ≤ (s.queue q).count)) ∧
  (∀ u : Qu, u.entryPending = true ↔ (∃ cells app, QuItem.entry cells app ∈ u.waiting) ∨
    ∃ f cells app, u.inFlight = some f ∧ f.item = .entry cells app) ∧
  (∀ (svc : Service) (a : Nat), svc.addr = some a → svc.base = a) ∧
  ∀ (svc : Service) (rec : Rec) (r : Route) (s : State),
    let taken (x : Route) (u : State) : State :=
      ({ u with icu := { u.icu with stage := .entryWrite svc rec x } }).issueEntry x.disp.queue (x.entry svc rec)
    let noRoom (x : Route) (u : State) : State :=
      u.writesBack svc
        (RecUpdate.cells svc.base
          { clearCmd := true, state := some .opened, result := some .noRoom, disp := some .hold, reason := some x.reason,
            flags := some { rec.flags with rerouted := rec.flags.rerouted || decide (x.kind = .misfit),
                                           fellBack := x.fellBack },
            grade := if x.kind = .misfit then none else some x.grade,
            score := if x.kind = .misfit then none else some x.score,
            spread := if x.kind = .misfit then none else some x.spread,
            regrades := if x.kind = .regrade then some (rec.regrades + 1) else none,
            queue := some none, bin := some none, ringIndex := some 0, served := some (servedAfter rec),
            ticket := some 0 })
        (if x.kind = .misfit then [.cmdRefused, .misfit] else [.cmdRefused])
    let held : Route := { r with disp := .hold, reason := .queueFull, fellBack := false, bin := none }
    let cancelled : State := if r.disp = .pick ∨ r.disp = .reserve then s.cancelResv svc.entry.slot else s
    (s.qu.entryPending = true →
      s.claimAppend svc rec r = { s with icu := { s.icu with stage := .appending svc rec r } }) ∧
    (s.qu.entryPending = false → s.queueFull r.disp.queue = false → s.claimAppend svc rec r = taken r s) ∧
    (s.qu.entryPending = false → r.disp ≠ .hold → s.queueFull r.disp.queue = true → s.queueFull 5 = false →
      s.claimAppend svc rec r = taken held cancelled) ∧
    (s.qu.entryPending = false → r.disp ≠ .hold → s.queueFull r.disp.queue = true → s.queueFull 5 = true →
      s.claimAppend svc rec r = noRoom held cancelled) ∧
    (s.qu.entryPending = false → r.disp = .hold → s.queueFull 5 = true →
      s.claimAppend svc rec r = noRoom r s)

/-- The entry an append writes (R48, R107, 12.2): ticket, STATE LIVE, AREA, SLOT, BIN or none, TAG, and the word of grade,
reason, class and flags; its 16 bytes go to ring position TAIL, at once when no other write of the queue unit is in flight. -/
def Obligations.AppendsWriteTheirEntry : Prop :=
  (∀ (ticket : Word32) (id : SlotId) (bin : Option Nat) (tag : Nat) (grade : Grade) (reason : Reason) (cls : Nat)
      (re fb : Bool), id.area < 4 → id.slot < 65536 → (∀ b, bin = some b → b < 2048) → tag < 281474976710656 → cls < 32 →
    let e := entryBytesOf ticket id bin tag grade reason cls re fb
    e.length = 16 ∧ leNat (e.take 4) = ticket.toNat ∧
    leNat ((e.drop 4).take 4) % 4 = 1 ∧ leNat ((e.drop 4).take 4) / 4 % 4 = id.area ∧
    leNat ((e.drop 4).take 4) / 16 % 65536 = id.slot ∧
    leNat ((e.drop 4).take 4) / 1048576 = bin.getD 4095 ∧
    leNat ((e.drop 8).take 6) = tag ∧ leNat (e.drop 14) % 8 = grade.code ∧
    leNat (e.drop 14) / 8 % 8 = reason.code ∧ leNat (e.drop 14) / 64 % 32 = cls ∧
    leNat (e.drop 14) / 2048 % 2 = re.toNat ∧ leNat (e.drop 14) / 4096 = fb.toNat) ∧
  (∀ (q : Fin 6) (d : QDesc) (bytes : List Byte) (s : State), s.desc? q = some d →
    let item : QuItem := .entry (cellsAt (d.ringBase + 64 + 16 * (s.queue q).tail) bytes) true
    (s.qu.inFlight = none → s.qu.waiting = [] →
      s.issueEntry q bytes
        = { s with
            qu := { s.qu with inFlight := some { item := item
                                                 cells := cellsAt (d.ringBase + 64 + 16 * (s.queue q).tail) bytes } }
            ma := s.ma.ask .queueWrite }) ∧
    (∀ i r, s.qu.inFlight = none → s.qu.waiting = i :: r →
      s.issueEntry q bytes
        = { s with
            qu := { s.qu with waiting := r ++ [item], inFlight := some { item := i, cells := s.quCells i } }
            ma := s.ma.ask .queueWrite }) ∧
    (s.qu.inFlight ≠ none →
      s.issueEntry q bytes = { s with qu := { s.qu with waiting := s.qu.waiting ++ [item] } }))

/-! ## The queue unit -/

/-- The entry write of an append is answered OK (R45, R50, R110, R111): the position at the old TAIL is LIVE with the ticket
and the slot, TAIL, COUNT, LIVE and APPENDED advance, LAST_TICKET is the ticket and the counter goes on behind it to the
next value that no position holds; `EVT_NEAR_FULL` is raised when COUNT comes to NEAR; and the record is written back ROUTED.
That the queue unit's next write becomes ready ahead of the write-back, and that it carries the values after the append, are
the model's choices (notes/assumptions/28.md and 30.md); that the flags the rules do not name stay is its reading
(notes/assumptions/21.md). -/
def Obligations.AppendTakesEffect : Prop :=
  (∀ (queues : Vector QState 6) (t : Word32), (heldTickets queues).length ≤ 8192 → t ≠ 0 →
    freeTicket queues t ∉ heldTickets queues ∧ freeTicket queues t ≠ 0 ∧
    (t ∉ heldTickets queues → freeTicket queues t = t) ∧
    ∃ k, freeTicket queues t = (fun x : Word32 => if x = 4294967295 then 1 else x + 1)^[k] t ∧
      ∀ j, j < k → (fun x : Word32 => if x = 4294967295 then 1 else x + 1)^[j] t ∈ heldTickets queues) ∧
  (∀ (queues : Vector QState 6) (t : Word32),
    t ∈ heldTickets queues ↔ ∃ (q : Fin 6), ∃ c ∈ queues[q].positions, c.2.ticket = t) ∧
  ∀ (s : State) (svc : Service) (rec : Rec) (r : Route) (f : QuFlight) (cells : Cells) (d : QDesc) (q : Fin 6),
    s.icu.stage = .entryWrite svc rec r → s.qu.inFlight = some f → f.item = .entry cells true →
    q = r.disp.queue → s.desc? q = some d →
    ∃ t : State, exec .appendEntryWriteDone s = .next t ∧
      t.dram = (s.ownWrite .queueWrite f.cells .ok).dram ∧
      t.queue q = { s.queue q with
        positions := Map.ins (s.queue q).tail { state := .live, ticket := r.ticket, id := svc.entry.slot }
          (s.queue q).positions
        tail := ((s.queue q).tail + 1) % d.capacity
        count := (s.queue q).count + 1
        live := (s.queue q).live + 1
        appended := (s.queue q).appended + 1
        lastTicket := r.ticket } ∧
      (∀ p, p ≠ q → t.queue p = s.queue p) ∧ t.qu.lastTicket = r.ticket ∧
      t.icu = { s.icu with
        counter := t.icu.counter
        stage := .writeBack svc
          (RecUpdate.cells svc.base
            { clearCmd := true, state := some .routed, result := some .ok, disp := some r.disp,
              reason := some r.reason, flags := some (r.flags rec),
              grade := if r.kind = .misfit then none else some r.grade,
              score := if r.kind = .misfit then none else some r.score,
              spread := if r.kind = .misfit then none else some r.spread,
              regrades := if r.kind = .regrade then some (rec.regrades + 1) else none,
              queue := some (some q), bin := some r.bin, ringIndex := some (s.queue q).tail,
              served := some (servedAfter rec), ticket := some r.ticket })
          ((if r.disp = .hold then [.hold] else []) ++ (if r.kind = .misfit then [.misfit] else [])) } ∧
      t.icu.counter = freeTicket t.qu.queues (if r.ticket = 4294967295 then 1 else r.ticket + 1) ∧
      t.queued (.header q) ∧ t.queued .ticketImage ∧
      (∃ i r, s.qu.waiting ++ (if QuItem.header q ∈ s.qu.waiting then [] else [.header q]) = i :: r ∧
        t.qu.inFlight = some { item := i, cells := t.quCells i } ∧
        t.qu.waiting = r ++ (if QuItem.ticketImage ∈ r then [] else [.ticketImage])) ∧
      t.ma = ((s.ownWrite .queueWrite f.cells .ok).ma.ask .queueWrite).ask .writeBack ∧
      t.eu = (if (s.queue q).count < d.near ∧ (s.queue q).count + 1 = d.near then s.eu.raise .nearFull else s.eu) ∧
      t.portA = s.portA ∧ t.portB = s.portB ∧ t.fwd = s.fwd ∧ t.layout = s.layout ∧ t.gu = s.gu ∧ t.bu = s.bu ∧
      t.ru = s.ru ∧ t.cu = s.cu ∧ t.pending = s.pending

/-- A void the queue unit takes (R112, R113): a LIVE position with the ticket and the slot becomes VOID, LIVE decreases and
VOIDED counts it, its entry and header writes are queued and the head is cleaned up; a VOID one is answered VOIDED again and
nothing changes; and every other position is answered ALREADY_TAKEN and nothing changes. By the head clean-up every VOID
position at the head leaves, HEAD and COUNT with it, until a position that is not VOID stands there or COUNT is 0. The entry
write of a void carries one byte, `ENT_VOID` with AREA and the low four bits of SLOT (R177); it joins the tail of the write
queue, and the header write behind it unless one waits (R109). -/
def Obligations.VoidAnswers : Prop :=
  (∀ id : SlotId, voidByte id = BitVec.ofNat 8 (2 + 4 * id.area + 16 * (id.slot % 16))) ∧
  (∀ (cap : Nat) (v : QState),
    let w := v.cleanHead cap
    w.tail = v.tail ∧ w.live = v.live ∧ w.lastTicket = v.lastTicket ∧ w.appended = v.appended ∧ w.taken = v.taken ∧
    w.voided = v.voided ∧ w.waiters = v.waiters ∧ w.count ≤ v.count ∧
    (w.count = 0 ∨ ∀ x, w.position w.head = some x → x.state ≠ .void) ∧
    ((∀ x, v.position v.head = some x → x.state ≠ .void) → w = v) ∧
    (∀ x, 0 < v.count → v.position v.head = some x → x.state = .void →
      w = ({ v with
             positions := Map.del v.head v.positions
             head := (v.head + 1) % cap
             count := v.count - 1 }).cleanHead cap)) ∧
  ∀ (q : Fin 6) (ring : Nat) (ticket : Word32) (id : SlotId) (d : QDesc) (s : State), s.desc? q = some d →
    let answer := s.voidEntry q ring ticket id
    (ring < d.capacity → (s.queue q).position ring = some { state := .live, ticket := ticket, id := id } →
      answer.1 = true ∧
      answer.2.queue q
        = ({ s.queue q with
             positions := Map.ins ring { state := .void, ticket := ticket, id := id } (s.queue q).positions
             live := (s.queue q).live - 1
             voided := (s.queue q).voided + 1 }).cleanHead d.capacity ∧
      (∀ p, p ≠ q → answer.2.queue p = s.queue p) ∧
      answer.2.queued (.entry [(d.ringBase + 64 + 16 * ring + 4, voidByte id)] false) ∧ answer.2.queued (.header q) ∧
      (let cells : Cells := [(d.ringBase + 64 + 16 * ring + 4, voidByte id)]
       let header (l : List QuItem) : List QuItem := if QuItem.header q ∈ l then [] else [.header q]
       answer.2.qu.lastTicket = s.qu.lastTicket ∧
       (s.qu.inFlight ≠ none → answer.2.qu.inFlight = s.qu.inFlight ∧ answer.2.ma = s.ma ∧
         answer.2.qu.waiting = s.qu.waiting ++ [.entry cells false] ++ header s.qu.waiting) ∧
       (s.qu.inFlight = none → answer.2.ma = s.ma.ask .queueWrite ∧
         (s.qu.waiting = [] → answer.2.qu.inFlight = some { item := .entry cells false, cells := cells } ∧
           answer.2.qu.waiting = [.header q]) ∧
         ∀ i r, s.qu.waiting ++ [.entry cells false] = i :: r →
           answer.2.qu.inFlight.map (·.item) = some i ∧ answer.2.qu.waiting = r ++ header r)) ∧
      answer.2.pending = s.pending ∧
      answer.2.icu = s.icu ∧ answer.2.bu = s.bu ∧ answer.2.ru = s.ru ∧ answer.2.gu = s.gu ∧ answer.2.cu = s.cu ∧
      answer.2.eu = s.eu ∧ answer.2.dram = s.dram ∧ answer.2.layout = s.layout ∧ answer.2.portA = s.portA ∧
      answer.2.portB = s.portB ∧ answer.2.fwd = s.fwd) ∧
    (ring < d.capacity → (s.queue q).position ring = some { state := .void, ticket := ticket, id := id } →
      answer = (true, s)) ∧
    ((d.capacity ≤ ring ∨ (s.queue q).position ring = none ∨
        ∃ x, (s.queue q).position ring = some x ∧ (x.state = .taking ∨ x.ticket ≠ ticket ∨ x.id ≠ id)) →
      answer = (false, s))

/-- The ring read of a take is answered OK (R115, R116): the take read gets the 16 bytes of the entry at the head as the grant
of the ring read found them (R141), the position frees, HEAD advances, COUNT decreases and TAKEN counts it, the head is cleaned
up, a header write is queued, and the take reads that wait are served in order: on an empty queue with a synthesized entry,
held for want of a place of CQ, or beginning the next take, its notice joining CQ as CommandWriteCompletes says, behind which
the others wait on. The header write joins the tail of
the write queue unless one waits (R109). That it stands at the memory arbiter ahead of what the next take issues is the model's
reading, and that the fetch of that take's notice stands ahead of its ring read is its choice (notes/assumptions/34.md). -/
def Obligations.TakeCompletes : Prop :=
  (∀ (q : Fin 6) (p : Port) (l : List Port) (s : State), serveWaiters q [] s = s ∧
    ((s.queue q).takeInProgress = true → serveWaiters q (p :: l) s = s.setQueue q { s.queue q with waiters := p :: l }) ∧
    (∀ o, (s.queue q).takeInProgress = false → headRequest (s.port p).outstanding = some o →
      ((s.queue q).count = 0 →
        serveWaiters q (p :: l) s = serveWaiters q l (s.setHead p (okData (tagOf o.req) synthEntry))) ∧
      (0 < (s.queue q).count → 24 ≤ s.places →
        serveWaiters q (p :: l) s = serveWaiters q l (s.setHead p (.held .cqNotice))) ∧
      (∀ x, 0 < (s.queue q).count → s.places < 24 → (s.queue q).position (s.queue q).head = some x →
        serveWaiters q (p :: l) s
          = serveWaiters q l (((({ s.setQueue q { s.queue q with
              positions := Map.ins (s.queue q).head { x with state := .taking } (s.queue q).positions
              live := (s.queue q).live - 1 } with
                ru := if q = 0 ∨ q = 1 then s.ru.takeNotice x.id q x.ticket else s.ru }).joinCq
                  (.take x.id q x.ticket)).askOwn (.takeRead q)).setHead p (.taking q))))) ∧
  ∀ (s : State) (q : Fin 6) (d : QDesc), s.desc? q = some d → (s.queue q).takeInProgress = true →
    let done : QState :=
      ({ s.queue q with
         positions := Map.del (s.queue q).head (s.queue q).positions
         head := ((s.queue q).head + 1) % d.capacity
         count := (s.queue q).count - 1
         taken := (s.queue q).taken + 1 }).cleanHead d.capacity
    let data := Memory.bytes (s.readBy (.takeRead q)) (d.ringBase + 64 + 16 * (s.queue q).head) 16
    ∃ u : State,
      exec (.takeComplete q) s = .next (serveWaiters q (s.queue q).waiters u).finish ∧
      u.queue q = { done with waiters := [] } ∧ (∀ p, p ≠ q → u.queue p = s.queue p) ∧
      (∀ p l o r, (s.port p).outstanding = l ++ o :: r → (∀ x ∈ l, x.stage ≠ .taking q) → o.stage = .taking q →
        (u.port p).outstanding = l ++ { o with stage := okData (tagOf o.req) data } :: r) ∧
      u.queued (.header q) ∧
      u.dram = s.dram ∧ u.icu = s.icu ∧ u.ru = s.ru ∧ u.bu = s.bu ∧ u.gu = s.gu ∧ u.cu = s.cu ∧ u.eu = s.eu ∧
      u.layout = s.layout ∧ u.fwd = s.fwd ∧ u.pending = s.pending ∧
      u.qu.lastTicket = s.qu.lastTicket ∧
      (let items : List QuItem := s.qu.waiting ++ (if QuItem.header q ∈ s.qu.waiting then [] else [.header q])
       let ma : Arbiter := (s.ma.grantOwn s.finds s.fwd.length (.takeRead q)).answerRead (.takeRead q)
       (s.qu.inFlight ≠ none → u.ma = ma ∧ u.qu.inFlight = s.qu.inFlight ∧
         u.qu.waiting = items) ∧
       (s.qu.inFlight = none → u.ma = ma.ask .queueWrite ∧
         ∃ i r, items = i :: r ∧ u.qu.inFlight = some { item := i, cells := u.quCells i } ∧ u.qu.waiting = r))

/-- A write of the queue unit other than an append's entry write is answered OK (R109): DRAM takes it, the head of the write
queue is issued, a header or ticket image write with the values that stand at its issue, and then with no entry write left
a claim that waits is taken (R110, R112), an append as its claim and a void with what follows its answer; at every other stage of
the service, and while an entry write is left, nothing more happens. A header write carries the eight fields and bytes 24 to 47
as 0 (R108, R177, 12.3). That the item is issued first is the model's choice (notes/assumptions/31.md). -/
def Obligations.QueueWritesGoInOrder : Prop :=
  (∀ v : QState, headerBytes v = leBytes 2 v.head ++ leBytes 2 v.tail ++ leBytes 2 v.count ++ leBytes 2 v.live
    ++ leBytes 4 v.lastTicket.toNat ++ leBytes 4 v.appended.toNat ++ leBytes 4 v.taken.toNat ++ leBytes 4 v.voided.toNat
    ++ List.replicate 24 0) ∧
  (∀ s : State, (∀ cells app, s.quCells (.entry cells app) = cells) ∧
    (∀ q d, s.desc? q = some d → s.quCells (.header q) = cellsAt d.ringBase (headerBytes (s.queue q))) ∧
    s.quCells .ticketImage = cellsAt (s.cbBase + 8) (leBytes 4 s.qu.lastTicket.toNat)) ∧
  ∀ (s : State) (f : QuFlight), s.qu.inFlight = some f → (∀ cells, f.item ≠ .entry cells true) →
    let landed : State := s.ownWrite .queueWrite f.cells .ok
    ∃ u : State,
      exec .quWriteDone s = .next u.resumeClaim ∧ u = { landed with qu := u.qu, ma := u.ma } ∧
      (s.qu.waiting = [] → u.qu = { s.qu with inFlight := none } ∧ u.ma = landed.ma) ∧
      (∀ i r, s.qu.waiting = i :: r →
        u.qu = { s.qu with waiting := r, inFlight := some { item := i, cells := s.quCells i } } ∧
        u.ma = landed.ma.ask .queueWrite) ∧
      (u.qu.entryPending = true → u.resumeClaim = u) ∧
      ((∀ svc rec x, s.icu.stage ≠ .appending svc rec x) → (∀ svc rec x, s.icu.stage ≠ .voiding svc rec x) →
        u.resumeClaim = u) ∧
      (∀ svc rec x, u.qu.entryPending = false → s.icu.stage = .appending svc rec x →
        u.resumeClaim = u.claimAppend svc rec x) ∧
      (∀ svc rec, u.qu.entryPending = false → s.icu.stage = .voiding svc rec none →
        let v : State := match rec.queue with
          | none => u
          | some q =>
            let w : State := (u.voidEntry q rec.ringIndex rec.ticket svc.entry.slot).2
            if q = 0 ∨ q = 1 then w.cancelResv svc.entry.slot else w
        u.resumeClaim = v.writesBack svc (RecUpdate.cells svc.base
          { clearCmd := true, state := some .void, result := some .ok, served := some (servedAfter rec) }) []) ∧
      (∀ svc rec g, u.qu.entryPending = false → s.icu.stage = .voiding svc rec (some g) →
        ((rec.queue = none ∨
            ∃ q, rec.queue = some q ∧ (u.voidEntry q rec.ringIndex rec.ticket svc.entry.slot).1 = false) →
          u.resumeClaim = u.writesBack svc (RecUpdate.cells svc.base
            { clearCmd := true, result := some .tooLate, served := some (servedAfter rec) }) [.cmdRefused]) ∧
        (∀ q w v, rec.queue = some q → u.voidEntry q rec.ringIndex rec.ticket svc.entry.slot = (true, w) →
          v = (if q = 0 ∨ q = 1 then w.cancelResv svc.entry.slot else w) →
          (s.layout.isTrial svc.entry.slot = true →
            u.resumeClaim = v.writesBack svc (RecUpdate.cells svc.base
              { clearCmd := true, state := some .trialed, result := some .ok, grade := some g.grade,
                disp := some g.disp, reason := some g.reason, regrades := some (rec.regrades + 1),
                flags := some { rec.flags with trial := true },
                score := some g.score, spread := some g.spread, queue := some none, bin := some none,
                ringIndex := some 0, served := some (servedAfter rec), ticket := some 0 }) []) ∧
          (s.layout.isTrial svc.entry.slot = false →
            u.resumeClaim = v.runChain svc rec
              { kind := .regrade, grade := g.grade, score := g.score, spread := g.spread, disp := g.disp,
                reason := g.reason, fellBack := false, bin := none, ticket := s.icu.counter })))

/-! ## The bin unit and the reservation unit -/

/-- What a change of a bin does (R71, R73 to R77, R85): the bin's entry alone changes, its image joins the image write queue or
is issued, at the tail and once (R85), and the lists still hold exactly the eligible bins, each once, when they did before: a
bin that becomes eligible joins the tail of its list, one that is no longer eligible leaves it, one that stays keeps its place,
and no other list changes (R71). With no image write in flight the head of the image write queue is issued at once, the bin as it
stands after the change, and a bin operation that waits for an image write of that bin takes note (R79, R85). FREE is CAPACITY
less OCCUPIED less RESERVED, and 0 below that (R65); the kind of a bin is that of the first valid zone whose END is not below it
(R68). -/
def Obligations.BinChangesKeepTheLists : Prop :=
  (∀ b : Bin, (b.occupied + b.reserved ≤ b.capacity → b.free + b.occupied + b.reserved = b.capacity) ∧
    (b.capacity < b.occupied + b.reserved → b.free = 0)) ∧
  (∀ (zones : List Zone) (b : Nat),
    (∀ k, kindOf zones b = some k ↔ ∃ l z r, zones = l ++ z :: r ∧ z.valid = true ∧ b ≤ z.last ∧ z.kind = k ∧
      ∀ y ∈ l, y.valid = false ∨ y.last < b) ∧
    (kindOf zones b = none ↔ ∀ z ∈ zones, z.valid = false ∨ z.last < b)) ∧
  (∀ (b : Nat) (f : Bin → Bin) (s : State),
    (s.changeBin b f).bu.bin b = f (s.bu.bin b) ∧ (∀ c, c ≠ b → (s.changeBin b f).bu.bin c = s.bu.bin c) ∧
    (b ∈ (s.changeBin b f).bu.imageQueue ∨
      ∃ w, (s.changeBin b f).bu.imageInFlight = some w ∧ w.bin = b ∧ s.bu.imageInFlight = none) ∧
    (let waits : List Nat := if b ∈ s.bu.imageQueue then s.bu.imageQueue else s.bu.imageQueue ++ [b]
     (∀ w, s.bu.imageInFlight = some w →
       (s.changeBin b f).bu.imageInFlight = some w ∧ (s.changeBin b f).bu.imageQueue = waits) ∧
     (s.bu.imageInFlight = none →
       ((s.changeBin b f).bu.imageInFlight.map (·.bin)).toList ++ (s.changeBin b f).bu.imageQueue = waits) ∧
     (∀ w, s.bu.imageInFlight = some w → (s.changeBin b f).ma = s.ma ∧ (s.changeBin b f).cu = s.cu) ∧
     (∀ c r, s.bu.imageInFlight = none → waits = c :: r →
       (s.changeBin b f).bu.imageQueue = r ∧
       (s.changeBin b f).bu.imageInFlight = some
         { bin := c, cells := cellsAt (s.cbBase + 4096 + 8 * c) (binImageBytes ((s.changeBin b f).bu.bin c)) } ∧
       (s.changeBin b f).ma = s.ma.ask .imageWrite ∧
       (∀ seq n detail i, s.cu.work = .waitImage seq n detail i →
         (s.changeBin b f).cu = { s.cu with work := .waitImage seq n detail (i || decide (n = c)) }) ∧
       ((∀ seq n detail i, s.cu.work ≠ .waitImage seq n detail i) → (s.changeBin b f).cu = s.cu)) ∧
     (s.bu.imageQueue.Nodup → (s.changeBin b f).bu.imageQueue.Nodup)) ∧
    (listsHoldEligible s.bu → listsHoldEligible (s.changeBin b f).bu) ∧
    (listsHoldEligible s.bu → ∀ c k,
      let eligible (x : Bin) : Prop := x.state = .opened ∧ 0 < x.free ∧ kindOf s.bu.zones b = some k ∧ x.cls = c
      let before : List Nat := s.bu.list (listKey c k)
      let after : List Nat := (s.changeBin b f).bu.list (listKey c k)
      (eligible (s.bu.bin b) → eligible (f (s.bu.bin b)) → after = before) ∧
      (eligible (s.bu.bin b) → ¬eligible (f (s.bu.bin b)) → after = before.erase b) ∧
      (¬eligible (s.bu.bin b) → eligible (f (s.bu.bin b)) → after = before ++ [b]) ∧
      (¬eligible (s.bu.bin b) → ¬eligible (f (s.bu.bin b)) → after = before)) ∧
    (s.changeBin b f).bu.zones = s.bu.zones ∧ (s.changeBin b f).ru = s.ru ∧ (s.changeBin b f).qu = s.qu ∧ (s.changeBin b f).icu = s.icu ∧
    (s.changeBin b f).gu = s.gu ∧ (s.changeBin b f).eu = s.eu ∧ (s.changeBin b f).dram = s.dram ∧
    (s.changeBin b f).layout = s.layout ∧ (s.changeBin b f).cu.mode = s.cu.mode ∧ (s.changeBin b f).fwd = s.fwd ∧
    (s.changeBin b f).portA = s.portA ∧ (s.changeBin b f).portB = s.portB ∧ (s.changeBin b f).pending = s.pending) ∧
  (∀ (b c : Nat) (l : List Nat) (k : ZoneKind) (s : State),
    (s.bu.list (listKey c k) = [] → s.reserveBin c k = (none, s)) ∧
    (s.bu.list (listKey c k) = b :: l →
      s.reserveBin c k = (some b, s.changeBin b (fun x => { x with reserved := x.reserved + 1 }))) ∧
    s.releaseBin b = s.changeBin b (fun x => { x with reserved := x.reserved - 1 }) ∧
    (s.occupyBin b).2
      = s.changeBin b (fun x => { x with reserved := x.reserved - 1, occupied := x.occupied + 1 }) ∧
    s.markFullBin b
      = s.changeBin b (fun x =>
          { x with reserved := x.reserved - 1, state := if x.state = .opened then .full else x.state }))

/-- A bin image write is answered OK (R79, R85): DRAM takes it, the next bin of the queue is written as it stands, and a bin
operation that waits for an image write of the bin issued after its change goes on to its result. An image is the eight bytes of
12.4, written whole (R177). That the result write then stands ahead of the next image write at the memory arbiter is the model's
choice (notes/assumptions/34.md). -/
def Obligations.ImageWritesGoInOrder : Prop :=
  (∀ b : Bin, binImageBytes b
    = leBytes 1 b.cls ++ leBytes 1 b.state.code ++ leBytes 2 b.capacity ++ leBytes 2 b.occupied ++ leBytes 2 b.reserved) ∧
  ([BinState.opened, .full, .locked, .retired].map BinState.code = List.range 4) ∧
  ∀ (s : State) (f : ImageWrite), s.bu.imageInFlight = some f →
    let landed : State := s.ownWrite .imageWrite f.cells .ok
    ∃ t : State, exec .binImageWriteDone s = .next t ∧ t.dram = landed.dram ∧
      t.ma = (let m : Arbiter :=
                if ∃ seq detail, s.cu.work = .waitImage seq f.bin detail true then landed.ma.ask .result else landed.ma
              if s.bu.imageQueue = [] then m else m.ask .imageWrite) ∧
      t.bu.bins = s.bu.bins ∧ t.bu.avail = s.bu.avail ∧ t.bu.zones = s.bu.zones ∧
      (s.bu.imageQueue = [] → t.bu.imageInFlight = none ∧ t.bu.imageQueue = []) ∧
      (∀ b r, s.bu.imageQueue = b :: r → t.bu.imageQueue = r ∧
        t.bu.imageInFlight
          = some { bin := b, cells := cellsAt (s.cbBase + 4096 + 8 * b) (binImageBytes (s.bu.bin b)) }) ∧
      (∀ seq detail, s.cu.work = .waitImage seq f.bin detail true → t.cu.work = .result (report seq .ok detail)) ∧
      (∀ seq b detail, s.cu.work = .waitImage seq b detail true → b ≠ f.bin → t.cu.work = s.cu.work) ∧
      (∀ seq b detail, s.cu.work = .waitImage seq b detail false →
        t.cu.work = .waitImage seq b detail (decide (s.bu.imageQueue.head? = some b))) ∧
      ((∀ seq b detail i, s.cu.work ≠ .waitImage seq b detail i) → t.cu = s.cu) ∧
      t.cu.mode = s.cu.mode ∧ t.gu = s.gu ∧ t.ru = s.ru ∧ t.qu = s.qu ∧ t.icu = s.icu ∧ t.eu = s.eu ∧
      t.layout = s.layout ∧ t.fwd = s.fwd ∧ t.portA = s.portA ∧ t.portB = s.portB ∧ t.pending = s.pending

/-- The claims on the reservation table (R95, R96, R99): a cancel removes the slot's reservation and releases its bin, or
changes nothing; a create removes an older reservation of the slot first, from the deadline list as well, and releases its bin,
and the other deadlines keep their order; and a take notice makes a QUEUED reservation with its queue and ticket TAKEN with
DEADLINE NOW plus the setting, behind every equal or earlier deadline, and otherwise changes nothing. -/
def Obligations.ReservationClaims : Prop :=
  ∀ (id : SlotId) (b : Nat) (q : Fin 6) (ticket : Word32) (s : State),
    (s.ru.find? id = none → s.cancelResv id = s) ∧
    (∀ r, s.ru.find? id = some r →
      s.cancelResv id = ({ s with ru := s.ru.remove id }).releaseBin r.bin ∧ (s.ru.remove id).find? id = none ∧
      id ∉ (s.ru.remove id).deadlines ∧ ∀ j, j ≠ id → (s.ru.remove id).find? j = s.ru.find? j) ∧
    ((s.createResv id b q ticket).ru.find? id
      = some { id := id, bin := b, queue := q, ticket := ticket, state := .queued }) ∧
    (∀ j, j ≠ id → (s.createResv id b q ticket).ru.find? j = s.ru.find? j) ∧
    (s.ru.remove id = { s.ru with
      table := s.ru.table.filter (fun r => decide (r.id ≠ id)), deadlines := s.ru.deadlines.filter (fun j => decide (j ≠ id)) }) ∧
    (∀ r, s.ru.find? id = some r →
      let x : State := ({ s with ru := s.ru.remove id }).releaseBin r.bin
      s.createResv id b q ticket = { x with ru := { s.ru with
        table := s.ru.table.filter (fun r => decide (r.id ≠ id))
          ++ [{ id := id, bin := b, queue := q, ticket := ticket, state := .queued }]
        deadlines := s.ru.deadlines.filter (fun j => decide (j ≠ id)) } }) ∧
    (s.ru.find? id = none → s.createResv id b q ticket = { s with ru := { s.ru with
      table := s.ru.table ++ [{ id := id, bin := b, queue := q, ticket := ticket, state := .queued }] } }) ∧
    (∀ r, s.ru.find? id = some r → r.state = .queued → r.queue = q → r.ticket = ticket →
      (s.ru.takeNotice id q ticket).find? id = some { r with state := .taken (s.ru.now + s.ru.setting) } ∧
      (s.ru.takeNotice id q ticket).deadlines
        = insertDeadline s.ru.deadlineOf id (s.ru.now + s.ru.setting) s.ru.deadlines ∧
      ∀ j, j ≠ id → (s.ru.takeNotice id q ticket).find? j = s.ru.find? j) ∧
    ((∀ r, s.ru.find? id = some r → r.state ≠ .queued ∨ r.queue ≠ q ∨ r.ticket ≠ ticket) →
      s.ru.takeNotice id q ticket = s.ru) ∧
    (∀ (f : SlotId → Nat) (d : Nat) (l : List SlotId), l.Pairwise (fun i j => f i ≤ f j) →
      ∃ before after, l = before ++ after ∧ insertDeadline f id d l = before ++ id :: after ∧
        (∀ j ∈ before, f j ≤ d) ∧ ∀ j ∈ after, d < f j)

/-- A tick adds one to NOW, which stays at 4,294,967,295, in every mode, and starts an expiry pass (R91, R100), which goes
on only while the head of the deadline list is due and CQ has a free place; an expiry of the pass removes the reservation at
the head, releases its bin, puts an EXPIRY notice in CQ, as CommandWriteCompletes says an entry joins, and raises `EVT_EXPIRED`; otherwise the pass ends (R101). That each
expiry of a pass is a command of its own is the model's choice (notes/assumptions/17.md). -/
def Obligations.TicksAndExpiries : Prop :=
  (∀ s : State, ∃ t : State,
    exec .tick s = .next t ∧ t = { s with ru := { s.ru with now := t.ru.now, pass := t.ru.pass } } ∧
    (s.ru.now < 4294967295 → t.ru.now = s.ru.now + 1) ∧ (4294967295 ≤ s.ru.now → t.ru.now = 4294967295) ∧
    (t.ru.pass = true ↔
      s.places < 24 ∧ ∃ id l r, s.ru.deadlines = id :: l ∧ s.ru.find? id = some r ∧ s.ru.deadlineOf id ≤ t.ru.now)) ∧
  ∀ s : State, s.ru.pass = true →
    (∀ id l r, s.ru.deadlines = id :: l → s.ru.find? id = some r → s.ru.deadlineOf id ≤ s.ru.now → s.places < 24 →
      ∃ u : State,
        exec .expiry s = .next u.lookPass ∧
        u = ((({ s with ru := s.ru.remove id }).releaseBin r.bin).joinCq (.expiry id r.ticket)).raise .expired ∧
        u.places = s.places + 1) ∧
    ((24 ≤ s.places ∨ s.ru.deadlines = [] ∨ (∃ id l, s.ru.deadlines = id :: l ∧
        (s.ru.find? id = none ∨ s.ru.now < s.ru.deadlineOf id))) →
      exec .expiry s = .next { s with ru := { s.ru with pass := false } })

/-! ## The event unit -/

/-- EVENT is asserted exactly when the pending set and the enable mask share a kind, and follows each change of either set: a
raise adds its kind and no other, and asserts the line when the kind is enabled; a read of the EVENT word empties the pending
set and deasserts it; a mask setting changes the kinds it covers; and after a reset the line is deasserted (R174). -/
def Obligations.EventLineIsASharedKind : Prop :=
  (∀ u : Eu, u.line = true ↔ ∃ n, n < 12 ∧ u.pending.getLsbD n = true ∧ u.mask.getLsbD n = true) ∧
  (∀ (k j : EventKind) (u : Eu), (u.raise k).pending.getLsbD j.index = (u.pending.getLsbD j.index || decide (j = k))) ∧
  (∀ (k : EventKind) (u : Eu), (u.raise k).mask = u.mask ∧
    (u.mask.getLsbD k.index = true → (u.raise k).line = true) ∧
    (u.mask.getLsbD k.index = false → (u.raise k).line = u.line)) ∧
  (∀ u : Eu, ({ u with pending := 0 } : Eu).line = false) ∧
  (∀ (covered value : BitVec 12) (u : Eu), (u.setMask covered value).line = true ↔
    ∃ n, n < 12 ∧ u.pending.getLsbD n = true ∧
      (if covered.getLsbD n then value.getLsbD n else u.mask.getLsbD n) = true) ∧
  (∀ (cbsel : Fin 16) (autoload : Bool) (s : State), ∃ t : State,
    exec (.powerOn cbsel autoload) s = .next t ∧ exec (.lineReset cbsel autoload) s = .next t ∧ t.eu.line = false)

/-! ## The mailbox -/

/-- The end of an operation that is not carried out: a faulted mailbox read (R147), an OP above 13, and an operation the mode
does not have (R148), each for every operation of the mailbox. The mailbox block is what the grant of its one read finds in
memory (R140, R141, R147): SEQ, OP, ARG0 and ARG1 at offsets 0, 4, 8 and 12, four bytes each (12.4). -/
def Obligations.OperationsNotCarriedOut : Prop :=
  (∀ (d : Memory) (cb : Nat), Memory.mailbox d cb
    = { seq := BitVec.ofNat 32 (Memory.nat d (cb + 64) 4), op := Memory.nat d (cb + 68) 4,
        arg0 := Memory.nat d (cb + 72) 4, arg1 := BitVec.ofNat 32 (Memory.nat d (cb + 76) 4) }) ∧
  (∀ s : State,
    s.mailboxFetched = { s with ma := (s.ma.grantOwn s.finds s.fwd.length .cuRead).answerRead .cuRead } ∧
    s.mailbox = Memory.mailbox (s.readBy .cuRead) s.cbBase) ∧
  ∀ s : State, s.cu.work = .reading →
    exec .mailboxReadFault s
      = .next (s.mailboxFetched.answers { seq := none, result := .memFault, detail := 9, prior := .nothing, after := .nothing }) ∧
    (13 < s.mailbox.op → exec .badOp s = .next (s.mailboxFetched.answers (report s.mailbox.seq .badOp 0))) ∧
    (let notNow (op : Nat) (i : Instr) : Prop :=
       s.mailbox.op = op → exec i s = .next (s.mailboxFetched.answers (report s.mailbox.seq .notNow 0))
     (∀ n f, s.cu.mode ≠ .init → notNow 1 (.startFresh ⟨n, f⟩) ∧ notNow 2 (.startRestore ⟨n, f⟩)) ∧
     (∀ n f, s.cu.mode ≠ .run → s.cu.mode ≠ .frozen →
       notNow 3 (.reload ⟨n, f⟩) ∧ notNow 6 .setBias ∧ notNow 7 .nudge ∧ notNow 8 .binSet ∧ notNow 9 .binLock ∧
       notNow 10 .binUnlock ∧ notNow 11 .binRetire ∧ notNow 12 .binPicked) ∧
     (s.cu.mode ≠ .run → notNow 4 .freeze) ∧ (s.cu.mode ≠ .frozen → notNow 5 .thaw) ∧
     (s.cu.mode ≠ .halted → notNow 13 .clearHalt))

/-- FREEZE in RUN, THAW in FROZEN, CLEAR_HALT in HALTED (R151, R152, R158): the echo write of the new mode, and then the
result write with `MB_OK` and DETAIL 0, whose completion changes the mode. SET_BIAS and NUDGE in RUN and FROZEN (R35, R36,
R37): arguments out of range are refused with `MB_BAD_ARG`; a NUDGE at the limit is answered `MB_SATURATED` with the
unchanged bias; and otherwise the image entry is written and then the result, whose completion gives the table the new
value. That the OK of the echo or image write has no command of its own is the model's choice (notes/assumptions/10.md). -/
def Obligations.ModeAndBiasOperations : Prop :=
  (∀ s : State,
    let echoed (m : Mode) : State :=
      { s with
        ma := ((s.ma.grantOwn s.finds s.fwd.length .cuRead).answerRead .cuRead).ask .cuWrite
        cu := { s.cu with
          work := .result
            { seq := some s.mailbox.seq, result := .ok, detail := 0, prior := .echo m, after := .mode m } } }
    (s.atOperation 4 → s.cu.mode = .run → exec .freeze s = .next (echoed .frozen)) ∧
    (s.atOperation 5 → s.cu.mode = .frozen → exec .thaw s = .next (echoed .run)) ∧
    (s.atOperation 13 → s.cu.mode = .halted → exec .clearHalt s = .next (echoed .init))) ∧
  ∀ s : State, (s.cu.mode = .run ∨ s.cu.mode = .frozen) →
    let mb := s.mailbox
    let badArg : State := s.mailboxFetched.answers (report mb.seq .badArg 0)
    let written (v : Int) : State :=
      { s with
        ma := ((s.ma.grantOwn s.finds s.fwd.length .cuRead).answerRead .cuRead).ask .cuWrite
        cu := { s.cu with
          work := .result
            { seq := some mb.seq, result := .ok, detail := BitVec.ofInt 32 v, prior := .bias mb.arg0 v,
              after := .bias mb.arg0 v } } }
    (s.atOperation 6 →
      ((15 < mb.arg0 ∨ mb.arg1.toInt < -32 ∨ 31 < mb.arg1.toInt) → exec .setBias s = .next badArg) ∧
      (mb.arg0 ≤ 15 → -32 ≤ mb.arg1.toInt → mb.arg1.toInt ≤ 31 → exec .setBias s = .next (written mb.arg1.toInt))) ∧
    (s.atOperation 7 →
      ((15 < mb.arg0 ∨ (mb.arg1 ≠ 1 ∧ mb.arg1 ≠ 2)) → exec .nudge s = .next badArg) ∧
      (mb.arg0 ≤ 15 → mb.arg1 = 1 → 31 ≤ s.gu.biasOf mb.arg0 →
        exec .nudge s = .next (s.mailboxFetched.answers (report mb.seq .saturated (BitVec.ofInt 32 (s.gu.biasOf mb.arg0))))) ∧
      (mb.arg0 ≤ 15 → mb.arg1 = 2 → s.gu.biasOf mb.arg0 ≤ -32 →
        exec .nudge s = .next (s.mailboxFetched.answers (report mb.seq .saturated (BitVec.ofInt 32 (s.gu.biasOf mb.arg0))))) ∧
      (mb.arg0 ≤ 15 → mb.arg1 = 1 → -32 ≤ s.gu.biasOf mb.arg0 → s.gu.biasOf mb.arg0 < 31 →
        exec .nudge s = .next (written (s.gu.biasOf mb.arg0 + 1))) ∧
      (mb.arg0 ≤ 15 → mb.arg1 = 2 → -32 < s.gu.biasOf mb.arg0 → s.gu.biasOf mb.arg0 ≤ 31 →
        exec .nudge s = .next (written (s.gu.biasOf mb.arg0 - 1))))

/-- The bin operations in RUN and FROZEN (R79 to R84): refused with `MB_BAD_ARG` or `MB_BIN_BUSY` and nothing changed, or the
bin changed, and the result waiting for an image write of the bin issued after the change, its DETAIL the bin's FREE. -/
def Obligations.BinOperations : Prop :=
  ∀ s : State, (s.cu.mode = .run ∨ s.cu.mode = .frozen) →
    let mb := s.mailbox
    let b := s.bu.bin mb.arg0
    let badArg (i : Instr) : Prop := exec i s = .next (s.mailboxFetched.answers (report mb.seq .badArg 0))
    let busy (i : Instr) : Prop :=
      exec i s = .next (s.mailboxFetched.answers (report mb.seq .binBusy (BitVec.ofNat 32 (b.occupied + b.reserved))))
    let changed (i : Instr) (new : Bin) : Prop :=
      exec i s = .next
        (({ s.mailboxFetched with cu := { s.cu with
            work := .waitImage mb.seq mb.arg0 (BitVec.ofNat 32 new.free) false } }).changeBin mb.arg0 (fun _ => new))
    let cap := mb.arg1.toNat % 65536
    let cls := mb.arg1.toNat / 65536
    (s.atOperation 8 →
      ((2047 < mb.arg0 ∨ 255 < cap ∨ 31 < cls) → badArg .binSet) ∧
      (mb.arg0 ≤ 2047 → cap ≤ 255 → cls ≤ 31 →
        (cls ≠ b.cls → 0 < b.occupied + b.reserved → busy .binSet) ∧
        ((cls = b.cls ∨ b.occupied + b.reserved = 0) →
          changed .binSet { b with
            cls := cls, capacity := cap
            state := if b.state = .full ∨ b.state = .retired then .opened else b.state }))) ∧
    (s.atOperation 9 →
      ((2047 < mb.arg0 ∨ b.state = .retired) → badArg .binLock) ∧
      (mb.arg0 ≤ 2047 → b.state ≠ .retired → changed .binLock { b with state := .locked })) ∧
    (s.atOperation 10 →
      ((2047 < mb.arg0 ∨ b.state = .retired) → badArg .binUnlock) ∧
      (mb.arg0 ≤ 2047 → b.state ≠ .retired →
        changed .binUnlock { b with state := if b.state = .locked then .opened else b.state })) ∧
    (s.atOperation 11 →
      (2047 < mb.arg0 → badArg .binRetire) ∧
      (mb.arg0 ≤ 2047 → 0 < b.occupied + b.reserved → busy .binRetire) ∧
      (mb.arg0 ≤ 2047 → b.occupied = 0 → b.reserved = 0 → changed .binRetire { b with state := .retired })) ∧
    (s.atOperation 12 →
      ((2047 < mb.arg0 ∨ b.occupied < mb.arg1.toNat) → badArg .binPicked) ∧
      (mb.arg0 ≤ 2047 → mb.arg1.toNat ≤ b.occupied →
        changed .binPicked { b with
          occupied := b.occupied - mb.arg1.toNat
          state := if b.state = .full then .opened else b.state }))

/-- The mailbox result write is answered (R37, R147, R149, R151, R152, R156, R158), behind the echo or image write that goes
before it: with OK the operation ends, every request held for the mailbox is ready again and every other keeps its stage,
`EVT_MAILBOX` is raised, and a bias or mode of the operation takes effect; with FAULT it ends without completing, OP and RSEQ as they were (R149, R169, R170), in INIT with
`EVT_MEM_FAULT`, in HALTED with no event, and in RUN and FROZEN with the entry into HALTED. That the OK of the write before it
is given in this step is the model's choice (notes/assumptions/10.md); that of the result write's bytes RESULT and DETAIL alone
may be left changed is DEDUCED from R149 (notes/assumptions/3.md). -/
def Obligations.ResultWriteEndsTheOperation : Prop :=
  (∀ (cb : Nat) (r : ResultWrite),
    resultCells cb r = cellsAt (cb + 68) [0, 0, 0, 0]
      ++ (match r.seq with | some q => cellsAt (cb + 80) (leBytes 4 q.toNat) | none => [])
      ++ cellsAt (cb + 84) (leBytes 4 r.result.code) ++ cellsAt (cb + 88) (leBytes 4 r.detail.toNat)) ∧
  (∀ (s : State) (r : ResultWrite) (h : HaltAnswers), s.cu.work = .result r →
    let prior : Cells := match r.prior with
      | .nothing => []
      | .echo m => cellsAt (s.cbBase + 4) (leBytes 4 m.code)
      | .bias n v => [(s.cbBase + 320 + n, BitVec.ofInt 8 v)]
    let issued : State := match r.prior with
      | .nothing => s
      | _ => { (s.ownWrite .cuWrite prior .ok).askOwn .result with
          cu := { s.cu with work := .result { r with prior := .nothing } } }
    let released (v : PortState) : PortState :=
      { v with outstanding := v.outstanding.map (fun o =>
          { o with stage := if o.stage = .held .mailbox then .waiting else o.stage }) }
    (∃ u : State,
      exec (.mailboxResultWriteDone .ok h) s = .next u.finish ∧
      u = { s with
        portA := released s.portA
        portB := released s.portB
        dram := (issued.ownWrite .result (resultCells s.cbBase r) .ok).dram
        ma := (issued.ownWrite .result (resultCells s.cbBase r) .ok).ma.drop .result
        eu := s.eu.raise .mailbox
        gu := { s.gu with bias := match r.after with | .bias n v => Map.put 0 n v s.gu.bias | _ => s.gu.bias }
        cu := { s.cu with
          work := .idle
          mode := match r.after with | .mode m => m | _ => s.cu.mode } }) ∧
    (∀ left,
      let u : State := { issued.ownWrite .result (cellsAt (s.cbBase + 84) (leBytes 4 r.result.code)
          ++ cellsAt (s.cbBase + 88) (leBytes 4 r.detail.toNat)) (.fault left) with
        cu := { s.cu with work := .result { r with prior := .nothing } } }
      let ended : State :=
        { u with
          portA := released s.portA, portB := released s.portB
          cu := { s.cu with work := .idle }, ma := u.ma.drop .result }
      (∀ x, (x < s.cbBase + 84 ∨ s.cbBase + 92 ≤ x) →
        Memory.read u.dram x = Memory.read issued.dram x) ∧
      (s.cu.mode = .init →
        exec (.mailboxResultWriteDone (.fault left) h) s = .next (ended.raise .memFault).finish) ∧
      (s.cu.mode = .halted → exec (.mailboxResultWriteDone (.fault left) h) s = .next ended.finish) ∧
      ((s.cu.mode = .run ∨ s.cu.mode = .frozen) →
        exec (.mailboxResultWriteDone (.fault left) h) s = .next (u.enterHalt .resultWrite h)))) ∧
  (∀ (m : Arbiter) (x y : OwnReq), (x ∈ (m.drop y).own ↔ x ∈ m.own ∧ x ≠ y) ∧ (m.drop y).order = m.order ∧
    (m.drop y).last = m.last ∧ (m.drop y).found = m.found) ∧
  ([Mode.init, .run, .frozen, .halted].map Mode.code = List.range 4 ∧
    [MbResult.ok, .notNow, .badOp, .badArg, .tableInvalid, .memFault, .binBusy, .saturated, .queueBusy, .areaBusy,
      .restoreFailed].map MbResult.code = List.range 11) ∧
  (∀ (g : Gu) (n m : Nat) (v : Int),
    ({ g with bias := Map.put 0 n v g.bias }).biasOf m = if m = n then v else g.biasOf m)

/-- An access of the part is answered FAULT in RUN or FROZEN (R156): the mode is HALTED, the item command, bin, reservation
and queue units hold nothing, the operation in progress ends, the layout, zones, grading tables, NOW, the deadline setting,
the counter and the mask stay, posted writes go on draining, and `EVT_HALT` is raised; requests held for a slot or a place,
or at the queue unit, are answered FAULT, and a held mailbox write and the writes stalled for a switch are ready again (R117,
R125, R136). Memory performs the part's other writes that it had granted and discards the others (R144). In HALTED a faulted
echo or result write of CLEAR_HALT or a refusal ends its operation, by which the requests held for the mailbox are ready again,
and changes no mode (R135, R151, R156). How many requests memory
had granted by then is an operand (notes/assumptions/9.md), the echo write of HALTED is answered in the same step
(notes/assumptions/10.md), and that a mailbox write held while no operation executes stays held is the model's reading
(notes/assumptions/32.md). -/
def Obligations.HaltClearsTheUnits : Prop :=
  (∀ (s : State) (c : HaltCause) (h : HaltAnswers),
    let behind : Prop := c = .biasImage ∨ c = .modeEcho ∨ c = .resultWrite
    let prior : Cells := match s.cu.work with
      | .result r => (match r.prior with
        | .nothing => []
        | .echo m => cellsAt (s.cbBase + 4) (leBytes 4 m.code)
        | .bias n v => [(s.cbBase + 320 + n, BitVec.ofInt 8 v)])
      | _ => []
    let result : Cells := match s.cu.work with
      | .result r => resultAnswered s.cbBase r h.resultWrite
      | _ => []
    let granted : Arbiter := (if prior = [] ∨ behind then s.ma else s.ma.ask .result).grantMany s.finds s.fwd.length h.granted
    let performed (r : OwnReq) (cells : Cells) (a : WriteAnswer) (t : State) : State :=
      if Grant.own r ∈ t.ma.order then t.ownWrite r cells a else t
    let w : State :=
      performed .result result h.resultWrite
        (performed .cuWrite prior (if Grant.own .result ∈ granted.order then .ok else h.cuWrite)
          (performed .imageWrite s.imageFlightCells h.imageWrite
            (performed .queueWrite s.quFlightCells h.queueWrite
              (performed .writeBack s.writeBackCells h.writeBack { s with ma := granted }))))
    let kept : Arbiter := { w.ma with
      own := []
      found := []
      order := dropDone (w.ma.order.filter (fun g => match g with | .own _ => false | _ => true)) }
    ∃ u : State,
      s.enterHalt c h = u.finish ∧
      u.dram = ((({ s with dram := w.dram, ma := kept }).askOwn .cuWrite).ownWrite .cuWrite (echoCells s.cbBase .halted)
        h.echo).dram ∧
      u.ma = ((({ s with dram := w.dram, ma := kept }).askOwn .cuWrite).ownWrite .cuWrite (echoCells s.cbBase .halted)
        h.echo).ma ∧
      u.cu = { s.cu with mode := .halted, work := .idle } ∧
      u.icu = { cq := [], given := [], stage := .idle, pauseAsked := false, counter := s.icu.counter } ∧
      u.ru = { s.ru with table := [], deadlines := [], pass := false } ∧
      u.bu = { bins := [], zones := s.bu.zones, avail := [], imageQueue := [], imageInFlight := none } ∧
      u.qu = Qu.reset ∧ u.gu = s.gu ∧ u.layout = s.layout ∧ u.eu = s.eu.raise .halt ∧ u.ma.own = [] ∧ u.ma.found = [] ∧
      u.fwd.filter (·.isPosted) = s.fwd.filter (·.isPosted) ∧ commandSlots u.fwd = [] ∧
      (∀ p, (u.port p).outstanding = (s.port p).outstanding.map (fun o =>
        { o with stage := match o.stage with
          | .held .mailbox => if s.cu.work = .idle then .held .mailbox else .waiting
          | .held (.busySlot _) => faulted (tagOf o.req)
          | .held .cqCommand => faulted (tagOf o.req)
          | .held .cqNotice => faulted (tagOf o.req)
          | .atQueue _ => faulted (tagOf o.req)
          | .taking _ => faulted (tagOf o.req)
          | .stalled .postingStopped => .waiting
          | st => st })) ∧
      u.pending = s.pending ∧
      (∀ x, (∀ l : Cells, l = s.writeBackCells ∨ l = s.quFlightCells ∨ l = s.imageFlightCells ∨ l = prior ∨ l = result ∨
          l = echoCells s.cbBase .halted → ∀ k ∈ l, k.1 ≠ x) →
        Memory.read u.dram x = Memory.read s.dram x)) ∧
  (∀ (s : State) (c : HaltCause) (cells : Cells) (left : List Byte) (h : HaltAnswers),
    s.haltCells c = some cells → c ≠ .resultWrite →
    let u : State := s.ownWrite (causeRequest c) cells (.fault left)
    ((s.cu.mode = .run ∨ s.cu.mode = .frozen) → exec (.halt c left h) s = .next (u.enterHalt c h)) ∧
    let released (v : PortState) : PortState :=
      { v with outstanding := v.outstanding.map (fun o =>
          { o with stage := if o.stage = .held .mailbox then .waiting else o.stage }) }
    (s.cu.mode = .halted → exec (.halt c left h) s
      = .next ({ u with
          portA := released s.portA, portB := released s.portB
          cu := { s.cu with work := .idle }, ma := u.ma.drop .result }).finish)) ∧
  (∀ (s : State) (r : ResultWrite) (left : List Byte) (h : HaltAnswers), s.cu.work = .result r →
    exec (.halt .resultWrite left h) s = exec (.mailboxResultWriteDone (.fault left) h) s ∧
    (∀ m, r.prior = .echo m → s.haltCells .modeEcho = some (cellsAt (s.cbBase + 4) (leBytes 4 m.code))) ∧
    (∀ n v, r.prior = .bias n v → s.haltCells .biasImage = some [(s.cbBase + 320 + n, BitVec.ofInt 8 v)])) ∧
  (causeRequest .writeBack = .writeBack ∧ causeRequest .queueWrite = .queueWrite ∧
    causeRequest .imageWrite = .imageWrite ∧ causeRequest .biasImage = .cuWrite ∧ causeRequest .modeEcho = .cuWrite ∧
    causeRequest .resultWrite = .result ∧ causeRequest .noticeFetch = .fetch ∧
    ∀ q, causeRequest (.takeRead q) = .takeRead q) ∧
  (∀ s : State,
    (∀ f, s.bu.imageInFlight = some f → s.haltCells .imageWrite = some f.cells) ∧
    (∀ f, s.qu.inFlight = some f → s.haltCells .queueWrite = some f.cells) ∧
    (∀ svc cells events, s.icu.stage = .writeBack svc cells events → s.haltCells .writeBack = some cells) ∧
    (∀ svc, s.icu.stage = .fetching svc → svc.entry.isCommand = false → svc.addr.isSome = true →
      s.haltCells .noticeFetch = some []) ∧
    (∀ q, (s.queue q).takeInProgress = true → s.haltCells (.takeRead q) = some []))

/-! ## Starts and RELOAD -/

/-- START_FRESH in INIT (R160 to R163, R169) begins with its tables phase, and each of its reads is served by itself, waiting
behind the forwarded writes it overlaps (R138): eight reads of tables, 256 of bin images. A read that faults, a table that
fails its check or an image out of range ends the start and clears what it built; otherwise the bin table is loaded from the
images, RESERVED 0 and FULL taken as OPEN, every queue and the reservation table are empty, the counter of the plan is 1, and
the start waits for its switch with posting stopped. The clauses on the reads are START_RESTORE's too. How many reads a
command serves is its operand, EVENT_ENABLE is read after the header, a table is one read, and a read becomes ready at the
command that serves it: the model's choices (notes/assumptions/22.md). -/
def Obligations.StartFreshBuilds : Prop :=
  (∀ (s : State) (n : Nat) (f : Option ReadSite), s.atOperation 1 → s.cu.mode = .init →
    let b : State :=
      { s.mailboxFetched with cu := { s.cu with work := .tables .fresh s.mailbox.seq 0 TablesRead.none } }
    exec (.startFresh ⟨0, f⟩) s = .next b ∧ exec (.startFresh ⟨n, f⟩) s = exec (.startFresh ⟨n, f⟩) b) ∧
  (∀ (use : TableUse) (n m : Nat) (f : Option ReadSite) (s : State), ∃ u : State,
    exec (readsOf use n f) s = .next u ∧
    exec (readsOf use (n + m) f) s = (if u.cu.work.readsFor use = true then exec (readsOf use m f) u else .next u)) ∧
  (tableSites .fresh = [.table 1, .eventEnable, .table 2, .table 3, .table 4, .table 5, .table 6, .table 7] ∧
    tableSites .restore = tableSites .fresh ∧
    (tableSites .fresh).map tableRun
      = [(0, 64), (136, 4), (640, 512), (576, 64), (320, 16), (256, 32), (192, 64), (384, 192)] ∧
    (tableSites .fresh).map tableNumber = [1, 1, 2, 3, 4, 5, 6, 7]) ∧
  (∀ s : State,
    s.cuRead = { s with ma := ((s.ma.ask .cuRead).grantOwn s.finds s.fwd.length .cuRead).answerRead .cuRead }) ∧
  (∀ s : State, s.clearStart = { s with
    gu := { classes := [], caps := [], bias := [] }
    bu := { bins := [], zones := List.replicate 8 { valid := false, last := 0, kind := .pick }, avail := [],
            imageQueue := [], imageInFlight := none }
    ru := { s.ru with table := [], deadlines := [], setting := 600 }
    qu := { queues := Vector.replicate 6
              { head := 0, tail := 0, count := 0, live := 0, lastTicket := 0, appended := 0, taken := 0, voided := 0,
                positions := [], waiters := [] }
            waiting := [], inFlight := none, lastTicket := 0 } }) ∧
  (∀ (s : State) (use : TableUse) (seq : Word32) (k : Nat) (t : TablesRead) (site : ReadSite) (f : Option ReadSite),
    use ≠ .reload → s.cu.work = .tables use seq k t → (tableSites use)[k]? = some site →
    let one : Host.Outcome State Fault Refusal := exec (readsOf use 1 f) s
    let failed (res : MbResult) (n : Nat) : State := s.cuRead.clearStart.answers (report seq res (BitVec.ofNat 32 n))
    let next : TablesRead := t.take s.cuRead.memory s.cbBase site
    (overlapsForward s.fwd (s.cbBase + (tableRun site).1) (tableRun site).2 = true → one = .next s) ∧
    (overlapsForward s.fwd (s.cbBase + (tableRun site).1) (tableRun site).2 = false →
      (f = some site → one = .next (failed .memFault (tableNumber site))) ∧
      (f ≠ some site → k + 1 < 8 →
        one = .next { s.cuRead with cu := { s.cu with work := .tables use seq (k + 1) next } }) ∧
      (f ≠ some site → k + 1 = 8 →
        (∀ n, next.check s.cbBase = .error n → one = .next (failed .tableInvalid n)) ∧
        (∀ x, next.check s.cbBase = .ok x →
          one = .next { s.cuRead with cu := { s.cu with
            work := .images (decide (use = .fresh)) { seq := seq, tables := x, mask := next.mask, images := [] } 0 } })))) ∧
  (∀ (s : State) (fresh : Bool) (d : StartData) (k : Nat) (f : Option ReadSite),
    s.cu.work = .images fresh d k →
    let one : Host.Outcome State Fault Refusal := exec (readsOf (if fresh then .fresh else .restore) 1 f) s
    let failed (res : MbResult) : State := s.cuRead.clearStart.answers (report d.seq res 8)
    let image (b : Nat) : BinImage := Memory.binImage s.cuRead.memory (s.cbBase + 4096 + 8 * b)
    (overlapsForward s.fwd (s.cbBase + 4096 + 64 * k) 64 = true → one = .next s) ∧
    (overlapsForward s.fwd (s.cbBase + 4096 + 64 * k) 64 = false →
      (f = some (.imageBlock k) → one = .next (failed .memFault)) ∧
      (f ≠ some (.imageBlock k) →
        ((∃ b, 8 * k ≤ b ∧ b < 8 * (k + 1) ∧ (image b).ok = false) → one = .next (failed .tableInvalid)) ∧
        ((∀ b, 8 * k ≤ b → b < 8 * (k + 1) → (image b).ok = true) →
          ∃ m : Map BinImage,
            (∀ b, 8 * k ≤ b → b < 8 * (k + 1) → Map.getD BinImage.zero m b = image b) ∧
            (∀ b, (b < 8 * k ∨ 8 * (k + 1) ≤ b) → Map.at? m b = none) ∧
            ∀ d1, d1 = { d with images := d.images ++ m } →
              (k + 1 < 256 → one = .next { s.cuRead with cu := { s.cu with work := .images fresh d1 (k + 1) } }) ∧
              (k + 1 = 256 → fresh = false →
                one = .next { s.cuRead with cu := { s.cu with work := .headers d1 [] } }) ∧
              (k + 1 = 256 → fresh = true → one = .next { s.cuRead with
                bu := { s.bu with bins := loadBins true d1.images, avail := [], imageQueue := [] }
                ru := { s.ru with table := [], deadlines := [] }
                qu := Qu.reset
                cu := { s.cu with work := .startSwitch { data := d1, detail := 0, counter := 1 } } }))))) ∧
  (∀ (d : Memory) (a : Nat), Memory.binImage d a
    = { cls := Memory.nat d a 1, state := Memory.nat d (a + 1) 1, capacity := Memory.nat d (a + 2) 2,
        occupied := Memory.nat d (a + 4) 2, reserved := Memory.nat d (a + 6) 2 }) ∧
  (∀ i : BinImage, i.ok = true ↔
    i.cls ≤ 31 ∧ i.capacity ≤ 255 ∧ i.occupied ≤ 255 ∧ i.state ≤ 3 ∧ ¬(i.state = 3 ∧ 0 < i.occupied)) ∧
  (∀ (fresh : Bool) (images : Map BinImage) (b : Nat), b < 2048 →
    let i : BinImage := Map.getD BinImage.zero images b
    let x : Bin := Map.getD Bin.reset (loadBins fresh images) b
    x.cls = i.cls ∧ x.capacity = i.capacity ∧ x.occupied = i.occupied ∧ x.reserved = 0 ∧
    (i.state = 0 → x.state = .opened) ∧ (i.state = 1 → x.state = if fresh then .opened else .full) ∧
    (i.state = 2 → x.state = .locked) ∧ (i.state = 3 → x.state = .retired)) ∧
  (∀ (s : State) (t : Tables), s.atOperation 1 → s.cu.mode = .init → s.noOwnWrite → s.forwardCovers →
    overlapsForward s.fwd s.cbBase 20480 = false → (tablesIn s.dram s.cbBase .fresh).check s.cbBase = .ok t →
    (∀ b, b < 2048 → (Memory.binImage s.dram (s.cbBase + 4096 + 8 * b)).ok = true) →
    ∃ (images : Map BinImage) (m : Arbiter) (u : State),
      (∀ b, b < 2048 → Map.getD BinImage.zero images b = Memory.binImage s.dram (s.cbBase + 4096 + 8 * b)) ∧
      exec (.startFresh ⟨264, none⟩) s = .next u ∧
      u = { s with
        bu := { s.bu with bins := loadBins true images, avail := [], imageQueue := [] }
        ru := { s.ru with table := [], deadlines := [] }
        qu := Qu.reset
        ma := m
        cu := { s.cu with
          work := .startSwitch
            { data := { seq := s.mailbox.seq, tables := t, images := images,
                        mask := BitVec.ofNat 12 (Memory.word s.dram (s.cbBase + 136)).toNat }
              detail := 0, counter := 1 } } } ∧
      u.postingStopped = true)

/-- START_RESTORE in INIT (R159, R160, R164 to R167, R169), given by the mailbox or begun by AUTOLOAD with SEQ 0: behind its
tables and images, which are read as START_FRESH reads them, six headers and then the entries within COUNT of each queue are
read, each read served by itself. A header out of range or with COUNT not TAIL less HEAD fails check 1 or 2, and an entry that
is neither LIVE nor VOID, with ticket 0 or one read before, or LIVE in Q0 or Q1 and naming no slot of a valid area or no bin of
the table, fails check 3, 4, 5 or 6, DETAIL the check and the queue (R164, R165). A reservation QUEUED and a restore count are
made for each LIVE entry of Q0 and Q1, failing with 7, 8 or 9 (R78, R102, R166); each queue is rebuilt from its header and its
entries (R123); the counter is the first free value above TICKET_IMAGE; and the start waits for its switch. A failure ends the
start and clears what it built. How many reads a command serves is its operand (notes/assumptions/22.md). -/
def Obligations.StartRestoreBuilds : Prop :=
  (∀ (d : Memory) (a : Nat),
    Memory.header d a = { head := Memory.nat d a 2, tail := Memory.nat d (a + 2) 2, count := Memory.nat d (a + 4) 2,
                          live := Memory.nat d (a + 6) 2, lastTicket := BitVec.ofNat 32 (Memory.nat d (a + 8) 4),
                          appended := BitVec.ofNat 32 (Memory.nat d (a + 12) 4),
                          taken := BitVec.ofNat 32 (Memory.nat d (a + 16) 4),
                          voided := BitVec.ofNat 32 (Memory.nat d (a + 20) 4) } ∧
    (let w : Nat := Memory.nat d (a + 4) 4
     Memory.entry d a = { ticket := BitVec.ofNat 32 (Memory.nat d a 4), state := w % 4,
                          id := { area := w / 4 % 4, slot := w / 16 % 65536 }, bin := w / 1048576 })) ∧
  (∀ (cap : Nat) (h : QHeader),
    ((cap ≤ h.head ∨ cap ≤ h.tail ∨ cap < h.count) → h.check cap = some 1) ∧
    (h.head < cap → h.tail < cap → h.count ≤ cap →
      (h.count = (h.tail + cap - h.head) % cap ∨ (h.count = cap ∧ h.tail = h.head) → h.check cap = none) ∧
      (¬(h.count = (h.tail + cap - h.head) % cap ∨ (h.count = cap ∧ h.tail = h.head)) → h.check cap = some 2))) ∧
  (∀ (areas : Vector AreaDesc 4) (images : Map BinImage) (seen : List Word32) (q : Fin 6) (e : EntryRead),
    (e.state ≠ 1 → e.state ≠ 2 → checkEntry areas images seen q e = some 3) ∧
    ((e.state = 1 ∨ e.state = 2) → (e.ticket = 0 ∨ e.ticket ∈ seen) → checkEntry areas images seen q e = some 4) ∧
    ((e.state = 1 ∨ e.state = 2) → e.ticket ≠ 0 → e.ticket ∉ seen →
      ((e.state = 2 ∨ (q ≠ 0 ∧ q ≠ 1)) → checkEntry areas images seen q e = none) ∧
      (e.state = 1 → (q = 0 ∨ q = 1) →
        ((∀ d, areas[e.id.area]? = some d → d.valid = false ∨ d.slots ≤ e.id.slot) →
          checkEntry areas images seen q e = some 5) ∧
        (∀ d, areas[e.id.area]? = some d → d.valid = true → e.id.slot < d.slots →
          ((2048 ≤ e.bin ∨ (Map.getD BinImage.zero images e.bin).state = 3) →
            checkEntry areas images seen q e = some 6) ∧
          (e.bin < 2048 → (Map.getD BinImage.zero images e.bin).state ≠ 3 →
            checkEntry areas images seen q e = none))))) ∧
  (∀ (s : State) (n : Nat) (f : Option ReadSite) (b : State),
    (s.atOperation 2 → s.cu.mode = .init →
      b = { s.mailboxFetched with cu := { s.cu with work := .tables .restore s.mailbox.seq 0 TablesRead.none } } →
      exec (.startRestore ⟨0, f⟩) s = .next b ∧ exec (.startRestore ⟨n, f⟩) s = exec (.startRestore ⟨n, f⟩) b) ∧
    (s.cu.work = .automatic → b = { s with cu := { s.cu with work := .tables .restore 0 0 TablesRead.none } } →
      exec (.startRestore ⟨0, f⟩) s = .next b ∧ exec (.startRestore ⟨n, f⟩) s = exec (.startRestore ⟨n, f⟩) b)) ∧
  (∀ (s : State) (d : StartData) (read : List QHeader) (q : Fin 6) (f : Option ReadSite),
    s.cu.work = .headers d read → read.length = q.val →
    let one : Host.Outcome State Fault Refusal := exec (.startRestore ⟨1, f⟩) s
    let failed (res : MbResult) (n : Nat) : State := s.cuRead.clearStart.answers (report d.seq res (BitVec.ofNat 32 n))
    let base : Nat := d.tables.descs[q].ringBase
    let hs : List QHeader := read ++ [Memory.header s.cuRead.memory base]
    let bad (p : Fin 6) (n : Nat) : Prop := (headerOf hs p).check d.tables.descs[p].capacity = some n
    (overlapsForward s.fwd base 48 = true → one = .next s) ∧
    (overlapsForward s.fwd base 48 = false → f = some (.queueHeader q) → one = .next (failed .memFault 7)) ∧
    (overlapsForward s.fwd base 48 = false → f ≠ some (.queueHeader q) →
      (q.val < 5 → one = .next { s.cuRead with cu := { s.cu with work := .headers d hs } }) ∧
      (q.val = 5 →
        (∀ p n, bad p n → (∀ j k, j < p → ¬bad j k) → one = .next (failed .restoreFailed (n + 256 * p.val))) ∧
        ((∀ p n, ¬bad p n) →
          (entrySites hs ≠ [] → one = .next { s.cuRead with cu := { s.cu with work := .entries d hs [] } }) ∧
          (entrySites hs = [] → one = .next (s.cuRead.endEntries d hs [])))))) ∧
  (∀ hs : List QHeader,
    entrySites hs = queueIds.flatMap (fun q => (List.range (headerOf hs q).count).map (fun k => (q, k))) ∧
    ∀ (q : Fin 6) (h : QHeader), hs[q.val]? = some h → headerOf hs q = h) ∧
  (∀ (s : State) (d : StartData) (hs : List QHeader) (read : List RingEntry) (q : Fin 6) (k : Nat) (f : Option ReadSite),
    s.cu.work = .entries d hs read → (entrySites hs)[read.length]? = some (q, k) →
    let one : Host.Outcome State Fault Refusal := exec (.startRestore ⟨1, f⟩) s
    let failed (res : MbResult) (n : Nat) : State := s.cuRead.clearStart.answers (report d.seq res (BitVec.ofNat 32 n))
    let pos : Nat := ((headerOf hs q).head + k) % d.tables.descs[q].capacity
    let a : Nat := d.tables.descs[q].ringBase + 64 + 16 * pos
    let e : EntryRead := Memory.entry s.cuRead.memory a
    let checked : Option Nat := checkEntry d.tables.areas d.images (read.map (·.position.ticket)) q e
    let now : List RingEntry := read ++
      [{ queue := q, pos := pos, bin := e.bin,
         position := { state := if e.state = 1 then .live else .void, ticket := e.ticket, id := e.id } }]
    (overlapsForward s.fwd a 16 = true → one = .next s) ∧
    (overlapsForward s.fwd a 16 = false → f = some (.ringEntry q k) → one = .next (failed .memFault 7)) ∧
    (overlapsForward s.fwd a 16 = false → f ≠ some (.ringEntry q k) →
      (∀ n, checked = some n → one = .next (failed .restoreFailed (n + 256 * q.val))) ∧
      (checked = none → now.length < (entrySites hs).length →
        one = .next { s.cuRead with cu := { s.cu with work := .entries d hs now } }) ∧
      (checked = none → now.length = (entrySites hs).length → one = .next (s.cuRead.endEntries d hs now)))) ∧
  (∀ (s : State) (d : StartData) (hs : List QHeader) (read : List RingEntry),
    let live : List RingEntry := restockLive read
    let reserved (l : List RingEntry) : List Reservation := l.map (fun e =>
      { id := e.position.id, bin := e.bin, queue := e.queue, ticket := e.position.ticket, state := .queued })
    let loaded (b : Nat) : Bin := Map.getD Bin.reset (loadBins false d.images) b
    let made (l : List RingEntry) (b : Nat) : Nat := l.countP (fun e => decide (e.bin = b))
    let fits (l : List RingEntry) : Prop := l.length ≤ 1024 ∧ (l.map (·.position.id)).Nodup ∧
      ∀ b, made l b = 0 ∨ (loaded b).occupied + made l b ≤ 255
    let failed (n : Nat) : State := s.clearStart.answers (report d.seq .restoreFailed (BitVec.ofNat 32 n))
    (fits live →
      ∃ u : State, s.endEntries d hs read = u ∧
        u = { s with
          qu := rebuildQueues hs read
          ru := { s.ru with table := reserved live, deadlines := [] }
          bu := { s.bu with bins := u.bu.bins, avail := [], imageQueue := [] }
          cu := { s.cu with
            work := .startSwitch
              { data := d, detail := BitVec.ofNat 32 live.length
                counter := freeTicket (rebuildQueues hs read).queues
                  (if d.tables.ticketImage = 4294967295 then 1 else d.tables.ticketImage + 1) } } } ∧
        (∀ b, u.bu.bin b = { loaded b with reserved := made live b }) ∧ u.postingStopped = true) ∧
    (∀ before e after, live = before ++ e :: after → fits before →
      (before.length = 1024 → s.endEntries d hs read = failed 7) ∧
      (before.length < 1024 → e.position.id ∈ before.map (·.position.id) → s.endEntries d hs read = failed 8) ∧
      (before.length < 1024 → e.position.id ∉ before.map (·.position.id) →
        255 ≤ (loaded e.bin).occupied + made before e.bin → s.endEntries d hs read = failed 9))) ∧
  (∀ (hs : List QHeader) (read : List RingEntry) (q : Fin 6),
    let v : QState := (rebuildQueues hs read).queues[q]
    let h : QHeader := headerOf hs q
    let l : List RingEntry := read.filter (fun e => decide (e.queue = q))
    v.head = h.head ∧ v.tail = h.tail ∧ v.count = h.count ∧ v.lastTicket = h.lastTicket ∧ v.appended = h.appended ∧
    v.taken = h.taken ∧ v.voided = h.voided ∧ v.live = l.countP (fun e => decide (e.position.state = .live)) ∧
    v.waiters = [] ∧ ((l.map (·.pos)).Nodup → ∀ e ∈ l, v.position e.pos = some e.position) ∧
    (∀ x, (∀ e ∈ l, e.pos ≠ x) → v.position x = none) ∧
    (rebuildQueues hs read).waiting = [] ∧ (rebuildQueues hs read).inFlight = none) ∧
  (∀ (s : State) (seq : Word32) (t : Tables), s.cu.mode = .init →
    ((s.atOperation 2 ∧ seq = s.mailbox.seq) ∨ (s.cu.work = .automatic ∧ seq = 0)) → s.noOwnWrite →
    s.forwardCovers →
    overlapsForward s.fwd s.cbBase 20480 = false → (tablesIn s.dram s.cbBase .restore).check s.cbBase = .ok t →
    (∀ b, b < 2048 → (Memory.binImage s.dram (s.cbBase + 4096 + 8 * b)).ok = true) →
    (∀ q : Fin 6, overlapsForward s.fwd t.descs[q].ringBase t.descs[q].ringLen = false) →
    ∀ hs l live, hs = headersIn s.dram t.descs → l = entriesIn s.dram t.descs hs → live = restockLive l →
    (∀ q : Fin 6, (headerOf hs q).check t.descs[q].capacity = none) →
    (∀ x ∈ entrySites hs, (entryIn s.dram t.descs hs x).state = 1 ∨ (entryIn s.dram t.descs hs x).state = 2) →
    (∀ e ∈ l, e.position.ticket ≠ 0) → (l.map (·.position.ticket)).Nodup →
    (∀ e ∈ live, ∃ a, t.areas[e.position.id.area]? = some a ∧ a.valid = true ∧ e.position.id.slot < a.slots) →
    (∀ e ∈ live, e.bin < 2048 ∧ (Memory.binImage s.dram (s.cbBase + 4096 + 8 * e.bin)).state ≠ 3) →
    live.length ≤ 1024 → (live.map (·.position.id)).Nodup →
    (∀ b, b < 2048 → (Memory.binImage s.dram (s.cbBase + 4096 + 8 * b)).occupied
      + live.countP (fun e => decide (e.bin = b)) ≤ 255) →
    ∃ (d : StartData) (m : Arbiter) (v : State),
      (∀ b, b < 2048 → Map.getD BinImage.zero d.images b = Memory.binImage s.dram (s.cbBase + 4096 + 8 * b)) ∧
      d.seq = seq ∧ d.tables = t ∧ d.mask = BitVec.ofNat 12 (Memory.word s.dram (s.cbBase + 136)).toNat ∧
      exec (.startRestore ⟨270 + l.length, none⟩) s = .next v ∧
      v = { s with
        qu := rebuildQueues hs l
        ru := { s.ru with table := live.map (·.reservation), deadlines := [] }
        bu := { s.bu with bins := v.bu.bins, avail := [], imageQueue := [] }
        ma := m
        cu := { s.cu with
          work := .startSwitch
            { data := d, detail := BitVec.ofNat 32 live.length
              counter := freeTicket (rebuildQueues hs l).queues
                (if t.ticketImage = 4294967295 then 1 else t.ticketImage + 1) } } } ∧
      (∀ b, v.bu.bin b
        = { Map.getD Bin.reset (loadBins false d.images) b with
            reserved := live.countP (fun e => decide (e.bin = b)) }) ∧
      ∀ q, (l.filter (fun e => decide (e.queue = q))).length = (headerOf hs q).count ∧
        ((l.filter (fun e => decide (e.queue = q))).map (·.pos)).Nodup)

/-- The switch of a start (R72, R123, R134, R151, R168): with the posted write buffer empty the tables, the layout, the lists,
the counter and the mask are put in force, each list the eligible bins of its class and kind in ascending bin number, the heads
are cleaned up, the mode is RUN, the stalled writes are ready again, the header writes of Q0 to Q5 and the image writes are
queued, and the echo write of RUN is issued, behind which the result is written; with writes buffered it waits. The forwarded
writes and every other request stay as they are. That the OK of the echo write has no command of its own, that the whole switch
is one step, and that the first header write, the first image write and the echo write stand at the memory arbiter in this order,
are the model's choices (notes/assumptions/10.md, 22.md and 34.md). -/
def Obligations.StartSwitchPutsInForce : Prop :=
  ∀ (s : State) (p : StartPlan), s.cu.work = .startSwitch p →
    (0 < s.buffered → exec .startSwitch s = .next s) ∧
    (s.buffered = 0 →
      ∃ u : State,
        exec .startSwitch s = .next u.finish ∧
        u.cu = { s.cu with
          mode := .run
          work := .result
            { seq := some p.data.seq, result := .ok, detail := p.detail, prior := .echo .run, after := .nothing } } ∧
        u.finish.cu = u.cu ∧
        u.ma = { s.ma with own := s.ma.own ++ (if s.qu.inFlight = none then [.queueWrite] else [])
          ++ (if s.bu.imageInFlight = none ∧ changedBins s.bu.bins p.data.images ≠ [] then [.imageWrite] else [])
          ++ [.cuWrite] } ∧
        u.layout = { areas := p.data.tables.areas, descs := some p.data.tables.descs } ∧
        u.gu = { classes := p.data.tables.classes, caps := p.data.tables.caps, bias := p.data.tables.bias } ∧
        u.bu.bins = s.bu.bins ∧ u.bu.zones = p.data.tables.zones ∧
        (∀ c k, u.bu.list (listKey c k) = (List.range 2048).filter (fun b =>
          decide ((s.bu.bin b).state = .opened ∧ 0 < (s.bu.bin b).free ∧ kindOf p.data.tables.zones b = some k ∧
            (s.bu.bin b).cls = c))) ∧
        u.ru = { s.ru with setting := p.data.tables.deadline } ∧
        (∀ q, u.queue q = (s.queue q).cleanHead p.data.tables.descs[q].capacity) ∧
        (s.bu.imageInFlight = none →
          (u.bu.imageInFlight.map (·.bin)).toList ++ u.bu.imageQueue = changedBins s.bu.bins p.data.images) ∧
        (∀ b r, s.bu.imageInFlight = none → changedBins s.bu.bins p.data.images = b :: r →
          u.bu.imageInFlight = some
            { bin := b, cells := cellsAt (s.cbBase + 4096 + 8 * b) (binImageBytes (s.bu.bin b)) }) ∧
        (changedBins s.bu.bins p.data.images = (List.range 2048).filter (fun b =>
          decide ((s.bu.bin b).image ≠ Map.getD BinImage.zero p.data.images b))) ∧
        (∀ q, u.queued (.header q)) ∧
        (s.qu.waiting = [] → s.qu.inFlight = none →
          (u.qu.inFlight.map (·.item)).toList ++ u.qu.waiting
            = [.header 0, .header 1, .header 2, .header 3, .header 4, .header 5] ∧
          u.qu.inFlight = some
            { item := .header 0
              cells := cellsAt p.data.tables.descs[(0 : Fin 6)].ringBase (headerBytes (u.queue 0)) }) ∧
        u.qu.lastTicket = s.qu.lastTicket ∧
        u.icu = { s.icu with counter := p.counter } ∧ u.eu = { s.eu with mask := p.data.mask } ∧
        (∀ q, u.port q = { s.port q with
          outstanding := (s.port q).outstanding.map (fun o =>
            { o with stage := if o.stage = .stalled .postingStopped then .waiting else o.stage }) }) ∧
        u.fwd = s.fwd ∧ u.ia = s.ia ∧ u.dram = s.dram ∧ u.pending = s.pending)

/-- RELOAD in RUN and FROZEN (R153, R154, R155): its seven tables are read one by one, each read waiting behind the forwarded
writes it overlaps; a read that faults or a table that fails its check ends it, DETAIL the first such table, and nothing else
changes. The checks are those of R1, R19, R20, R21, R68, R93 and R103, in the order of R153. A queue with entries whose
descriptor would change, or an area in use whose descriptor would change, the lowest of them reported, is refused and nothing
changes; otherwise posting stops (PassWritesArePosted), the item command unit is asked to pause, an idle one pausing at once, and the
switch is awaited. How many reads a command
serves is its operand, and the queues are tested before the areas: the model's choices (notes/assumptions/22.md and 25.md). -/
def Obligations.ReloadTestsTheTables : Prop :=
  (∀ (s : State) (n : Nat) (f : Option ReadSite), s.atOperation 3 → (s.cu.mode = .run ∨ s.cu.mode = .frozen) →
    let b : State :=
      { s.mailboxFetched with cu := { s.cu with work := .tables .reload s.mailbox.seq 0 TablesRead.none } }
    exec (.reload ⟨0, f⟩) s = .next b ∧ exec (.reload ⟨n, f⟩) s = exec (.reload ⟨n, f⟩) b) ∧
  (∀ (s : State) (seq : Word32) (k : Nat) (t : TablesRead) (f : Option ReadSite),
    s.cu.work = .tables .reload seq k t → k < 7 →
    let one : Host.Outcome State Fault Refusal := exec (.reload ⟨1, f⟩) s
    let run : Nat × Nat := tableRun (.table (k + 1))
    let next : TablesRead := t.take s.cuRead.memory s.cbBase (.table (k + 1))
    let answered (res : MbResult) (n : Nat) : State := s.cuRead.answers (report seq res (BitVec.ofNat 32 n))
    (overlapsForward s.fwd (s.cbBase + run.1) run.2 = true → one = .next s) ∧
    (overlapsForward s.fwd (s.cbBase + run.1) run.2 = false →
      (f = some (.table (k + 1)) → one = .next (answered .memFault (k + 1))) ∧
      (f ≠ some (.table (k + 1)) → k < 6 →
        one = .next { s.cuRead with cu := { s.cu with work := .tables .reload seq (k + 1) next } }) ∧
      (f ≠ some (.table (k + 1)) → k = 6 →
        (∀ n, next.check s.cbBase = .error n → one = .next (answered .tableInvalid n)) ∧
        (∀ x, next.check s.cbBase = .ok x →
          (∀ q, s.busyQueue x.descs = some q → one = .next (answered .queueBusy q.val)) ∧
          (∀ i, s.busyQueue x.descs = none → s.busyArea x.areas = some i → one = .next (answered .areaBusy i.val)) ∧
          (s.busyQueue x.descs = none → s.busyArea x.areas = none →
            one = .next { s.cuRead with
              cu := { s.cu with work := .reloadSwitch seq x }
              icu := { s.icu with
                pauseAsked := true
                stage := match s.icu.stage with | .idle => .paused | st => st } }))))) ∧
  (∀ (d : Memory) (cb : Nat) (t : TablesRead),
    t.take d cb (.table 1) = { t with
      format := Memory.nat d cb 4, deadline := Memory.nat d (cb + 12) 4, ticketImage := Memory.word d (cb + 8) } ∧
    t.take d cb .eventEnable = { t with mask := BitVec.ofNat 12 (Memory.word d (cb + 136)).toNat } ∧
    (∃ m, t.take d cb (.table 2) = { t with classes := m } ∧
      (m = none ↔ ∃ k, k < 32 ∧ Memory.classEntry d (cb + 640 + 16 * k) = none) ∧
      ∀ x k, m = some x → k < 32 → Memory.classEntry d (cb + 640 + 16 * k) = some (Map.at? x k)) ∧
    (∃ m, t.take d cb (.table 3) = { t with caps := m } ∧
      (m = none ↔ ∃ k, 0 < k ∧ k < 64 ∧ 4 < (Memory.read d (cb + 576 + k)).toNat) ∧
      ∀ x k, m = some x → 0 < k → k < 64 →
        (Map.getD .A x k).code = (Memory.read d (cb + 576 + k)).toNat) ∧
    (∃ m, t.take d cb (.table 4) = { t with bias := m } ∧
      (m = none ↔ ∃ k, k < 16 ∧
        ((Memory.read d (cb + 320 + k)).toInt < -32 ∨ 31 < (Memory.read d (cb + 320 + k)).toInt)) ∧
      ∀ x k, m = some x → k < 16 → Map.getD 0 x k = (Memory.read d (cb + 320 + k)).toInt) ∧
    (∃ m, t.take d cb (.table 5) = { t with zones := m } ∧
      (m = none ↔ ∃ k, k < 8 ∧ Memory.zone d (cb + 256 + 4 * k) = none) ∧
      ∀ x k, m = some x → k < 8 → x[k]? = Memory.zone d (cb + 256 + 4 * k)) ∧
    (∃ v, t.take d cb (.table 6) = { t with areas := v } ∧
      ∀ i : Fin 4, v[i] = { base := Memory.nat d (cb + 192 + 16 * i.val) 8, slots := Memory.nat d (cb + 200 + 16 * i.val) 4,
                            trial := decide (Memory.read d (cb + 204 + 16 * i.val) ≠ 0),
                            valid := decide (Memory.read d (cb + 205 + 16 * i.val) ≠ 0) }) ∧
    (∃ v, t.take d cb (.table 7) = { t with descs := v } ∧
      ∀ q : Fin 6, v[q] = { ringBase := Memory.nat d (cb + 384 + 32 * q.val) 8,
                            viewBase := Memory.nat d (cb + 392 + 32 * q.val) 8,
                            capacity := Memory.nat d (cb + 400 + 32 * q.val) 4,
                            near := Memory.nat d (cb + 404 + 32 * q.val) 4 })) ∧
  (∀ (d : Memory) (a : Nat),
    let byte (i : Nat) : Nat := (Memory.read d (a + i)).toNat
    (byte 0 = 0 → Memory.classEntry d a = some none) ∧
    (byte 0 ≠ 0 →
      (Memory.classEntry d a = none ↔ 100 < byte 1 ∨ byte 1 < byte 2 ∨ byte 2 < byte 3 ∨ 3 < byte 5 ∨ 5 < byte 6 ∨
        5 < byte 7 ∨ 5 < byte 8 ∨ 5 < byte 9 ∨ 5 < byte 10) ∧
      ∀ e, Memory.classEntry d a = some e → ∃ c, e = some c ∧
        c.tA = byte 1 ∧ c.tB = byte 2 ∧ c.tC = byte 3 ∧ c.spreadLimit = byte 4 ∧
        PassRule.ofCode? (byte 5) = some c.passRule ∧ c.dispA.code = byte 6 ∧ c.dispB.code = byte 7 ∧
        c.dispC.code = byte 8 ∧ c.dispD.code = byte 9 ∧ c.dispX.code = byte 10) ∧
    (byte 3 = 0 → ∃ z, Memory.zone d a = some z ∧ z.valid = false) ∧
    (byte 3 ≠ 0 →
      (Memory.zone d a = none ↔ 2048 ≤ Memory.nat d a 2 ∨ 1 < byte 2) ∧
      ∀ z, Memory.zone d a = some z → z.valid = true ∧ z.last = Memory.nat d a 2 ∧
        (z.kind = .pick ↔ byte 2 = 0) ∧ (z.kind = .reserve ↔ byte 2 = 1))) ∧
  (∀ (cb : Nat) (t : TablesRead),
    let apart (a n b m : Nat) : Prop := ∀ x, a ≤ x → x < a + n → b ≤ x → x < b + m → False
    let rings : List (Nat × Nat) := queueIds.flatMap (fun q =>
      [(t.descs[q].ringBase, 64 + 16 * t.descs[q].capacity), (t.descs[q].viewBase, 16 * t.descs[q].capacity)])
    let areas : List AreaDesc := t.areas.toList.filter (·.valid)
    let header : Prop := t.format = 1 ∧ 30 ≤ t.deadline ∧ t.deadline ≤ 3600
    let zones (z : List Zone) : Prop := (z.filter (·.valid)).Pairwise (fun x y => x.last < y.last)
    let items : Prop :=
      (∀ a ∈ areas, a.base % 64 = 0 ∧ 0 < a.slots ∧ a.slots ≤ 65536 ∧ a.base + 64 * a.slots ≤ 17179869184 ∧
        apart a.base (64 * a.slots) cb 20480 ∧ ∀ r ∈ rings, apart a.base (64 * a.slots) r.1 r.2) ∧
      areas.Pairwise (fun x y => apart x.base (64 * x.slots) y.base (64 * y.slots))
    let queues : Prop :=
      (∀ q : Fin 6,
        t.descs[q].capacity ∈ [16, 32, 64, 128, 256, 512, 1024, 2048, 4096] ∧ 1 ≤ t.descs[q].near ∧
        t.descs[q].near ≤ t.descs[q].capacity ∧ t.descs[q].ringBase % 64 = 0 ∧
        t.descs[q].viewBase % (16 * t.descs[q].capacity) = 0) ∧
      (queueIds.map (fun q => t.descs[q].capacity)).sum ≤ 8192 ∧
      (∀ r ∈ rings, r.1 + r.2 ≤ 17179869184 ∧ apart cb 20480 r.1 r.2) ∧
      rings.Pairwise (fun x y => apart x.1 x.2 y.1 y.2)
    (¬header → t.check cb = .error 1) ∧
    (header →
      (t.classes = none → t.check cb = .error 2) ∧
      ∀ classes, t.classes = some classes →
        (t.caps = none → t.check cb = .error 3) ∧
        ∀ caps, t.caps = some caps →
          (t.bias = none → t.check cb = .error 4) ∧
          ∀ bias, t.bias = some bias →
            (t.zones = none → t.check cb = .error 5) ∧
            ∀ z, t.zones = some z →
              (¬zones z → t.check cb = .error 5) ∧
              (zones z → ¬items → t.check cb = .error 6) ∧
              (zones z → items → ¬queues → t.check cb = .error 7) ∧
              (zones z → items → queues → t.check cb = .ok
                { deadline := t.deadline, ticketImage := t.ticketImage, classes := classes, caps := caps, bias := bias,
                  zones := z, areas := t.areas, descs := t.descs }))) ∧
  (∀ (s : State) (descs : Vector QDesc 6),
    let busy (q : Fin 6) : Prop := s.desc? q ≠ some descs[q] ∧ 0 < (s.queue q).count
    (∀ q, s.busyQueue descs = some q ↔ busy q ∧ ∀ p, p < q → ¬busy p) ∧
    (s.busyQueue descs = none ↔ ∀ q, ¬busy q)) ∧
  (∀ (s : State) (areas : Vector AreaDesc 4),
    let busy (i : Fin 4) : Prop := s.layout.areas[i] ≠ areas[i] ∧
      ((∃ r ∈ s.ru.table, r.id.area = i.val) ∨ ∃ id ∈ s.busySlots, id.area = i.val)
    (∀ i, s.busyArea areas = some i ↔ busy i ∧ ∀ j, j < i → ¬busy j) ∧
    (s.busyArea areas = none ↔ ∀ i, ¬busy i))

/-- The switch of a RELOAD (R72, R124, R134, R155): with the posted write buffer empty and the item command unit paused the
tests are made again; passed, the tables and the layout are put in force, a queue whose descriptor changes starts at position 0
with its totals and LAST_TICKET kept and its header write queued, and the lists are built anew in ascending bin number when the
zones change; either way the pause request is cleared, the unit is idle and in RUN and FROZEN takes the head entry of CQ under the
layout then in force, the result write is issued, the stalled writes are ready and every other request keeps its stage (R39,
R135); before that it waits. The requests that the switch makes ready stand last at the memory arbiter, and nothing else changes.
That the header writes join in ascending queue number, and that a header write, a fetch of the resumed unit and the result write
stand at the memory arbiter in this order, are the model's choices (notes/assumptions/27.md and 33.md); that a busy queue is
reported before a busy area, and that the zone tables are compared as held, are its readings (notes/assumptions/25.md and
24.md). -/
def Obligations.ReloadSwitchPutsInForce : Prop :=
  (∀ (s : State) (t : Tables),
    (∀ q, s.busyQueue t.descs = some q → s.reloadRefusal t = some (.queueBusy, q.val)) ∧
    (∀ i, s.busyQueue t.descs = none → s.busyArea t.areas = some i → s.reloadRefusal t = some (.areaBusy, i.val)) ∧
    (s.busyQueue t.descs = none → s.busyArea t.areas = none → s.reloadRefusal t = none)) ∧
  ∀ (s : State) (seq : Word32) (t : Tables), s.cu.work = .reloadSwitch seq t →
    let changed : List (Fin 6) := queueIds.filter (fun q => decide (s.desc? q ≠ some t.descs[q]))
    ((0 < s.buffered ∨ s.icu.stage ≠ .paused) → exec .reloadSwitch s = .next s) ∧
    let restarted (v : PortState) : PortState :=
      { v with outstanding := v.outstanding.map (fun o =>
          { o with stage := if o.stage = .stalled .postingStopped then .waiting else o.stage }) }
    let resumed (l : Layout) (icu : Icu) (fetch : List OwnReq) : Prop :=
      ((s.icu.cq = [] ∨ (s.cu.mode ≠ .run ∧ s.cu.mode ≠ .frozen)) →
        icu = { s.icu with pauseAsked := false, stage := .idle } ∧ fetch = []) ∧
      ∀ e r, s.icu.cq = e :: r → (s.cu.mode = .run ∨ s.cu.mode = .frozen) →
        icu = { s.icu with
          pauseAsked := false
          cq := r
          stage := .fetching { entry := e, frozen := decide (s.cu.mode = .frozen), addr := l.slotAddr e.slot } } ∧
        fetch = (if l.slotAddr e.slot = none then [] else [OwnReq.fetch])
    (∀ res n, s.buffered = 0 → s.icu.stage = .paused → s.reloadRefusal t = some (res, n) →
      ∃ icu fetch, resumed s.layout icu fetch ∧
        exec .reloadSwitch s = .next ({ s with
          icu := icu
          cu := { s.cu with work := .result (report seq res (BitVec.ofNat 32 n)) }
          ma := { s.ma with own := s.ma.own ++ fetch ++ [OwnReq.result] }
          portA := restarted s.portA
          portB := restarted s.portB }).finish) ∧
    (s.buffered = 0 → s.icu.stage = .paused → s.reloadRefusal t = none →
      ∃ (u : State) (fetch : List OwnReq),
        exec .reloadSwitch s = .next u.finish ∧
        resumed { areas := t.areas, descs := some t.descs } u.icu fetch ∧
        u.ma = { s.ma with
          own := s.ma.own ++ (if s.qu.inFlight = none ∧ changed ≠ [] then [OwnReq.queueWrite] else []) ++ fetch
            ++ [OwnReq.result] } ∧
        u.cu = { s.cu with work := .result (report seq .ok (if t.zones = s.bu.zones then 0 else 1)) } ∧
        u.layout = { areas := t.areas, descs := some t.descs } ∧
        u.gu = { classes := t.classes, caps := t.caps, bias := t.bias } ∧
        u.ru = { s.ru with setting := t.deadline } ∧
        u.bu = { s.bu with zones := t.zones, avail := u.bu.avail } ∧
        (t.zones = s.bu.zones → u.bu.avail = s.bu.avail) ∧
        (t.zones ≠ s.bu.zones → ∀ c k, u.bu.list (listKey c k) = (List.range 2048).filter (fun b =>
          decide ((s.bu.bin b).state = .opened ∧ 0 < (s.bu.bin b).free ∧ kindOf t.zones b = some k ∧
            (s.bu.bin b).cls = c))) ∧
        (∀ q, s.desc? q = some t.descs[q] → u.queue q = s.queue q) ∧
        (∀ q, s.desc? q ≠ some t.descs[q] →
          u.queue q = { s.queue q with head := 0, tail := 0, count := 0, live := 0, positions := [] } ∧
          u.queued (.header q)) ∧
        u.qu.lastTicket = s.qu.lastTicket ∧
        (changed = [] → u.qu = s.qu) ∧
        (s.qu.inFlight ≠ none → u.qu.inFlight = s.qu.inFlight ∧
          u.qu.waiting = s.qu.waiting
            ++ (changed.map QuItem.header).filter (fun i => decide (i ∉ s.qu.waiting))) ∧
        (∀ q l, s.qu.inFlight = none → s.qu.waiting = [] → changed = q :: l →
          u.qu.inFlight = some
            { item := .header q, cells := cellsAt t.descs[q].ringBase (headerBytes (u.queue q)) } ∧
          u.qu.waiting = l.map QuItem.header) ∧
        u.portA = restarted s.portA ∧ u.portB = restarted s.portB ∧
        u.eu = s.eu ∧ u.dram = s.dram ∧ u.fwd = s.fwd ∧ u.ia = s.ia ∧ u.pending = s.pending)
end

