-- ==== Sys2Proof/Laws/Memory.lean ====
section
/-! SUPPORT. What the operations on finite maps and on DRAM do: what a key reads as afterwards, and that each keeps the
canonical form. -/

namespace Sys2Proof.Machine

/-! ## Finite maps -/

theorem Map.at?_ins {α : Type} (k j : Nat) (v : α) (m : Map α) :
    Map.at? (Map.ins k v m) j = if k = j then some v else Map.at? m j := by
  induction m with
  | nil => simp [Map.ins, Map.at?]
  | cons c r ih =>
    obtain ⟨i, w⟩ := c
    unfold Map.ins
    split
    · simp [Map.at?]
    · split
      · rename_i hk
        subst hk
        by_cases h : k = j <;> simp [Map.at?, h]
      · by_cases h : i = j
        · subst h
          have : ¬ k = i := by omega
          simp [Map.at?, this]
        · simp [Map.at?, h, ih]

theorem Map.at?_del {α : Type} (k j : Nat) (m : Map α) :
    Map.at? (Map.del k m) j = if k = j then none else Map.at? m j := by
  induction m with
  | nil => simp [Map.del, Map.at?]
  | cons c r ih =>
    obtain ⟨i, w⟩ := c
    have ih' : Map.at? (List.filter (fun c => c.1 != k) r) j = if k = j then none else Map.at? r j := ih
    by_cases hik : i = k
    · subst hik
      simp only [Map.del, List.filter, bne_self_eq_false, ih']
      by_cases h : i = j <;> simp [Map.at?, h]
    · have hb : (i != k) = true := by simp [hik]
      simp only [Map.del, List.filter, hb]
      by_cases h : i = j
      · subst h
        simp [Map.at?, Ne.symm hik]
      · simp [Map.at?, h, ih']

/-- What a key reads as after a key is set. -/
theorem Map.getD_put {α : Type} [DecidableEq α] (d : α) (k j : Nat) (v : α) (m : Map α) :
    Map.getD d (Map.put d k v m) j = if k = j then v else Map.getD d m j := by
  unfold Map.getD Map.put
  split
  · rw [Map.at?_del]
    by_cases h : k = j <;> simp_all
  · rw [Map.at?_ins]
    by_cases h : k = j <;> simp [h]

theorem Map.mem_ins {α : Type} {k : Nat} {v : α} {m : Map α} {c : Nat × α} :
    c ∈ Map.ins k v m → c = (k, v) ∨ c ∈ m := by
  induction m with
  | nil => simp [Map.ins]
  | cons x r ih =>
    obtain ⟨i, w⟩ := x
    unfold Map.ins
    split
    · simp
    · split
      · simp only [List.mem_cons]
        rintro (h | h)
        · exact Or.inl h
        · exact Or.inr (Or.inr h)
      · simp only [List.mem_cons]
        rintro (h | h)
        · exact Or.inr (Or.inl h)
        · rcases ih h with h | h
          · exact Or.inl h
          · exact Or.inr (Or.inr h)

theorem Map.pairwise_ins {α : Type} (k : Nat) (v : α) (m : Map α)
    (h : m.Pairwise (fun a b => a.1 < b.1)) : (Map.ins k v m).Pairwise (fun a b => a.1 < b.1) := by
  induction m with
  | nil => simp [Map.ins]
  | cons c r ih =>
    obtain ⟨i, w⟩ := c
    rw [List.pairwise_cons] at h
    unfold Map.ins
    split
    · rename_i hk
      rw [List.pairwise_cons, List.pairwise_cons]
      refine ⟨?_, h⟩
      intro b hb
      rcases List.mem_cons.1 hb with hb | hb
      · subst hb; exact hk
      · exact Nat.lt_trans hk (h.1 b hb)
    · split
      · rename_i hk
        subst hk
        rw [List.pairwise_cons]
        exact h
      · rename_i h1 h2
        rw [List.pairwise_cons]
        refine ⟨?_, ih h.2⟩
        intro b hb
        rcases Map.mem_ins hb with hb | hb
        · subst hb; simp only; omega
        · exact h.1 b hb

/-- Setting a key keeps the canonical form. -/
theorem Map.wf_put {α : Type} [DecidableEq α] (d : α) (k : Nat) (v : α) (m : Map α) (h : Map.wf d m = true) :
    Map.wf d (Map.put d k v m) = true := by
  simp only [Map.wf, Bool.and_eq_true, decide_eq_true_eq, List.all_eq_true] at h ⊢
  unfold Map.put
  split
  · refine ⟨h.1.filter _, ?_⟩
    intro c hc
    exact h.2 c (List.mem_of_mem_filter hc)
  · rename_i hv
    refine ⟨Map.pairwise_ins k v m h.1, ?_⟩
    intro c hc
    rcases Map.mem_ins hc with hc | hc
    · subst hc; exact hv
    · exact h.2 c hc

/-! ## DRAM -/

/-- What a byte reads as after one byte is written. -/
theorem Memory.read_write (d : Memory) (a x : Nat) (b : Byte) :
    Memory.read (Memory.write d a b) x = if a = x then b else Memory.read d x :=
  Map.getD_put _ _ _ _ _

/-- Writing a byte keeps the canonical form. -/
theorem Memory.wf_write (d : Memory) (a : Nat) (b : Byte) (h : Memory.wf d = true) :
    Memory.wf (Memory.write d a b) = true := Map.wf_put _ _ _ _ h

/-- A write keeps the canonical form. -/
theorem Memory.wf_writeCells (cells : Cells) (d : Memory) (h : Memory.wf d = true) :
    Memory.wf (Memory.writeCells d cells) = true := by
  induction cells generalizing d with
  | nil => exact h
  | cons c r ih => exact ih _ (Memory.wf_write d c.1 c.2 h)

/-- Whatever has overtaken it, a write keeps the canonical form. -/
theorem Memory.wf_setUnder (later : Cells) (d : Memory) (cells : Cells) (h : Memory.wf d = true) :
    Memory.wf (Memory.setUnder later d cells) = true := Memory.wf_writeCells _ _ h

/-- A byte that no cell of a write names reads as before. -/
theorem Memory.read_writeCells_of_not_mem (cells : Cells) (d : Memory) (x : Nat) (h : ∀ c ∈ cells, c.1 ≠ x) :
    Memory.read (Memory.writeCells d cells) x = Memory.read d x := by
  induction cells generalizing d with
  | nil => rfl
  | cons c r ih =>
    have hc : c.1 ≠ x := h c (List.mem_cons_self ..)
    have hr := ih (Memory.write d c.1 c.2) (fun c' hc' => h c' (List.mem_cons_of_mem _ hc'))
    show Memory.read (Memory.writeCells (Memory.write d c.1 c.2) r) x = _
    rw [hr, Memory.read_write, if_neg hc]

/-- Two writes one after the other. -/
theorem Memory.writeCells_append (d : Memory) (x y : Cells) :
    Memory.writeCells d (x ++ y) = Memory.writeCells (Memory.writeCells d x) y := by
  simp [Memory.writeCells, List.foldl_append]

/-- The byte that a run of cells leaves at an address of the run. -/
theorem Memory.read_cellsAt (bytes : List Byte) (d : Memory) (a i : Nat) (h : i < bytes.length) :
    Memory.read (Memory.writeCells d (cellsAt a bytes)) (a + i) = bytes[i] := by
  induction bytes generalizing d a i with
  | nil => simp at h
  | cons b r ih =>
    show Memory.read (Memory.writeCells (Memory.write d a b) (cellsAt (a + 1) r)) (a + i) = _
    cases i with
    | zero =>
      rw [Memory.read_writeCells_of_not_mem, Memory.read_write]
      · simp
      · intro c hc
        have hge : ∀ (l : List Byte) (n : Nat), ∀ c ∈ cellsAt n l, n ≤ c.1 := by
          intro l
          induction l with
          | nil => intro n c hc; simp [cellsAt] at hc
          | cons b' l' ih' =>
            intro n c hc
            rcases List.mem_cons.1 hc with hc | hc
            · subst hc; exact Nat.le_refl _
            · exact Nat.le_of_succ_le (ih' (n + 1) c hc)
        have := hge r (a + 1) c hc
        omega
    | succ n =>
      have := ih (Memory.write d a b) (a + 1) n (by simpa using h)
      have e : a + 1 + n = a + (n + 1) := by omega
      rw [e] at this
      simpa using this

/-- A run of cells names only the addresses of the run. -/
theorem Memory.read_outside_cellsAt (bytes : List Byte) (d : Memory) (a x : Nat)
    (h : x < a ∨ a + bytes.length ≤ x) :
    Memory.read (Memory.writeCells d (cellsAt a bytes)) x = Memory.read d x := by
  apply Memory.read_writeCells_of_not_mem
  intro c hc
  have hb : ∀ (l : List Byte) (n : Nat), ∀ c ∈ cellsAt n l, n ≤ c.1 ∧ c.1 < n + l.length := by
    intro l
    induction l with
    | nil => intro n c hc; simp [cellsAt] at hc
    | cons b' l' ih' =>
      intro n c hc
      rcases List.mem_cons.1 hc with hc | hc
      · subst hc; simp
      · have := ih' (n + 1) c hc
        simp only [List.length_cons]
        omega
  have := hb bytes a c hc
  omega

/-- DRAM with nothing listed is in its canonical form. -/
theorem Memory.wf_nil : Memory.wf [] = true := by decide

end Sys2Proof.Machine
end

