-- ==== Sys2Proof/Laws/State.lean ====
section
/-! SUPPORT. What the small updates of the state leave as it is, and the field each one sets: a later proof rewrites with
these and unfolds no record update. Each theorem is one rewriting rule per field. -/

namespace Sys2Proof.Machine

/-- `State.raise` leaves every field but `eu`. -/
@[simp] theorem State.raise_frame (s : State) (k : EventKind) :
    (s.raise k).portA = s.portA ∧ (s.raise k).portB = s.portB ∧ (s.raise k).ia = s.ia ∧ (s.raise k).fwd = s.fwd ∧
    (s.raise k).ma = s.ma ∧ (s.raise k).layout = s.layout ∧ (s.raise k).gu = s.gu ∧ (s.raise k).bu = s.bu ∧
    (s.raise k).ru = s.ru ∧ (s.raise k).qu = s.qu ∧ (s.raise k).icu = s.icu ∧ (s.raise k).cu = s.cu ∧
    (s.raise k).dram = s.dram ∧ (s.raise k).pending = s.pending ∧ (s.raise k).eu = s.eu.raise k := by
  exact ⟨rfl, rfl, rfl, rfl, rfl, rfl, rfl, rfl, rfl, rfl, rfl, rfl, rfl, rfl, rfl⟩

/-- `State.raiseAll` leaves every field but `eu`. -/
@[simp] theorem State.raiseAll_frame (s : State) (ks : List EventKind) :
    (s.raiseAll ks).portA = s.portA ∧ (s.raiseAll ks).portB = s.portB ∧ (s.raiseAll ks).ia = s.ia ∧
    (s.raiseAll ks).fwd = s.fwd ∧ (s.raiseAll ks).ma = s.ma ∧ (s.raiseAll ks).layout = s.layout ∧
    (s.raiseAll ks).gu = s.gu ∧ (s.raiseAll ks).bu = s.bu ∧ (s.raiseAll ks).ru = s.ru ∧ (s.raiseAll ks).qu = s.qu ∧
    (s.raiseAll ks).icu = s.icu ∧ (s.raiseAll ks).cu = s.cu ∧ (s.raiseAll ks).dram = s.dram ∧
    (s.raiseAll ks).pending = s.pending ∧ (s.raiseAll ks).eu = s.eu.raiseAll ks := by
  exact ⟨rfl, rfl, rfl, rfl, rfl, rfl, rfl, rfl, rfl, rfl, rfl, rfl, rfl, rfl, rfl⟩

/-- `State.ownWrite` leaves every field but `dram`, `ma`. -/
@[simp] theorem State.ownWrite_frame (s : State) (q : OwnReq) (cells : Cells) (a : WriteAnswer) :
    (s.ownWrite q cells a).portA = s.portA ∧ (s.ownWrite q cells a).portB = s.portB ∧ (s.ownWrite q cells a).ia = s.ia ∧
    (s.ownWrite q cells a).fwd = s.fwd ∧ (s.ownWrite q cells a).layout = s.layout ∧ (s.ownWrite q cells a).gu = s.gu ∧
    (s.ownWrite q cells a).bu = s.bu ∧ (s.ownWrite q cells a).ru = s.ru ∧ (s.ownWrite q cells a).qu = s.qu ∧
    (s.ownWrite q cells a).icu = s.icu ∧ (s.ownWrite q cells a).cu = s.cu ∧ (s.ownWrite q cells a).eu = s.eu ∧
    (s.ownWrite q cells a).pending = s.pending := by
  exact ⟨rfl, rfl, rfl, rfl, rfl, rfl, rfl, rfl, rfl, rfl, rfl, rfl, rfl⟩

/-- `State.forwardedWrite` leaves every field but `dram`, `ma`. -/
@[simp] theorem State.forwardedWrite_frame (s : State) (cells : Cells) (a : WriteAnswer) :
    (s.forwardedWrite cells a).portA = s.portA ∧ (s.forwardedWrite cells a).portB = s.portB ∧
    (s.forwardedWrite cells a).ia = s.ia ∧ (s.forwardedWrite cells a).fwd = s.fwd ∧
    (s.forwardedWrite cells a).layout = s.layout ∧ (s.forwardedWrite cells a).gu = s.gu ∧
    (s.forwardedWrite cells a).bu = s.bu ∧ (s.forwardedWrite cells a).ru = s.ru ∧
    (s.forwardedWrite cells a).qu = s.qu ∧ (s.forwardedWrite cells a).icu = s.icu ∧
    (s.forwardedWrite cells a).cu = s.cu ∧ (s.forwardedWrite cells a).eu = s.eu ∧
    (s.forwardedWrite cells a).pending = s.pending := by
  exact ⟨rfl, rfl, rfl, rfl, rfl, rfl, rfl, rfl, rfl, rfl, rfl, rfl, rfl⟩

/-- `State.mapStages` leaves every field but `portA`, `portB`. -/
@[simp] theorem State.mapStages_frame (s : State) (f : Outstanding → Stage) :
    (s.mapStages f).ia = s.ia ∧ (s.mapStages f).fwd = s.fwd ∧ (s.mapStages f).ma = s.ma ∧
    (s.mapStages f).layout = s.layout ∧ (s.mapStages f).gu = s.gu ∧ (s.mapStages f).bu = s.bu ∧
    (s.mapStages f).ru = s.ru ∧ (s.mapStages f).qu = s.qu ∧ (s.mapStages f).icu = s.icu ∧
    (s.mapStages f).cu = s.cu ∧ (s.mapStages f).eu = s.eu ∧ (s.mapStages f).dram = s.dram ∧
    (s.mapStages f).pending = s.pending := by
  exact ⟨rfl, rfl, rfl, rfl, rfl, rfl, rfl, rfl, rfl, rfl, rfl, rfl, rfl⟩

/-- `State.deliver` leaves every field but `portA`, `portB`. -/
@[simp] theorem State.deliver_frame (s : State) :
    (s.deliver).ia = s.ia ∧ (s.deliver).fwd = s.fwd ∧ (s.deliver).ma = s.ma ∧ (s.deliver).layout = s.layout ∧
    (s.deliver).gu = s.gu ∧ (s.deliver).bu = s.bu ∧ (s.deliver).ru = s.ru ∧ (s.deliver).qu = s.qu ∧
    (s.deliver).icu = s.icu ∧ (s.deliver).cu = s.cu ∧ (s.deliver).eu = s.eu ∧ (s.deliver).dram = s.dram ∧
    (s.deliver).pending = s.pending ∧ (s.deliver).portA = s.portA.deliver ∧ (s.deliver).portB = s.portB.deliver := by
  exact ⟨rfl, rfl, rfl, rfl, rfl, rfl, rfl, rfl, rfl, rfl, rfl, rfl, rfl, rfl, rfl⟩

/-- `State.releaseHolds` leaves every field but `portA`, `portB`. -/
@[simp] theorem State.releaseHolds_frame (s : State) (c : Hold → Bool) :
    (s.releaseHolds c).ia = s.ia ∧ (s.releaseHolds c).fwd = s.fwd ∧ (s.releaseHolds c).ma = s.ma ∧
    (s.releaseHolds c).layout = s.layout ∧ (s.releaseHolds c).gu = s.gu ∧ (s.releaseHolds c).bu = s.bu ∧
    (s.releaseHolds c).ru = s.ru ∧ (s.releaseHolds c).qu = s.qu ∧ (s.releaseHolds c).icu = s.icu ∧
    (s.releaseHolds c).cu = s.cu ∧ (s.releaseHolds c).eu = s.eu ∧ (s.releaseHolds c).dram = s.dram ∧
    (s.releaseHolds c).pending = s.pending := by
  exact ⟨rfl, rfl, rfl, rfl, rfl, rfl, rfl, rfl, rfl, rfl, rfl, rfl, rfl⟩

/-- `State.releaseStalls` leaves every field but `portA`, `portB`. -/
@[simp] theorem State.releaseStalls_frame (s : State) (c : Stall → Bool) :
    (s.releaseStalls c).ia = s.ia ∧ (s.releaseStalls c).fwd = s.fwd ∧ (s.releaseStalls c).ma = s.ma ∧
    (s.releaseStalls c).layout = s.layout ∧ (s.releaseStalls c).gu = s.gu ∧ (s.releaseStalls c).bu = s.bu ∧
    (s.releaseStalls c).ru = s.ru ∧ (s.releaseStalls c).qu = s.qu ∧ (s.releaseStalls c).icu = s.icu ∧
    (s.releaseStalls c).cu = s.cu ∧ (s.releaseStalls c).eu = s.eu ∧ (s.releaseStalls c).dram = s.dram ∧
    (s.releaseStalls c).pending = s.pending := by
  exact ⟨rfl, rfl, rfl, rfl, rfl, rfl, rfl, rfl, rfl, rfl, rfl, rfl, rfl⟩

/-- `State.releasePlace` leaves every field but `portA`, `portB`. -/
@[simp] theorem State.releasePlace_frame (s : State) :
    (s.releasePlace).ia = s.ia ∧ (s.releasePlace).fwd = s.fwd ∧ (s.releasePlace).ma = s.ma ∧
    (s.releasePlace).layout = s.layout ∧ (s.releasePlace).gu = s.gu ∧ (s.releasePlace).bu = s.bu ∧
    (s.releasePlace).ru = s.ru ∧ (s.releasePlace).qu = s.qu ∧ (s.releasePlace).icu = s.icu ∧
    (s.releasePlace).cu = s.cu ∧ (s.releasePlace).eu = s.eu ∧ (s.releasePlace).dram = s.dram ∧
    (s.releasePlace).pending = s.pending := by
  exact ⟨rfl, rfl, rfl, rfl, rfl, rfl, rfl, rfl, rfl, rfl, rfl, rfl, rfl⟩

/-- `State.joinForward` leaves every field but `fwd`. -/
@[simp] theorem State.joinForward_frame (s : State) (r : WriteReq) (cells : Cells) (k : FwdKind) :
    (s.joinForward r cells k).portA = s.portA ∧ (s.joinForward r cells k).portB = s.portB ∧
    (s.joinForward r cells k).ia = s.ia ∧ (s.joinForward r cells k).ma = s.ma ∧
    (s.joinForward r cells k).layout = s.layout ∧ (s.joinForward r cells k).gu = s.gu ∧
    (s.joinForward r cells k).bu = s.bu ∧ (s.joinForward r cells k).ru = s.ru ∧
    (s.joinForward r cells k).qu = s.qu ∧ (s.joinForward r cells k).icu = s.icu ∧
    (s.joinForward r cells k).cu = s.cu ∧ (s.joinForward r cells k).eu = s.eu ∧
    (s.joinForward r cells k).dram = s.dram ∧ (s.joinForward r cells k).pending = s.pending ∧
    (s.joinForward r cells k).fwd = s.fwd ++ [{ addr := r.addr.toNat, len := r.len, cells := cells, kind := k }] := by
  exact ⟨rfl, rfl, rfl, rfl, rfl, rfl, rfl, rfl, rfl, rfl, rfl, rfl, rfl, rfl, rfl⟩

/-- `State.removeResv` leaves every field but `ru`. -/
@[simp] theorem State.removeResv_frame (s : State) (id : SlotId) :
    (s.removeResv id).portA = s.portA ∧ (s.removeResv id).portB = s.portB ∧ (s.removeResv id).ia = s.ia ∧
    (s.removeResv id).fwd = s.fwd ∧ (s.removeResv id).ma = s.ma ∧ (s.removeResv id).layout = s.layout ∧
    (s.removeResv id).gu = s.gu ∧ (s.removeResv id).bu = s.bu ∧ (s.removeResv id).qu = s.qu ∧
    (s.removeResv id).icu = s.icu ∧ (s.removeResv id).cu = s.cu ∧ (s.removeResv id).eu = s.eu ∧
    (s.removeResv id).dram = s.dram ∧ (s.removeResv id).pending = s.pending ∧ (s.removeResv id).ru = s.ru.remove id := by
  exact ⟨rfl, rfl, rfl, rfl, rfl, rfl, rfl, rfl, rfl, rfl, rfl, rfl, rfl, rfl, rfl⟩

/-- `State.startWriteBack` leaves every field but `icu`, `ma`. -/
@[simp] theorem State.startWriteBack_frame (s : State) (svc : Service) (cells : Cells) (events : List EventKind) :
    (s.startWriteBack svc cells events).portA = s.portA ∧ (s.startWriteBack svc cells events).portB = s.portB ∧
    (s.startWriteBack svc cells events).ia = s.ia ∧ (s.startWriteBack svc cells events).fwd = s.fwd ∧
    (s.startWriteBack svc cells events).ma = s.ma.ask .writeBack ∧ (s.startWriteBack svc cells events).layout = s.layout ∧
    (s.startWriteBack svc cells events).gu = s.gu ∧ (s.startWriteBack svc cells events).bu = s.bu ∧
    (s.startWriteBack svc cells events).ru = s.ru ∧ (s.startWriteBack svc cells events).qu = s.qu ∧
    (s.startWriteBack svc cells events).cu = s.cu ∧ (s.startWriteBack svc cells events).eu = s.eu ∧
    (s.startWriteBack svc cells events).dram = s.dram ∧ (s.startWriteBack svc cells events).pending = s.pending ∧
    (s.startWriteBack svc cells events).icu = { s.icu with stage := .writeBack svc cells events } := by
  exact ⟨rfl, rfl, rfl, rfl, rfl, rfl, rfl, rfl, rfl, rfl, rfl, rfl, rfl, rfl, rfl⟩

/-- `State.dropGiven` leaves every field but `icu`. -/
@[simp] theorem State.dropGiven_frame (s : State) (id : SlotId) :
    (s.dropGiven id).portA = s.portA ∧ (s.dropGiven id).portB = s.portB ∧ (s.dropGiven id).ia = s.ia ∧
    (s.dropGiven id).fwd = s.fwd ∧ (s.dropGiven id).ma = s.ma ∧ (s.dropGiven id).layout = s.layout ∧
    (s.dropGiven id).gu = s.gu ∧ (s.dropGiven id).bu = s.bu ∧ (s.dropGiven id).ru = s.ru ∧
    (s.dropGiven id).qu = s.qu ∧ (s.dropGiven id).cu = s.cu ∧ (s.dropGiven id).eu = s.eu ∧
    (s.dropGiven id).dram = s.dram ∧ (s.dropGiven id).pending = s.pending ∧
    (s.dropGiven id).icu = { s.icu with given := s.icu.given.erase id } := by
  exact ⟨rfl, rfl, rfl, rfl, rfl, rfl, rfl, rfl, rfl, rfl, rfl, rfl, rfl, rfl, rfl⟩

/-- `State.askPause` leaves every field but `icu`. -/
@[simp] theorem State.askPause_frame (s : State) :
    (s.askPause).portA = s.portA ∧ (s.askPause).portB = s.portB ∧ (s.askPause).ia = s.ia ∧
    (s.askPause).fwd = s.fwd ∧ (s.askPause).ma = s.ma ∧ (s.askPause).layout = s.layout ∧ (s.askPause).gu = s.gu ∧
    (s.askPause).bu = s.bu ∧ (s.askPause).ru = s.ru ∧ (s.askPause).qu = s.qu ∧ (s.askPause).cu = s.cu ∧
    (s.askPause).eu = s.eu ∧ (s.askPause).dram = s.dram ∧ (s.askPause).pending = s.pending := by
  exact ⟨rfl, rfl, rfl, rfl, rfl, rfl, rfl, rfl, rfl, rfl, rfl, rfl, rfl, rfl⟩

/-- `State.setQueue` leaves every field but `qu`. -/
@[simp] theorem State.setQueue_frame (s : State) (q : Fin 6) (v : QState) :
    (s.setQueue q v).portA = s.portA ∧ (s.setQueue q v).portB = s.portB ∧ (s.setQueue q v).ia = s.ia ∧
    (s.setQueue q v).fwd = s.fwd ∧ (s.setQueue q v).ma = s.ma ∧ (s.setQueue q v).layout = s.layout ∧
    (s.setQueue q v).gu = s.gu ∧ (s.setQueue q v).bu = s.bu ∧ (s.setQueue q v).ru = s.ru ∧
    (s.setQueue q v).icu = s.icu ∧ (s.setQueue q v).cu = s.cu ∧ (s.setQueue q v).eu = s.eu ∧
    (s.setQueue q v).dram = s.dram ∧ (s.setQueue q v).pending = s.pending ∧
    (s.setQueue q v).qu = { s.qu with queues := s.qu.queues.set q v } := by
  exact ⟨rfl, rfl, rfl, rfl, rfl, rfl, rfl, rfl, rfl, rfl, rfl, rfl, rfl, rfl, rfl⟩

/-- `State.startResult` leaves every field but `cu`, `ma`. -/
@[simp] theorem State.startResult_frame (s : State) (r : ResultWrite) :
    (s.startResult r).portA = s.portA ∧ (s.startResult r).portB = s.portB ∧ (s.startResult r).ia = s.ia ∧
    (s.startResult r).fwd = s.fwd ∧ (s.startResult r).ma = s.ma.ask r.request ∧ (s.startResult r).layout = s.layout ∧
    (s.startResult r).gu = s.gu ∧ (s.startResult r).bu = s.bu ∧ (s.startResult r).ru = s.ru ∧
    (s.startResult r).qu = s.qu ∧ (s.startResult r).icu = s.icu ∧ (s.startResult r).eu = s.eu ∧
    (s.startResult r).dram = s.dram ∧ (s.startResult r).pending = s.pending ∧
    (s.startResult r).cu = { s.cu with work := .result r } := by
  exact ⟨rfl, rfl, rfl, rfl, rfl, rfl, rfl, rfl, rfl, rfl, rfl, rfl, rfl, rfl, rfl⟩

/-- `State.endOperation` leaves every field but `cu`, `ma`, `portA`, `portB`. -/
@[simp] theorem State.endOperation_frame (s : State) :
    (s.endOperation).ia = s.ia ∧ (s.endOperation).fwd = s.fwd ∧ (s.endOperation).ma = s.ma.drop .result ∧
    (s.endOperation).layout = s.layout ∧ (s.endOperation).gu = s.gu ∧ (s.endOperation).bu = s.bu ∧
    (s.endOperation).ru = s.ru ∧ (s.endOperation).qu = s.qu ∧ (s.endOperation).icu = s.icu ∧
    (s.endOperation).eu = s.eu ∧ (s.endOperation).dram = s.dram ∧ (s.endOperation).pending = s.pending ∧
    (s.endOperation).cu = { s.cu with work := .idle } := by
  exact ⟨rfl, rfl, rfl, rfl, rfl, rfl, rfl, rfl, rfl, rfl, rfl, rfl, rfl⟩

/-- `State.lookPass` leaves every field but `ru`. -/
@[simp] theorem State.lookPass_frame (s : State) :
    (s.lookPass).portA = s.portA ∧ (s.lookPass).portB = s.portB ∧ (s.lookPass).ia = s.ia ∧
    (s.lookPass).fwd = s.fwd ∧ (s.lookPass).ma = s.ma ∧ (s.lookPass).layout = s.layout ∧ (s.lookPass).gu = s.gu ∧
    (s.lookPass).bu = s.bu ∧ (s.lookPass).qu = s.qu ∧ (s.lookPass).icu = s.icu ∧ (s.lookPass).cu = s.cu ∧
    (s.lookPass).eu = s.eu ∧ (s.lookPass).dram = s.dram ∧ (s.lookPass).pending = s.pending := by
  exact ⟨rfl, rfl, rfl, rfl, rfl, rfl, rfl, rfl, rfl, rfl, rfl, rfl, rfl, rfl⟩

/-- `State.setPort` leaves every field but `portA`, `portB`. -/
@[simp] theorem State.setPort_frame (s : State) (p : Port) (v : PortState) :
    (s.setPort p v).ia = s.ia ∧ (s.setPort p v).fwd = s.fwd ∧ (s.setPort p v).ma = s.ma ∧
    (s.setPort p v).layout = s.layout ∧ (s.setPort p v).gu = s.gu ∧ (s.setPort p v).bu = s.bu ∧
    (s.setPort p v).ru = s.ru ∧ (s.setPort p v).qu = s.qu ∧ (s.setPort p v).icu = s.icu ∧
    (s.setPort p v).cu = s.cu ∧ (s.setPort p v).eu = s.eu ∧ (s.setPort p v).dram = s.dram ∧
    (s.setPort p v).pending = s.pending := by
  cases p <;> exact ⟨rfl, rfl, rfl, rfl, rfl, rfl, rfl, rfl, rfl, rfl, rfl, rfl, rfl⟩

/-- `State.setHead` leaves every field but `portA`, `portB`. -/
@[simp] theorem State.setHead_frame (s : State) (p : Port) (st : Stage) :
    (s.setHead p st).ia = s.ia ∧ (s.setHead p st).fwd = s.fwd ∧ (s.setHead p st).ma = s.ma ∧
    (s.setHead p st).layout = s.layout ∧ (s.setHead p st).gu = s.gu ∧ (s.setHead p st).bu = s.bu ∧
    (s.setHead p st).ru = s.ru ∧ (s.setHead p st).qu = s.qu ∧ (s.setHead p st).icu = s.icu ∧
    (s.setHead p st).cu = s.cu ∧ (s.setHead p st).eu = s.eu ∧ (s.setHead p st).dram = s.dram ∧
    (s.setHead p st).pending = s.pending := by
  cases p <;> exact ⟨rfl, rfl, rfl, rfl, rfl, rfl, rfl, rfl, rfl, rfl, rfl, rfl, rfl⟩

/-- `State.setOldest` leaves every field but `portA`, `portB`. -/
@[simp] theorem State.setOldest_frame (s : State) (p : Port) (f : Stage → Bool) (st : Outstanding → Stage) :
    (s.setOldest p f st).ia = s.ia ∧ (s.setOldest p f st).fwd = s.fwd ∧ (s.setOldest p f st).ma = s.ma ∧
    (s.setOldest p f st).layout = s.layout ∧ (s.setOldest p f st).gu = s.gu ∧ (s.setOldest p f st).bu = s.bu ∧
    (s.setOldest p f st).ru = s.ru ∧ (s.setOldest p f st).qu = s.qu ∧ (s.setOldest p f st).icu = s.icu ∧
    (s.setOldest p f st).cu = s.cu ∧ (s.setOldest p f st).eu = s.eu ∧ (s.setOldest p f st).dram = s.dram ∧
    (s.setOldest p f st).pending = s.pending := by
  cases p <;> exact ⟨rfl, rfl, rfl, rfl, rfl, rfl, rfl, rfl, rfl, rfl, rfl, rfl, rfl⟩

/-- `State.answerPort` leaves every field but `portA`, `portB`. -/
@[simp] theorem State.answerPort_frame (s : State) (p : Port) (f : Fin 8 → Stage) :
    (s.answerPort p f).ia = s.ia ∧ (s.answerPort p f).fwd = s.fwd ∧ (s.answerPort p f).ma = s.ma ∧
    (s.answerPort p f).layout = s.layout ∧ (s.answerPort p f).gu = s.gu ∧ (s.answerPort p f).bu = s.bu ∧
    (s.answerPort p f).ru = s.ru ∧ (s.answerPort p f).qu = s.qu ∧ (s.answerPort p f).icu = s.icu ∧
    (s.answerPort p f).cu = s.cu ∧ (s.answerPort p f).eu = s.eu ∧ (s.answerPort p f).dram = s.dram ∧
    (s.answerPort p f).pending = s.pending := by
  cases p <;> exact ⟨rfl, rfl, rfl, rfl, rfl, rfl, rfl, rfl, rfl, rfl, rfl, rfl, rfl⟩

/-- `State.takeNext` leaves every field but `ma`, `icu`. -/
@[simp] theorem State.takeNext_frame (s : State) :
    (s.takeNext).portA = s.portA ∧ (s.takeNext).portB = s.portB ∧ (s.takeNext).ia = s.ia ∧
    (s.takeNext).fwd = s.fwd ∧ (s.takeNext).layout = s.layout ∧ (s.takeNext).gu = s.gu ∧
    (s.takeNext).bu = s.bu ∧ (s.takeNext).ru = s.ru ∧ (s.takeNext).qu = s.qu ∧ (s.takeNext).cu = s.cu ∧
    (s.takeNext).eu = s.eu ∧ (s.takeNext).dram = s.dram ∧ (s.takeNext).pending = s.pending := by
  unfold State.takeNext; (repeat' split) <;> exact ⟨rfl, rfl, rfl, rfl, rfl, rfl, rfl, rfl, rfl, rfl, rfl, rfl, rfl⟩

/-- `State.joinCq` leaves every field but `ma`, `icu`. -/
@[simp] theorem State.joinCq_frame (s : State) (e : CqEntry) :
    (s.joinCq e).portA = s.portA ∧ (s.joinCq e).portB = s.portB ∧ (s.joinCq e).ia = s.ia ∧
    (s.joinCq e).fwd = s.fwd ∧ (s.joinCq e).layout = s.layout ∧ (s.joinCq e).gu = s.gu ∧
    (s.joinCq e).bu = s.bu ∧ (s.joinCq e).ru = s.ru ∧ (s.joinCq e).qu = s.qu ∧ (s.joinCq e).cu = s.cu ∧
    (s.joinCq e).eu = s.eu ∧ (s.joinCq e).dram = s.dram ∧ (s.joinCq e).pending = s.pending := by
  simp [State.joinCq]

/-- `State.kickImages` leaves every field but `ma`, `bu`, `cu`. -/
@[simp] theorem State.kickImages_frame (s : State) :
    (s.kickImages).portA = s.portA ∧ (s.kickImages).portB = s.portB ∧ (s.kickImages).ia = s.ia ∧
    (s.kickImages).fwd = s.fwd ∧ (s.kickImages).layout = s.layout ∧
    (s.kickImages).gu = s.gu ∧ (s.kickImages).ru = s.ru ∧ (s.kickImages).qu = s.qu ∧ (s.kickImages).icu = s.icu ∧
    (s.kickImages).eu = s.eu ∧ (s.kickImages).dram = s.dram ∧ (s.kickImages).pending = s.pending := by
  unfold State.kickImages; (repeat' split) <;> exact ⟨rfl, rfl, rfl, rfl, rfl, rfl, rfl, rfl, rfl, rfl, rfl, rfl⟩

/-- `State.changeBin` leaves every field but `ma`, `bu`, `cu`. -/
@[simp] theorem State.changeBin_frame (s : State) (b : Nat) (f : Bin → Bin) :
    (s.changeBin b f).portA = s.portA ∧ (s.changeBin b f).portB = s.portB ∧ (s.changeBin b f).ia = s.ia ∧
    (s.changeBin b f).fwd = s.fwd ∧ (s.changeBin b f).layout = s.layout ∧
    (s.changeBin b f).gu = s.gu ∧ (s.changeBin b f).ru = s.ru ∧ (s.changeBin b f).qu = s.qu ∧
    (s.changeBin b f).icu = s.icu ∧ (s.changeBin b f).eu = s.eu ∧ (s.changeBin b f).dram = s.dram ∧
    (s.changeBin b f).pending = s.pending := by
  simp [State.changeBin]

/-- `State.kickQu` leaves every field but `ma`, `qu`. -/
@[simp] theorem State.kickQu_frame (s : State) :
    (s.kickQu).portA = s.portA ∧ (s.kickQu).portB = s.portB ∧ (s.kickQu).ia = s.ia ∧ (s.kickQu).fwd = s.fwd ∧
    (s.kickQu).layout = s.layout ∧ (s.kickQu).gu = s.gu ∧ (s.kickQu).bu = s.bu ∧
    (s.kickQu).ru = s.ru ∧ (s.kickQu).icu = s.icu ∧ (s.kickQu).cu = s.cu ∧ (s.kickQu).eu = s.eu ∧
    (s.kickQu).dram = s.dram ∧ (s.kickQu).pending = s.pending := by
  unfold State.kickQu; (repeat' split) <;> exact ⟨rfl, rfl, rfl, rfl, rfl, rfl, rfl, rfl, rfl, rfl, rfl, rfl, rfl⟩

/-- `State.joinQu` leaves every field but `ma`, `qu`. -/
@[simp] theorem State.joinQu_frame (s : State) (i : QuItem) :
    (s.joinQu i).portA = s.portA ∧ (s.joinQu i).portB = s.portB ∧ (s.joinQu i).ia = s.ia ∧
    (s.joinQu i).fwd = s.fwd ∧ (s.joinQu i).layout = s.layout ∧ (s.joinQu i).gu = s.gu ∧
    (s.joinQu i).bu = s.bu ∧ (s.joinQu i).ru = s.ru ∧ (s.joinQu i).icu = s.icu ∧ (s.joinQu i).cu = s.cu ∧
    (s.joinQu i).eu = s.eu ∧ (s.joinQu i).dram = s.dram ∧ (s.joinQu i).pending = s.pending := by
  simp [State.joinQu]

/-- `State.protect` leaves every field but `eu`. -/
@[simp] theorem State.protect_frame (s : State) (all kept : Cells) :
    (s.protect all kept).portA = s.portA ∧ (s.protect all kept).portB = s.portB ∧ (s.protect all kept).ia = s.ia ∧
    (s.protect all kept).fwd = s.fwd ∧ (s.protect all kept).ma = s.ma ∧ (s.protect all kept).layout = s.layout ∧
    (s.protect all kept).gu = s.gu ∧ (s.protect all kept).bu = s.bu ∧ (s.protect all kept).ru = s.ru ∧
    (s.protect all kept).qu = s.qu ∧ (s.protect all kept).icu = s.icu ∧ (s.protect all kept).cu = s.cu ∧
    (s.protect all kept).dram = s.dram ∧ (s.protect all kept).pending = s.pending := by
  unfold State.protect; (repeat' split) <;> exact ⟨rfl, rfl, rfl, rfl, rfl, rfl, rfl, rfl, rfl, rfl, rfl, rfl, rfl, rfl⟩

/-- `State.takeEnable` leaves every field but `eu`. -/
@[simp] theorem State.takeEnable_frame (s : State) (cells : Cells) (a : WriteAnswer) :
    (s.takeEnable cells a).portA = s.portA ∧ (s.takeEnable cells a).portB = s.portB ∧
    (s.takeEnable cells a).ia = s.ia ∧ (s.takeEnable cells a).fwd = s.fwd ∧ (s.takeEnable cells a).ma = s.ma ∧
    (s.takeEnable cells a).layout = s.layout ∧ (s.takeEnable cells a).gu = s.gu ∧
    (s.takeEnable cells a).bu = s.bu ∧ (s.takeEnable cells a).ru = s.ru ∧ (s.takeEnable cells a).qu = s.qu ∧
    (s.takeEnable cells a).icu = s.icu ∧ (s.takeEnable cells a).cu = s.cu ∧ (s.takeEnable cells a).dram = s.dram ∧
    (s.takeEnable cells a).pending = s.pending := by
  unfold State.takeEnable; (repeat' split) <;> exact ⟨rfl, rfl, rfl, rfl, rfl, rfl, rfl, rfl, rfl, rfl, rfl, rfl, rfl, rfl⟩

/-- `State.askOwn` sets `ma` alone. -/
@[simp] theorem State.askOwn_frame (s : State) (r : OwnReq) :
    (s.askOwn r).portA = s.portA ∧ (s.askOwn r).portB = s.portB ∧ (s.askOwn r).ia = s.ia ∧ (s.askOwn r).fwd = s.fwd ∧
    (s.askOwn r).layout = s.layout ∧ (s.askOwn r).gu = s.gu ∧ (s.askOwn r).bu = s.bu ∧ (s.askOwn r).ru = s.ru ∧
    (s.askOwn r).qu = s.qu ∧ (s.askOwn r).icu = s.icu ∧ (s.askOwn r).cu = s.cu ∧ (s.askOwn r).eu = s.eu ∧
    (s.askOwn r).dram = s.dram ∧ (s.askOwn r).pending = s.pending ∧ (s.askOwn r).ma = s.ma.ask r := by
  exact ⟨rfl, rfl, rfl, rfl, rfl, rfl, rfl, rfl, rfl, rfl, rfl, rfl, rfl, rfl, rfl⟩

/-- `State.grantOwn` sets `ma` alone. -/
@[simp] theorem State.grantOwn_frame (s : State) (r : OwnReq) :
    (s.grantOwn r).portA = s.portA ∧ (s.grantOwn r).portB = s.portB ∧ (s.grantOwn r).ia = s.ia ∧
    (s.grantOwn r).fwd = s.fwd ∧ (s.grantOwn r).layout = s.layout ∧ (s.grantOwn r).gu = s.gu ∧
    (s.grantOwn r).bu = s.bu ∧ (s.grantOwn r).ru = s.ru ∧ (s.grantOwn r).qu = s.qu ∧ (s.grantOwn r).icu = s.icu ∧
    (s.grantOwn r).cu = s.cu ∧ (s.grantOwn r).eu = s.eu ∧ (s.grantOwn r).dram = s.dram ∧
    (s.grantOwn r).pending = s.pending ∧ (s.grantOwn r).ma = s.ma.grantOwn s.finds s.fwd.length r := by
  exact ⟨rfl, rfl, rfl, rfl, rfl, rfl, rfl, rfl, rfl, rfl, rfl, rfl, rfl, rfl, rfl⟩

/-- `State.ownRead` sets `ma` alone. -/
@[simp] theorem State.ownRead_frame (s : State) (r : OwnReq) :
    (s.ownRead r).portA = s.portA ∧ (s.ownRead r).portB = s.portB ∧ (s.ownRead r).ia = s.ia ∧
    (s.ownRead r).fwd = s.fwd ∧ (s.ownRead r).layout = s.layout ∧ (s.ownRead r).gu = s.gu ∧
    (s.ownRead r).bu = s.bu ∧ (s.ownRead r).ru = s.ru ∧ (s.ownRead r).qu = s.qu ∧ (s.ownRead r).icu = s.icu ∧
    (s.ownRead r).cu = s.cu ∧ (s.ownRead r).eu = s.eu ∧ (s.ownRead r).dram = s.dram ∧
    (s.ownRead r).pending = s.pending ∧
    (s.ownRead r).ma = (s.ma.grantOwn s.finds s.fwd.length r).answerRead r := by
  exact ⟨rfl, rfl, rfl, rfl, rfl, rfl, rfl, rfl, rfl, rfl, rfl, rfl, rfl, rfl, rfl⟩

/-- `State.fetched` sets `ma` alone. -/
@[simp] theorem State.fetched_frame (s : State) :
    (s.fetched).portA = s.portA ∧ (s.fetched).portB = s.portB ∧ (s.fetched).ia = s.ia ∧ (s.fetched).fwd = s.fwd ∧
    (s.fetched).layout = s.layout ∧ (s.fetched).gu = s.gu ∧ (s.fetched).bu = s.bu ∧ (s.fetched).ru = s.ru ∧
    (s.fetched).qu = s.qu ∧ (s.fetched).icu = s.icu ∧ (s.fetched).cu = s.cu ∧ (s.fetched).eu = s.eu ∧
    (s.fetched).dram = s.dram ∧ (s.fetched).pending = s.pending ∧
    (s.fetched).ma = (s.ma.grantOwn s.finds s.fwd.length .fetch).answerRead .fetch := by
  exact ⟨rfl, rfl, rfl, rfl, rfl, rfl, rfl, rfl, rfl, rfl, rfl, rfl, rfl, rfl, rfl⟩

/-- `State.mailboxFetched` sets `ma` alone. -/
@[simp] theorem State.mailboxFetched_frame (s : State) :
    (s.mailboxFetched).portA = s.portA ∧ (s.mailboxFetched).portB = s.portB ∧ (s.mailboxFetched).ia = s.ia ∧
    (s.mailboxFetched).fwd = s.fwd ∧ (s.mailboxFetched).layout = s.layout ∧ (s.mailboxFetched).gu = s.gu ∧
    (s.mailboxFetched).bu = s.bu ∧ (s.mailboxFetched).ru = s.ru ∧ (s.mailboxFetched).qu = s.qu ∧
    (s.mailboxFetched).icu = s.icu ∧ (s.mailboxFetched).cu = s.cu ∧ (s.mailboxFetched).eu = s.eu ∧
    (s.mailboxFetched).dram = s.dram ∧ (s.mailboxFetched).pending = s.pending ∧
    (s.mailboxFetched).ma = (s.ma.grantOwn s.finds s.fwd.length .cuRead).answerRead .cuRead := by
  exact ⟨rfl, rfl, rfl, rfl, rfl, rfl, rfl, rfl, rfl, rfl, rfl, rfl, rfl, rfl, rfl⟩

/-- `State.cuRead` sets `ma` alone. -/
@[simp] theorem State.cuRead_frame (s : State) :
    (s.cuRead).portA = s.portA ∧ (s.cuRead).portB = s.portB ∧ (s.cuRead).ia = s.ia ∧ (s.cuRead).fwd = s.fwd ∧
    (s.cuRead).layout = s.layout ∧ (s.cuRead).gu = s.gu ∧ (s.cuRead).bu = s.bu ∧ (s.cuRead).ru = s.ru ∧
    (s.cuRead).qu = s.qu ∧ (s.cuRead).icu = s.icu ∧ (s.cuRead).cu = s.cu ∧ (s.cuRead).eu = s.eu ∧
    (s.cuRead).dram = s.dram ∧ (s.cuRead).pending = s.pending ∧
    (s.cuRead).ma = ((s.ma.ask .cuRead).grantOwn s.finds s.fwd.length .cuRead).answerRead .cuRead := by
  exact ⟨rfl, rfl, rfl, rfl, rfl, rfl, rfl, rfl, rfl, rfl, rfl, rfl, rfl, rfl, rfl⟩

/-- `State.answerPrior` sets `dram`, `ma` and the work of `cu`. -/
@[simp] theorem State.answerPrior_frame (s : State) :
    s.answerPrior.portA = s.portA ∧ s.answerPrior.portB = s.portB ∧ s.answerPrior.ia = s.ia ∧
    s.answerPrior.fwd = s.fwd ∧ s.answerPrior.layout = s.layout ∧ s.answerPrior.gu = s.gu ∧
    s.answerPrior.bu = s.bu ∧ s.answerPrior.ru = s.ru ∧ s.answerPrior.qu = s.qu ∧
    s.answerPrior.icu = s.icu ∧ s.answerPrior.eu = s.eu ∧ s.answerPrior.pending = s.pending ∧
    s.answerPrior.cu.mode = s.cu.mode ∧ s.answerPrior.cu.cbsel = s.cu.cbsel ∧
    s.answerPrior.cu.autoload = s.cu.autoload := by
  unfold State.answerPrior
  split
  · split <;> exact ⟨rfl, rfl, rfl, rfl, rfl, rfl, rfl, rfl, rfl, rfl, rfl, rfl, rfl, rfl, rfl⟩
  · exact ⟨rfl, rfl, rfl, rfl, rfl, rfl, rfl, rfl, rfl, rfl, rfl, rfl, rfl, rfl, rfl⟩

/-- With no write before the result write outstanding, `State.answerPrior` changes nothing. -/
@[simp] theorem State.answerPrior_of_none (s : State) (r : ResultWrite) (h : s.cu.work = .result r)
    (hp : r.prior = .nothing) : s.answerPrior = s := by
  unfold State.answerPrior; rw [h]; simp only [hp]

/-- `State.working` sets `cu` alone. -/
@[simp] theorem State.working_frame (s : State) (w : CuWork) :
    (s.working w).portA = s.portA ∧ (s.working w).portB = s.portB ∧ (s.working w).ia = s.ia ∧
    (s.working w).fwd = s.fwd ∧ (s.working w).ma = s.ma ∧ (s.working w).layout = s.layout ∧ (s.working w).gu = s.gu ∧
    (s.working w).bu = s.bu ∧ (s.working w).ru = s.ru ∧ (s.working w).qu = s.qu ∧ (s.working w).icu = s.icu ∧
    (s.working w).eu = s.eu ∧ (s.working w).dram = s.dram ∧ (s.working w).pending = s.pending ∧
    (s.working w).cu = { s.cu with work := w } := by
  exact ⟨rfl, rfl, rfl, rfl, rfl, rfl, rfl, rfl, rfl, rfl, rfl, rfl, rfl, rfl, rfl⟩

/-- `State.readParts` sets `ma` alone. -/
@[simp] theorem State.readParts_frame (k : Nat) (l : List ReadPart) (s : State) :
    (State.readParts k l s).2.portA = s.portA ∧ (State.readParts k l s).2.portB = s.portB ∧ (State.readParts k l s).2.ia = s.ia ∧
    (State.readParts k l s).2.fwd = s.fwd ∧ (State.readParts k l s).2.layout = s.layout ∧ (State.readParts k l s).2.gu = s.gu ∧
    (State.readParts k l s).2.bu = s.bu ∧ (State.readParts k l s).2.ru = s.ru ∧ (State.readParts k l s).2.qu = s.qu ∧
    (State.readParts k l s).2.icu = s.icu ∧ (State.readParts k l s).2.cu = s.cu ∧ (State.readParts k l s).2.eu = s.eu ∧
    (State.readParts k l s).2.dram = s.dram ∧ (State.readParts k l s).2.pending = s.pending := by
  induction l generalizing s with
  | nil => exact ⟨rfl, rfl, rfl, rfl, rfl, rfl, rfl, rfl, rfl, rfl, rfl, rfl, rfl, rfl⟩
  | cons x r ih =>
    cases x with
    | mem a n => exact ih (s.grantRead k)
    | synth b => exact ih s

/-- `State.answerParts` sets `ma` alone. -/
@[simp] theorem State.answerParts_frame (r : ReadReq) (l : List ReadPart) (k : Nat) (s : State) :
    (s.answerParts r l k).2.portA = s.portA ∧ (s.answerParts r l k).2.portB = s.portB ∧ (s.answerParts r l k).2.ia = s.ia ∧
    (s.answerParts r l k).2.fwd = s.fwd ∧ (s.answerParts r l k).2.layout = s.layout ∧ (s.answerParts r l k).2.gu = s.gu ∧
    (s.answerParts r l k).2.bu = s.bu ∧ (s.answerParts r l k).2.ru = s.ru ∧ (s.answerParts r l k).2.qu = s.qu ∧
    (s.answerParts r l k).2.icu = s.icu ∧ (s.answerParts r l k).2.cu = s.cu ∧ (s.answerParts r l k).2.eu = s.eu ∧
    (s.answerParts r l k).2.dram = s.dram ∧ (s.answerParts r l k).2.pending = s.pending :=
  State.readParts_frame k l s

/-- `State.serveTurn` leaves every field but `portA`, `portB`, `ma`. -/
@[simp] theorem State.serveTurn_frame (s : State) (t : Nat) (p : Port) :
    (s.serveTurn t p).ia = s.ia ∧ (s.serveTurn t p).fwd = s.fwd ∧ (s.serveTurn t p).layout = s.layout ∧
    (s.serveTurn t p).gu = s.gu ∧ (s.serveTurn t p).bu = s.bu ∧ (s.serveTurn t p).ru = s.ru ∧
    (s.serveTurn t p).qu = s.qu ∧ (s.serveTurn t p).icu = s.icu ∧ (s.serveTurn t p).cu = s.cu ∧
    (s.serveTurn t p).eu = s.eu ∧ (s.serveTurn t p).dram = s.dram ∧ (s.serveTurn t p).pending = s.pending := by
  unfold State.serveTurn; split <;> simp

/-- `State.serveTurns` leaves every field but `portA`, `portB`, `ma`. -/
@[simp] theorem State.serveTurns_frame (n : Nat) (s : State) :
    (s.serveTurns n).ia = s.ia ∧ (s.serveTurns n).fwd = s.fwd ∧ (s.serveTurns n).layout = s.layout ∧
    (s.serveTurns n).gu = s.gu ∧ (s.serveTurns n).bu = s.bu ∧ (s.serveTurns n).ru = s.ru ∧
    (s.serveTurns n).qu = s.qu ∧ (s.serveTurns n).icu = s.icu ∧ (s.serveTurns n).cu = s.cu ∧
    (s.serveTurns n).eu = s.eu ∧ (s.serveTurns n).dram = s.dram ∧ (s.serveTurns n).pending = s.pending := by
  induction n generalizing s with
  | zero => simp [State.serveTurns]
  | succ n ih => unfold State.serveTurns; split <;> simp [ih]

/-- `State.serveReads` leaves every field but `portA`, `portB`, `ma`. -/
@[simp] theorem State.serveReads_frame (s : State) :
    (s.serveReads).ia = s.ia ∧ (s.serveReads).fwd = s.fwd ∧ (s.serveReads).layout = s.layout ∧
    (s.serveReads).gu = s.gu ∧ (s.serveReads).bu = s.bu ∧ (s.serveReads).ru = s.ru ∧ (s.serveReads).qu = s.qu ∧
    (s.serveReads).icu = s.icu ∧ (s.serveReads).cu = s.cu ∧ (s.serveReads).eu = s.eu ∧ (s.serveReads).dram = s.dram ∧
    (s.serveReads).pending = s.pending := by
  simp [State.serveReads, State.countDown]

/-- `State.answerForward` leaves every field but `dram`, `ma`, `fwd`, `portA`, `portB`. -/
@[simp] theorem State.answerForward_frame (s : State) (cells : Cells) (a : WriteAnswer) :
    (s.answerForward cells a).ia = s.ia ∧ (s.answerForward cells a).layout = s.layout ∧
    (s.answerForward cells a).gu = s.gu ∧ (s.answerForward cells a).bu = s.bu ∧
    (s.answerForward cells a).ru = s.ru ∧ (s.answerForward cells a).qu = s.qu ∧
    (s.answerForward cells a).icu = s.icu ∧ (s.answerForward cells a).cu = s.cu ∧
    (s.answerForward cells a).eu = s.eu ∧ (s.answerForward cells a).pending = s.pending ∧
    (s.answerForward cells a).dram = (s.forwardedWrite cells a).dram ∧ (s.answerForward cells a).fwd = s.fwd.tail := by
  simp [State.answerForward]

end Sys2Proof.Machine
end

