-- ==== Sys2Proof/Laws/Arbiter.lean ====
section
/-! SUPPORT. What the memory arbiter's grants can do (R139, R140): they take the own side's requests oldest first,
    and never
grant more forwarded writes than there are. -/

namespace Sys2Proof.Machine

variable (mem : List Grant → Memory)

/-- A grant of the forwarded side counts one write more, and a grant of the own side none. -/
@[simp] theorem Arbiter.sent_grant (m : Arbiter) (x : Side) :
    (m.grant mem x).sent = m.sent + (if x = .forwarded then 1 else 0) := by
  cases x
  · simp [Arbiter.sent, Arbiter.grant]
  · have h : List.count Grant.forwarded (((m.own.take 1).filter (·.isWrite)).map Grant.own) = 0 := by
      rw [List.count_eq_zero]; simp
    simp [Arbiter.sent, Arbiter.grant, h]

@[simp] theorem Arbiter.own_grant (m : Arbiter) (x : Side) :
    (m.grant mem x).own = (if x = .forwarded then m.own else m.own.tail) := by cases x <;> rfl

@[simp] theorem Arbiter.last_grant (m : Arbiter) (x : Side) : (m.grant mem x).last = x := by cases x <;> rfl

/-- One grant takes the own side's oldest request or none, and counts a forwarded write only where one waits. -/
theorem Arbiter.grantNext_spec (n : Nat) (m : Arbiter) (h : m.sent ≤ n) :
    (m.grantNext mem n).sent ≤ n ∧ m.sent ≤ (m.grantNext mem n).sent ∧
    ((m.grantNext mem n).own = m.own ∨ (m.grantNext mem n).own = m.own.tail) := by
  unfold Arbiter.grantNext grantChoice Arbiter.offersWrite Arbiter.offersOwn
  by_cases h1 : m.sent < n <;> by_cases h2 : m.own.isEmpty = true <;> cases h3 : m.last <;>
    simp [h1, h2, otherSide] <;> omega

/-- A grant is made wherever a side offers: what waits becomes one less. -/
theorem Arbiter.grantNext_progress (n : Nat) (m : Arbiter) (h : m.sent < n ∨ m.own ≠ []) :
    (m.grantNext mem n).own.length + (n - (m.grantNext mem n).sent) + 1 = m.own.length + (n - m.sent) := by
  unfold Arbiter.grantNext grantChoice Arbiter.offersWrite Arbiter.offersOwn
  by_cases h1 : m.sent < n
  · cases h2 : m.own <;> cases h3 : m.last <;> simp [h1, h2, otherSide] <;> omega
  · cases h2 : m.own with
    | nil => exact absurd (h.resolve_right (fun k => k h2)) h1
    | cons a r => simp [h1, h2]; omega

/-- Any number of grants. -/
theorem Arbiter.grantUntil_spec (n : Nat) (done : Arbiter → Bool) (k : Nat) (m : Arbiter) (h : m.sent ≤ n) :
    (Arbiter.grantUntil mem n done k m).sent ≤ n ∧ m.sent ≤ (Arbiter.grantUntil mem n done k m).sent ∧
    ∃ j, (Arbiter.grantUntil mem n done k m).own = m.own.drop j := by
  induction k generalizing m with
  | zero => exact ⟨h, Nat.le_refl _, 0, rfl⟩
  | succ k ih =>
    unfold Arbiter.grantUntil
    split
    · exact ⟨h, Nat.le_refl _, 0, rfl⟩
    · have g := Arbiter.grantNext_spec mem n m h
      obtain ⟨h1, h2, j, h3⟩ := ih (m.grantNext mem n) g.1
      refine ⟨h1, Nat.le_trans g.2.1 h2, ?_⟩
      rcases g.2.2 with e | e
      · exact ⟨j, by rw [h3, e]⟩
      · exact ⟨j + 1, by rw [h3, e, ← List.drop_one, List.drop_drop, Nat.add_comm]⟩

/-- With grants enough for all that waits, the grants go on until `done`, where it holds once nothing waits. -/
theorem Arbiter.grantUntil_done (n : Nat) (done : Arbiter → Bool) (k : Nat) (m : Arbiter)
    (hk : m.own.length + (n - m.sent) ≤ k) (h : m.sent ≤ n)
    (hd : ∀ x : Arbiter, x.own = [] → x.sent = n → done x = true) : done (Arbiter.grantUntil mem n done k m) = true := by
  induction k generalizing m with
  | zero =>
    unfold Arbiter.grantUntil
    exact hd m (List.eq_nil_of_length_eq_zero (by omega)) (by omega)
  | succ k ih =>
    unfold Arbiter.grantUntil
    split
    · assumption
    · rename_i hn
      by_cases hw : m.sent < n ∨ m.own ≠ []
      · have p := Arbiter.grantNext_progress mem n m hw
        exact ih _ (by omega) (Arbiter.grantNext_spec mem n m h).1
      · rw [not_or, not_not] at hw
        exact absurd (hd m hw.2 (by omega)) (by simpa using hn)

/-- A request of the own side that has been granted waits no longer, and the requests that still wait are the younger
    ones. -/
theorem Arbiter.grantOwn_spec (n : Nat) (r : OwnReq) (m : Arbiter) (h : m.sent ≤ n) :
    (m.grantOwn mem n r).sent ≤ n ∧ r ∉ (m.grantOwn mem n r).own ∧ (∃ j, (m.grantOwn mem n r).own = m.own.drop j) ∧
    (r ∉ m.own → m.grantOwn mem n r = m) := by
  have g := Arbiter.grantUntil_spec mem n (fun x => !x.own.contains r) (m.waiting n) m h
  have d := Arbiter.grantUntil_done mem n (fun x => !x.own.contains r) (m.waiting n) m (by unfold Arbiter.waiting; omega)
      h
    (by intro x hx _; simp [hx])
  refine ⟨g.1, by simpa [Arbiter.grantOwn] using d, g.2.2, ?_⟩
  intro hr
  unfold Arbiter.grantOwn
  cases m.waiting n with
  | zero => rfl
  | succ k => unfold Arbiter.grantUntil; rw [if_pos (by simpa using hr)]

/-! ## Answers to writes (R141) -/

theorem count_dropDone (l : List Grant) : (dropDone l).count .forwarded = l.count .forwarded := by
  induction l with
  | nil => rfl
  | cons x r ih => cases x <;> simp [dropDone, ih]

theorem count_markDone (g : Grant) (cells : Cells) (l : List Grant) :
    (markDone g cells l).count .forwarded = l.count .forwarded - (if g = .forwarded then 1 else 0) := by
  induction l with
  | nil => simp [markDone]
  | cons x r ih =>
    unfold markDone
    by_cases h : x = g
    · subst h
      by_cases hx : x = .forwarded <;> simp [hx]
    · rw [if_neg h]
      by_cases hx : x = .forwarded
      · subst hx
        have hg : g ≠ .forwarded := fun e => h e.symm
        simp [ih, hg]
      · simp [ih, hx]

/-- An answer to a forwarded write counts one grant less, and an answer to a write of the part none. -/
theorem Arbiter.sent_answer (g : Grant) (cells : Cells) (m : Arbiter) :
    (m.answer g cells).sent = m.sent - (if g = .forwarded then 1 else 0) := by
  unfold Arbiter.sent Arbiter.answer
  rw [count_dropDone, count_markDone]

@[simp] theorem Arbiter.own_answer (g : Grant) (cells : Cells) (m : Arbiter) : (m.answer g cells).own = m.own := rfl

@[simp] theorem Arbiter.last_answer (g : Grant) (cells : Cells) (m : Arbiter) : (m.answer g cells).last = m.last := rfl

/-- The answer to the oldest forwarded write counts one grant less, and no more grants than the writes that are left. -/
theorem Arbiter.sent_answer_grantWrite (n : Nat) (cells : Cells) (m : Arbiter) (h : m.sent ≤ n) :
    ((m.grantWrite mem n).answer .forwarded cells).sent ≤ n - 1 := by
  have g := Arbiter.grantUntil_spec mem n (fun x => decide (0 < x.sent)) (m.waiting n) m h
  rw [Arbiter.sent_answer, if_pos rfl]
  show (Arbiter.grantUntil mem n _ _ m).sent - 1 ≤ n - 1
  have := g.1
  omega

/-- With no write that was granted later and answered, a write's bytes reach DRAM as they are. -/
@[simp] theorem Memory.setUnder_nil (d : Memory) (cells : Cells) : Memory.setUnder [] d cells = Memory.writeCells d cells := by
  unfold Memory.setUnder
  rw [List.filter_eq_self.mpr]
  simp

/-- A forwarded read is granted behind the `n` oldest forwarded writes and grants no younger one (R139), and the own side
has been granted requests oldest first. -/
theorem Arbiter.grantRead_spec (n : Nat) (m : Arbiter) :
    (m.grantRead mem n).sent = max m.sent n ∧ (m.grantRead mem n).last = .forwarded ∧
    ∃ j, (m.grantRead mem n).own = m.own.drop j := by
  have key : (Arbiter.grantUntil mem n (fun x => !x.offersWrite n) (m.waiting n) m).sent = max m.sent n ∧
      ∃ j, (Arbiter.grantUntil mem n (fun x => !x.offersWrite n) (m.waiting n) m).own = m.own.drop j := by
    by_cases h : m.sent ≤ n
    · obtain ⟨g1, _, j, g3⟩ := Arbiter.grantUntil_spec mem n (fun x => !x.offersWrite n) (m.waiting n) m h
      have d := Arbiter.grantUntil_done mem n (fun x => !x.offersWrite n) (m.waiting n) m (by unfold Arbiter.waiting; omega) h
        (by intro x _ hx; simp [Arbiter.offersWrite, hx])
      have d' := of_decide_eq_false (Bool.not_eq_true' _ |>.mp d)
      exact ⟨by omega, j, g3⟩
    · have e : ∀ k, Arbiter.grantUntil mem n (fun x => !x.offersWrite n) k m = m := by
        intro k
        cases k with
        | zero => rfl
        | succ k =>
          unfold Arbiter.grantUntil
          rw [if_pos (by simpa [Arbiter.offersWrite] using Nat.le_of_lt (Nat.lt_of_not_le h))]
      rw [e]
      exact ⟨by omega, 0, rfl⟩
  obtain ⟨g1, j, g3⟩ := key
  unfold Arbiter.grantRead
  simp only
  split
  · refine ⟨?_, rfl, j + 1, ?_⟩
    · show ((Arbiter.grant mem _ .own).sent) = _
      rw [Arbiter.sent_grant]; simpa using g1
    · show (Arbiter.grant mem _ .own).own = _
      rw [Arbiter.own_grant, if_neg (by decide), g3, ← List.drop_one, List.drop_drop, Nat.add_comm]
  · exact ⟨g1, rfl, j, g3⟩

/-! ## Memory as a read finds it (R141) -/

/-- The grants made are the first that bring about what they are made for. -/
theorem Arbiter.grantUntil_iterate (n : Nat) (done : Arbiter → Bool) (k : Nat) (m : Arbiter) :
    ∃ i, i ≤ k ∧ Arbiter.grantUntil mem n done k m = (Arbiter.grantNext mem n)^[i] m ∧
      (∀ j, j < i → done ((Arbiter.grantNext mem n)^[j] m) = false) := by
  induction k generalizing m with
  | zero => exact ⟨0, le_refl _, rfl, fun j hj => by omega⟩
  | succ k ih =>
    unfold Arbiter.grantUntil
    by_cases h : done m = true
    · rw [if_pos h]; exact ⟨0, by omega, rfl, fun j hj => by omega⟩
    · rw [if_neg h]
      obtain ⟨i, h1, h2, h3⟩ := ih (m.grantNext mem n)
      refine ⟨i + 1, by omega, by rw [h2]; rfl, fun j hj => ?_⟩
      cases j with
      | zero => simpa using h
      | succ j => exact h3 j (by omega)

/-! ## The part's own writes (R139, R144) -/

/-- An answer to a write of the part grants no more forwarded writes than there are. -/
theorem State.sent_ownWrite (r : OwnReq) (cells : Cells) (a : WriteAnswer) (s : State) (h : s.ma.sent ≤ s.fwd.length) :
    (s.ownWrite r cells a).ma.sent ≤ s.fwd.length := by
  show (Arbiter.answer _ _ (s.ma.grantOwn s.finds s.fwd.length r)).sent ≤ _
  rw [Arbiter.sent_answer, if_neg (by simp)]
  exact (Arbiter.grantOwn_spec s.finds s.fwd.length r s.ma h).1

/-- With no answered write in an order none has overtaken another (R141). -/
theorem laterCells_of_no_done (g : Grant) (l : List Grant) (h : ∀ c, Grant.done c ∉ l) : laterCells g l = [] := by
  have dn : ∀ l : List Grant, (∀ c, Grant.done c ∉ l) → doneCells l = [] := by
    intro l; induction l with
    | nil => intro _; rfl
    | cons x r ih => intro h; cases x with
      | done c => exact absurd (List.mem_cons_self ..) (h c)
      | _ => exact ih (fun c hc => h c (List.mem_cons_of_mem _ hc))
  induction l with
  | nil => rfl
  | cons x r ih =>
    unfold laterCells
    split
    · exact dn r (fun c hc => h c (List.mem_cons_of_mem _ hc))
    · exact ih (fun c hc => h c (List.mem_cons_of_mem _ hc))

/-- A write that is in no order has been overtaken by none (R141). -/
theorem laterCells_of_not_mem (g : Grant) (l : List Grant) (h : g ∉ l) : laterCells g l = [] := by
  induction l with
  | nil => rfl
  | cons x r ih =>
    simp only [List.mem_cons, not_or] at h
    unfold laterCells
    rw [if_neg (fun e => h.1 e.symm), ih h.2]

/-- The bytes that the answered writes of an order have set (R141). -/
theorem mem_doneCells (l : List Grant) (k : Host.Cell) : k ∈ doneCells l ↔ ∃ c, Grant.done c ∈ l ∧ k ∈ c := by
  induction l with
  | nil => simp [doneCells]
  | cons x r ih =>
    cases x with
    | done c => simp only [doneCells, List.mem_append, ih, List.mem_cons]
                constructor
                · rintro (h | ⟨d, h1, h2⟩)
                  · exact ⟨c, Or.inl rfl, h⟩
                  · exact ⟨d, Or.inr h1, h2⟩
                · rintro ⟨d, h1 | h1, h2⟩
                  · injection h1 with h1; subst h1; exact Or.inl h2
                  · exact Or.inr ⟨d, h1, h2⟩
    | _ => simp [doneCells, ih]

/-- The answered writes behind a write in an order have overtaken it (R141). -/
theorem laterCells_at (g : Grant) (l r : List Grant) (h : g ∉ l) : laterCells g (l ++ g :: r) = doneCells r := by
  induction l with
  | nil => simp [laterCells]
  | cons x l ih =>
    simp only [List.mem_cons, not_or] at h
    rw [List.cons_append]; unfold laterCells
    rw [if_neg (fun e => h.1 e.symm), ih h.2]

/-- A write that is answered stands at its place in the order with its bytes (R141). -/
theorem markDone_at (g : Grant) (c : Cells) (l r : List Grant) (h : g ∉ l) :
    markDone g c (l ++ g :: r) = l ++ .done c :: r := by
  induction l with
  | nil => simp [markDone]
  | cons x l ih =>
    simp only [List.mem_cons, not_or] at h
    rw [List.cons_append]; unfold markDone
    rw [if_neg (fun e => h.1 e.symm), ih h.2]; rfl

/-- A write that is in no order leaves it as it is when it is answered. -/
theorem markDone_of_not_mem (g : Grant) (c : Cells) (l : List Grant) (h : g ∉ l) : markDone g c l = l := by
  induction l with
  | nil => rfl
  | cons x l ih =>
    simp only [List.mem_cons, not_or] at h
    unfold markDone
    rw [if_neg (fun e => h.1 e.symm), ih h.2]

/-- An order goes on from its oldest unanswered write, and loses answered ones alone (R141). -/
theorem dropDone_spec (l : List Grant) :
    (∀ c, (dropDone l).head? ≠ some (.done c)) ∧ ∃ x, l = x ++ dropDone l ∧ ∀ y ∈ x, ∃ c, y = .done c := by
  induction l with
  | nil => exact ⟨by simp [dropDone], [], rfl, by simp⟩
  | cons a r ih =>
    cases a with
    | done c =>
      obtain ⟨h1, x, h2, h3⟩ := ih
      refine ⟨h1, .done c :: x, ?_, ?_⟩
      · show _ = .done c :: (x ++ dropDone r); rw [← h2]
      · intro y hy; rcases List.mem_cons.mp hy with rfl | hy
        · exact ⟨c, rfl⟩
        · exact h3 y hy
    | _ => exact ⟨by simp [dropDone], [], rfl, by simp⟩

/-- The one request of the own side, granted, leaves the side empty (R139, R140). -/
theorem Arbiter.grantOwn_single (n : Nat) (r : OwnReq) (m : Arbiter) (h : m.own = [r]) :
    (m.grantOwn mem n r).own = [] := by
  by_cases hs : m.sent ≤ n
  · have g := (Arbiter.grantOwn_spec mem n r m hs)
    obtain ⟨j, hj⟩ := g.2.2.1
    have hr := g.2.1
    rw [hj, h] at hr ⊢
    cases j with
    | zero => simp at hr
    | succ j => simp
  · have e : m.waiting n = n + 1 := by simp [Arbiter.waiting, h]; omega
    unfold Arbiter.grantOwn
    rw [e]
    unfold Arbiter.grantUntil
    rw [if_neg (by simp [h])]
    have e2 : (m.grantNext mem n).own = [] := by
      unfold Arbiter.grantNext Arbiter.offersWrite Arbiter.offersOwn
      have : ¬ m.sent < n := by omega
      simp [this, h, grantChoice, Arbiter.grant]
    cases n with
    | zero => exact e2
    | succ n => unfold Arbiter.grantUntil; rw [if_pos (by simp [e2])]; exact e2

/-- What a change of DRAM and of the memory arbiter alone keeps: the canonical form, and no more grants than writes. -/
def State.memoryOnly (s t : State) : Prop :=
  ∃ d m, t = { s with dram := d, ma := m } ∧ (Memory.wf s.dram = true → Memory.wf d = true) ∧
    (s.ma.sent ≤ s.fwd.length → m.sent ≤ s.fwd.length)

theorem State.memoryOnly_trans {s t u : State} (h : s.memoryOnly t) (k : t.memoryOnly u) : s.memoryOnly u := by
  obtain ⟨d, m, rfl, h1, h2⟩ := h
  obtain ⟨e, n, rfl, k1, k2⟩ := k
  exact ⟨e, n, rfl, fun x => k1 (h1 x), fun x => k2 (h2 x)⟩

theorem State.memoryOnly_ifGranted (r : OwnReq) (cells : Cells) (a : WriteAnswer) (s : State) :
    s.memoryOnly (s.ifGranted r cells a) := by
  unfold State.ifGranted
  split
  · exact ⟨_, _, rfl, Memory.wf_setUnder _ _ _, State.sent_ownWrite r cells a s⟩
  · exact ⟨_, _, rfl, id, id⟩

/-- The writes outstanding at a halt change DRAM and the memory arbiter alone (R144). -/
theorem State.endWrites_spec (c : HaltCause) (h : HaltAnswers) (s : State) : s.memoryOnly (s.endWrites c h) := by
  unfold State.endWrites
  refine State.memoryOnly_trans ?_ (State.memoryOnly_trans (State.memoryOnly_ifGranted ..) (State.memoryOnly_trans
    (State.memoryOnly_ifGranted ..) (State.memoryOnly_trans (State.memoryOnly_ifGranted ..) (State.memoryOnly_trans
    (State.memoryOnly_ifGranted ..) (State.memoryOnly_ifGranted ..)))))
  refine ⟨s.dram, _, rfl, id, fun hs => ?_⟩
  have k : (s.toGrant c).sent = s.ma.sent := by unfold State.toGrant; split <;> rfl
  exact (Arbiter.grantUntil_spec s.finds s.fwd.length _ _ (s.toGrant c) (by rw [k]; exact hs)).1

/-- Grants answer nothing. -/
theorem Arbiter.done_grantUntil (n : Nat) (done : Arbiter → Bool) (k : Nat) (m : Arbiter) (c : Cells) :
    Grant.done c ∈ (Arbiter.grantUntil mem n done k m).order ↔ Grant.done c ∈ m.order := by
  induction k generalizing m with
  | zero => exact Iff.rfl
  | succ k ih =>
    unfold Arbiter.grantUntil
    split
    · exact Iff.rfl
    · rw [ih]
      unfold Arbiter.grantNext
      split
      · rename_i x _
        cases x <;> simp [Arbiter.grant]
      · exact Iff.rfl

/-- Where the part has no write outstanding and none has overtaken another, a read finds beside DRAM's bytes those of forwarded
writes. -/
theorem mem_orderCells {own : OwnReq → Cells} (ho : ∀ r, own r = []) {l : List Grant} (hl : ∀ c, Grant.done c ∉ l)
    (fwd : List FwdWrite) (c : Host.Cell) (h : c ∈ orderCells own fwd l) : ∃ w ∈ fwd, c ∈ w.cells := by
  induction l generalizing fwd with
  | nil => cases fwd <;> simp [orderCells] at h
  | cons g r ih =>
    have hr : ∀ c, Grant.done c ∉ r := fun c k => hl c (List.mem_cons_of_mem _ k)
    cases g with
    | forwarded =>
      cases fwd with
      | nil => simpa using ih hr [] (by simpa [orderCells] using h)
      | cons w f =>
        rcases List.mem_append.mp (by simpa [orderCells] using h) with k | k
        · exact ⟨w, List.mem_cons_self .., k⟩
        · obtain ⟨x, hx, hc⟩ := ih hr f k
          exact ⟨x, List.mem_cons_of_mem _ hx, hc⟩
    | own q => exact ih hr fwd (by cases fwd <;> simpa [orderCells, ho q] using h)
    | done x => exact absurd (List.mem_cons_self ..) (hl x)

/-- With no write granted and unanswered, memory is DRAM. -/
@[simp] theorem State.finds_nil (s : State) : s.finds [] = s.dram := by unfold State.finds; cases s.fwd <;> rfl

/-- With no write granted and unanswered, a read finds DRAM. -/
theorem State.memory_of_none (s : State) (h : s.ma.order = []) : s.memory = s.dram := by
  unfold State.memory; rw [h]; exact State.finds_nil s

/-! ## The part's reads (R141) -/

@[simp] theorem Arbiter.found?_nil (r : OwnReq) (m : Arbiter) : ({ m with found := [] } : Arbiter).found? r = none := rfl

@[simp] theorem Arbiter.found?_cons (r q : OwnReq) (d : Memory) (m : Arbiter) :
    ({ m with found := (q, d) :: m.found } : Arbiter).found? r = (if q = r then some d else m.found? r) := by
  unfold Arbiter.found?
  by_cases h : q = r
  · simp [h]
  · simp [h]

/-- An answered read is among those granted no longer, and the others stand as they were. -/
@[simp] theorem Arbiter.found?_answerRead (r q : OwnReq) (m : Arbiter) :
    (m.answerRead q).found? r = (if q = r then none else m.found? r) := by
  unfold Arbiter.found? Arbiter.answerRead
  simp only [List.find?_filter]
  by_cases h : q = r
  · subst h
    rw [if_pos rfl, Option.map_eq_none_iff, List.find?_eq_none]
    intro x _; simp
  · rw [if_neg h]
    congr 2
    funext x
    by_cases hx : x.1 = r
    · have : ¬ r = q := fun e => h e.symm
      simp [hx, this]
    · simp [hx]

/-- A read that has been granted returns memory as its grant found it, whatever was granted and performed since (R141). -/
theorem State.readBy_of_found (r : OwnReq) (s : State) (d : Memory) (hs : s.ma.sent ≤ s.fwd.length) (h : r ∉ s.ma.own)
    (hf : s.ma.found? r = some d) : s.readBy r = d := by
  unfold State.readBy
  have e : (s.grantOwn r).ma = s.ma := (Arbiter.grantOwn_spec s.finds s.fwd.length r s.ma hs).2.2.2 h
  rw [e, hf]; rfl

/-- One grant that leaves a read waiting finds no memory for it, and one that takes it finds memory under the writes granted
before it, which stay the last ones granted (R141). -/
theorem Arbiter.found_grantNext (n : Nat) (r : OwnReq) (m : Arbiter) (hr : r.isWrite = false) (hd : m.own.Nodup)
    (hm : r ∈ m.own) (hf : m.found? r = none) :
    (m.grantNext mem n).own.Nodup ∧
    (r ∈ (m.grantNext mem n).own → (m.grantNext mem n).found? r = none) ∧
    (r ∉ (m.grantNext mem n).own → (m.grantNext mem n).found? r = some (mem (m.grantNext mem n).order)) := by
  have own : (m.grant mem .own).own.Nodup ∧ (r ∈ (m.grant mem .own).own → (m.grant mem .own).found? r = none) ∧
      (r ∉ (m.grant mem .own).own → (m.grant mem .own).found? r = some (mem (m.grant mem .own).order)) := by
    unfold Arbiter.found? at hf ⊢
    cases ho : m.own with
    | nil => rw [ho] at hm; simp at hm
    | cons x l =>
      rw [ho] at hm hd
      have hd2 := List.nodup_cons.mp hd
      have hf' : m.found.find? (fun y => y.1 == r) = none := by simpa using hf
      by_cases hx : x = r
      · subst hx
        simp [Arbiter.grant, ho, hr, hd2.1, hd2.2, hf', List.find?_append]
      · have hl : r ∈ l := by simpa [Ne.symm hx] using hm
        have hx' : (x == r) = false := by simpa using hx
        cases hw : x.isWrite <;> simp [Arbiter.grant, ho, hw, hd2.2, hf', hx', hl, List.find?_append]
  unfold Arbiter.grantNext
  split
  · rename_i x _
    cases x with
    | own => exact own
    | forwarded => exact ⟨hd, fun _ => hf, fun h => absurd hm h⟩
  · exact ⟨hd, fun _ => hf, fun h => absurd hm h⟩

/-- A read that waits for its grant returns memory under the writes granted before it (R141). -/
theorem Arbiter.found_grantOwn (n : Nat) (r : OwnReq) (m : Arbiter) (hs : m.sent ≤ n) (hr : r.isWrite = false)
    (hd : m.own.Nodup) (hm : r ∈ m.own) (hf : m.found? r = none) :
    (m.grantOwn mem n r).found? r = some (mem (m.grantOwn mem n r).order) := by
  have key : ∀ k (m : Arbiter), m.own.Nodup → r ∈ m.own → m.found? r = none →
      r ∉ (Arbiter.grantUntil mem n (fun x => !x.own.contains r) k m).own →
      (Arbiter.grantUntil mem n (fun x => !x.own.contains r) k m).found? r
        = some (mem (Arbiter.grantUntil mem n (fun x => !x.own.contains r) k m).order) := by
    intro k
    induction k with
    | zero => intro m _ hm _ h; exact absurd hm h
    | succ k ih =>
      intro m hd hm hf
      unfold Arbiter.grantUntil
      rw [if_neg (by simpa using hm)]
      obtain ⟨g1, g2, g3⟩ := Arbiter.found_grantNext mem n r m hr hd hm hf
      by_cases h : r ∈ (m.grantNext mem n).own
      · exact ih _ g1 h (g2 h)
      · have e : Arbiter.grantUntil mem n (fun x => !x.own.contains r) k (m.grantNext mem n) = m.grantNext mem n := by
          cases k with
          | zero => rfl
          | succ k => unfold Arbiter.grantUntil; rw [if_pos (by simpa using h)]
        rw [e]; intro _; exact g3 h
  exact key _ m hd hm hf (Arbiter.grantOwn_spec mem n r m hs).2.1

/-- A read that waits for its grant when its answer comes finds memory as it then is (R141). -/
theorem State.readBy_of_waiting (r : OwnReq) (s : State) (hs : s.ma.sent ≤ s.fwd.length) (hr : r.isWrite = false)
    (hd : s.ma.own.Nodup) (hm : r ∈ s.ma.own) (hf : s.ma.found? r = none) : s.readBy r = (s.grantOwn r).memory := by
  unfold State.readBy
  have e := Arbiter.found_grantOwn s.finds s.fwd.length r s.ma hs hr hd hm hf
  have e' : (s.grantOwn r).ma.found? r = some (s.finds (s.grantOwn r).ma.order) := e
  rw [e']; rfl

/-- Where writes alone wait on the own side, what memory holds plays no part in the grants, and no read is found (R141). -/
theorem Arbiter.grantUntil_writes (mem' : List Grant → Memory) (n : Nat) (done : Arbiter → Bool) (k : Nat) (m : Arbiter)
    (h : ∀ r ∈ m.own, r.isWrite = true) :
    Arbiter.grantUntil mem n done k m = Arbiter.grantUntil mem' n done k m ∧
    (Arbiter.grantUntil mem n done k m).found = m.found := by
  induction k generalizing m with
  | zero => exact ⟨rfl, rfl⟩
  | succ k ih =>
    unfold Arbiter.grantUntil
    split
    · exact ⟨rfl, rfl⟩
    · have g : ∀ x, m.grant mem x = m.grant mem' x ∧ (m.grant mem x).found = m.found ∧
          ∀ r ∈ (m.grant mem x).own, r.isWrite = true := by
        intro x
        cases x with
        | forwarded => exact ⟨rfl, rfl, h⟩
        | own =>
          cases ho : m.own with
          | nil => simp [Arbiter.grant, ho]
          | cons r l =>
            rw [ho] at h
            have hr := h r (List.mem_cons_self ..)
            refine ⟨by simp [Arbiter.grant, ho, hr], by simp [Arbiter.grant, ho, hr], fun q hq => h q ?_⟩
            exact List.mem_cons_of_mem _ (by simpa [Arbiter.grant, ho] using hq)
      have e : m.grantNext mem n = m.grantNext mem' n ∧ (m.grantNext mem n).found = m.found ∧
          ∀ r ∈ (m.grantNext mem n).own, r.isWrite = true := by
        unfold Arbiter.grantNext
        split
        · exact g _
        · exact ⟨rfl, rfl, h⟩
      have := ih (m.grantNext mem n) e.2.2
      rw [← e.1]
      exact ⟨this.1, this.2.trans e.2.1⟩

end Sys2Proof.Machine
end

