-- ==== Sys2Proof/Laws/Traffic.lean ====
section
/-! SUPPORT. What the decoder's decision can change, and what a request comes to that its port presents at once. -/

namespace Sys2Proof.Machine

/-! ## The decision does not depend on the ports -/

/-- The state with other ports and another pointer. -/
def State.withPorts (a b : PortState) (i : Port) (s : State) : State := { s with portA := a, portB := b, ia := i }

/-- Ports whose forwarded reads wait in the same turns. -/
def State.sameTurns (a b : PortState) (s : State) : Prop :=
  turnsOf a.outstanding = turnsOf s.portA.outstanding ∧ turnsOf b.outstanding = turnsOf s.portB.outstanding

theorem State.nextTurn_withPorts (a b : PortState) (i : Port) (s : State) (h : s.sameTurns a b) :
    (s.withPorts a b i).nextTurn = s.nextTurn := by
  unfold State.nextTurn
  show (turnsOf a.outstanding ++ turnsOf b.outstanding).foldl max 0 + 1 = _
  rw [h.1, h.2]

theorem State.readParts_withPorts (a b : PortState) (i : Port) (k : Nat) (l : List ReadPart) (s : State) :
    State.readParts k l (s.withPorts a b i) = ((State.readParts k l s).1, (State.readParts k l s).2.withPorts a b i) := by
  induction l generalizing s with
  | nil => rfl
  | cons x r ih =>
    cases x with
    | mem c n =>
      have e : (s.withPorts a b i).grantRead k = (s.grantRead k).withPorts a b i := rfl
      have m : ((s.grantRead k).withPorts a b i).memory = (s.grantRead k).memory := rfl
      simp only [State.readParts, e, ih, m]
    | synth c => simp only [State.readParts, ih]

theorem State.answerParts_withPorts (a b : PortState) (i : Port) (r : ReadReq) (l : List ReadPart) (k : Nat) (s : State) :
    (s.withPorts a b i).answerParts r l k = ((s.answerParts r l k).1, (s.answerParts r l k).2.withPorts a b i) := by
  unfold State.answerParts
  simp only [State.readParts_withPorts]

theorem State.forwardRead_withPorts (a b : PortState) (i : Port) (r : ReadReq) (parts : List ReadPart) (s : State)
    (h : s.sameTurns a b) :
    (s.withPorts a b i).forwardRead r parts
      = ((s.forwardRead r parts).1, (s.forwardRead r parts).2.withPorts a b i) := by
  have e : (s.withPorts a b i).fwd = s.fwd := rfl
  unfold State.forwardRead
  rw [e, State.nextTurn_withPorts a b i s h, State.answerParts_withPorts]
  split <;> rfl

theorem State.forwardWrite_withPorts (a b : PortState) (i : Port) (r : WriteReq) (cells : Cells) (k : FwdKind)
    (s : State) :
    (s.withPorts a b i).forwardWrite r cells k
      = ((s.forwardWrite r cells k).1, (s.forwardWrite r cells k).2.withPorts a b i) := by
  unfold State.forwardWrite State.withPorts
  (repeat' split) <;> rfl

theorem State.protect_withPorts (a b : PortState) (i : Port) (all kept : Cells) (s : State) :
    (s.withPorts a b i).protect all kept = (s.protect all kept).withPorts a b i := by
  unfold State.protect
  (repeat' split) <;> rfl

theorem State.takeNext_withPorts (a b : PortState) (i : Port) (s : State) :
    (s.withPorts a b i).takeNext = s.takeNext.withPorts a b i := by
  unfold State.takeNext State.withPorts
  (repeat' split) <;> first | rfl | simp_all

theorem State.joinCq_withPorts (a b : PortState) (i : Port) (e : CqEntry) (s : State) :
    (s.withPorts a b i).joinCq e = (s.joinCq e).withPorts a b i :=
  State.takeNext_withPorts a b i { s with icu := { s.icu with cq := s.icu.cq ++ [e] } }

theorem State.queue_withPorts (a b : PortState) (i : Port) (q : Fin 6) (s : State) :
    (s.withPorts a b i).queue q = s.queue q := rfl

theorem State.places_withPorts (a b : PortState) (i : Port) (s : State) :
    (s.withPorts a b i).places = s.places := rfl

theorem State.commandPlaces_withPorts (a b : PortState) (i : Port) (s : State) :
    (s.withPorts a b i).commandPlaces = s.commandPlaces := rfl

theorem State.cbBase_withPorts (a b : PortState) (i : Port) (s : State) :
    (s.withPorts a b i).cbBase = s.cbBase := by simp only [State.cbBase, State.withPorts]

theorem State.placeOf_withPorts (a b : PortState) (i : Port) (x : Nat) (s : State) :
    (s.withPorts a b i).placeOf x = s.placeOf x := by
  have e1 : (s.withPorts a b i).layout = s.layout := rfl
  unfold State.placeOf
  rw [State.cbBase_withPorts, e1]

theorem State.classOf_withPorts (a b : PortState) (i : Port) (x : Nat) (s : State) :
    (s.withPorts a b i).classOf x = s.classOf x := by
  unfold State.classOf
  rw [State.placeOf_withPorts]
  generalize s.placeOf x = pl
  cases pl <;> rfl

theorem State.busy_withPorts (a b : PortState) (i : Port) (id : SlotId) (s : State) :
    (s.withPorts a b i).busy id = s.busy id := by
  simp only [State.busy, State.busySlots, State.serviceSlots, State.withPorts]

theorem State.setQueue_withPorts (a b : PortState) (i : Port) (q : Fin 6) (v : QState) (s : State) :
    (s.withPorts a b i).setQueue q v = (s.setQueue q v).withPorts a b i := rfl

theorem State.beginTake_withPorts (a b : PortState) (i : Port) (q : Fin 6) (tag : Fin 8) (s : State) :
    (s.withPorts a b i).beginTake q tag = ((s.beginTake q tag).1, (s.beginTake q tag).2.withPorts a b i) := by
  by_cases h0 : (s.queue q).count = 0
  · have h0' : ((s.withPorts a b i).queue q).count = 0 := h0
    unfold State.beginTake
    simp only [if_pos h0, if_pos h0']
  · have h0' : ¬ ((s.withPorts a b i).queue q).count = 0 := h0
    by_cases h1 : Config.cqEntries ≤ s.places
    · have h1' : Config.cqEntries ≤ (s.withPorts a b i).places := h1
      unfold State.beginTake
      simp only [if_neg h0, if_neg h0', if_pos h1, if_pos h1']
    · have h1' : ¬ Config.cqEntries ≤ (s.withPorts a b i).places := h1
      unfold State.beginTake
      simp only [if_neg h0, if_neg h1, if_neg h1', State.queue_withPorts, State.setQueue_withPorts]
      cases (s.queue q).position (s.queue q).head with
      | none => rfl
      | some x =>
        simp only
        generalize State.setQueue _ _ s = u
        cases isRestockQueue q with
        | true =>
          exact congrArg (fun t : State => (Stage.taking q, t.askOwn (.takeRead q)))
            (State.joinCq_withPorts a b i _ { u with ru := u.ru.takeNotice x.id q x.ticket })
        | false =>
          exact congrArg (fun t : State => (Stage.taking q, t.askOwn (.takeRead q))) (State.joinCq_withPorts a b i _ u)

theorem State.serveTake_withPorts (a b : PortState) (i : Port) (p : Port) (q : Fin 6) (tag : Fin 8) (s : State) :
    (s.withPorts a b i).serveTake p q tag = ((s.serveTake p q tag).1, (s.serveTake p q tag).2.withPorts a b i) := by
  have e : ((s.withPorts a b i).queue q).takeInProgress = (s.queue q).takeInProgress := rfl
  unfold State.serveTake
  cases h : (s.queue q).takeInProgress with
  | true => simp only [e, h, if_true]; rfl
  | false => simp only [e, h, Bool.false_eq_true, if_false]; exact State.beginTake_withPorts ..

theorem State.decideRequest_withPorts (a b : PortState) (i : Port) (p : Port) (twin : Bool) (req : Request)
    (s : State) (ht : s.sameTurns a b) :
    (s.withPorts a b i).decideRequest p twin req
      = ((s.decideRequest p twin req).1, (s.decideRequest p twin req).2.withPorts a b i) := by
  cases req with
  | read r =>
    unfold State.decideRequest
    simp only
    split
    · rfl
    · unfold State.decideRead
      rw [State.classOf_withPorts]
      split
      · exact State.forwardRead_withPorts _ _ _ _ _ _ ht
      · unfold State.takeItemRead
        have e1 : (s.withPorts a b i).cu = s.cu := rfl
        rw [e1, State.busy_withPorts]
        split
        · rfl
        · split
          · rfl
          · exact State.forwardRead_withPorts _ _ _ _ _ _ ht
      · unfold State.takeRingRead
        have e1 : (s.withPorts a b i).cu = s.cu := rfl
        rw [e1]
        split
        · rfl
        · split
          · rfl
          · split
            · exact State.serveTake_withPorts ..
            · exact State.forwardRead_withPorts _ _ _ _ _ _ ht
      · unfold State.takeViewRead
        have e1 : (s.withPorts a b i).cu = s.cu := rfl
        have e2 : ∀ q, (s.withPorts a b i).desc? q = s.desc? q := fun _ => rfl
        simp only [e1, e2, State.queue_withPorts]
        split
        · rfl
        · split
          · exact State.forwardRead_withPorts _ _ _ _ _ _ ht
          · exact State.forwardRead_withPorts _ _ _ _ _ _ ht
      · unfold State.takeEventRead
        simp only [State.cbBase_withPorts]
        split <;> rfl
      · exact State.forwardRead_withPorts _ _ _ _ _ _ ht
      · exact State.forwardRead_withPorts _ _ _ _ _ _ ht
  | write r =>
    unfold State.decideRequest
    simp only
    split
    · rfl
    · unfold State.decideWrite
      rw [State.classOf_withPorts]
      have e1 : (s.withPorts a b i).cu = s.cu := rfl
      simp only [e1]
      split
      · split <;> rfl
      · split
        · unfold State.takePassWrite
          have e2 : (s.withPorts a b i).postingStopped = s.postingStopped := rfl
          have e3 : (s.withPorts a b i).buffered = s.buffered := rfl
          rw [e2, e3]
          (repeat' split) <;> rfl
        · unfold State.takeItemWrite
          simp only [e1, State.busy_withPorts, State.commandPlaces_withPorts, State.places_withPorts,
            State.protect_withPorts]
          split
          · rfl
          · split
            · rfl
            · split
              · split
                · rfl
                · rfl
              · exact State.forwardWrite_withPorts ..
        · unfold State.takeDroppedWrite
          rw [e1]
          split <;> rfl
        · unfold State.takeDroppedWrite
          rw [e1]
          split <;> rfl
        · unfold State.takeEventWrite
          simp only [State.cbBase_withPorts, State.protect_withPorts]
          exact State.forwardWrite_withPorts ..
        · unfold State.takeMailboxWrite
          have e2 : (s.withPorts a b i).mailboxHeld = s.mailboxHeld := rfl
          simp only [e2, State.cbBase_withPorts, State.protect_withPorts]
          split
          · rfl
          · exact State.forwardWrite_withPorts ..
        · unfold State.takeTableWrite
          simp only [e1, State.cbBase_withPorts, State.protect_withPorts]
          exact State.forwardWrite_withPorts ..

/-! ## The decision leaves the ports -/

theorem State.withPorts_self (s : State) : s.withPorts s.portA s.portB s.ia = s := rfl

theorem State.decideRequest_ports (p : Port) (twin : Bool) (req : Request) (s : State) :
    (s.decideRequest p twin req).2.portA = s.portA ∧ (s.decideRequest p twin req).2.portB = s.portB ∧
    (s.decideRequest p twin req).2.ia = s.ia := by
  have h := State.decideRequest_withPorts s.portA s.portB s.ia p twin req s ⟨rfl, rfl⟩
  rw [State.withPorts_self] at h
  have h2 := congrArg Prod.snd h
  rw [h2]
  exact ⟨rfl, rfl, rfl⟩

theorem State.answerParts_ne_waiting (r : ReadReq) (parts : List ReadPart) (k : Nat) (s : State) :
    (s.answerParts r parts k).1 ≠ .waiting := by
  unfold State.answerParts; simp only; split <;> simp [faulted, okData]

theorem State.forwardRead_ne_waiting (r : ReadReq) (parts : List ReadPart) (s : State) :
    (s.forwardRead r parts).1 ≠ .waiting := by
  unfold State.forwardRead
  split
  · exact State.answerParts_ne_waiting _ _ _ _
  · simp

theorem State.forwardWrite_ne_waiting (r : WriteReq) (cells : Cells) (k : FwdKind) (s : State) :
    (s.forwardWrite r cells k).1 ≠ .waiting := by
  unfold State.forwardWrite; split <;> simp [okDone]

theorem State.serveTake_ne_waiting (p : Port) (q : Fin 6) (tag : Fin 8) (s : State) :
    (s.serveTake p q tag).1 ≠ .waiting := by
  unfold State.serveTake
  simp only
  split
  · simp
  · unfold State.beginTake
    simp only
    split
    · simp [okData]
    · split
      · simp
      · split <;> simp [okData]

theorem State.decideRead_ne_waiting (p : Port) (r : ReadReq) (s : State) : (s.decideRead p r).1 ≠ .waiting := by
  unfold State.decideRead
  split
  · exact State.forwardRead_ne_waiting _ _ _
  · unfold State.takeItemRead
    (repeat' split) <;> first | exact State.forwardRead_ne_waiting _ _ _ | simp [faulted]
  · unfold State.takeRingRead
    (repeat' split) <;>
      first | exact State.forwardRead_ne_waiting _ _ _ | exact State.serveTake_ne_waiting _ _ _ _ | simp [faulted]
  · unfold State.takeViewRead
    (repeat' split) <;> first | exact State.forwardRead_ne_waiting _ _ _ | simp [faulted]
  · simp [State.takeEventRead, okData]
  · exact State.forwardRead_ne_waiting _ _ _
  · exact State.forwardRead_ne_waiting _ _ _

theorem State.decideWrite_ne_waiting (p : Port) (r : WriteReq) (s : State) : (s.decideWrite p r).1 ≠ .waiting := by
  unfold State.decideWrite
  simp only
  split
  · split <;> simp [faulted, okDone]
  · split
    · unfold State.takePassWrite; (repeat' split) <;> simp [okDone]
    · unfold State.takeItemWrite
      (repeat' split) <;> first | exact State.forwardWrite_ne_waiting _ _ _ _ | simp [faulted]
    · unfold State.takeDroppedWrite; split <;> simp [faulted, okDone]
    · unfold State.takeDroppedWrite; split <;> simp [faulted, okDone]
    · exact State.forwardWrite_ne_waiting _ _ _ _
    · unfold State.takeMailboxWrite
      split
      · simp
      · exact State.forwardWrite_ne_waiting _ _ _ _
    · exact State.forwardWrite_ne_waiting _ _ _ _

/-- The decoder's decision always dispatches, holds, stalls or answers a request. -/
theorem State.decideRequest_ne_waiting (p : Port) (twin : Bool) (req : Request) (s : State) :
    (s.decideRequest p twin req).1 ≠ .waiting := by
  unfold State.decideRequest
  split
  · split
    · simp [faulted]
    · exact State.decideRead_ne_waiting _ _ _
  · split
    · simp [faulted]
    · exact State.decideWrite_ne_waiting _ _ _

/-! ## Which request is the head -/

/-- The stage of a port's head request. -/
def headStage (l : List Outstanding) : Option Stage := (headRequest l).map (·.stage)

theorem headStage_cons (o : Outstanding) (r : List Outstanding) :
    headStage (o :: r) = if o.stage.undispatched then some o.stage else headStage r := by
  unfold headStage headRequest
  rw [List.find?_cons]
  cases o.stage.undispatched <;> simp

theorem PortState.ready_eq (v : PortState) : v.ready = decide (headStage v.outstanding = some .waiting) := by
  unfold PortState.ready headStage
  cases headRequest v.outstanding with
  | none => simp
  | some o => simp [beq_eq_decide]

/-- The stages of a port's requests that are not dispatched, its head request's first (R129). -/
def pendingStages (l : List Outstanding) : List Stage := (l.map (·.stage)).filter (·.undispatched)

theorem pendingStages_cons (o : Outstanding) (r : List Outstanding) :
    pendingStages (o :: r) = if o.stage.undispatched then o.stage :: pendingStages r else pendingStages r := by
  unfold pendingStages
  rw [List.map_cons, List.filter_cons]

theorem headStage_eq (l : List Outstanding) : headStage l = (pendingStages l).head? := by
  induction l with
  | nil => rfl
  | cons o r ih => rw [headStage_cons, pendingStages_cons, ih]; split <;> rfl

theorem pendingStages_mapStages (f : Outstanding → Stage) (l : List Outstanding)
    (h1 : ∀ o, o.stage.undispatched = true → f o = o.stage)
    (h2 : ∀ o, o.stage.undispatched = false → (f o).undispatched = false) :
    pendingStages (Machine.mapStages f l) = pendingStages l := by
  induction l with
  | nil => rfl
  | cons o r ih =>
    have e : Machine.mapStages f (o :: r) = { o with stage := f o } :: Machine.mapStages f r := rfl
    rw [e, pendingStages_cons, pendingStages_cons]
    by_cases h : o.stage.undispatched = true
    · simp only [h1 o h, h, if_true, ih]
    · have h' : o.stage.undispatched = false := by simpa using h
      simp only [h', h2 o h', ih, Bool.false_eq_true, if_false]

theorem pendingStages_setOldest (f : Stage → Bool) (st : Outstanding → Stage) (l : List Outstanding)
    (h1 : ∀ x, f x = true → x.undispatched = false)
    (h2 : ∀ o, (st o).undispatched = false) :
    pendingStages (Machine.setOldest f st l) = pendingStages l := by
  induction l with
  | nil => rfl
  | cons o r ih =>
    unfold Machine.setOldest
    by_cases h : f o.stage = true
    · rw [if_pos h, pendingStages_cons, pendingStages_cons]
      simp only [h1 _ h, h2 o, Bool.false_eq_true, if_false]
    · rw [if_neg h, pendingStages_cons, pendingStages_cons, ih]

theorem pendingStages_returnable (l : List Outstanding) : pendingStages (returnable l).2 = pendingStages l := by
  induction l with
  | nil => rfl
  | cons o r ih =>
    unfold returnable
    cases h : o.stage <;> simp [pendingStages_cons, h, Stage.undispatched, ih]

theorem State.answerParts_dispatched (r : ReadReq) (parts : List ReadPart) (k : Nat) (s : State) :
    (s.answerParts r parts k).1.undispatched = false := by
  unfold State.answerParts; simp only; split <;> rfl

/-- Both ports' requests that are not dispatched, the head requests first, stand at the same stages in two states. -/
def State.sameHeads (s t : State) : Prop :=
  pendingStages s.portA.outstanding = pendingStages t.portA.outstanding ∧
  pendingStages s.portB.outstanding = pendingStages t.portB.outstanding ∧ s.ia = t.ia

theorem State.chosenPort_of_sameHeads {s t : State} (h : s.sameHeads t) : s.chosenPort = t.chosenPort := by
  obtain ⟨h1, h2, h3⟩ := h
  unfold State.chosenPort
  simp only [PortState.ready_eq, headStage_eq, h1, h2, h3]

theorem State.sameHeads_trans {s t u : State} (h : s.sameHeads t) (k : t.sameHeads u) : s.sameHeads u :=
  ⟨h.1.trans k.1, h.2.1.trans k.2.1, h.2.2.trans k.2.2⟩

theorem State.sameHeads_refl (s : State) : s.sameHeads s := ⟨rfl, rfl, rfl⟩

theorem State.sameHeads_countDown (s : State) : s.countDown.sameHeads s := by
  have key : ∀ l, pendingStages (Machine.mapStages (fun o => match o.stage with
      | .reading parts n older t => .reading parts (n - 1) (older - 1) t
      | st => st) l) = pendingStages l := by
    intro l
    apply pendingStages_mapStages
    · intro o h
      cases hs : o.stage <;> simp_all [Stage.undispatched]
    · intro o h
      split
      · rfl
      · exact h
  exact ⟨key _, key _, rfl⟩

theorem State.sameHeads_setOldest (p : Port) (f : Stage → Bool) (st : Outstanding → Stage) (s : State)
    (h1 : ∀ x, f x = true → x.undispatched = false) (h2 : ∀ o, (st o).undispatched = false) :
    (s.setOldest p f st).sameHeads s := by
  have key : ∀ l, pendingStages (Machine.setOldest f st l) = pendingStages l := fun l => pendingStages_setOldest f st l h1 h2
  cases p
  · exact ⟨key _, rfl, rfl⟩
  · exact ⟨rfl, key _, rfl⟩

theorem Stage.hasTurn_dispatched (t : Nat) (x : Stage) (h : Stage.hasTurn t x = true) : x.undispatched = false := by
  cases x <;> simp_all [Stage.hasTurn, Stage.undispatched]

theorem State.sameHeads_serveTurn (t : Nat) (p : Port) (s : State) : (s.serveTurn t p).sameHeads s := by
  unfold State.serveTurn
  split
  · rename_i r parts older _
    refine State.sameHeads_trans
      (State.sameHeads_setOldest p _ _ _ (Stage.hasTurn_dispatched t) (fun _ => State.answerParts_dispatched _ _ _ _)) ?_
    have f := State.answerParts_frame r parts (min older s.fwd.length) s
    exact ⟨by rw [f.1], by rw [f.2.1], f.2.2.1⟩
  · exact s.sameHeads_refl

theorem State.sameHeads_serveTurns (n : Nat) (s : State) : (s.serveTurns n).sameHeads s := by
  induction n generalizing s with
  | zero => exact s.sameHeads_refl
  | succ n ih =>
    unfold State.serveTurns
    split
    · exact State.sameHeads_trans (ih _)
        (State.sameHeads_trans (State.sameHeads_serveTurn _ _ _) (State.sameHeads_serveTurn _ _ _))
    · exact s.sameHeads_refl

theorem State.sameHeads_serveReads (s : State) : s.serveReads.sameHeads s :=
  State.sameHeads_trans (State.sameHeads_serveTurns _ _) (State.sameHeads_countDown s)

theorem State.sameHeads_answerPort (p : Port) (f : Fin 8 → Stage) (s : State)
    (h : ∀ t, (f t).undispatched = false) : (s.answerPort p f).sameHeads s := by
  have key : ∀ l, pendingStages (Machine.setOldest (fun st => st == .writing) (fun o => f (tagOf o.req)) l) = pendingStages l :=
    fun l => pendingStages_setOldest _ _ _ (by intro x hx; rw [eq_of_beq hx]; rfl) (fun o => h _)
  cases p
  · exact ⟨key _, rfl, rfl⟩
  · exact ⟨rfl, key _, rfl⟩

theorem answeredWrite_dispatched (t : Fin 8) (a : WriteAnswer) : (answeredWrite t a).undispatched = false := by
  cases a <;> rfl

theorem State.sameHeads_takeEnable (cells : Cells) (a : WriteAnswer) (s : State) : (s.takeEnable cells a).sameHeads s := by
  cases a <;> exact ⟨rfl, rfl, rfl⟩

theorem State.sameHeads_serveForward (l : List FwdWrite) (s : State) : (State.serveForward l s).sameHeads s := by
  induction l generalizing s with
  | nil => exact ⟨rfl, rfl, rfl⟩
  | cons w r ih =>
    have base : ∀ (a : WriteAnswer), (s.answerForward w.cells a).sameHeads s := fun a =>
      State.sameHeads_trans (State.sameHeads_serveReads _) ⟨rfl, rfl, rfl⟩
    unfold State.serveForward
    cases w.kind with
    | plain p a =>
      exact State.sameHeads_trans (ih _)
        (State.sameHeads_trans (State.sameHeads_answerPort _ _ _ (fun t => answeredWrite_dispatched t a)) (base a))
    | eventEnable p a =>
      exact State.sameHeads_trans (ih _)
        (State.sameHeads_trans (State.sameHeads_answerPort _ _ _ (fun t => answeredWrite_dispatched t a))
          (State.sameHeads_trans (State.sameHeads_takeEnable _ _ _) (base a)))
    | _ => exact ⟨rfl, rfl, rfl⟩

theorem State.sameHeads_goForward (s : State) : s.goForward.sameHeads s := State.sameHeads_serveForward _ _

theorem State.sameHeads_deliver (s : State) : s.deliver.sameHeads s :=
  ⟨pendingStages_returnable _, pendingStages_returnable _, rfl⟩

/-! ## A settled part -/

theorem settle_of_none (n : Nat) (s : State) (h : s.chosenPort = none) : settle n s = s := by
  cases n with
  | zero => rfl
  | succ n => unfold settle; rw [h]

theorem State.goForward_of_waits (s : State) (h : forwardWaits s.fwd = true) : s.goForward = s := by
  unfold State.goForward
  cases hf : s.fwd with
  | nil => rfl
  | cons w r =>
    rw [hf] at h
    unfold State.serveForward
    unfold forwardWaits at h
    cases hk : w.kind <;> simp_all

theorem PortState.deliver_of_nothing (v : PortState) (h : nothingToReturn v.outstanding = true) : v.deliver = v := by
  obtain ⟨l, ret⟩ := v
  unfold PortState.deliver
  cases l with
  | nil => simp [returnable]
  | cons o r =>
    unfold returnable
    unfold nothingToReturn at h
    cases hs : o.stage <;> simp_all

theorem State.deliver_of_nothing (s : State) (hA : nothingToReturn s.portA.outstanding = true)
    (hB : nothingToReturn s.portB.outstanding = true) : s.deliver = s := by
  unfold State.deliver
  rw [PortState.deliver_of_nothing _ hA, PortState.deliver_of_nothing _ hB]

/-- A part that is settled stays as it is at the end of a command. -/
theorem State.finish_of_settled (s : State) (h : s.settled) : s.finish = s := by
  obtain ⟨h1, h2, h3, h4⟩ := h
  unfold State.finish
  rw [State.goForward_of_waits s h2, State.deliver_of_nothing s h3 h4, settle_of_none _ _ h1]

theorem headRequest_append_waiting (l : List Outstanding) (req : Request) (tw : Bool) (h : headRequest l = none) :
    headRequest (l ++ [{ req := req, twin := tw, stage := .waiting }])
      = some { req := req, twin := tw, stage := .waiting } := by
  unfold headRequest at *
  rw [List.find?_append, h]; rfl

theorem setHeadStage_append_waiting (l : List Outstanding) (req : Request) (tw : Bool) (st : Stage)
    (h : headRequest l = none) :
    setHeadStage st (l ++ [{ req := req, twin := tw, stage := .waiting }])
      = l ++ [{ req := req, twin := tw, stage := st }] := by
  unfold headRequest at h
  induction l with
  | nil => rfl
  | cons o r ih =>
    rw [List.find?_cons] at h
    cases ho : o.stage.undispatched with
    | true => rw [ho] at h; simp at h
    | false =>
      rw [ho] at h
      simp only [List.cons_append, setHeadStage, ho]
      rw [ih h]; rfl

theorem headStage_append_ne_waiting (l : List Outstanding) (req : Request) (tw : Bool) (st : Stage)
    (h : headRequest l = none) (hs : st ≠ .waiting) :
    headStage (l ++ [{ req := req, twin := tw, stage := st }]) ≠ some .waiting := by
  unfold headRequest at h
  unfold headStage headRequest
  rw [List.find?_append, h]
  simp only [List.find?_cons, Option.none_or]
  cases st.undispatched <;> simp [hs]

theorem nothingToReturn_append_waiting (l : List Outstanding) (o : Outstanding) (hs : o.stage = .waiting)
    (h : nothingToReturn l = true) : nothingToReturn (l ++ [o]) = true := by
  cases l with
  | nil => simp [nothingToReturn, hs]
  | cons o r => exact h

/-- No port is ready. -/
theorem State.notReady_of_none (s : State) (h : s.chosenPort = none) : s.portA.ready = false ∧ s.portB.ready = false := by
  unfold State.chosenPort at h
  cases hA : s.portA.ready <;> cases hB : s.portB.ready <;> simp_all

theorem State.chosenPort_none (s : State) (hA : s.portA.ready = false) (hB : s.portB.ready = false) :
    s.chosenPort = none := by
  unfold State.chosenPort; rw [hA, hB]

theorem State.taken_chosenPort (p : Port) (req : Request) (st : Stage) (s : State) (hs : st ≠ .waiting)
    (hp : headRequest (s.port p).outstanding = none) (hc : s.chosenPort = none) :
    (State.taken p req st s).chosenPort = none := by
  unfold State.taken
  rw [State.chosenPort_of_sameHeads (State.sameHeads_trans (State.sameHeads_deliver _) (State.sameHeads_goForward _))]
  have hr := State.notReady_of_none s hc
  cases p
  · refine State.chosenPort_none _ ?_ hr.2
    rw [PortState.ready_eq]
    exact decide_eq_false (headStage_append_ne_waiting _ _ _ _ hp hs)
  · refine State.chosenPort_none _ hr.1 ?_
    rw [PortState.ready_eq]
    exact decide_eq_false (headStage_append_ne_waiting _ _ _ _ hp hs)

/-- The end of a command in which one request is ready and nothing else can go. -/
theorem State.finish_of_ready (p : Port) (s : State) (hc : s.chosenPort = some p) (hf : forwardWaits s.fwd = true)
    (hA : nothingToReturn s.portA.outstanding = true) (hB : nothingToReturn s.portB.outstanding = true)
    (hn : (s.takeOne p).chosenPort = none) : s.finish = s.takeOne p := by
  unfold State.finish
  rw [State.goForward_of_waits s hf, State.deliver_of_nothing s hA hB]
  unfold settle
  rw [hc]
  exact settle_of_none _ _ hn

/-- A port's state with a request accepted (R128). -/
def PortState.accept (v : PortState) (req : Request) : PortState :=
  { v with outstanding := v.outstanding ++ [accepted v.outstanding req] }

theorem PortState.ready_accept (v : PortState) (req : Request) (h : headRequest v.outstanding = none) :
    (v.accept req).ready = true := by
  unfold PortState.ready PortState.accept
  simp only [accepted, headRequest_append_waiting _ _ _ h]; rfl

theorem State.issue_eq (p : Port) (req : Request) (s : State) (h : (s.port p).outstanding.length < Config.outstandingMax) :
    s.issue p req = (s.setPort p ((s.port p).accept req)).finish := by
  unfold State.issue
  rw [if_neg (by omega)]; rfl

theorem turnsOf_append_accepted (l : List Outstanding) (req : Request) :
    turnsOf (l ++ [accepted l req]) = turnsOf l := by
  unfold turnsOf
  rw [List.filterMap_append]
  simp [accepted]

/-- What a request comes to that its port presents at once: the decoder's decision, with the request last in its port's
list. -/
theorem State.issue_of_portFree (p : Port) (req : Request) (s : State) (h : s.portFree p) :
    s.issue p req
      = State.taken p req (s.decideRequest p (tagListed (s.port p).outstanding (tagOf req)) req).1
          (s.decideRequest p (tagListed (s.port p).outstanding (tagOf req)) req).2 := by
  obtain ⟨⟨hc, hf, hA, hB⟩, hl, hh⟩ := h
  have hr := State.notReady_of_none s hc
  have hw := fun a b i ht => State.decideRequest_withPorts a b i p (tagListed (s.port p).outstanding (tagOf req)) req s ht
  have hne := State.decideRequest_ne_waiting p (tagListed (s.port p).outstanding (tagOf req)) req s
  have hports := State.decideRequest_ports p (tagListed (s.port p).outstanding (tagOf req)) req s
  rw [State.issue_eq p req s hl]
  generalize hd : s.decideRequest p (tagListed (s.port p).outstanding (tagOf req)) req = d at *
  obtain ⟨d1, d2⟩ := d
  simp only at hne hports hw ⊢
  have hone : (s.setPort p ((s.port p).accept req)).takeOne p = State.taken p req d1 d2 := by
    unfold State.takeOne State.taken State.takeHead
    cases p with
    | A =>
      have := hw ((s.port .A).accept req) s.portB (otherPort .A) ⟨turnsOf_append_accepted _ _, rfl⟩
      simp only [State.withPorts, State.port, PortState.accept, accepted] at this hh
      simp only [State.setPort, State.port, PortState.accept, accepted, headRequest_append_waiting _ _ _ hh]
      rw [this]
      simp only [State.setHead, State.setPort, State.port, setHeadStage_append_waiting _ _ _ _ hh, hports.1, hports.2.1]
    | B =>
      have := hw s.portA ((s.port .B).accept req) (otherPort .B) ⟨rfl, turnsOf_append_accepted _ _⟩
      simp only [State.withPorts, State.port, PortState.accept, accepted] at this hh
      simp only [State.setPort, State.port, PortState.accept, accepted, headRequest_append_waiting _ _ _ hh]
      rw [this]
      simp only [State.setHead, State.setPort, State.port, setHeadStage_append_waiting _ _ _ _ hh, hports.1, hports.2.1]
  have hcn : d2.chosenPort = none :=
    State.chosenPort_none _ (by rw [hports.1]; exact hr.1) (by rw [hports.2.1]; exact hr.2)
  have hn : ((s.setPort p ((s.port p).accept req)).takeOne p).chosenPort = none := by
    rw [hone]
    refine State.taken_chosenPort p req d1 d2 hne ?_ hcn
    cases p <;> simp only [State.port, hports.1, hports.2.1] <;> exact hh
  rw [← hone]
  cases p with
  | A =>
    refine State.finish_of_ready .A _ ?_ hf (nothingToReturn_append_waiting _ _ rfl hA) hB hn
    unfold State.chosenPort
    simp only [State.setPort, PortState.ready_accept _ _ hh, hr.2]
  | B =>
    refine State.finish_of_ready .B _ ?_ hf hA (nothingToReturn_append_waiting _ _ rfl hB) hn
    unfold State.chosenPort
    simp only [State.setPort, PortState.ready_accept _ _ hh, hr.1]

end Sys2Proof.Machine
end

