-- ==== Sys2Proof/Laws/Units.lean ====
section
/-! SUPPORT. What the operations of the event, queue, bin, reservation and item command units can do, said once for each;
the relations
`unitsOnly` and `servedTo` compose them. -/

namespace Sys2Proof.Machine

/-! ## The units, one operation at a time -/

/-- A raise adds its kind and no other (R172). -/
theorem Eu.pending_raise (k j : EventKind) (u : Eu) :
    (u.raise k).pending.getLsbD j.index = (u.pending.getLsbD j.index || decide (j = k)) := by
  unfold Eu.raise EventKind.bit
  simp only [BitVec.getLsbD_or]
  congr 1
  cases j <;> cases k <;> decide

/-- Raises add their kinds and no other. -/
theorem Eu.pending_raiseAll (ks : List EventKind) (j : EventKind) (u : Eu) :
    (u.raiseAll ks).pending.getLsbD j.index = true ↔ (u.pending.getLsbD j.index = true ∨ j ∈ ks) := by
  unfold Eu.raiseAll
  induction ks generalizing u with
  | nil => simp
  | cons k r ih =>
    simp only [List.foldl_cons, ih, Eu.pending_raise, Bool.or_eq_true, decide_eq_true_eq, List.mem_cons]
    tauto

/-- Raises leave the mask. -/
theorem Eu.mask_raiseAll (ks : List EventKind) (u : Eu) : (u.raiseAll ks).mask = u.mask := by
  unfold Eu.raiseAll
  induction ks generalizing u with
  | nil => rfl
  | cons k r ih => simp only [List.foldl_cons, ih]; rfl

/-- The set of one kind holds that kind alone. -/
theorem EventKind.bit_at (k : EventKind) (n : Nat) (hn : n < 12) : k.bit.getLsbD n = decide (n = k.index) := by
  have : ∀ (k : EventKind), ∀ n : Fin 12, k.bit.getLsbD n.val = decide (n.val = k.index) := by
    intro k; cases k <;> decide
  exact this k ⟨n, hn⟩

/-- The restock queues are Q0 and Q1. -/
theorem isRestockQueue_iff (q : Fin 6) : isRestockQueue q = true ↔ (q = 0 ∨ q = 1) := by
  revert q; decide

/-- The queues after one is replaced. -/
theorem State.queue_setQueue (q j : Fin 6) (v : QState) (s : State) :
    (s.setQueue q v).queue j = if j = q then v else s.queue j := by
  unfold State.queue State.setQueue
  simp only [Fin.getElem_fin, Vector.getElem_set]
  by_cases h : j = q
  · subst h; simp
  · rw [if_neg h, if_neg]; intro hh; exact h (Fin.ext hh.symm)

/-- An issue at the queue unit changes its write queue, its write in flight and the own side's waiting requests alone (R109). -/
theorem State.kickQu_spec (s : State) : ∃ qu : Qu, ∃ own,
    s.kickQu = { s with qu := qu, ma := { s.ma with own := own } } ∧ qu.queues = s.qu.queues ∧
    qu.lastTicket = s.qu.lastTicket := by
  unfold State.kickQu; split
  · exact ⟨_, _, rfl, rfl, rfl⟩
  · exact ⟨s.qu, s.ma.own, rfl, rfl, rfl⟩

/-- An issue loses no item (R109). -/
theorem State.kickQu_queued (s : State) (i : QuItem) (h : i ∈ s.qu.waiting ∨ ∃ f, s.qu.inFlight = some f ∧ f.item = i) :
    s.kickQu.queued i := by
  unfold State.kickQu State.queued; split
  · rename_i j r h1 h2
    rw [h1, h2] at h
    rcases h with h | ⟨f, hf, _⟩
    · simp only [List.mem_cons] at h
      rcases h with h | h
      · right; exact ⟨_, rfl, h.symm⟩
      · left; exact h
    · cases hf
  · exact h

/-- A join changes the write queue, the write in flight and the own side's waiting requests alone (R109). -/
theorem State.joinQu_spec (i : QuItem) (s : State) : ∃ qu : Qu, ∃ own,
    s.joinQu i = { s with qu := qu, ma := { s.ma with own := own } } ∧
    qu.queues = s.qu.queues ∧ qu.lastTicket = s.qu.lastTicket := by
  unfold State.joinQu
  obtain ⟨qu, own, h1, h2, h3⟩ := State.kickQu_spec { s with qu := { s.qu with waiting := joinWrite i s.qu.waiting } }
  exact ⟨qu, own, h1, h2, h3⟩

/-- A header or ticket image item joins the tail once (R109). -/
theorem joinWrite_once (i : QuItem) (l : List QuItem) (h : i.isEntry = false) :
    joinWrite i l = l ++ (if i ∈ l then [] else [i]) := by
  unfold joinWrite
  by_cases hm : i ∈ l <;> simp [h, hm]

/-- The head of the write queue is issued with its bytes (R109). -/
theorem State.kickQu_idle (i : QuItem) (l : List QuItem) (s : State) (h : s.qu.inFlight = none) (hl : s.qu.waiting = i :: l) :
    s.kickQu = { s with
      qu := { s.qu with waiting := l, inFlight := some { item := i, cells := s.quCells i } }, ma := s.ma.ask .queueWrite } := by
  unfold State.kickQu
  rw [h, hl]

/-- Behind a write in flight an item waits (R109). -/
theorem State.joinQu_behind (i : QuItem) (s : State) (h : s.qu.inFlight ≠ none) :
    s.joinQu i = { s with qu := { s.qu with waiting := joinWrite i s.qu.waiting } } := by
  unfold State.joinQu State.kickQu
  split
  · rename_i h1 _; exact absurd h1 h
  · rfl

/-- With no write in flight the head of the items is issued (R109). -/
theorem State.joinQu_idle (i j : QuItem) (l : List QuItem) (s : State) (h : s.qu.inFlight = none)
    (hl : joinWrite i s.qu.waiting = j :: l) :
    s.joinQu i = { s with
      qu := { s.qu with waiting := l, inFlight := some { item := j, cells := s.quCells j } }, ma := s.ma.ask .queueWrite } := by
  unfold State.joinQu
  refine (State.kickQu_idle j l { s with qu := { s.qu with waiting := joinWrite i s.qu.waiting } } h hl).trans ?_
  cases j <;> rfl

/-- An item that joins is queued (R109). -/
theorem State.joinQu_queued (i : QuItem) (s : State) : (s.joinQu i).queued i := by
  unfold State.joinQu
  apply State.kickQu_queued
  left
  show i ∈ joinWrite i s.qu.waiting
  unfold joinWrite
  split
  · rename_i h; simp at h; exact h.2
  · simp

/-- A join loses no item (R109). -/
theorem State.joinQu_still_queued (i j : QuItem) (s : State) (h : s.queued j) : (s.joinQu i).queued j := by
  unfold State.joinQu
  apply State.kickQu_queued
  rcases h with h | h
  · left; show j ∈ joinWrite i s.qu.waiting
    unfold joinWrite; split
    · exact h
    · simp [h]
  · right; exact h

/-- The counter passes over held tickets alone, and stops at the first free one within its bound (R45). -/
theorem skipHeld_spec (held : List Word32) (n : Nat) (t : Word32) :
    (∃ k ≤ n, skipHeld held n t = (ticketAfter^[k]) t ∧ ∀ j < k, (ticketAfter^[j]) t ∈ held) ∧
    (skipHeld held n t ∉ held ∨ (skipHeld held n t = (ticketAfter^[n]) t ∧ ∀ j < n, (ticketAfter^[j]) t ∈ held)) := by
  induction n generalizing t with
  | zero => exact ⟨⟨0, le_refl _, rfl, by omega⟩, Or.inr ⟨rfl, by omega⟩⟩
  | succ n ih =>
    unfold skipHeld
    by_cases h : held.contains t = true
    · rw [if_pos h]
      obtain ⟨⟨k, hk, h1, h2⟩, h3⟩ := ih (ticketAfter t)
      have hm : t ∈ held := by simpa using h
      have sh : ∀ m, (∀ j < m, (ticketAfter^[j]) (ticketAfter t) ∈ held) → ∀ j < m + 1, (ticketAfter^[j]) t ∈ held := by
        intro m hm2 j hj
        cases j with
        | zero => exact hm
        | succ j => rw [Function.iterate_succ_apply]; exact hm2 j (by omega)
      refine ⟨⟨k + 1, by omega, by rw [h1, Function.iterate_succ_apply], sh k h2⟩, ?_⟩
      rcases h3 with h3 | ⟨h3, h4⟩
      · exact Or.inl h3
      · exact Or.inr ⟨by rw [h3, Function.iterate_succ_apply], sh n h4⟩
    · rw [if_neg h]
      exact ⟨⟨0, by omega, rfl, by omega⟩, Or.inl (by simpa using h)⟩

/-- The counter never comes to 0 (R45). -/
theorem ticketAfter_ne_zero (t : Word32) : ticketAfter t ≠ 0 := by
  unfold ticketAfter
  split
  · decide
  · rename_i h2
    intro h3
    apply h2
    have h4 := congrArg BitVec.toNat h3
    apply BitVec.eq_of_toNat_eq
    rw [BitVec.toNat_add] at h4
    have := t.isLt
    simp at h4 ⊢
    omega

/-- The counter goes round the values 1 to 4,294,967,295 (R45). -/
theorem ticketAfter_toNat (t : Word32) (h : t ≠ 0) : (ticketAfter t).toNat = (t.toNat - 1 + 1) % 4294967295 + 1 := by
  unfold ticketAfter
  split
  · rename_i h2; subst h2; decide +kernel
  · rename_i h2
    have h3 : t.toNat ≠ 4294967295 := by
      intro hh; apply h2; apply BitVec.eq_of_toNat_eq; rw [hh]; decide
    have h4 : t.toNat ≠ 0 := by intro hh; apply h; apply BitVec.eq_of_toNat_eq; rw [hh]; rfl
    have := t.isLt
    rw [BitVec.toNat_add]
    simp
    omega

/-- The value of the counter `k` places on. -/
theorem ticketAfter_iterate (k : Nat) (t : Word32) (h : t ≠ 0) : (ticketAfter^[k]) t ≠ 0 ∧ ((ticketAfter^[k]) t).toNat =
    (t.toNat - 1 + k) % 4294967295 + 1 := by
  induction k with
  | zero =>
    refine ⟨h, ?_⟩
    have h4 : t.toNat ≠ 0 := by intro hh; apply h; apply BitVec.eq_of_toNat_eq; rw [hh]; rfl
    have := t.isLt
    simp only [Function.iterate_zero, id]
    omega
  | succ k ih =>
    rw [Function.iterate_succ_apply']
    refine ⟨ticketAfter_ne_zero _, ?_⟩
    rw [ticketAfter_toNat _ ih.1, ih.2]
    omega

/-- The head clean-up moves HEAD and COUNT alone, and ends at an empty queue or a head that is not VOID (R113). -/
theorem cleanSteps_spec (cap n : Nat) (v : QState) :
    (cleanSteps cap n v).tail = v.tail ∧ (cleanSteps cap n v).live = v.live ∧
        (cleanSteps cap n v).lastTicket = v.lastTicket ∧
    (cleanSteps cap n v).appended = v.appended ∧ (cleanSteps cap n v).taken = v.taken ∧
        (cleanSteps cap n v).voided = v.voided ∧
    (cleanSteps cap n v).waiters = v.waiters ∧ (cleanSteps cap n v).count ≤ v.count ∧
    (n = v.count → ((cleanSteps cap n v).count = 0 ∨ ∀ x, (cleanSteps cap n v).position
        (cleanSteps cap n v).head = some x → x.state ≠ .void)) := by
  induction n generalizing v with
  | zero => exact ⟨rfl, rfl, rfl, rfl, rfl, rfl, rfl, le_refl _, fun h => Or.inl h.symm⟩
  | succ n ih =>
    unfold cleanSteps
    cases hp : v.position v.head with
    | none => exact ⟨rfl, rfl, rfl, rfl, rfl, rfl, rfl, le_refl _, fun _ => Or.inr
        (by intro x hx; simp only at hx; rw [hp] at hx; cases hx)⟩
    | some p =>
      simp only
      by_cases hv : p.state = .void
      · rw [if_pos hv]
        obtain ⟨h1, h2, h3, h4, h5, h6, h7, h8, h9⟩ :=
          ih { v with positions := Map.del v.head v.positions, head := (v.head + 1) % cap, count := v.count - 1 }
        exact ⟨h1, h2, h3, h4, h5, h6, h7, le_trans h8 (by simp), fun h => h9 (by simp only; omega)⟩
      · rw [if_neg hv]
        exact ⟨rfl, rfl, rfl, rfl, rfl, rfl, rfl, le_refl _, fun _ => Or.inr
            (by intro x hx; rw [hp] at hx; cases hx; exact hv)⟩

/-- A void answered ALREADY_TAKEN changes nothing (R112). -/
theorem State.voidEntry_of_not_voided (q : Fin 6) (ring : Nat) (t : Word32) (id : SlotId) (s : State) (h :
    (s.voidEntry q ring t id).1 = false) :
    (s.voidEntry q ring t id).2 = s := by
  revert h
  unfold State.voidEntry
  split
  · split
    · split
      · intro h; cases h
      · intro h; cases h
      · intro; rfl
    · intro; rfl
  · intro; rfl

/-- The availability lists after one is set. -/
theorem getD_put_list (key j : Nat) (l : List Nat) (avail : Map (List Nat)) :
    Map.getD [] (Map.put [] key l avail) j = if j = key then l else Map.getD [] avail j := by
  rw [Map.getD_put]; simp only [eq_comm]

/-- A list is of one class and one kind (R70). -/
theorem listKey_inj (c d : Nat) (k j : ZoneKind) (h : listKey c k = listKey d j) : c = d ∧ k = j := by
  cases k <;> cases j <;> simp [listKey] at h ⊢ <;> omega

/-- The bin's own part of eligibility (R70). -/
theorem Bin.takesReservation_iff (b : Bin) : b.takesReservation = true ↔ b.state = .opened ∧ 0 < b.free := by
  unfold Bin.takesReservation; simp

/-- The rebuilt list of a class and kind holds the eligible bins of the 2048 in ascending number (R72). -/
theorem list_buildLists (zones : List Zone) (bins : Map Bin) (c : Nat) (k : ZoneKind) :
    Map.getD [] (buildLists zones bins) (listKey c k)
      = (List.range Config.bins).filter (fun b =>
          decide (kindOf zones b = some k) && (Map.getD Bin.reset bins b).takesReservation
            && decide ((Map.getD Bin.reset bins b).cls = c)) := by
  have step : ∀ (avail : Map (List Nat)) (b : Nat),
      Map.getD [] (joinEligible zones bins avail b) (listKey c k)
        = Map.getD [] avail (listKey c k) ++ [b].filter (fun b =>
          decide (kindOf zones b = some k) && (Map.getD Bin.reset bins b).takesReservation
            && decide ((Map.getD Bin.reset bins b).cls = c)) := by
    intro avail b
    unfold joinEligible
    cases hk : kindOf zones b with
    | none => simp [hk]
    | some j =>
      by_cases ht : (Map.getD Bin.reset bins b).takesReservation = true
      · simp only [ht, if_true]
        unfold joinList
        rw [getD_put_list]
        by_cases hj : listKey c k = listKey (Map.getD Bin.reset bins b).cls j
        · obtain ⟨h1, h2⟩ := listKey_inj _ _ _ _ hj
          subst h2; simp [hk, ht, h1]
        · have : ¬ (j = k ∧ (Map.getD Bin.reset bins b).cls = c) := by
            rintro ⟨rfl, rfl⟩; exact hj rfl
          by_cases h1 : j = k
          · have h2 : (Map.getD Bin.reset bins b).cls ≠ c := fun e => this ⟨h1, e⟩
            simp [hk, ht, hj, h2]
          · simp [hk, ht, hj, h1]
      · simp [ht]
  have key : ∀ (l : List Nat) (avail : Map (List Nat)),
      Map.getD [] (l.foldl (joinEligible zones bins) avail) (listKey c k)
        = Map.getD [] avail (listKey c k) ++ l.filter (fun b =>
          decide (kindOf zones b = some k) && (Map.getD Bin.reset bins b).takesReservation
            && decide ((Map.getD Bin.reset bins b).cls = c)) := by
    intro l
    induction l with
    | nil => intro avail; simp
    | cons b r ih =>
      intro avail
      rw [List.foldl_cons, ih, step, List.append_assoc, ← List.filter_append]; rfl
  unfold buildLists
  rw [key]; exact List.nil_append _
/-- The lists of R70 stay right through a change of one bin (R71). -/
theorem listsHoldEligible_relist (u : Bu) (b : Nat) (new : Bin) (h : listsHoldEligible u) :
    listsHoldEligible { u with bins := Map.put Bin.reset b new u.bins, avail := relist u.zones b (u.bin b) new u.avail }
        := by
  intro c k
  have hbin : ∀ x, ({ u with bins := Map.put Bin.reset b new u.bins, avail := relist u.zones b (u.bin b) new u.avail } :
      Bu).bin x
      = if x = b then new else u.bin x := by
    intro x; refine (Map.getD_put Bin.reset b x new u.bins).trans ?_; simp only [eq_comm (a := b)]; rfl
  simp only [hbin]
  show (Map.getD [] (relist u.zones b (u.bin b) new u.avail) (listKey c k)).Nodup ∧ ∀ x, x ∈ Map.getD []
      (relist u.zones b (u.bin b) new u.avail) (listKey c k) ↔ _
  have h0 : ∀ c k, (Map.getD [] u.avail (listKey c k)).Nodup ∧ ∀ x, x ∈ Map.getD [] u.avail (listKey c k) ↔
      (u.bin x).state = .opened ∧ 0 < (u.bin x).free ∧ kindOf u.zones x = some k ∧ (u.bin x).cls = c := h
  unfold relist
  cases hk : kindOf u.zones b with
  | none =>
    simp only
    refine ⟨(h0 c k).1, fun x => ?_⟩
    by_cases hx : x = b
    · subst hx; rw [if_pos rfl, (h0 c k).2]; simp [hk]
    · rw [if_neg hx]; exact (h0 c k).2 x
  | some kd =>
    simp only
    set was := (Map.getD [] u.avail (listKey (u.bin b).cls kd)).contains b with hwas
    have hw : was = true ↔ (u.bin b).state = .opened ∧ 0 < (u.bin b).free := by
      rw [hwas, List.contains_iff_mem, (h0 _ _).2]; simp [hk]
    by_cases hstay : (was && new.takesReservation && decide ((u.bin b).cls = new.cls)) = true
    · rw [if_pos hstay]
      simp only [Bool.and_eq_true, decide_eq_true_eq] at hstay
      refine ⟨(h0 c k).1, fun x => ?_⟩
      by_cases hx : x = b
      · subst hx; rw [if_pos rfl, (h0 c k).2]
        have a := hw.1 hstay.1.1
        have b' := (Bin.takesReservation_iff new).1 hstay.1.2
        rw [hstay.2]; tauto
      · rw [if_neg hx]; exact (h0 c k).2 x
    · rw [if_neg hstay]
      set left := (if was = true then leaveList (listKey (u.bin b).cls kd) b u.avail else u.avail) with hleft
      have hl : ∀ c k, (Map.getD [] left (listKey c k)).Nodup ∧ ∀ x, x ∈ Map.getD [] left (listKey c k) ↔
          x ≠ b ∧ (u.bin x).state = .opened ∧ 0 < (u.bin x).free ∧ kindOf u.zones x = some k ∧ (u.bin x).cls = c := by
        intro c k
        rw [hleft]
        by_cases hwt : was = true
        · rw [if_pos hwt]
          unfold leaveList
          rw [getD_put_list]
          by_cases hkey : listKey c k = listKey (u.bin b).cls kd
          · obtain ⟨rfl, rfl⟩ := listKey_inj _ _ _ _ hkey
            rw [if_pos rfl]
            refine ⟨(h0 _ _).1.filter _, fun x => ?_⟩
            simp only [List.mem_filter, bne_iff_ne, ne_eq, (h0 _ _).2 x]; tauto
          · rw [if_neg hkey]
            refine ⟨(h0 _ _).1, fun x => ?_⟩
            rw [(h0 _ _).2 x]
            constructor
            · intro hh
              refine ⟨?_, hh⟩
              rintro rfl
              apply hkey
              rw [hk] at hh
              obtain ⟨_, _, h3, h4⟩ := hh
              injection h3 with h3
              rw [h3, h4]
            · exact fun hh => hh.2
        · rw [if_neg hwt]
          refine ⟨(h0 _ _).1, fun x => ?_⟩
          rw [(h0 _ _).2 x]
          constructor
          · intro hh
            refine ⟨?_, hh⟩
            rintro rfl
            exact hwt (hw.2 ⟨hh.1, hh.2.1⟩)
          · exact fun hh => hh.2
      by_cases ht : new.takesReservation = true
      · rw [if_pos ht]
        have ht' := (Bin.takesReservation_iff new).1 ht
        unfold joinList
        rw [getD_put_list]
        by_cases hkey : listKey c k = listKey new.cls kd
        · obtain ⟨rfl, rfl⟩ := listKey_inj _ _ _ _ hkey
          rw [if_pos rfl]
          refine ⟨?_, fun x => ?_⟩
          · rw [List.nodup_append]
            refine ⟨(hl _ _).1, by simp, ?_⟩
            intro x hx y hy
            simp only [List.mem_singleton] at hy
            subst hy
            exact ((hl _ _).2 x |>.1 hx).1
          · simp only [List.mem_append, List.mem_singleton, (hl _ _).2 x]
            by_cases hx : x = b
            · subst hx; simp [hk, ht']
            · simp [hx]
        · rw [if_neg hkey]
          refine ⟨(hl _ _).1, fun x => ?_⟩
          rw [(hl _ _).2 x]
          by_cases hx : x = b
          · subst hx
            simp only [ne_eq, not_true_eq_false, false_and, if_true, false_iff, hk]
            rintro ⟨_, _, h3, h4⟩
            injection h3 with h3
            exact hkey (by rw [h3, h4])
          · simp [hx]
      · rw [if_neg ht]
        refine ⟨(hl _ _).1, fun x => ?_⟩
        rw [(hl _ _).2 x]
        by_cases hx : x = b
        · subst hx
          simp only [ne_eq, not_true_eq_false, false_and, if_true, false_iff]
          rintro ⟨h1, h2, _⟩
          exact ht ((Bin.takesReservation_iff new).2 ⟨h1, h2⟩)
        · simp [hx]

/-- An issue at the bin unit changes the image write queue and its write in flight, a bin operation's note, and the own side's
waiting requests alone (R85). -/
theorem State.kickImages_spec (u : State) : ∃ bu : Bu, ∃ w own,
    u.kickImages = { u with bu := bu, cu := { u.cu with work := w }, ma := { u.ma with own := own } } ∧
    bu.bins = u.bu.bins ∧ bu.zones = u.bu.zones ∧ bu.avail = u.bu.avail ∧
    (u.bu.imageInFlight = none → (bu.imageInFlight.map (·.bin)).toList ++ bu.imageQueue = u.bu.imageQueue) := by
  unfold State.kickImages
  cases hf : u.bu.imageInFlight with
  | some f => exact ⟨u.bu, u.cu.work, u.ma.own, rfl, rfl, rfl, rfl, by simp⟩
  | none =>
    cases hc : u.bu.imageQueue with
    | nil => exact ⟨u.bu, u.cu.work, u.ma.own, rfl, rfl, rfl, rfl, fun _ => by simp [hf, hc]⟩
    | cons b r => exact ⟨_, _, _, rfl, rfl, rfl, rfl, fun _ => rfl⟩

/-- What an issue at the bin unit leaves. -/
theorem State.kickImages_frame_units (s : State) : s.kickImages.layout = s.layout ∧ s.kickImages.icu = s.icu ∧
    s.kickImages.qu = s.qu ∧ s.kickImages.ru = s.ru
   ∧ s.kickImages.gu = s.gu ∧ s.kickImages.eu = s.eu ∧ s.kickImages.dram = s.dram ∧ s.kickImages.cu.mode = s.cu.mode := by
  unfold State.kickImages; split <;> exact ⟨rfl, rfl, rfl, rfl, rfl, rfl, rfl, rfl⟩

/-- What a change of a bin leaves. -/
theorem State.changeBin_frame_units (b : Nat) (f : Bin → Bin) (s : State) : (s.changeBin b f).layout = s.layout ∧
    (s.changeBin b f).icu = s.icu ∧ (s.changeBin b f).qu = s.qu ∧ (s.changeBin b f).ru = s.ru
   ∧ (s.changeBin b f).gu = s.gu ∧ (s.changeBin b f).eu = s.eu ∧ (s.changeBin b f).dram = s.dram ∧
       (s.changeBin b f).cu.mode = s.cu.mode :=
  State.kickImages_frame_units _

/-- With an image write in flight a change of a bin changes the bin unit alone (R85). -/
theorem State.changeBin_behind (b : Nat) (f : Bin → Bin) (w : ImageWrite) (s : State) (h : s.bu.imageInFlight = some w) :
    s.changeBin b f = { s with bu := s.bu.change b f } := by
  unfold State.changeBin State.kickImages
  split
  · rename_i h1 _
    rw [show s.bu.imageInFlight = none from h1] at h
    cases h
  · rfl

/-- With no image write in flight the head of the image write queue is issued as the change leaves its bin (R79, R85). -/
theorem State.changeBin_idle (b c : Nat) (r : List Nat) (f : Bin → Bin) (s : State) (h : s.bu.imageInFlight = none)
    (hl : joinImages b s.bu.imageQueue = c :: r) :
    s.changeBin b f = { s with
      bu := { s.bu.change b f with
              imageQueue := r
              imageInFlight := some
                { bin := c, cells := cellsAt (binImageAddr s.cbBase c) (binImageBytes ((s.bu.change b f).bin c)) } }
      cu := { s.cu with work := s.cu.work.noteIssued c }
      ma := s.ma.ask .imageWrite } := by
  unfold State.changeBin State.kickImages
  simp only [show (s.bu.change b f).imageInFlight = none from h, show (s.bu.change b f).imageQueue = c :: r from hl]
  rfl

/-- What a cancel leaves. -/
theorem State.cancelResv_frame_units (id : SlotId) (s : State) : (s.cancelResv id).layout = s.layout ∧
    (s.cancelResv id).icu = s.icu ∧ (s.cancelResv id).qu = s.qu := by
  unfold State.cancelResv
  split
  · have := State.changeBin_frame_units
    exact ⟨(State.changeBin_frame_units _ _ _).1, (State.changeBin_frame_units _ _ _).2.1,
        (State.changeBin_frame_units _ _ _).2.2.1⟩
  · exact ⟨rfl, rfl, rfl⟩

/-- A cancel fills and frees no queue. -/
theorem State.queueFull_cancelResv (q : Fin 6) (id : SlotId) (s : State) : (s.cancelResv id).queueFull q = s.queueFull q
    := by
  have := State.cancelResv_frame_units id s
  unfold State.queueFull State.desc? State.queue
  rw [this.1, this.2.2]

/-- The removal of a slot's reservation leaves the other slots'. -/
theorem find_filter_ne (l : List Reservation) (id j : SlotId) (h : j ≠ id) :
    (l.filter (fun r => r.id != id)).find? (fun r => r.id == j) = l.find? (fun r => r.id == j) := by
  induction l with
  | nil => rfl
  | cons a r ih =>
    by_cases ha : a.id = id
    · have : (a.id != id) = false := by simp [ha]
      rw [List.filter_cons, this]
      simp only [Bool.false_eq_true, if_false, ih]
      rw [List.find?_cons]
      have : (a.id == j) = false := by simp [ha, Ne.symm h]
      rw [this]
    · have : (a.id != id) = true := by simp [ha]
      rw [List.filter_cons, this]
      simp only [if_true]
      rw [List.find?_cons, List.find?_cons, ih]

/-- After its removal a slot has no reservation. -/
theorem find_filter_self (l : List Reservation) (id : SlotId) :
    (l.filter (fun r => r.id != id)).find? (fun r => r.id == id) = none := by
  rw [List.find?_eq_none]
  intro x hx
  simp only [List.mem_filter, bne_iff_ne, ne_eq] at hx
  simpa using hx.2

/-- Reservations changed in place keep their slots. -/
theorem find_map_same_id (l : List Reservation) (f : Reservation → Reservation) (id : SlotId) (hf : ∀ r, (f r).id = r.id) :
    (l.map f).find? (fun r => r.id == id) = (l.find? (fun r => r.id == id)).map f := by
  induction l with
  | nil => rfl
  | cons a r ih =>
    rw [List.map_cons, List.find?_cons, List.find?_cons, hf]
    cases h : (a.id == id) <;> simp [ih]

/-- The reservation table after a cancel (R96). -/
theorem State.cancelResv_ru (id : SlotId) (s : State) : (s.cancelResv id).ru
    = (match s.ru.find? id with | some _ => s.ru.remove id | none => s.ru) := by
  unfold State.cancelResv
  cases s.ru.find? id with
  | none => rfl
  | some r => exact (State.changeBin_frame_units _ _ _).2.2.2.1

/-- The head of the deadline list is due (R100). -/
theorem Ru.due_iff (u : Ru) : u.due?.isSome = true ↔ ∃ id l r, u.deadlines = id :: l ∧ u.find? id = some r ∧
    u.deadlineOf id ≤ u.now := by
  unfold Ru.due?
  cases hd : u.deadlines with
  | nil => simp
  | cons id l =>
    simp only
    cases hf : u.find? id with
    | none => simp [hf]
    | some r =>
      simp only
      by_cases h : u.deadlineOf id ≤ u.now
      · rw [if_pos h]; simp [hf, h]
      · rw [if_neg h]; simp [h]

/-! ## What the operations of the units can do -/

/-- The note that an image write of a bin has been issued is all that may differ between two works. -/
def CuWork.sameBut (w x : CuWork) : Prop :=
  x = w ∨ ∃ seq b d i j, w = .waitImage seq b d i ∧ x = .waitImage seq b d j

/-- A change of the bin, reservation, queue and event units, of the ticket counter, of the note of a bin operation, and of the
own side's waiting requests. -/
def State.unitsOnly (s t : State) : Prop :=
  ∃ bu ru qu eu counter work own,
    t = { s with bu := bu, ru := ru, qu := qu, eu := eu, icu := { s.icu with counter := counter },
                 cu := { s.cu with work := work }, ma := { s.ma with own := own } } ∧ s.cu.work.sameBut work

/-- A change of the units, and of how far the service `svc` has come. -/
def State.servedTo (svc : Service) (s t : State) : Prop :=
  ∃ bu ru qu eu stage counter work own,
    t = { s with bu := bu, ru := ru, qu := qu, eu := eu, icu := { s.icu with stage := stage, counter := counter },
                 cu := { s.cu with work := work }, ma := { s.ma with own := own } } ∧ s.cu.work.sameBut work ∧ stage.service = some svc

theorem CuWork.sameBut_refl (w : CuWork) : w.sameBut w := Or.inl rfl

theorem CuWork.sameBut_trans {w x y : CuWork} (h : w.sameBut x) (k : x.sameBut y) : w.sameBut y := by
  rcases h with rfl | ⟨seq, b, d, i, j, h1, h2⟩
  · exact k
  · rcases k with rfl | ⟨seq', b', d', i', j', k1, k2⟩
    · exact Or.inr ⟨seq, b, d, i, j, h1, h2⟩
    · rw [h2] at k1
      injection k1 with e1 e2 e3 e4
      subst e1; subst e2; subst e3
      exact Or.inr ⟨_, _, _, i, j', h1, k2⟩

theorem CuWork.sameBut_noteIssued (w : CuWork) (b : Nat) : w.sameBut (w.noteIssued b) := by
  cases w <;> first | exact Or.inl rfl | exact Or.inr ⟨_, _, _, _, _, rfl, rfl⟩

/-- A work that is no bin operation is the same. -/
theorem CuWork.sameBut_eq {w x : CuWork} (h : w.sameBut x) (hw : ∀ seq b d i, x ≠ .waitImage seq b d i) : x = w := by
  rcases h with h | ⟨seq, b, d, i, j, _, h2⟩
  · exact h
  · exact absurd h2 (hw _ _ _ _)

theorem State.unitsOnly_refl (s : State) : s.unitsOnly s := ⟨_, _, _, _, _, _, _, rfl, CuWork.sameBut_refl _⟩

theorem State.unitsOnly_trans {s t u : State} (h : s.unitsOnly t) (k : t.unitsOnly u) : s.unitsOnly u := by
  obtain ⟨_, _, _, _, _, _, _, rfl, h⟩ := h
  obtain ⟨_, _, _, _, _, _, _, rfl, k⟩ := k
  exact ⟨_, _, _, _, _, _, _, rfl, CuWork.sameBut_trans h k⟩

theorem State.servedTo_of_units {svc : Service} {s t u : State} (h : s.unitsOnly t) (k : t.servedTo svc u) :
    s.servedTo svc u := by
  obtain ⟨_, _, _, _, _, _, _, rfl, h⟩ := h
  obtain ⟨_, _, _, _, _, _, _, _, rfl, k, e⟩ := k
  exact ⟨_, _, _, _, _, _, _, _, rfl, CuWork.sameBut_trans h k, e⟩

theorem State.units_of_servedTo {svc : Service} {s t u : State} (h : s.servedTo svc t) (k : t.unitsOnly u) :
    s.servedTo svc u := by
  obtain ⟨_, _, _, _, _, _, _, _, rfl, h, e⟩ := h
  obtain ⟨_, _, _, _, _, _, _, rfl, k⟩ := k
  exact ⟨_, _, _, _, _, _, _, _, rfl, CuWork.sameBut_trans h k, e⟩

theorem State.servedTo_trans {svc : Service} {s t u : State} (h : s.servedTo svc t) (k : t.servedTo svc u) :
    s.servedTo svc u := by
  obtain ⟨_, _, _, _, _, _, _, _, rfl, h, _⟩ := h
  obtain ⟨_, _, _, _, _, _, _, _, rfl, k, e⟩ := k
  exact ⟨_, _, _, _, _, _, _, _, rfl, CuWork.sameBut_trans h k, e⟩

/-- A service whose stage is set. -/
theorem State.servedTo_stage (svc : Service) (stage : IcuStage) (s : State) (h : stage.service = some svc) :
    s.servedTo svc { s with icu := { s.icu with stage := stage } } :=
  ⟨_, _, _, _, _, _, _, _, rfl, CuWork.sameBut_refl _, h⟩

/-- A service whose stage is set, with a request of the own side issued. -/
theorem State.servedTo_ask (svc : Service) (stage : IcuStage) (q : OwnReq) (s : State) (h : stage.service = some svc) :
    s.servedTo svc { s with icu := { s.icu with stage := stage }, ma := s.ma.ask q } :=
  ⟨_, _, _, _, _, _, _, _, rfl, CuWork.sameBut_refl _, h⟩

theorem State.raise_units (k : EventKind) (s : State) : s.unitsOnly (s.raise k) :=
  ⟨_, _, _, _, _, _, _, rfl, CuWork.sameBut_refl _⟩

theorem State.setQueue_units (q : Fin 6) (v : QState) (s : State) : s.unitsOnly (s.setQueue q v) :=
  ⟨_, _, _, _, _, _, _, rfl, CuWork.sameBut_refl _⟩

theorem State.kickQu_units (s : State) : s.unitsOnly s.kickQu := by
  unfold State.kickQu
  split
  · exact ⟨_, _, _, _, _, _, _, rfl, CuWork.sameBut_refl _⟩
  · exact s.unitsOnly_refl

theorem State.joinQu_units (i : QuItem) (s : State) : s.unitsOnly (s.joinQu i) :=
  State.unitsOnly_trans ⟨_, _, _, _, _, _, _, rfl, CuWork.sameBut_refl _⟩ (State.kickQu_units _)

theorem State.kickImages_units (s : State) : s.unitsOnly s.kickImages := by
  unfold State.kickImages
  split
  · exact ⟨_, _, _, _, _, _, _, rfl, CuWork.sameBut_noteIssued _ _⟩
  · exact s.unitsOnly_refl

theorem State.changeBin_units (b : Nat) (f : Bin → Bin) (s : State) : s.unitsOnly (s.changeBin b f) :=
  State.unitsOnly_trans ⟨_, _, _, _, _, _, _, rfl, CuWork.sameBut_refl _⟩ (State.kickImages_units _)

theorem State.reserveBin_units (cls : Nat) (k : ZoneKind) (s : State) : s.unitsOnly (s.reserveBin cls k).2 := by
  unfold State.reserveBin
  split
  · exact s.unitsOnly_refl
  · exact State.changeBin_units _ _ s

theorem State.removeResv_units (id : SlotId) (s : State) : s.unitsOnly (s.removeResv id) :=
  ⟨_, _, _, _, _, _, _, rfl, CuWork.sameBut_refl _⟩

theorem State.cancelResv_units (id : SlotId) (s : State) : s.unitsOnly (s.cancelResv id) := by
  unfold State.cancelResv
  split
  · exact State.unitsOnly_trans (State.removeResv_units _ s) (State.changeBin_units _ _ _)
  · exact s.unitsOnly_refl

theorem State.createResv_units (id : SlotId) (b : Nat) (q : Fin 6) (t : Word32) (s : State) :
    s.unitsOnly (s.createResv id b q t) :=
  State.unitsOnly_trans (State.cancelResv_units id s) ⟨_, _, _, _, _, _, _, rfl, CuWork.sameBut_refl _⟩

theorem State.confirmResv_units (id : SlotId) (b : Nat) (s : State) : s.unitsOnly (s.confirmResv id b).2 := by
  unfold State.confirmResv
  repeat' split
  all_goals first
    | exact s.unitsOnly_refl
    | exact State.unitsOnly_trans (State.removeResv_units _ s) (State.changeBin_units _ _ _)

theorem State.misfitResv_units (id : SlotId) (s : State) : s.unitsOnly (s.misfitResv id).2 := by
  unfold State.misfitResv
  repeat' split
  all_goals first
    | exact s.unitsOnly_refl
    | exact State.unitsOnly_trans (State.removeResv_units _ s) (State.changeBin_units _ _ _)

theorem State.lateOccupyBin_units (b : Nat) (s : State) : s.unitsOnly (s.lateOccupyBin b).2 := by
  unfold State.lateOccupyBin
  split
  · exact State.changeBin_units _ _ s
  · exact s.unitsOnly_refl

theorem State.issueEntry_units (q : Fin 6) (bytes : List Byte) (s : State) : s.unitsOnly (s.issueEntry q bytes) := by
  unfold State.issueEntry
  split
  · exact State.joinQu_units _ s
  · exact s.unitsOnly_refl

theorem State.appendEffect_units (q : Fin 6) (t : Word32) (id : SlotId) (s : State) : s.unitsOnly (s.appendEffect q t id)
    := by
  unfold State.appendEffect
  split
  · refine State.unitsOnly_trans (State.unitsOnly_trans ?_ (State.joinQu_units _ _)) (State.joinQu_units _ _)
    split
    · exact State.unitsOnly_trans ⟨_, _, _, _, _, _, _, rfl, CuWork.sameBut_refl _⟩ (State.raise_units _ _)
    · exact ⟨_, _, _, _, _, _, _, rfl, CuWork.sameBut_refl _⟩
  · exact s.unitsOnly_refl

theorem State.voidEntry_units (q : Fin 6) (ring : Nat) (t : Word32) (id : SlotId) (s : State) :
    s.unitsOnly (s.voidEntry q ring t id).2 := by
  unfold State.voidEntry
  split
  · split
    · split
      · exact State.unitsOnly_trans (State.unitsOnly_trans (State.unitsOnly_trans (State.setQueue_units _ _ s)
          (State.joinQu_units _ _))
          (State.setQueue_units _ _ _)) (State.joinQu_units _ _)
      · exact s.unitsOnly_refl
      · exact s.unitsOnly_refl
    · exact s.unitsOnly_refl
  · exact s.unitsOnly_refl

/-! ## What a service can do -/

theorem State.startWriteBack_served (svc : Service) (cells : Cells) (events : List EventKind) (s : State) :
    s.servedTo svc (s.startWriteBack svc cells events) := State.servedTo_ask svc _ .writeBack s rfl

theorem State.endCommand_served (svc : Service) (rec : Rec) (u : RecUpdate) (events : List EventKind) (s : State) :
    s.servedTo svc (s.endCommand svc rec u events) := State.startWriteBack_served _ _ _ s

theorem State.refuseCommand_served (svc : Service) (rec : Rec) (res : RecResult) (s : State) :
    s.servedTo svc (s.refuseCommand svc rec res) := State.startWriteBack_served _ _ _ s

theorem State.appendTaken_served (svc : Service) (rec : Rec) (r : Route) (s : State) : s.servedTo svc
    (s.appendTaken svc rec r) :=
  State.units_of_servedTo (State.servedTo_stage svc (.entryWrite svc rec r) s rfl) (State.issueEntry_units _ _ _)

theorem State.fallToHold_units (svc : Service) (r : Route) (s : State) : s.unitsOnly (s.fallToHold svc r).2 := by
  unfold State.fallToHold
  simp only
  split
  · exact State.cancelResv_units _ s
  · exact s.unitsOnly_refl

theorem State.takeAppend_served (svc : Service) (rec : Rec) (r : Route) (s : State) : s.servedTo svc
    (s.takeAppend svc rec r) := by
  unfold State.takeAppend
  split
  · split
    · exact State.endCommand_served _ _ _ _ s
    · simp only
      split
      · exact State.servedTo_of_units (State.fallToHold_units svc r s) (State.endCommand_served _ _ _ _ _)
      · exact State.servedTo_of_units (State.fallToHold_units svc r s) (State.appendTaken_served _ _ _ _)
  · exact State.appendTaken_served svc rec r s

theorem State.claimAppend_served (svc : Service) (rec : Rec) (r : Route) (s : State) : s.servedTo svc
    (s.claimAppend svc rec r) := by
  unfold State.claimAppend
  split
  · exact State.servedTo_stage svc _ s rfl
  · exact State.takeAppend_served svc rec r s

theorem State.seekBin_units (r : Route) (cls : Nat) (s : State) : s.unitsOnly (s.seekBin r cls).2 := by
  unfold State.seekBin
  have hp := State.reserveBin_units cls .pick s
  have hr := State.reserveBin_units cls .reserve s
  split
  · split
    · rename_i h; rw [h] at hp; exact hp
    · split
      · rename_i h; rw [h] at hr; exact hr
      · exact s.unitsOnly_refl
  · split
    · rename_i h; rw [h] at hr; exact hr
    · exact s.unitsOnly_refl

theorem State.runChain_served (svc : Service) (rec : Rec) (r : Route) (s : State) : s.servedTo svc (s.runChain svc rec r)
    := by
  unfold State.runChain
  have h := State.seekBin_units r rec.cls s
  split
  · split
    · split
      · rename_i e; rw [e] at h
        exact State.servedTo_of_units (State.unitsOnly_trans h (State.createResv_units _ _ _ _ _))
            (State.claimAppend_served _ _ _ _)
      · rename_i e; rw [e] at h
        exact State.servedTo_of_units h (State.claimAppend_served _ _ _ _)
    · exact State.claimAppend_served _ _ _ s
  · exact State.claimAppend_served _ _ _ s

theorem State.routeGraded_served (k : ChainKind) (svc : Service) (rec : Rec) (g : Graded) (s : State) :
    s.servedTo svc (s.routeGraded k svc rec g) := State.runChain_served _ _ _ s

theorem State.afterVoid_served (svc : Service) (rec : Rec) (graded : Option Graded) (voided : Bool) (s : State) :
    s.servedTo svc (s.afterVoid svc rec graded voided) := by
  have hc : ∀ b : Bool, s.unitsOnly (if b then s.cancelResv svc.entry.slot else s) := by
    intro b; cases b
    · exact s.unitsOnly_refl
    · exact State.cancelResv_units _ s
  have ht : ∀ (g : Graded) (u : State), s.unitsOnly u →
      s.servedTo svc (if u.layout.isTrial svc.entry.slot then u.endTrial svc rec g (some (rec.regrades + 1))
        else u.routeGraded .regrade svc rec g) := by
    intro g u hu
    split
    · exact State.servedTo_of_units hu (State.endCommand_served _ _ _ _ _)
    · exact State.servedTo_of_units hu (State.routeGraded_served _ _ _ _ _)
  unfold State.afterVoid
  split
  · unfold State.regradeAfterVoid
    split
    · exact ht _ _ (hc _)
    · exact State.refuseCommand_served _ _ _ s
  · exact State.servedTo_of_units (hc _) (State.endCommand_served _ _ _ _ _)

theorem State.takeVoid_served (svc : Service) (rec : Rec) (graded : Option Graded) (s : State) :
    s.servedTo svc (s.takeVoid svc rec graded) := by
  unfold State.takeVoid
  split
  · exact State.servedTo_of_units (State.voidEntry_units _ _ _ _ s) (State.afterVoid_served _ _ _ _ _)
  · exact State.afterVoid_served _ _ _ _ s

theorem State.claimVoid_served (svc : Service) (rec : Rec) (graded : Option Graded) (s : State) :
    s.servedTo svc (s.claimVoid svc rec graded) := by
  unfold State.claimVoid
  split
  · exact State.servedTo_stage svc _ s rfl
  · exact State.takeVoid_served _ _ _ s

theorem State.serveOpen_served (svc : Service) (rec : Rec) (s : State) : s.servedTo svc (s.serveOpen svc rec) :=
  State.startWriteBack_served _ _ _ s

theorem State.serveClear_served (svc : Service) (rec : Rec) (s : State) : s.servedTo svc (s.serveClear svc rec) :=
  State.startWriteBack_served _ _ _ s

theorem State.serveCommit_served (svc : Service) (rec : Rec) (s : State) : s.servedTo svc (s.serveCommit svc rec) := by
  unfold State.serveCommit
  split
  · exact State.refuseCommand_served _ _ _ s
  · split
    · exact State.endCommand_served _ _ _ _ s
    · exact State.routeGraded_served _ _ _ _ s

theorem State.serveRegrade_served (svc : Service) (rec : Rec) (s : State) : s.servedTo svc (s.serveRegrade svc rec) := by
  unfold State.serveRegrade
  split
  · exact State.refuseCommand_served _ _ _ s
  · split
    · exact State.endCommand_served _ _ _ _ s
    · exact State.claimVoid_served _ _ _ s

theorem State.servePlacedLate_served (svc : Service) (rec : Rec) (s : State) : s.servedTo svc (s.servePlacedLate svc rec)
    := by
  have h : s.unitsOnly (if rec.cmdArg < Config.bins then s.lateOccupyBin rec.cmdArg else (none, s)).2 := by
    split
    · exact State.lateOccupyBin_units _ s
    · exact s.unitsOnly_refl
  unfold State.servePlacedLate
  simp only
  split
  · rename_i e; rw [e] at h; exact State.servedTo_of_units h (State.endCommand_served _ _ _ _ _)
  · rename_i e; rw [e] at h; exact State.servedTo_of_units h (State.endCommand_served _ _ _ _ _)

theorem State.servePlaced_served (svc : Service) (rec : Rec) (s : State) : s.servedTo svc (s.servePlaced svc rec) := by
  have h := State.confirmResv_units svc.entry.slot rec.cmdArg s
  unfold State.servePlaced
  split
  · rename_i e; rw [e] at h; exact State.servedTo_of_units h (State.endCommand_served _ _ _ _ _)
  · rename_i e; rw [e] at h; exact State.servedTo_of_units h (State.refuseCommand_served _ _ _ _)
  · rename_i e; rw [e] at h; exact State.servedTo_of_units h (State.servePlacedLate_served _ _ _)

theorem State.reroute_served (svc : Service) (rec : Rec) (s : State) : s.servedTo svc (s.reroute svc rec) :=
  State.runChain_served _ _ _ s

theorem State.serveMisfit_served (svc : Service) (rec : Rec) (s : State) :
    s.servedTo svc (s.serveMisfit svc rec) := by
  have h := State.misfitResv_units svc.entry.slot s
  unfold State.serveMisfit
  split
  · exact State.refuseCommand_served _ _ _ s
  · split
    · rename_i e; rw [e] at h
      refine State.servedTo_of_units h ?_
      split
      · exact State.servedTo_stage _ _ _ rfl
      · exact State.reroute_served _ _ _
    · rename_i e; rw [e] at h; exact State.servedTo_of_units h (State.endCommand_served _ _ _ _ _)

theorem State.serveWithdraw_served (svc : Service) (rec : Rec) (s : State) : s.servedTo svc (s.serveWithdraw svc rec) := by
  unfold State.serveWithdraw
  split
  · exact State.claimVoid_served _ _ _ s
  · exact State.servedTo_of_units (State.cancelResv_units _ s) (State.endCommand_served _ _ _ _ _)
  · exact State.endCommand_served _ _ _ _ s

/-- A command of the item command unit leaves the state alone or carries on the service that is in progress, with its
fetch granted. -/
theorem State.onCommand_served (c : ItemCommand) (f : Service → Rec → State → State) (s : State)
    (hf : ∀ svc rec u, State.servedTo svc u (f svc rec u)) :
    s.onCommand c f = s ∨ ∃ svc, s.icu.stage = .fetching svc ∧ s.fetched.servedTo svc (s.onCommand c f) := by
  unfold State.onCommand State.fetched?
  cases hs : s.icu.stage with
  | fetching svc =>
    simp only
    cases he : svc.entry with
    | command id =>
      cases ha : svc.addr with
      | none => exact Or.inl rfl
      | some a =>
        simp only
        split
        · split
          · exact Or.inr ⟨svc, rfl, State.refuseCommand_served _ _ _ _⟩
          · exact Or.inr ⟨svc, rfl, hf _ _ _⟩
        · exact Or.inl rfl
    | take id q t => exact Or.inl rfl
    | expiry id t => exact Or.inl rfl
  | _ => exact Or.inl rfl

/-- A MISFIT leaves the state alone or carries on the service that is in progress: the fetch's, or a re-route that waits. -/
theorem State.misfit_served (s : State) :
    s.misfit = s ∨ ∃ svc, s.icu.stage.service = some svc ∧
      (s.servedTo svc s.misfit ∨ s.fetched.servedTo svc s.misfit) := by
  unfold State.misfit
  split
  · rename_i svc rec e; exact Or.inr ⟨svc, by rw [e]; rfl, Or.inl (State.reroute_served _ _ s)⟩
  · rcases State.onCommand_served .misfit State.serveMisfit s State.serveMisfit_served with h | ⟨svc, e, h⟩
    · exact Or.inl h
    · exact Or.inr ⟨svc, by rw [e]; rfl, Or.inr h⟩

/-- The claim that waits is taken: the service in progress goes on. -/
theorem State.resumeClaim_served (s : State) :
    s.resumeClaim = s ∨ ∃ svc, s.icu.stage.service = some svc ∧ s.servedTo svc s.resumeClaim := by
  unfold State.resumeClaim
  split
  · exact Or.inl rfl
  · split
    · rename_i svc rec g e; exact Or.inr ⟨svc, by rw [e]; rfl, State.takeVoid_served _ _ _ s⟩
    · rename_i svc rec r e; exact Or.inr ⟨svc, by rw [e]; rfl, State.takeAppend_served _ _ _ s⟩
    · exact Or.inl rfl

end Sys2Proof.Machine
end

