-- ==== Sys2Proof/Laws/Limits.lean ====
section
/-! SUPPORT. What the shared operations do to the limits of R14, R38, R128 and R137 and to a part that is HALTED (R156). -/

namespace Sys2Proof.Machine

/-! ## The traffic path keeps the limits -/

theorem State.withinLimits_of_units {s t : State} (h : s.unitsOnly t) (w : s.withinLimits) : t.withinLimits := by
  obtain ⟨_, _, _, _, _, _, _, rfl, _⟩ := h
  exact w

theorem State.withinLimits_of_served {svc : Service} {s t : State} (h : s.servedTo svc t) (w : s.withinLimits) :
    t.withinLimits := by
  obtain ⟨_, _, _, _, _, _, _, _, rfl, _, _⟩ := h
  exact w

theorem length_setHeadStage (st : Stage) (l : List Outstanding) : (setHeadStage st l).length = l.length := by
  induction l with
  | nil => rfl
  | cons o r ih => unfold setHeadStage; split <;> simp [ih]

theorem length_setOldest (f : Stage → Bool) (st : Outstanding → Stage) (l : List Outstanding) :
    (setOldest f st l).length = l.length := by
  induction l with
  | nil => rfl
  | cons o r ih => unfold setOldest; split <;> simp [ih]

theorem length_mapStages (f : Outstanding → Stage) (l : List Outstanding) : (mapStages f l).length = l.length := by
  unfold mapStages; simp

theorem length_returnable (l : List Outstanding) : (returnable l).2.length ≤ l.length := by
  induction l with
  | nil => exact Nat.le_refl _
  | cons o r ih =>
    unfold returnable
    split
    · exact Nat.le_trans ih (Nat.le_succ _)
    · exact Nat.le_refl _

/-- Six facts decide whether a state is within its limits. -/
theorem State.withinLimits_of_le {s t : State} (w : s.withinLimits) (hd : Memory.wf s.dram = true → Memory.wf t.dram = true)
    (hA : t.portA.outstanding.length ≤ s.portA.outstanding.length)
    (hB : t.portB.outstanding.length ≤ s.portB.outstanding.length) (hf : t.buffered ≤ s.buffered)
    (hs : s.ma.sent ≤ s.fwd.length → t.ma.sent ≤ t.fwd.length) (hc : s.forwardCovers → t.forwardCovers) :
    t.withinLimits := by
  obtain ⟨w1, w2, w3, w4, w5, w6⟩ := w
  exact ⟨hd w1, Nat.le_trans hA w2, Nat.le_trans hB w3, Nat.le_trans hf w4, hs w5, hc w6⟩

theorem State.withinLimits_mapStages (f : Outstanding → Stage) (s : State) (w : s.withinLimits) :
    (s.mapStages f).withinLimits :=
  State.withinLimits_of_le w id (Nat.le_of_eq (length_mapStages _ _)) (Nat.le_of_eq (length_mapStages _ _))
    (Nat.le_refl _) id id

theorem State.withinLimits_setHead (p : Port) (st : Stage) (s : State) (w : s.withinLimits) :
    (s.setHead p st).withinLimits := by
  cases p
  · exact State.withinLimits_of_le w id (Nat.le_of_eq (length_setHeadStage _ _)) (Nat.le_refl _) (Nat.le_refl _) id id
  · exact State.withinLimits_of_le w id (Nat.le_refl _) (Nat.le_of_eq (length_setHeadStage _ _)) (Nat.le_refl _) id id

theorem State.withinLimits_setOldest (p : Port) (f : Stage → Bool) (st : Outstanding → Stage) (s : State) (w :
    s.withinLimits) :
    (s.setOldest p f st).withinLimits := by
  cases p
  · exact State.withinLimits_of_le w id (Nat.le_of_eq (length_setOldest _ _ _)) (Nat.le_refl _) (Nat.le_refl _) id id
  · exact State.withinLimits_of_le w id (Nat.le_refl _) (Nat.le_of_eq (length_setOldest _ _ _)) (Nat.le_refl _) id id

theorem State.withinLimits_deliver (s : State) (w : s.withinLimits) : s.deliver.withinLimits :=
  State.withinLimits_of_le w id (length_returnable _) (length_returnable _) (Nat.le_refl _) id id

/-- An answer to a read of the own side. -/
theorem State.withinLimits_ownRead (r : OwnReq) (s : State) (w : s.withinLimits) : (s.ownRead r).withinLimits :=
  State.withinLimits_of_le w id (Nat.le_refl _) (Nat.le_refl _) (Nat.le_refl _)
    (fun h => (Arbiter.grantOwn_spec s.finds s.fwd.length r s.ma h).1) id

theorem State.withinLimits_askOwn (r : OwnReq) (s : State) (w : s.withinLimits) : (s.askOwn r).withinLimits := w

theorem State.withinLimits_ownWrite (r : OwnReq) (cells : Cells) (a : WriteAnswer) (s : State) (w : s.withinLimits) :
    (s.ownWrite r cells a).withinLimits :=
  State.withinLimits_of_le w (Memory.wf_setUnder _ _ _) (Nat.le_refl _) (Nat.le_refl _) (Nat.le_refl _)
    (State.sent_ownWrite r cells a s) id

/-- A grant of a forwarded read. -/
theorem State.withinLimits_grantRead (n : Nat) (s : State) (w : s.withinLimits) (hn : n ≤ s.fwd.length) :
    (s.grantRead n).withinLimits :=
  State.withinLimits_of_le w id (Nat.le_refl _) (Nat.le_refl _) (Nat.le_refl _)
    (fun h => by show (s.ma.grantRead s.finds n).sent ≤ _; rw [(Arbiter.grantRead_spec s.finds n s.ma).1]; exact Nat.max_le.mpr ⟨h, hn⟩)
    id

theorem State.withinLimits_readParts (n : Nat) (l : List ReadPart) (s : State) (w : s.withinLimits)
    (hn : n ≤ s.fwd.length) : (s.readParts n l).2.withinLimits := by
  induction l generalizing s with
  | nil => exact w
  | cons x r ih =>
    cases x with
    | mem a k => exact ih _ (State.withinLimits_grantRead n s w hn) hn
    | synth b => exact ih _ w hn

theorem State.withinLimits_serveTurn (t : Nat) (p : Port) (s : State) (w : s.withinLimits) :
    (s.serveTurn t p).withinLimits := by
  unfold State.serveTurn
  split
  · exact State.withinLimits_setOldest _ _ _ _ (State.withinLimits_readParts _ _ _ w (Nat.min_le_right _ _))
  · exact w

theorem State.withinLimits_serveTurns (n : Nat) (s : State) (w : s.withinLimits) : (s.serveTurns n).withinLimits := by
  induction n generalizing s with
  | zero => exact w
  | succ n ih =>
    unfold State.serveTurns
    split
    · exact ih _ (State.withinLimits_serveTurn _ _ _ (State.withinLimits_serveTurn _ _ _ w))
    · exact w

theorem State.withinLimits_answerForward (cells : Cells) (a : WriteAnswer) (s : State) (w : s.withinLimits) :
    (s.answerForward cells a).withinLimits := by
  apply State.withinLimits_serveTurns
  apply State.withinLimits_mapStages
  refine State.withinLimits_of_le w (Memory.wf_setUnder _ _ _) (Nat.le_refl _) (Nat.le_refl _) ?_ (fun h => ?_)
    (fun h x hx => h x (List.mem_of_mem_tail hx))
  · exact List.Sublist.countP_le (List.tail_sublist _)
  · show ((s.ma.grantWrite s.finds s.fwd.length).answer .forwarded _).sent ≤ s.fwd.tail.length
    rw [List.length_tail]
    exact Arbiter.sent_answer_grantWrite _ _ _ _ h

/-- The oldest forwarded write leaves the list when it is answered. -/
theorem State.answerForward_fwd (cells : Cells) (a : WriteAnswer) (s : State) : (s.answerForward cells a).fwd = s.fwd.tail := by
  simp

theorem State.withinLimits_serveForward (l : List FwdWrite) (s : State) (w : s.withinLimits) :
    (State.serveForward l s).withinLimits := by
  induction l generalizing s with
  | nil => exact w
  | cons x r ih =>
    unfold State.serveForward
    split
    · exact ih _ (State.withinLimits_setOldest _ _ _ _ (State.withinLimits_answerForward _ _ _ w))
    · refine ih _ (State.withinLimits_setOldest _ _ _ _ ?_)
      have h := State.withinLimits_answerForward x.cells ‹_› _ w
      unfold State.takeEnable
      split <;> exact h
    · exact w

theorem State.withinLimits_goForward (s : State) (w : s.withinLimits) : s.goForward.withinLimits :=
  State.withinLimits_serveForward _ _ w

/-- The enabled bytes of a run of bytes lie in the run. -/
theorem mem_enabledCells (a : Nat) (l : List (Option Byte)) (c : Host.Cell) (h : c ∈ enabledCells a l) :
    a ≤ c.1 ∧ c.1 < a + l.length := by
  induction l generalizing a with
  | nil => cases h
  | cons x r ih =>
    cases x with
    | none => have := ih (a + 1) h; rw [List.length_cons]; omega
    | some b =>
      rcases List.mem_cons.mp h with rfl | h
      · rw [List.length_cons]; exact ⟨Nat.le_refl _, by simp only; omega⟩
      · have := ih (a + 1) h; rw [List.length_cons]; omega

/-- A write's enabled bytes lie among the bytes it covers (R127). -/
theorem mem_writeCellsOf (r : WriteReq) (c : Host.Cell) (h : c ∈ writeCellsOf r) :
    r.addr.toNat ≤ c.1 ∧ c.1 < r.addr.toNat + r.len := by
  have := mem_enabledCells _ _ c h
  have := List.length_take_le r.len r.bytes
  omega

theorem State.withinLimits_joinForward (r : WriteReq) (cells : Cells) (k : FwdKind) (s : State) (w : s.withinLimits)
    (hc : ∀ c ∈ cells, c ∈ writeCellsOf r) (h : k = .posted → s.buffered < 8) : (s.joinForward r cells k).withinLimits := by
  obtain ⟨w1, w2, w3, w4, w5, w6⟩ := w
  refine ⟨w1, w2, w3, ?_, by show s.ma.sent ≤ (s.fwd ++ [_]).length; simp; omega, fun x hx => ?_⟩
  · show (s.fwd ++ [_]).countP _ ≤ 8
    rw [List.countP_append, List.countP_singleton]
    unfold State.buffered at h w4
    by_cases hk : k = .posted
    · have := h hk; split <;> omega
    · have : FwdWrite.isPosted { addr := r.addr.toNat, len := r.len, cells := cells, kind := k } = false := by
        simp [FwdWrite.isPosted, hk]
      rw [this]; simpa using w4
  · rcases List.mem_append.mp hx with hx | hx
    · exact w6 x hx
    · rw [List.mem_singleton] at hx
      subst hx
      exact fun c h => mem_writeCellsOf r c (hc c h)

theorem State.withinLimits_forwardWrite (r : WriteReq) (cells : Cells) (k : FwdKind) (s : State) (w : s.withinLimits)
    (hc : ∀ c ∈ cells, c ∈ writeCellsOf r) (hk : k ≠ .posted) : (s.forwardWrite r cells k).2.withinLimits := by
  unfold State.forwardWrite
  split
  · exact w
  · exact State.withinLimits_joinForward _ _ _ _ w hc (fun h => absurd h hk)

theorem State.withinLimits_forwardRead (r : ReadReq) (parts : List ReadPart) (s : State) (w : s.withinLimits) :
    (s.forwardRead r parts).2.withinLimits := by
  unfold State.forwardRead
  split
  · exact State.withinLimits_readParts _ _ _ w (Nat.le_refl _)
  · exact w

theorem State.withinLimits_protect (all kept : Cells) (s : State) (w : s.withinLimits) :
    (s.protect all kept).withinLimits := by
  unfold State.protect
  split <;> exact w

theorem State.takeNext_only_icu (s : State) : ∃ icu own, s.takeNext = { s with icu := icu, ma := { s.ma with own := own } } := by
  unfold State.takeNext
  split
  · split
    · unfold Arbiter.askFetch
      split <;> exact ⟨_, _, rfl⟩
    · exact ⟨s.icu, s.ma.own, rfl⟩
  · exact ⟨s.icu, s.ma.own, rfl⟩

theorem State.joinCq_only_icu (e : CqEntry) (s : State) :
    ∃ icu own, s.joinCq e = { s with icu := icu, ma := { s.ma with own := own } } := by
  obtain ⟨icu, own, h⟩ := State.takeNext_only_icu { s with icu := { s.icu with cq := s.icu.cq ++ [e] } }
  exact ⟨icu, own, h⟩

theorem State.beginTake_only_units (q : Fin 6) (tag : Fin 8) (s : State) :
    ∃ qu ru icu own, (s.beginTake q tag).2 = { s with qu := qu, ru := ru, icu := icu, ma := { s.ma with own := own } } := by
  have same : ∃ qu ru icu own, s = { s with qu := qu, ru := ru, icu := icu, ma := { s.ma with own := own } } :=
    ⟨s.qu, s.ru, s.icu, s.ma.own, rfl⟩
  unfold State.beginTake
  simp only
  split
  · exact same
  · split
    · exact same
    · split
      · rename_i p _
        have key : ∀ u : State, u.ma = s.ma → ∃ icu own, (u.joinCq (.take p.id q p.ticket)).askOwn (.takeRead q)
            = { u with icu := icu, ma := { s.ma with own := own } } := by
          intro u hu
          obtain ⟨icu, own, h⟩ := State.joinCq_only_icu (.take p.id q p.ticket) u
          exact ⟨icu, own ++ [.takeRead q], by rw [h, hu]; rfl⟩
        split
        · obtain ⟨icu, own, h⟩ := key
            ({ s.setQueue q { (s.queue q) with
                positions := Map.ins (s.queue q).head { p with state := .taking } (s.queue q).positions
                live := (s.queue q).live - 1 } with ru := s.ru.takeNotice p.id q p.ticket }) rfl
          exact ⟨_, _, icu, own, h⟩
        · obtain ⟨icu, own, h⟩ := key
            (s.setQueue q { (s.queue q) with
                positions := Map.ins (s.queue q).head { p with state := .taking } (s.queue q).positions
                live := (s.queue q).live - 1 }) rfl
          exact ⟨_, _, icu, own, h⟩
      · exact same

theorem State.serveTake_only_units (p : Port) (q : Fin 6) (tag : Fin 8) (s : State) :
    ∃ qu ru icu own,
      (s.serveTake p q tag).2 = { s with qu := qu, ru := ru, icu := icu, ma := { s.ma with own := own } } := by
  unfold State.serveTake
  simp only
  split
  · exact ⟨_, s.ru, s.icu, s.ma.own, rfl⟩
  · exact State.beginTake_only_units q tag s

theorem State.withinLimits_decideRequest (p : Port) (twin : Bool) (req : Request) (s : State) (w :
    s.withinLimits) :
    (s.decideRequest p twin req).2.withinLimits := by
  unfold State.decideRequest
  cases req with
  | read r =>
    simp only
    split
    · exact w
    · unfold State.decideRead
      split
      · exact State.withinLimits_forwardRead _ _ _ w
      · unfold State.takeItemRead
        repeat' split
        all_goals first | exact w | exact State.withinLimits_forwardRead _ _ _ w
      · unfold State.takeRingRead
        split
        · exact w
        · split
          · exact w
          · split
            · obtain ⟨_, _, _, _, h⟩ := State.serveTake_only_units p ‹_› r.tag s
              rw [h]; exact w
            · exact State.withinLimits_forwardRead _ _ _ w
      · unfold State.takeViewRead
        repeat' split
        all_goals first | exact w | exact State.withinLimits_forwardRead _ _ _ w
      · unfold State.takeEventRead
        simp only
        split <;> exact w
      · exact State.withinLimits_forwardRead _ _ _ w
      · exact State.withinLimits_forwardRead _ _ _ w
  | write r =>
    simp only
    split
    · exact w
    · unfold State.decideWrite
      simp only
      split
      · exact w
      · split
        · unfold State.takePassWrite
          split
          · exact w
          · split
            · exact w
            · exact State.withinLimits_joinForward _ _ _ _ w (fun _ h => h) (fun _ => by simp only [Config.pwbEntries] at *; omega)
        · unfold State.takeItemWrite
          split
          · exact w
          · split
            · exact w
            · split
              · split
                · exact State.withinLimits_joinForward _ _ _ _ (State.withinLimits_protect _ _ _ w)
                    (fun c h => (List.mem_filter.mp h).1) (fun h => by cases h)
                · exact w
              · exact State.withinLimits_forwardWrite _ _ _ _ (State.withinLimits_protect _ _ _ w)
                  (fun c h => (List.mem_filter.mp h).1) (fun h => by cases h)
        · unfold State.takeDroppedWrite
          split <;> exact w
        · unfold State.takeDroppedWrite
          split <;> exact w
        · exact State.withinLimits_forwardWrite _ _ _ _ (State.withinLimits_protect _ _ _ w)
            (fun c h => (List.mem_filter.mp h).1) (fun h => by cases h)
        · unfold State.takeMailboxWrite
          split
          · exact w
          · exact State.withinLimits_forwardWrite _ _ _ _ (State.withinLimits_protect _ _ _ w)
              (fun c h => (List.mem_filter.mp h).1) (fun h => by cases h)
        · exact State.withinLimits_forwardWrite _ _ _ _ (State.withinLimits_protect _ _ _ w)
            (fun c h => (List.mem_filter.mp h).1) (fun h => by cases h)

theorem State.withinLimits_takeOne (p : Port) (s : State) (w : s.withinLimits) : (s.takeOne p).withinLimits := by
  apply State.withinLimits_deliver
  apply State.withinLimits_goForward
  unfold State.takeHead
  split
  · exact State.withinLimits_setHead _ _ _ (State.withinLimits_decideRequest _ _ _ _ w)
  · exact w

theorem withinLimits_settle (n : Nat) (s : State) (w : s.withinLimits) : (settle n s).withinLimits := by
  induction n generalizing s with
  | zero => exact w
  | succ n ih =>
    unfold settle
    split
    · exact ih _ (State.withinLimits_takeOne _ _ w)
    · exact w

theorem State.withinLimits_finish (s : State) (w : s.withinLimits) : s.finish.withinLimits :=
  withinLimits_settle _ _ (State.withinLimits_deliver _ (State.withinLimits_goForward _ w))

theorem State.withinLimits_issue (p : Port) (req : Request) (s : State) (w : s.withinLimits) :
    (s.issue p req).withinLimits := by
  unfold State.issue
  split
  · exact w
  · rename_i h
    apply State.withinLimits_finish
    obtain ⟨w1, w2, w3, w4, w5, w6⟩ := w
    simp only [Config.outstandingMax] at h
    cases p
    · refine ⟨w1, ?_, w3, w4, w5, w6⟩
      show (s.portA.outstanding ++ [_]).length ≤ 8
      have : ¬ 8 ≤ s.portA.outstanding.length := h
      simp; omega
    · refine ⟨w1, w2, ?_, w4, w5, w6⟩
      show (s.portB.outstanding ++ [_]).length ≤ 8
      have : ¬ 8 ≤ s.portB.outstanding.length := h
      simp; omega

theorem State.withinLimits_takeNext (s : State) (w : s.withinLimits) : s.takeNext.withinLimits := by
  obtain ⟨_, _, h⟩ := s.takeNext_only_icu
  rw [h]; exact w

theorem State.withinLimits_joinCq (e : CqEntry) (s : State) (w : s.withinLimits) : (s.joinCq e).withinLimits :=
  State.withinLimits_takeNext _ w

theorem State.withinLimits_releasePlace (s : State) (w : s.withinLimits) : s.releasePlace.withinLimits :=
  State.withinLimits_mapStages _ _ (State.withinLimits_mapStages _ _ w)

theorem State.withinLimits_endService (s : State) (w : s.withinLimits) : s.endService.withinLimits :=
  State.withinLimits_takeNext _ (State.withinLimits_releasePlace _ w)

theorem State.withinLimits_serveWaiters (q : Fin 6) (l : List Port) (s : State) (w : s.withinLimits) :
    (serveWaiters q l s).withinLimits := by
  induction l generalizing s with
  | nil => exact w
  | cons p r ih =>
    unfold serveWaiters
    split
    · exact w
    · split
      · apply ih
        apply State.withinLimits_setHead
        obtain ⟨_, _, _, _, h⟩ := State.beginTake_only_units q (tagOf ‹Outstanding›.req) s
        rw [h]; exact w
      · exact ih _ w

theorem State.withinLimits_completeTake (q : Fin 6) (d : QDesc) (s : State) (w : s.withinLimits) :
    (s.completeTake q d).withinLimits := by
  apply State.withinLimits_serveWaiters
  apply State.withinLimits_of_units (State.joinQu_units _ _)
  exact State.withinLimits_setOldest .B _ _ _ (State.withinLimits_setOldest .A _ _ _ (State.withinLimits_ownRead _ _ w))

theorem FwdWrite.isPosted_halted (w : FwdWrite) : w.halted.isPosted = w.isPosted := by
  unfold FwdWrite.halted FwdWrite.isPosted
  cases hk : w.kind <;> simp [hk]

theorem State.withinLimits_enterHalt (c : HaltCause) (h : HaltAnswers) (s : State) (w : s.withinLimits) :
    (s.enterHalt c h).withinLimits := by
  unfold State.enterHalt
  obtain ⟨d, m, e, hw, hm⟩ := State.endWrites_spec c h s
  simp only
  rw [e]
  apply State.withinLimits_finish
  show State.withinLimits (State.ownWrite _ _ _ _)
  apply State.withinLimits_ownWrite
  refine State.withinLimits_of_le w hw (Nat.le_of_eq (length_mapStages _ _)) (Nat.le_of_eq (length_mapStages _ _)) ?_ ?_ ?_
  · show (s.fwd.map (·.halted)).countP _ ≤ s.fwd.countP _
    rw [List.countP_map]
    apply Nat.le_of_eq
    congr 1
    funext x
    exact FwdWrite.isPosted_halted x
  · intro hs
    show (dropDone _).count .forwarded ≤ (s.fwd.map (·.halted)).length
    rw [List.length_map, count_dropDone, List.count_filter rfl]; exact hm hs
  · intro hc x hx
    obtain ⟨y, hy, rfl⟩ := List.mem_map.mp hx
    have e : y.halted.cells = y.cells ∧ y.halted.addr = y.addr ∧ y.halted.len = y.len := by
      unfold FwdWrite.halted; split <;> exact ⟨rfl, rfl, rfl⟩
    rw [e.1, e.2.1, e.2.2]
    exact hc y hy

theorem State.withinLimits_answerPrior (s : State) (w : s.withinLimits) : s.answerPrior.withinLimits := by
  unfold State.answerPrior
  split
  · split
    · exact w
    · exact State.withinLimits_ownWrite .cuWrite _ .ok s w
  · exact w

theorem State.withinLimits_atCause (c : HaltCause) (s : State) (w : s.withinLimits) : (s.atCause c).withinLimits := by
  cases c <;> first | exact w | exact State.withinLimits_answerPrior s w

theorem State.withinLimits_endOperation (s : State) (w : s.withinLimits) : s.endOperation.withinLimits :=
  State.withinLimits_mapStages _ _ w

theorem State.withinLimits_ownFault (c : HaltCause) (cells : Cells) (left : List Byte) (h : HaltAnswers) (s : State) (w :
    s.withinLimits) :
    (s.ownFault c cells left h).withinLimits := by
  have w1 := State.withinLimits_ownWrite (causeRequest c) cells (.fault left) _ (State.withinLimits_atCause c s w)
  unfold State.ownFault
  simp only
  split
  · exact State.withinLimits_enterHalt _ _ _ w1
  · exact State.withinLimits_enterHalt _ _ _ w1
  · exact State.withinLimits_finish _ (State.withinLimits_endOperation _ w1)
  · exact State.withinLimits_finish _ (State.withinLimits_endOperation _ w1)

/-! ## The queue limits -/

/-- The item command unit holds the same entries, and the same commands wait for memory. -/
def State.sameCommands (s t : State) : Prop :=
  t.icu.given = s.icu.given ∧ t.icu.cq = s.icu.cq ∧ t.icu.stage.service = s.icu.stage.service ∧
  commandSlots t.fwd = commandSlots s.fwd

theorem State.places_of_same {s t : State} (h : s.sameCommands t) :
    t.places = s.places ∧ t.commandPlaces = s.commandPlaces := by
  obtain ⟨h1, h2, h3, _⟩ := h
  unfold State.places State.commandPlaces
  rw [h1, h2, h3]
  exact ⟨rfl, rfl⟩

theorem State.queueLimits_of_same {s t : State} (h : s.sameCommands t) (w : s.queueLimits) : t.queueLimits := by
  have e := State.places_of_same h
  obtain ⟨h1, _, _, h4⟩ := h
  obtain ⟨w1, w2, w3⟩ := w
  exact ⟨by rw [h1, h4, w1], by omega, by omega⟩

theorem State.sameCommands_refl (s : State) : s.sameCommands s := ⟨rfl, rfl, rfl, rfl⟩

theorem State.sameCommands_trans {s t u : State} (h : s.sameCommands t) (k : t.sameCommands u) : s.sameCommands u :=
  ⟨k.1.trans h.1, k.2.1.trans h.2.1, k.2.2.1.trans h.2.2.1, k.2.2.2.trans h.2.2.2⟩

theorem State.sameCommands_of_units {s t : State} (h : s.unitsOnly t) : s.sameCommands t := by
  obtain ⟨_, _, _, _, _, _, _, rfl, _⟩ := h
  exact ⟨rfl, rfl, rfl, rfl⟩

theorem State.sameCommands_of_served {svc : Service} {s t : State} (hs : s.icu.stage.service = some svc) (h :
    s.servedTo svc t) :
    s.sameCommands t := by
  obtain ⟨_, _, _, _, _, _, _, _, rfl, _, e⟩ := h
  exact ⟨rfl, rfl, by rw [hs]; exact e, rfl⟩

theorem commandSlots_append (l r : List FwdWrite) : commandSlots (l ++ r) = commandSlots l ++ commandSlots r := by
  unfold commandSlots; rw [List.filterMap_append]

theorem commandSlots_cons_other (w : FwdWrite) (r : List FwdWrite) (h : ∀ p id, w.kind ≠ .command p id) :
    commandSlots (w :: r) = commandSlots r := by
  unfold commandSlots
  rw [List.filterMap_cons]
  split
  · rfl
  · rename_i h1; exfalso
    split at h1
    · rename_i p id hk; exact h _ _ hk
    · simp at h1

theorem commandSlots_halted (l : List FwdWrite) : commandSlots (l.map (·.halted)) = [] := by
  induction l with
  | nil => rfl
  | cons w r ih =>
    rw [List.map_cons, commandSlots_cons_other, ih]
    intro p id
    unfold FwdWrite.halted
    cases hk : w.kind <;> simp [hk]

theorem State.sameCommands_setPort (p : Port) (v : PortState) (s : State) : s.sameCommands (s.setPort p v) := by
  cases p <;> exact ⟨rfl, rfl, rfl, rfl⟩

theorem State.sameCommands_setOldest (p : Port) (f : Stage → Bool) (st : Outstanding → Stage) (s : State) :
    s.sameCommands (s.setOldest p f st) := State.sameCommands_setPort _ _ s

theorem State.sameCommands_setHead (p : Port) (st : Stage) (s : State) : s.sameCommands (s.setHead p st) :=
  State.sameCommands_setPort _ _ s

theorem State.sameCommands_answerPort (p : Port) (f : Fin 8 → Stage) (s : State) : s.sameCommands (s.answerPort p f) :=
  State.sameCommands_setPort _ _ s

theorem State.sameCommands_answerForward (w : FwdWrite) (r : List FwdWrite) (cells : Cells) (a : WriteAnswer) (s : State)
    (hf : s.fwd = w :: r) (hk : ∀ p id, w.kind ≠ .command p id) : s.sameCommands (s.answerForward cells a) := by
  refine ⟨by simp, by simp, by simp, ?_⟩
  rw [State.answerForward_fwd, hf, commandSlots_cons_other _ _ hk]; rfl

theorem State.sameCommands_takeEnable (cells : Cells) (a : WriteAnswer) (s : State) : s.sameCommands
    (s.takeEnable cells a) := by
  unfold State.takeEnable; split <;> exact ⟨rfl, rfl, rfl, rfl⟩

theorem State.sameCommands_serveForward (l : List FwdWrite) (s : State) (hf : s.fwd = l) : s.sameCommands
    (State.serveForward l s) := by
  induction l generalizing s with
  | nil => exact s.sameCommands_refl
  | cons x r ih =>
    unfold State.serveForward
    split
    · rename_i p a hk
      have h1 := State.sameCommands_answerForward x r x.cells a s hf (by intro p id; rw [hk]; simp)
      have h2 := State.sameCommands_trans h1 (State.sameCommands_answerPort p (fun t => answeredWrite t a) _)
      refine State.sameCommands_trans h2 (ih _ ?_)
      have : (s.answerForward x.cells a).fwd = r := by rw [State.answerForward_fwd, hf]; rfl
      cases p <;> exact this
    · rename_i p a hk
      have h1 := State.sameCommands_answerForward x r x.cells a s hf (by intro p id; rw [hk]; simp)
      have h2 := State.sameCommands_trans (State.sameCommands_trans h1 (State.sameCommands_takeEnable x.cells a _))
          (State.sameCommands_answerPort p (fun t => answeredWrite t a) _)
      refine State.sameCommands_trans h2 (ih _ ?_)
      have : ((s.answerForward x.cells a).takeEnable x.cells a).fwd = r := by
        have : (s.answerForward x.cells a).fwd = r := by rw [State.answerForward_fwd, hf]; rfl
        unfold State.takeEnable; split <;> exact this
      cases p <;> exact this
    · exact s.sameCommands_refl

theorem State.sameCommands_goForward (s : State) : s.sameCommands s.goForward := State.sameCommands_serveForward _ s rfl

theorem State.sameCommands_deliver (s : State) : s.sameCommands s.deliver := ⟨rfl, rfl, rfl, rfl⟩

/-- Taking the head of CQ moves an entry from the queue into service: no place is given or freed. -/
theorem State.takeNext_queueLimits (s : State) :
    s.takeNext.icu.given = s.icu.given ∧ s.takeNext.fwd = s.fwd ∧ s.takeNext.places = s.places ∧
    s.takeNext.commandPlaces = s.commandPlaces := by
  unfold State.takeNext
  split
  · rename_i hs hc
    split
    · refine ⟨rfl, rfl, ?_, ?_⟩
      · unfold State.places
        simp only [hs, hc, IcuStage.service, List.length_cons, Option.isSome_some, Option.isSome_none, if_true]
        simp; omega
      · unfold State.commandPlaces
        simp only [hs, hc, IcuStage.service, List.countP_cons]
        omega
    · exact ⟨rfl, rfl, rfl, rfl⟩
  · exact ⟨rfl, rfl, rfl, rfl⟩

theorem State.queueLimits_takeNext (s : State) (w : s.queueLimits) : s.takeNext.queueLimits := by
  obtain ⟨h1, h2, h3, h4⟩ := s.takeNext_queueLimits
  obtain ⟨w1, w2, w3⟩ := w
  exact ⟨by rw [h1, h2, w1], by omega, by omega⟩

/-- An entry joins CQ: one place more, and one command more when it is one. -/
theorem State.joinCq_places (e : CqEntry) (s : State) :
    (s.joinCq e).icu.given = s.icu.given ∧ (s.joinCq e).fwd = s.fwd ∧ (s.joinCq e).places = s.places + 1 ∧
    (s.joinCq e).commandPlaces = s.commandPlaces + (if e.isCommand then 1 else 0) := by
  obtain ⟨h1, h2, h3, h4⟩ := State.takeNext_queueLimits { s with icu := { s.icu with cq := s.icu.cq ++ [e] } }
  refine ⟨h1, h2, h3.trans ?_, h4.trans ?_⟩
  · unfold State.places; simp; omega
  · unfold State.commandPlaces
    simp only [List.countP_append, List.countP_singleton]
    omega

theorem State.queueLimits_joinNotice (e : CqEntry) (s : State) (he : e.isCommand = false) (hp : s.places < 24) (w :
    s.queueLimits) :
    (s.joinCq e).queueLimits := by
  obtain ⟨h1, h2, h3, h4⟩ := s.joinCq_places e
  obtain ⟨w1, w2, w3⟩ := w
  rw [he] at h4
  simp at h4
  exact ⟨by rw [h1, h2, w1], by omega, by omega⟩

theorem State.queueLimits_endService (s : State) (w : s.queueLimits) : s.endService.queueLimits := by
  apply State.queueLimits_takeNext
  obtain ⟨w1, w2, w3⟩ := w
  have hp : ∀ b : Bool, (if b then IcuStage.paused else .idle).service = none := by intro b; cases b <;> rfl
  refine ⟨w1, ?_, ?_⟩
  · refine Nat.le_trans ?_ w2
    show s.icu.given.length + s.icu.cq.length + (if (IcuStage.service
        (if s.icu.pauseAsked then .paused else .idle)).isSome then 1 else 0) ≤ _
    rw [hp]; unfold State.places; simp
  · refine Nat.le_trans ?_ w3
    show s.icu.given.length + s.icu.cq.countP _ + (match IcuStage.service (if s.icu.pauseAsked then .paused else .idle) with
       | some svc => if svc.entry.isCommand then 1 else 0
       | none => 0) ≤ _
    rw [hp]; unfold State.commandPlaces; simp only; omega

theorem State.queueLimits_beginTake (q : Fin 6) (tag : Fin 8) (s : State) (w : s.queueLimits) :
    (s.beginTake q tag).2.queueLimits := by
  unfold State.beginTake
  simp only
  split
  · exact w
  · split
    · exact w
    · rename_i hp
      simp only [Config.cqEntries, Nat.not_le] at hp
      split
      · split
        · exact State.queueLimits_joinNotice _ _ rfl (by exact hp) w
        · exact State.queueLimits_joinNotice _ _ rfl (by exact hp) w
      · exact w

theorem State.queueLimits_serveTake (p : Port) (q : Fin 6) (tag : Fin 8) (s : State) (w : s.queueLimits) :
    (s.serveTake p q tag).2.queueLimits := by
  unfold State.serveTake
  simp only
  split
  · exact w
  · exact State.queueLimits_beginTake q tag s w

theorem State.queueLimits_joinForward (r : WriteReq) (cells : Cells) (k : FwdKind) (s : State) (w : s.queueLimits)
    (hk : ∀ p id, k ≠ .command p id) : (s.joinForward r cells k).queueLimits := by
  apply State.queueLimits_of_same _ w
  refine ⟨rfl, rfl, rfl, ?_⟩
  show commandSlots (s.fwd ++ [_]) = _
  rw [commandSlots_append, commandSlots_cons_other _ _ hk]
  simp [commandSlots]

theorem State.queueLimits_forwardWrite (r : WriteReq) (cells : Cells) (k : FwdKind) (s : State) (w : s.queueLimits)
    (hk : ∀ p id, k ≠ .command p id) : (s.forwardWrite r cells k).2.queueLimits := by
  unfold State.forwardWrite
  split
  · exact w
  · exact State.queueLimits_joinForward _ _ _ _ w hk

theorem State.sameCommands_answerParts (r : ReadReq) (parts : List ReadPart) (k : Nat) (s : State) :
    s.sameCommands (s.answerParts r parts k).2 := by
  refine ⟨?_, ?_, ?_, ?_⟩ <;> simp

theorem State.queueLimits_forwardRead (r : ReadReq) (parts : List ReadPart) (s : State) (w : s.queueLimits) :
    (s.forwardRead r parts).2.queueLimits := by
  unfold State.forwardRead
  split
  · exact State.queueLimits_of_same (State.sameCommands_answerParts r parts _ s) w
  · exact w

theorem State.queueLimits_protect (all kept : Cells) (s : State) (w : s.queueLimits) : (s.protect all kept).queueLimits := by
  unfold State.protect
  split <;> exact w

theorem State.protect_units (all kept : Cells) (s : State) : s.unitsOnly (s.protect all kept) := by
  unfold State.protect
  split
  · exact State.raise_units _ _
  · exact s.unitsOnly_refl

theorem State.queueLimits_decideRequest (p : Port) (twin : Bool) (req : Request) (s : State) (w :
    s.queueLimits) :
    (s.decideRequest p twin req).2.queueLimits := by
  unfold State.decideRequest
  cases req with
  | read r =>
    simp only
    split
    · exact w
    · unfold State.decideRead
      split
      · exact State.queueLimits_forwardRead _ _ _ w
      · unfold State.takeItemRead
        repeat' split
        all_goals first | exact w | exact State.queueLimits_forwardRead _ _ _ w
      · unfold State.takeRingRead
        split
        · exact w
        · split
          · exact w
          · split
            · exact State.queueLimits_serveTake _ _ _ _ w
            · exact State.queueLimits_forwardRead _ _ _ w
      · unfold State.takeViewRead
        repeat' split
        all_goals first | exact w | exact State.queueLimits_forwardRead _ _ _ w
      · unfold State.takeEventRead
        simp only
        split <;> exact w
      · exact State.queueLimits_forwardRead _ _ _ w
      · exact State.queueLimits_forwardRead _ _ _ w
  | write r =>
    simp only
    split
    · exact w
    · unfold State.decideWrite
      simp only
      split
      · exact w
      · split
        · unfold State.takePassWrite
          split
          · exact w
          · split
            · exact w
            · exact State.queueLimits_joinForward _ _ _ _ w (by simp)
        · rename_i id _
          unfold State.takeItemWrite
          split
          · exact w
          · split
            · exact w
            · split
              · split
                · rename_i hp
                  simp only [Config.cqHostMax, Config.cqEntries] at hp
                  have w' := State.queueLimits_protect (writeCellsOf r) (hostCells r) s w
                  have e := State.places_of_same (State.sameCommands_of_units (State.protect_units (writeCellsOf r)
                      (hostCells r) s))
                  generalize s.protect (writeCellsOf r) (hostCells r) = u at w' e
                  obtain ⟨w1, w2, w3⟩ := w'
                  refine ⟨?_, ?_, ?_⟩
                  · show u.icu.given ++ [id] = commandSlots (u.fwd ++ [_])
                    rw [commandSlots_append, w1]; rfl
                  · have : State.places ((({ u with icu := { u.icu with given := u.icu.given ++ [id] } }) :
                      State).joinForward r (hostCells r) (.command p id)) = u.places + 1 := by
                      show (u.icu.given ++ [id]).length + _ + _ = u.icu.given.length + _ + _ + 1
                      simp; omega
                    rw [this]; omega
                  · have : State.commandPlaces ((({ u with icu := { u.icu with given := u.icu.given ++ [id] } }) :
                      State).joinForward r (hostCells r) (.command p id)) = u.commandPlaces + 1 := by
                      show (u.icu.given ++ [id]).length + _ + _ = u.icu.given.length + _ + _ + 1
                      simp; omega
                    rw [this]; omega
                · exact w
              · exact State.queueLimits_forwardWrite _ _ _ _ (State.queueLimits_protect _ _ _ w) (by simp)
        · unfold State.takeDroppedWrite
          split <;> exact w
        · unfold State.takeDroppedWrite
          split <;> exact w
        · exact State.queueLimits_forwardWrite _ _ _ _ (State.queueLimits_protect _ _ _ w) (by simp)
        · unfold State.takeMailboxWrite
          split
          · exact w
          · exact State.queueLimits_forwardWrite _ _ _ _ (State.queueLimits_protect _ _ _ w) (by simp)
        · exact State.queueLimits_forwardWrite _ _ _ _ (State.queueLimits_protect _ _ _ w) (by simp)

theorem State.queueLimits_takeOne (p : Port) (s : State) (w : s.queueLimits) : (s.takeOne p).queueLimits := by
  apply State.queueLimits_of_same (State.sameCommands_deliver _)
  apply State.queueLimits_of_same (State.sameCommands_goForward _)
  unfold State.takeHead
  split
  · exact State.queueLimits_of_same (State.sameCommands_setPort _ _ _) (State.queueLimits_decideRequest _ _ _ _ (by exact w))
  · exact w

theorem queueLimits_settle (n : Nat) (s : State) (w : s.queueLimits) : (settle n s).queueLimits := by
  induction n generalizing s with
  | zero => exact w
  | succ n ih =>
    unfold settle
    split
    · exact ih _ (State.queueLimits_takeOne _ _ w)
    · exact w

theorem State.queueLimits_finish (s : State) (w : s.queueLimits) : s.finish.queueLimits :=
  queueLimits_settle _ _ (State.queueLimits_of_same (State.sameCommands_trans s.sameCommands_goForward
      (State.sameCommands_deliver _)) w)

theorem State.queueLimits_issue (p : Port) (req : Request) (s : State) (w : s.queueLimits) : (s.issue p req).queueLimits
    := by
  unfold State.issue
  split
  · exact w
  · exact State.queueLimits_finish _ (State.queueLimits_of_same (State.sameCommands_setPort _ _ _) w)

theorem State.queueLimits_serveWaiters (q : Fin 6) (l : List Port) (s : State) (w : s.queueLimits) :
    (serveWaiters q l s).queueLimits := by
  induction l generalizing s with
  | nil => exact w
  | cons p r ih =>
    unfold serveWaiters
    split
    · exact w
    · split
      · exact ih _ (State.queueLimits_of_same (State.sameCommands_setPort _ _ _) (State.queueLimits_beginTake _ _ _ w))
      · exact ih _ w

theorem State.queueLimits_completeTake (q : Fin 6) (d : QDesc) (s : State) (w : s.queueLimits) :
    (s.completeTake q d).queueLimits := by
  apply State.queueLimits_serveWaiters
  apply State.queueLimits_of_same (State.sameCommands_of_units (State.joinQu_units _ _))
  have h : ∀ f st, ((s.setOldest .A f st).setOldest .B f st).queueLimits := fun f st =>
    State.queueLimits_of_same (State.sameCommands_setOldest .B _ _ _) (State.queueLimits_of_same
        (State.sameCommands_setOldest .A _ _ _) w)
  exact h (fun st => st == .taking q)
    (fun o => okData (tagOf o.req) (Memory.bytes s.dram (d.entryAddr (s.queue q).head) Config.entryBytes))

theorem State.queueLimits_enterHalt (c : HaltCause) (h : HaltAnswers) (s : State) : (s.enterHalt c h).queueLimits := by
  apply State.queueLimits_finish
  obtain ⟨d, m, e, -, -⟩ := State.endWrites_spec c h s
  rw [e]
  refine ⟨(commandSlots_halted s.fwd).symm, ?_, ?_⟩
  · show 0 ≤ 24; decide
  · show 0 ≤ 16; decide

theorem State.queueLimits_atCause (c : HaltCause) (s : State) (w : s.queueLimits) : (s.atCause c).queueLimits := by
  cases c <;> first | exact w | exact State.queueLimits_of_same (by refine ⟨?_, ?_, ?_, ?_⟩ <;> simp [State.atCause]) w

theorem State.queueLimits_ownFault (c : HaltCause) (cells : Cells) (left : List Byte) (h : HaltAnswers) (s : State) (w :
    s.queueLimits) :
    (s.ownFault c cells left h).queueLimits := by
  have w := State.queueLimits_atCause c s w
  unfold State.ownFault
  simp only
  split
  · exact State.queueLimits_enterHalt _ _ _
  · exact State.queueLimits_enterHalt _ _ _
  · exact State.queueLimits_finish _ w
  · exact State.queueLimits_finish _ w

/-- Memory answers a command-carrying write: its place is freed with the write. -/
theorem State.queueLimits_dropGiven (w : FwdWrite) (r : List FwdWrite) (p : Port) (id : SlotId) (a : WriteAnswer) (s : State)
    (hf : s.fwd = w :: r) (hk : w.kind = .command p id) (h : s.queueLimits) :
    ((s.answerForward w.cells a).dropGiven id).queueLimits ∧
    ((s.answerForward w.cells a).dropGiven id).places + 1 = s.places ∧
    ((s.answerForward w.cells a).dropGiven id).commandPlaces + 1 = s.commandPlaces := by
  obtain ⟨h1, h2, h3⟩ := h
  have hg : s.icu.given = id :: commandSlots r := by
    rw [h1, hf]; unfold commandSlots; rw [List.filterMap_cons, hk]
  have ei : (s.answerForward w.cells a).icu = s.icu := by simp
  have ef : (s.answerForward w.cells a).fwd = r := by rw [State.answerForward_fwd, hf]; rfl
  generalize s.answerForward w.cells a = u at ei ef
  have e : (u.dropGiven id).icu.given = commandSlots r := by
    show u.icu.given.erase id = _
    rw [ei, hg]; simp
  have ep : (u.dropGiven id).places + 1 = s.places := by
    show (u.icu.given.erase id).length + u.icu.cq.length + (if u.icu.stage.service.isSome then 1 else 0) + 1 = _
    unfold State.places
    rw [ei, hg]; simp; omega
  have ec : (u.dropGiven id).commandPlaces + 1 = s.commandPlaces := by
    have ecq : (u.dropGiven id).icu.cq = s.icu.cq := by show u.icu.cq = _; rw [ei]
    have est : (u.dropGiven id).icu.stage = s.icu.stage := by show u.icu.stage = _; rw [ei]
    unfold State.commandPlaces
    rw [e, ecq, est, hg, List.length_cons]; omega
  refine ⟨⟨?_, by omega, by omega⟩, ep, ec⟩
  rw [e]
  show _ = commandSlots u.fwd
  rw [ef]

/-! ## A halted part -/

/-- The traffic path leaves the control unit as it is, and in HALTED every other unit but the event unit. -/
def State.quietly (s t : State) : Prop :=
  t.cu = s.cu ∧ (s.cu.mode = .halted →
    t.icu = s.icu ∧ t.ru = s.ru ∧ t.bu = s.bu ∧ t.qu = s.qu ∧ commandSlots t.fwd = commandSlots s.fwd)

theorem State.quietly_refl (s : State) : s.quietly s := ⟨rfl, fun _ => ⟨rfl, rfl, rfl, rfl, rfl⟩⟩

theorem State.quietly_trans {s t u : State} (h : s.quietly t) (k : t.quietly u) : s.quietly u := by
  obtain ⟨h1, h2⟩ := h
  obtain ⟨k1, k2⟩ := k
  refine ⟨k1.trans h1, fun hm => ?_⟩
  obtain ⟨a1, a2, a3, a4, a5⟩ := h2 hm
  obtain ⟨b1, b2, b3, b4, b5⟩ := k2 (by rw [h1]; exact hm)
  exact ⟨b1.trans a1, b2.trans a2, b3.trans a3, b4.trans a4, b5.trans a5⟩

theorem State.haltedHoldsNothing_of_quietly {s t : State} (h : s.quietly t) (w : s.haltedHoldsNothing) :
    t.haltedHoldsNothing := by
  obtain ⟨h1, h2⟩ := h
  obtain ⟨w1, w2⟩ := w
  refine ⟨by rw [h1]; exact w1, fun hm => ?_⟩
  rw [h1] at hm
  obtain ⟨a1, a2, a3, a4, a5⟩ := h2 hm
  rw [a1, a2, a3, a4, a5, h1]
  exact w2 hm

/-- A state that differs in the ports, the forwarded side, DRAM and the event unit alone, with the same commands waiting. -/
theorem State.quietly_of_fields {s t : State} (h1 : t.cu = s.cu) (h2 : t.icu = s.icu) (h3 : t.ru = s.ru) (h4 : t.bu = s.bu)
    (h5 : t.qu = s.qu) (h6 : commandSlots t.fwd = commandSlots s.fwd) : s.quietly t :=
  ⟨h1, fun _ => ⟨h2, h3, h4, h5, h6⟩⟩

theorem State.quietly_setPort (p : Port) (v : PortState) (s : State) : s.quietly (s.setPort p v) := by
  cases p <;> exact State.quietly_of_fields rfl rfl rfl rfl rfl rfl

theorem State.quietly_setHead (p : Port) (st : Stage) (s : State) : s.quietly (s.setHead p st) := State.quietly_setPort _ _ s

theorem State.quietly_answerPort (p : Port) (f : Fin 8 → Stage) (s : State) : s.quietly (s.answerPort p f) :=
  State.quietly_setPort _ _ s

theorem State.quietly_mapStages (f : Outstanding → Stage) (s : State) : s.quietly (s.mapStages f) :=
  State.quietly_of_fields rfl rfl rfl rfl rfl rfl

theorem State.quietly_answerForward (w : FwdWrite) (r : List FwdWrite) (cells : Cells) (a : WriteAnswer) (s : State)
    (hf : s.fwd = w :: r) (hk : ∀ p id, w.kind ≠ .command p id) : s.quietly (s.answerForward cells a) :=
  State.quietly_of_fields (by simp) (by simp) (by simp) (by simp) (by simp)
    (State.sameCommands_answerForward w r cells a s hf hk).2.2.2

theorem State.quietly_takeEnable (cells : Cells) (a : WriteAnswer) (s : State) : s.quietly (s.takeEnable cells a) := by
  unfold State.takeEnable; split <;> exact State.quietly_of_fields rfl rfl rfl rfl rfl rfl

theorem State.quietly_serveForward (l : List FwdWrite) (s : State) (hf : s.fwd = l) : s.quietly (State.serveForward l s)
    := by
  induction l generalizing s with
  | nil => exact s.quietly_refl
  | cons x r ih =>
    unfold State.serveForward
    have hr : ∀ a, (s.answerForward x.cells a).fwd = r := by intro a; rw [State.answerForward_fwd, hf]; rfl
    split
    · rename_i p a hk
      have h1 := State.quietly_answerForward x r x.cells a s hf (by intro p id; rw [hk]; simp)
      refine State.quietly_trans (State.quietly_trans h1 (State.quietly_answerPort p (fun t => answeredWrite t a) _))
          (ih _ ?_)
      cases p <;> exact hr a
    · rename_i p a hk
      have h1 := State.quietly_answerForward x r x.cells a s hf (by intro p id; rw [hk]; simp)
      refine State.quietly_trans (State.quietly_trans (State.quietly_trans h1 (State.quietly_takeEnable x.cells a _))
        (State.quietly_answerPort p (fun t => answeredWrite t a) _)) (ih _ ?_)
      have : ((s.answerForward x.cells a).takeEnable x.cells a).fwd = r := by
        have h := hr a
        unfold State.takeEnable; split <;> exact h
      cases p <;> exact this
    · exact s.quietly_refl

theorem State.quietly_goForward (s : State) : s.quietly s.goForward := State.quietly_serveForward _ s rfl

theorem State.quietly_deliver (s : State) : s.quietly s.deliver := State.quietly_of_fields rfl rfl rfl rfl rfl rfl

theorem State.quietly_joinForward (r : WriteReq) (cells : Cells) (k : FwdKind) (s : State) (hk : ∀ p id, k ≠ .command p id) :
    s.quietly (s.joinForward r cells k) := by
  refine State.quietly_of_fields rfl rfl rfl rfl rfl ?_
  show commandSlots (s.fwd ++ [_]) = _
  rw [commandSlots_append, commandSlots_cons_other _ _ hk]
  simp [commandSlots]

theorem State.quietly_forwardWrite (r : WriteReq) (cells : Cells) (k : FwdKind) (s : State) (hk : ∀ p id,
    k ≠ .command p id) :
    s.quietly (s.forwardWrite r cells k).2 := by
  unfold State.forwardWrite
  split
  · exact s.quietly_refl
  · exact State.quietly_joinForward _ _ _ s hk

theorem State.quietly_forwardRead (r : ReadReq) (parts : List ReadPart) (s : State) : s.quietly (s.forwardRead r parts).2
    := by
  unfold State.forwardRead
  split
  · exact State.quietly_of_fields (by simp) (by simp) (by simp) (by simp) (by simp) (by simp)
  · exact s.quietly_refl

theorem State.quietly_raise (k : EventKind) (s : State) : s.quietly (s.raise k) :=
    State.quietly_of_fields rfl rfl rfl rfl rfl rfl

theorem State.quietly_protect (all kept : Cells) (s : State) : s.quietly (s.protect all kept) := by
  unfold State.protect
  split
  · exact State.quietly_raise _ s
  · exact s.quietly_refl

theorem State.quietly_decideRequest (p : Port) (twin : Bool) (req : Request) (s : State) :
    s.quietly (s.decideRequest p twin req).2 := by
  have hn : ∀ t : State, t.cu = s.cu → s.cu.mode ≠ .halted → s.quietly t := fun t h1 h2 => ⟨h1, fun h => absurd h h2⟩
  unfold State.decideRequest
  cases req with
  | read r =>
    simp only
    split
    · exact State.quietly_raise _ s
    · unfold State.decideRead
      split
      · exact State.quietly_forwardRead _ _ s
      · unfold State.takeItemRead
        repeat' split
        all_goals first | exact s.quietly_refl | exact State.quietly_forwardRead _ _ s
      · unfold State.takeRingRead
        split
        · exact State.quietly_raise _ s
        · split
          · exact s.quietly_refl
          · rename_i hm
            split
            · obtain ⟨_, _, _, _, h⟩ := State.serveTake_only_units p ‹_› r.tag s
              exact hn _ (by rw [h]) hm
            · exact State.quietly_forwardRead _ _ s
      · unfold State.takeViewRead
        repeat' split
        all_goals first | exact s.quietly_refl | exact State.quietly_forwardRead _ _ s
      · unfold State.takeEventRead
        simp only
        split <;> exact State.quietly_of_fields rfl rfl rfl rfl rfl rfl
      · exact State.quietly_forwardRead _ _ s
      · exact State.quietly_forwardRead _ _ s
  | write r =>
    simp only
    split
    · exact State.quietly_raise _ s
    · unfold State.decideWrite
      simp only
      split
      · exact s.quietly_refl
      · split
        · unfold State.takePassWrite
          split
          · exact s.quietly_refl
          · split
            · exact s.quietly_refl
            · exact State.quietly_joinForward _ _ _ s (by simp)
        · unfold State.takeItemWrite
          split
          · exact s.quietly_refl
          · rename_i hm
            split
            · exact s.quietly_refl
            · split
              · split
                · refine hn _ ?_ hm
                  exact (State.quietly_protect (writeCellsOf r) (hostCells r) s).1
                · exact s.quietly_refl
              · exact State.quietly_trans (State.quietly_protect _ _ s) (State.quietly_forwardWrite _ _ _ _ (by simp))
        · unfold State.takeDroppedWrite
          split
          · exact s.quietly_refl
          · exact State.quietly_raise _ s
        · unfold State.takeDroppedWrite
          split
          · exact s.quietly_refl
          · exact State.quietly_raise _ s
        · exact State.quietly_trans (State.quietly_protect _ _ s) (State.quietly_forwardWrite _ _ _ _ (by simp))
        · unfold State.takeMailboxWrite
          split
          · exact s.quietly_refl
          · exact State.quietly_trans (State.quietly_protect _ _ s) (State.quietly_forwardWrite _ _ _ _ (by simp))
        · exact State.quietly_trans (State.quietly_protect _ _ s) (State.quietly_forwardWrite _ _ _ _ (by simp))

theorem State.quietly_takeOne (p : Port) (s : State) : s.quietly (s.takeOne p) := by
  have h : s.quietly ({ s with ia := otherPort p } : State) := State.quietly_of_fields rfl rfl rfl rfl rfl rfl
  refine State.quietly_trans (State.quietly_trans (State.quietly_trans h ?_) (State.quietly_goForward _))
      (State.quietly_deliver _)
  unfold State.takeHead
  split
  · exact State.quietly_trans (State.quietly_decideRequest _ _ _ _) (State.quietly_setHead _ _ _)
  · exact State.quietly_refl _

theorem quietly_settle (n : Nat) (s : State) : s.quietly (settle n s) := by
  induction n generalizing s with
  | zero => exact s.quietly_refl
  | succ n ih =>
    unfold settle
    split
    · exact State.quietly_trans (State.quietly_takeOne _ _) (ih _)
    · exact s.quietly_refl

theorem State.quietly_finish (s : State) : s.quietly s.finish :=
  State.quietly_trans (State.quietly_trans s.quietly_goForward (State.quietly_deliver _)) (quietly_settle _ _)

theorem State.quietly_issue (p : Port) (req : Request) (s : State) : s.quietly (s.issue p req) := by
  unfold State.issue
  split
  · exact s.quietly_refl
  · exact State.quietly_trans (State.quietly_setPort _ _ _) (State.quietly_finish _)

/-- A part that is not HALTED holds nothing that this statement speaks of. -/
theorem State.haltedHoldsNothing_of_cu {s t : State} (w : s.haltedHoldsNothing) (hm : t.cu.mode ≠ .halted)
    (hr : ∀ r, t.cu.work = .result r → s.cu.work = .result r ∨ r.after ≠ .mode .halted) : t.haltedHoldsNothing :=
  ⟨fun r h => by
    rcases hr r h with h | h
    · exact w.1 r h
    · exact h, fun h => absurd h hm⟩

theorem State.haltedHoldsNothing_of_units {s t : State} (hm : s.cu.mode ≠ .halted) (h : s.unitsOnly t) (w :
    s.haltedHoldsNothing) :
    t.haltedHoldsNothing := by
  obtain ⟨_, _, _, _, _, _, _, rfl, h⟩ := h
  refine State.haltedHoldsNothing_of_cu w hm fun r (hr : _ = CuWork.result r) => Or.inl ?_
  exact (CuWork.sameBut_eq h (by intro a b c d e; exact absurd (e.symm.trans hr) (by simp))).symm.trans hr

theorem State.haltedHoldsNothing_of_served {svc : Service} {s t : State} (hm : s.cu.mode ≠ .halted) (h : s.servedTo svc t)
    (w : s.haltedHoldsNothing) : t.haltedHoldsNothing := by
  obtain ⟨_, _, _, _, _, _, _, _, rfl, h, _⟩ := h
  refine State.haltedHoldsNothing_of_cu w hm fun r (hr : _ = CuWork.result r) => Or.inl ?_
  exact (CuWork.sameBut_eq h (by intro a b c d e; exact absurd (e.symm.trans hr) (by simp))).symm.trans hr

theorem State.haltedHoldsNothing_enterHalt (c : HaltCause) (h : HaltAnswers) (s : State) :
    (s.enterHalt c h).haltedHoldsNothing := by
  unfold State.enterHalt
  obtain ⟨d, m, e, -, -⟩ := State.endWrites_spec c h s
  rw [e]
  refine State.haltedHoldsNothing_of_quietly (State.quietly_finish _) ⟨fun r hr => ?_, fun _ => ?_⟩
  · have : CuWork.idle = .result r := hr
    cases this
  · refine ⟨rfl, rfl, rfl, commandSlots_halted _, rfl, rfl, rfl, rfl, rfl⟩

end Sys2Proof.Machine
end

