-- ==== Sys2Proof/Laws/Locality.lean ====
section
/-! SUPPORT. What the control unit's reads depend on: two memories that agree on a run of bytes give the same table, image,
header or entry there, so a forwarded write that the run does not overlap makes no difference (R138, R141). -/

namespace Sys2Proof.Machine

/-- Two memories agree on a run of `n` bytes from `a`. -/
def Memory.agree (d e : Memory) (a n : Nat) : Prop := ∀ x, a ≤ x → x < a + n → Memory.read d x = Memory.read e x

theorem Memory.agree.part {d e : Memory} {a n : Nat} (h : Memory.agree d e a n) (b m : Nat) (h1 : a ≤ b)
    (h2 : b + m ≤ a + n) : Memory.agree d e b m := fun x k1 k2 => h x (by omega) (by omega)

theorem Memory.agree.bytes {d e : Memory} {a n : Nat} (h : Memory.agree d e a n) (b m : Nat) (h1 : a ≤ b)
    (h2 : b + m ≤ a + n) : Memory.bytes d b m = Memory.bytes e b m := by
  unfold Memory.bytes
  apply List.map_congr_left
  intro i hi
  rw [List.mem_range] at hi
  exact h _ (by omega) (by omega)

theorem Memory.agree.nat {d e : Memory} {a n : Nat} (h : Memory.agree d e a n) (b m : Nat) (h1 : a ≤ b)
    (h2 : b + m ≤ a + n) : Memory.nat d b m = Memory.nat e b m := by
  unfold Memory.nat; rw [h.bytes b m h1 h2]

theorem Memory.agree.word {d e : Memory} {a n : Nat} (h : Memory.agree d e a n) (b : Nat) (h1 : a ≤ b)
    (h2 : b + 4 ≤ a + n) : Memory.word d b = Memory.word e b := by
  unfold Memory.word; rw [h.nat b 4 h1 h2]

theorem Memory.agree.byte {d e : Memory} {a n : Nat} (h : Memory.agree d e a n) (b : Nat) (h1 : a ≤ b)
    (h2 : b < a + n) : Memory.byte d b = Memory.byte e b := by
  unfold Memory.byte; rw [h b h1 h2]

/-! ## The structures read -/

theorem Memory.agree.header {d e : Memory} {a : Nat} (h : Memory.agree d e a 48) : Memory.header d a = Memory.header e a := by
  unfold Memory.header
  rw [h.nat a 2 (by omega) (by omega), h.nat (a + 2) 2 (by omega) (by omega), h.nat (a + 4) 2 (by omega) (by omega),
    h.nat (a + 6) 2 (by omega) (by omega), h.word (a + 8) (by omega) (by omega), h.word (a + 12) (by omega) (by omega),
    h.word (a + 16) (by omega) (by omega), h.word (a + 20) (by omega) (by omega)]

theorem Memory.agree.entry {d e : Memory} {a : Nat} (h : Memory.agree d e a 16) : Memory.entry d a = Memory.entry e a := by
  unfold Memory.entry
  rw [h.nat (a + 4) 4 (by omega) (by omega), h.word a (by omega) (by omega)]

theorem Memory.agree.binImage {d e : Memory} {a n : Nat} (h : Memory.agree d e a n) (b : Nat) (h1 : a ≤ b)
    (h2 : b + 8 ≤ a + n) : Memory.binImage d b = Memory.binImage e b := by
  unfold Memory.binImage
  rw [h.nat b 1 (by omega) (by omega), h.nat (b + 1) 1 (by omega) (by omega), h.nat (b + 2) 2 (by omega) (by omega),
    h.nat (b + 4) 2 (by omega) (by omega), h.nat (b + 6) 2 (by omega) (by omega)]

theorem readImages_congr (d e : Memory) (cb : Nat) (l : List Nat)
    (h : ∀ b ∈ l, Memory.binImage d (binImageAddr cb b) = Memory.binImage e (binImageAddr cb b)) :
    readImages d cb l = readImages e cb l := by
  induction l with
  | nil => rfl
  | cons b r ih =>
    unfold readImages
    rw [h b List.mem_cons_self, ih (fun c hc => h c (List.mem_cons_of_mem _ hc))]

/-- One read of the bin image phase depends on its 64 bytes alone (R162). -/
theorem Memory.agree.readImages {d e : Memory} {cb k : Nat} (h : Memory.agree d e (cb + imagesOff + 64 * k) 64) :
    readImages d cb (blockBins k) = readImages e cb (blockBins k) := by
  apply readImages_congr
  intro b hb
  unfold blockBins at hb
  obtain ⟨i, hi, rfl⟩ := List.mem_map.mp hb
  rw [List.mem_range] at hi
  apply h.binImage
  · unfold binImageAddr; omega
  · unfold binImageAddr; omega

theorem collect_congr {α : Type} (f g : Nat → Option (Option α)) (l : List Nat) (h : ∀ k ∈ l, f k = g k) :
    collect f l = collect g l := by
  induction l with
  | nil => rfl
  | cons k r ih =>
    unfold collect
    rw [h k List.mem_cons_self, ih (fun c hc => h c (List.mem_cons_of_mem _ hc))]

theorem zoneList_congr (d e : Memory) (l : List Nat) (h : ∀ a ∈ l, Memory.zone d a = Memory.zone e a) :
    Memory.zoneList d l = Memory.zoneList e l := by
  induction l with
  | nil => rfl
  | cons k r ih =>
    unfold Memory.zoneList
    rw [h k List.mem_cons_self, ih (fun c hc => h c (List.mem_cons_of_mem _ hc))]

theorem Memory.agree.classEntry {d e : Memory} {a n : Nat} (h : Memory.agree d e a n) (b : Nat) (h1 : a ≤ b)
    (h2 : b + 16 ≤ a + n) : Memory.classEntry d b = Memory.classEntry e b := by
  unfold Memory.classEntry
  rw [h.byte b (by omega) (by omega), h.byte (b + 1) (by omega) (by omega), h.byte (b + 2) (by omega) (by omega),
    h.byte (b + 3) (by omega) (by omega), h.byte (b + 4) (by omega) (by omega), h.byte (b + 5) (by omega) (by omega),
    h.byte (b + 6) (by omega) (by omega), h.byte (b + 7) (by omega) (by omega), h.byte (b + 8) (by omega) (by omega),
    h.byte (b + 9) (by omega) (by omega), h.byte (b + 10) (by omega) (by omega)]

theorem Memory.agree.zone {d e : Memory} {a n : Nat} (h : Memory.agree d e a n) (b : Nat) (h1 : a ≤ b)
    (h2 : b + 4 ≤ a + n) : Memory.zone d b = Memory.zone e b := by
  unfold Memory.zone
  rw [h.byte (b + 3) (by omega) (by omega), h.nat b 2 (by omega) (by omega), h.byte (b + 2) (by omega) (by omega)]

theorem Memory.agree.area {d e : Memory} {a n : Nat} (h : Memory.agree d e a n) (b : Nat) (h1 : a ≤ b)
    (h2 : b + 16 ≤ a + n) : Memory.area d b = Memory.area e b := by
  unfold Memory.area
  rw [h.nat b 8 (by omega) (by omega), h.nat (b + 8) 4 (by omega) (by omega), h.byte (b + 12) (by omega) (by omega),
    h.byte (b + 13) (by omega) (by omega)]

theorem Memory.agree.qdesc {d e : Memory} {a n : Nat} (h : Memory.agree d e a n) (b : Nat) (h1 : a ≤ b)
    (h2 : b + 32 ≤ a + n) : Memory.qdesc d b = Memory.qdesc e b := by
  unfold Memory.qdesc
  rw [h.nat b 8 (by omega) (by omega), h.nat (b + 8) 8 (by omega) (by omega), h.nat (b + 16) 4 (by omega) (by omega),
    h.nat (b + 20) 4 (by omega) (by omega)]

theorem Memory.agree.areas {d e : Memory} {a : Nat} (h : Memory.agree d e a 64) :
    #v[Memory.area d a, Memory.area d (a + 16), Memory.area d (a + 32), Memory.area d (a + 48)]
      = #v[Memory.area e a, Memory.area e (a + 16), Memory.area e (a + 32), Memory.area e (a + 48)] := by
  simp only [h.area a (by omega) (by omega), h.area (a + 16) (by omega) (by omega),
    h.area (a + 32) (by omega) (by omega), h.area (a + 48) (by omega) (by omega)]

theorem Memory.agree.qdescs {d e : Memory} {a : Nat} (h : Memory.agree d e a 192) :
    #v[Memory.qdesc d a, Memory.qdesc d (a + 32), Memory.qdesc d (a + 64), Memory.qdesc d (a + 96),
        Memory.qdesc d (a + 128), Memory.qdesc d (a + 160)]
      = #v[Memory.qdesc e a, Memory.qdesc e (a + 32), Memory.qdesc e (a + 64), Memory.qdesc e (a + 96),
        Memory.qdesc e (a + 128), Memory.qdesc e (a + 160)] := by
  simp only [h.qdesc a (by omega) (by omega), h.qdesc (a + 32) (by omega) (by omega),
    h.qdesc (a + 64) (by omega) (by omega), h.qdesc (a + 96) (by omega) (by omega),
    h.qdesc (a + 128) (by omega) (by omega), h.qdesc (a + 160) (by omega) (by omega)]

/-- One read of the tables phase depends on the run of its table alone (R153). -/
theorem Memory.agree.take {d e : Memory} {cb : Nat} {site : ReadSite}
    (h : Memory.agree d e (cb + (tableRun site).1) (tableRun site).2) (t : TablesRead) :
    TablesRead.take d cb t site = TablesRead.take e cb t site := by
  unfold TablesRead.take
  split
  · have h : Memory.agree d e cb 64 := h
    rw [h.nat cb 4 (by omega) (by omega), h.nat (cb + 12) 4 (by omega) (by omega),
      h.word (cb + ticketImageOff) (by omega) (by unfold ticketImageOff; omega)]
  · have h : Memory.agree d e (cb + (eventOff + 8)) 4 := h
    rw [h.word (cb + eventOff + 8) (by omega) (by omega)]
  · have h : Memory.agree d e (cb + classesOff) 512 := h
    rw [collect_congr _ (fun c => Memory.classEntry e (cb + classesOff + 16 * c))]
    intro c hc
    rw [List.mem_range] at hc
    exact h.classEntry _ (by omega) (by omega)
  · have h : Memory.agree d e (cb + capsOff) 64 := h
    rw [collect_congr _ (fun c => Memory.cap e (cb + capsOff + c))]
    intro c hc
    have hc := List.mem_range.mp (List.mem_of_mem_tail hc)
    unfold Memory.cap
    rw [h.byte _ (by omega) (by omega)]
  · have h : Memory.agree d e (cb + biasOff) 16 := h
    rw [collect_congr _ (fun n => Memory.bias e (cb + biasOff + n))]
    intro c hc
    rw [List.mem_range] at hc
    unfold Memory.bias
    rw [h (cb + biasOff + c) (by omega) (by omega)]
  · have h : Memory.agree d e (cb + zonesOff) 32 := h
    rw [zoneList_congr d e]
    intro a ha
    obtain ⟨i, hi, rfl⟩ := List.mem_map.mp ha
    rw [List.mem_range] at hi
    exact h.zone _ (by omega) (by omega)
  · exact congrArg (fun v => { t with areas := v }) (Memory.agree.areas (a := cb + areasOff) h)
  · exact congrArg (fun v => { t with descs := v }) (Memory.agree.qdescs (a := cb + descsOff) h)
  · rfl

/-! ## Memory as a read of the control unit finds it -/

/-- No write of the part is outstanding, and the forwarded writes enable no byte outside those they cover. -/
def State.readsDram (s : State) : Prop := s.noOwnWrite ∧ s.forwardCovers

/-- A read finds what DRAM holds on a run that no forwarded write overlaps, where no write of the part is outstanding (R138,
R141). -/
theorem State.memory_agree (s : State) (h : s.readsDram) (a n : Nat) (hf : overlapsForward s.fwd a n = false) :
    Memory.agree s.memory s.dram a n := by
  obtain ⟨⟨h1, h2, h3, h4, h5⟩, hc⟩ := h
  intro x k1 k2
  unfold State.memory
  apply Memory.read_writeCells_of_not_mem
  intro c hx e
  have ho : ∀ r, s.ownCells r = [] := by intro r; cases r <;> first | assumption | rfl
  obtain ⟨w, hw, hx⟩ := mem_orderCells ho h5 s.fwd c hx
  obtain ⟨b1, b2⟩ := hc w hw c hx
  unfold overlapsForward at hf
  rw [List.any_eq_false] at hf
  apply hf w hw
  unfold runsOverlap
  simp only [Bool.and_eq_true, decide_eq_true_eq]
  omega

end Sys2Proof.Machine
end

