-- ==== Sys2Proof/Laws/Requests.lean ====
section
/-! SUPPORT. What the decoder and the forwarded side do with one request, said once for each operation they share. -/

namespace Sys2Proof.Machine

/-- A legal read at a free port is decided at once. -/
theorem State.issue_read_of_portFree (p : Port) (r : ReadReq) (s : State) (h : s.portFree p) (hl : legalRead p r s) :
    s.issue p (.read r) = State.taken p (.read r) (s.decideRead p r).1 (s.decideRead p r).2 := by
  rw [State.issue_of_portFree p _ s h]
  unfold State.decideRequest
  simp only [legalRead] at hl
  simp only [tagOf, hl, Bool.false_eq_true, if_false]

/-- A legal write at a free port is decided at once. -/
theorem State.issue_write_of_portFree (p : Port) (r : WriteReq) (s : State) (h : s.portFree p)
    (hl : illegal (tagListed (s.port p).outstanding r.tag) r.addr r.len = false) :
    s.issue p (.write r) = State.taken p (.write r) (s.decideWrite p r).1 (s.decideWrite p r).2 := by
  rw [State.issue_of_portFree p _ s h]
  unfold State.decideRequest
  simp only [tagOf, hl, Bool.false_eq_true, if_false]

/-- The answer to a read of its own bytes alone. -/
theorem State.answerParts_wholeRead (r : ReadReq) (k : Nat) (s : State) :
    s.answerParts r (wholeRead r) k = (if r.mem.head? = some .fault then faulted r.tag
      else okData r.tag (Memory.bytes (s.grantRead k).memory r.addr.toNat r.len), s.grantRead k) := by
  unfold State.answerParts wholeRead
  cases h : r.mem with
  | nil => simp [State.readParts, ReadPart.isMem]
  | cons x y => cases x <;> simp [State.readParts, ReadPart.isMem]

/-- A read waits for no write exactly when no part of it overlaps one (R138). -/
theorem lastOverlap_eq_zero (parts : List ReadPart) (fwd : List FwdWrite) :
    lastOverlap parts fwd = 0 ↔ fwd.any (fun w => parts.any (·.overlaps w)) = false := by
  induction fwd with
  | nil => simp [lastOverlap]
  | cons w r ih =>
    unfold lastOverlap
    by_cases h : lastOverlap parts r = 0
    · rw [if_pos h]
      have := ih.1 h
      cases hh : parts.any (·.overlaps w) <;> simp_all
    · rw [if_neg h]
      simp only [List.any_cons, Bool.or_eq_false_iff]
      constructor
      · intro hh; omega
      · intro hh; exact absurd (ih.2 hh.2) h

/-- The same for a read of its own bytes alone. -/
theorem lastOverlap_wholeRead (r : ReadReq) (fwd : List FwdWrite) :
    (lastOverlap (wholeRead r) fwd = 0) ↔ overlapsForward fwd r.addr.toNat r.len = false := by
  rw [lastOverlap_eq_zero]
  simp [wholeRead, overlapsForward, ReadPart.overlaps]

/-- A read that overlaps no forwarded write is answered at once (R138, R142). -/
theorem State.forwardRead_whole (r : ReadReq) (s : State) (h : overlapsForward s.fwd r.addr.toNat r.len = false) :
    s.forwardRead r (wholeRead r) = (if r.mem.head? = some .fault then faulted r.tag
      else okData r.tag (Memory.bytes (s.grantRead s.fwd.length).memory r.addr.toNat r.len),
      s.grantRead s.fwd.length) := by
  unfold State.forwardRead
  rw [if_pos ((lastOverlap_wholeRead r s.fwd).2 h), State.answerParts_wholeRead]

/-- A read that overlaps a forwarded write waits for it (R138). -/
theorem State.forwardRead_whole_waits (r : ReadReq) (s : State) (h : overlapsForward s.fwd r.addr.toNat r.len = true) :
    s.forwardRead r (wholeRead r)
      = (.reading (wholeRead r) (lastOverlap (wholeRead r) s.fwd) s.fwd.length s.nextTurn, s) := by
  unfold State.forwardRead
  rw [if_neg]
  intro hh; have := (lastOverlap_wholeRead r s.fwd).1 hh; simp_all

/-- Every enabled byte dropped is a protection event. -/
theorem State.protect_nothing_kept (l : Cells) (s : State) (h : l.isEmpty = false) : s.protect l [] = s.raise .protection
    := by
  unfold State.protect
  rw [if_pos]
  cases l <;> simp_all

/-- A write with no byte left goes nowhere (R142). -/
theorem State.forwardWrite_nil (r : WriteReq) (k : FwdKind) (s : State) : s.forwardWrite r [] k = (okDone r.tag, s) := rfl

/-- A write with a byte left joins the forwarded side (R139). -/
theorem State.forwardWrite_of_ne_nil (r : WriteReq) (cells : Cells) (k : FwdKind) (s : State) (h : cells ≠ []) :
    s.forwardWrite r cells k = (.writing, s.joinForward r cells k) := by
  unfold State.forwardWrite; rw [if_neg (by simpa using h)]

/-- The protection check and the join in one update of the state. -/
theorem State.joinForward_protect (all kept : Cells) (r : WriteReq) (k : FwdKind) (s : State) :
    (s.protect all kept).joinForward r kept k
      = { protection all kept s with
          fwd := s.fwd ++ [{ addr := r.addr.toNat, len := r.len, cells := kept, kind := k }] } := by
  unfold State.protect State.joinForward protection
  split <;> rfl

/-- An address classed as the event block lies in its 64 bytes (R133). -/
theorem State.event_bounds (s : State) (a : Nat) (h : s.classOf a = .event) : s.cbBase + 128 ≤ a ∧ a < s.cbBase + 192 := by
  have h2 : s.placeOf a = .event := by
    unfold State.classOf at h
    revert h
    cases hp : s.placeOf a <;> simp <;> split <;> simp
  unfold State.placeOf at h2
  split at h2
  · unfold controlBlockPlace at h2
    split at h2
    · cases h2
    · split at h2
      · omega
      · cases h2
  · exfalso
    split at h2
    · cases h2
    · split at h2
      · rename_i v _
        have : ∀ l, findQueue v a l ≠ .event := by
          intro l
          induction l with
          | nil => simp [findQueue]
          | cons q r ih => unfold findQueue; split <;> [simp; (split <;> [simp; exact ih])]
        exact this _ h2
      · cases h2

/-- A kind's bit in the little-endian bytes of a set of kinds. -/
theorem leBytes_bit (x : BitVec 12) (k : EventKind) :
    (leBytes 8 x.toNat)[k.index / 8]?.map (fun b => b.getLsbD (k.index % 8)) = some (x.getLsbD k.index) := by
  have key : ∀ n : Nat, n / 256 = n / 2 ^ 8 := fun _ => rfl
  have key3 : ∀ n i : Nat, (n % 256).testBit i = (decide (i < 8) && n.testBit i) := fun n i => Nat.testBit_mod_two_pow n 8 i
  have key4 : ∀ n : Nat, (n / 256).testBit 0 = n.testBit 8 := fun n => by rw [key, Nat.testBit_div_two_pow]
  have key5 : ∀ n i : Nat, (n / 256).testBit i = n.testBit (8 + i) := fun n i => by rw [key, Nat.testBit_div_two_pow,
      Nat.add_comm]
  cases k <;> simp only [leBytes, EventKind.index, Nat.reduceDiv, Nat.reduceMod, List.getElem?_cons_zero,
    List.getElem?_cons_succ, Option.map_some, BitVec.getLsbD, key5, BitVec.toNat_ofNat, Nat.reducePow, key3] <;> simp

/-- The first bytes of the event block are the pending set's (R175). -/
theorem eventBlockBytes_pending (u : Eu) (k : EventKind) :
    (eventBlockBytes u)[k.index / 8]? = (leBytes 8 u.pending.toNat)[k.index / 8]? := by
  cases k <;> simp [eventBlockBytes, leBytes, EventKind.index]

/-- The bytes from 8 on of the event block are the mask's (R175). -/
theorem eventBlockBytes_mask (u : Eu) (k : EventKind) :
    (eventBlockBytes u)[8 + k.index / 8]? = (leBytes 8 u.mask.toNat)[k.index / 8]? := by
  cases k <;> simp [eventBlockBytes, leBytes, EventKind.index]

/-- After the forwarded side has served what may go, its oldest write waits for an answer of its own. -/
theorem forwardWaits_serveForward (l : List FwdWrite) (s : State) (h : s.fwd = l) :
    forwardWaits (State.serveForward l s).fwd = true := by
  induction l generalizing s with
  | nil => unfold State.serveForward; rw [h]; rfl
  | cons w r ih =>
    unfold State.serveForward
    have base : ∀ a, (s.answerForward w.cells a).fwd = r := by
      intro a
      simp only [State.answerForward_frame, h]; rfl
    have ap : ∀ (p : Port) (f : Fin 8 → Stage) (u : State), (u.answerPort p f).fwd = u.fwd := by
      intro p f u; cases p <;> rfl
    have te : ∀ (c : Cells) (a : WriteAnswer) (u : State), (u.takeEnable c a).fwd = u.fwd := by
      intro c a u; cases a <;> rfl
    cases hk : w.kind with
    | plain p a => exact ih _ (by rw [ap, base])
    | eventEnable p a => exact ih _ (by rw [ap, te, base])
    | _ => simp only [h, forwardWaits, hk]

/-- `setOldest` sets the first entry that its test selects. -/
theorem setOldest_at_first (f : Stage → Bool) (st : Outstanding → Stage) (l r : List Outstanding) (o : Outstanding)
    (h : ∀ x ∈ l, f x.stage = false) (ho : f o.stage = true) :
    Machine.setOldest f st (l ++ o :: r) = l ++ { o with stage := st o } :: r := by
  induction l with
  | nil => simp only [List.nil_append, Machine.setOldest, ho, if_true]
  | cons x t ih =>
    simp only [List.cons_append, Machine.setOldest, h x (by simp), Bool.false_eq_true, if_false]
    rw [ih (fun y hy => h y (by simp [hy]))]

/-- After a release no request is held for a cause it selects. -/
theorem State.releaseHolds_none (c : Hold → Bool) (s : State) (h : Hold) (hc : c h = true) (p : Port) :
    ∀ o ∈ ((s.releaseHolds c).port p).outstanding, o.stage ≠ .held h := by
  have key : ∀ l : List Outstanding, ∀ o ∈ Machine.mapStages (fun o => match o.stage with
    | .held h => if c h then .waiting else .held h
    | st => st) l, o.stage ≠ .held h := by
    intro l o ho
    unfold Machine.mapStages at ho
    simp only [List.mem_map] at ho
    obtain ⟨x, _, rfl⟩ := ho
    simp only
    split
    · rename_i h' _
      split
      · simp
      · rename_i hh; intro e; injection e with e; subst e; exact hh hc
    · rename_i hh; intro e; exact hh h e
  cases p <;> exact key _

/-- A release holds no request that was not held. -/
theorem State.releaseHolds_adds_none (c : Hold → Bool) (s : State) (h : Hold) (p : Port)
    (hs : ∀ o ∈ (s.port p).outstanding, o.stage ≠ .held h) :
    ∀ o ∈ ((s.releaseHolds c).port p).outstanding, o.stage ≠ .held h := by
  have key : ∀ l : List Outstanding, (∀ o ∈ l, o.stage ≠ .held h) → ∀ o ∈ Machine.mapStages (fun o => match o.stage with
    | .held h => if c h then .waiting else .held h
    | st => st) l, o.stage ≠ .held h := by
    intro l hl o ho
    unfold Machine.mapStages at ho
    simp only [List.mem_map] at ho
    obtain ⟨x, hx, rfl⟩ := ho
    simp only
    split
    · rename_i h' hh'
      split
      · simp
      · intro e; injection e with e; subst e; exact hl x hx hh'
    · exact hl x hx
  cases p <;> exact key _ hs

/-- After a release no request is stalled for a cause it selects. -/
theorem State.releaseStalls_none (c : Stall → Bool) (s : State) (h : Stall) (hc : c h = true) (p : Port) :
    ∀ o ∈ ((s.releaseStalls c).port p).outstanding, o.stage ≠ .stalled h := by
  have key : ∀ l : List Outstanding, ∀ o ∈ Machine.mapStages (fun o => match o.stage with
    | .stalled h => if c h then .waiting else .stalled h
    | st => st) l, o.stage ≠ .stalled h := by
    intro l o ho
    unfold Machine.mapStages at ho
    simp only [List.mem_map] at ho
    obtain ⟨x, _, rfl⟩ := ho
    simp only
    split
    · rename_i h' _
      split
      · simp
      · rename_i hh; intro e; injection e with e; subst e; exact hh hc
    · rename_i hh; intro e; exact hh h e
  cases p <;> exact key _

end Sys2Proof.Machine
end

