-- ==== Sys2Proof/Laws/Reads.lean ====
section
/-! SUPPORT. The forwarded reads that wait (R138, R139): what an answered write of the forwarded side does to them, read by
read. -/

namespace Sys2Proof.Machine

/-- A forwarded read that may go. -/
def Stage.isFree : Stage → Bool
  | .reading _ 0 _ _ => true
  | _ => false

/-- How many forwarded reads may go. -/
def State.freeCount (s : State) : Nat :=
  s.portA.outstanding.countP (fun o => Stage.isFree o.stage) + s.portB.outstanding.countP (fun o => Stage.isFree o.stage)

/-- What serving forwarded reads does to one request of a list: nothing, or a read that may go is answered at a grant of its
own. -/
def Outstanding.goesTo (u : State) (o o' : Outstanding) : Prop :=
  o' = o ∨ (Stage.isFree o.stage = true ∧ Stage.isFree o'.stage = false ∧
    ∀ parts k t r, o.stage = .reading parts 0 k t → o.req = .read r →
      ∃ m a b, o' = { o with
        stage := (State.answerParts r parts (min k u.fwd.length) { u with ma := m, portA := a, portB := b }).1 })

/-- Some of the forwarded reads that may go have been answered, and nothing else has changed but the memory arbiter. -/
def State.readsServed (u u' : State) : Prop :=
  (∃ m a b, u' = { u with ma := m, portA := a, portB := b }) ∧
  ∀ (p : Port) (i : Nat) (o : Outstanding), (u.port p).outstanding[i]? = some o → ∃ o', (u'.port p).outstanding[i]? = some o' ∧ Outstanding.goesTo u o o'

theorem State.readsServed_refl (u : State) : State.readsServed u u := ⟨⟨u.ma, u.portA, u.portB, rfl⟩, fun _ _ o h => ⟨o, h, Or.inl rfl⟩⟩

theorem State.readsServed_trans {u v w : State} (h : State.readsServed u v) (k : State.readsServed v w) : State.readsServed u w := by
  obtain ⟨⟨m, a, b, e⟩, h2⟩ := h
  obtain ⟨⟨m', a', b', e'⟩, k2⟩ := k
  refine ⟨⟨m', a', b', by rw [e', e]⟩, fun p i o ho => ?_⟩
  obtain ⟨o1, h3, h4⟩ := h2 p i o ho
  obtain ⟨o2, k3, k4⟩ := k2 p i o1 h3
  refine ⟨o2, k3, ?_⟩
  rcases h4 with rfl | ⟨f1, f2, f3⟩
  · rcases k4 with rfl | ⟨g1, g2, g3⟩
    · exact Or.inl rfl
    · refine Or.inr ⟨g1, g2, fun parts k t r hs hr => ?_⟩
      obtain ⟨m2, a2, b2, e2⟩ := g3 parts k t r hs hr
      exact ⟨m2, a2, b2, by rw [e2, e]⟩
  · rcases k4 with rfl | ⟨g1, g2, g3⟩
    · exact Or.inr ⟨f1, f2, f3⟩
    · rw [f2] at g1; cases g1

theorem State.answerParts_notFree (r : ReadReq) (parts : List ReadPart) (k : Nat) (s : State) :
    Stage.isFree (s.answerParts r parts k).1 = false := by
  unfold State.answerParts
  split <;> rfl

theorem State.answerParts_state (r : ReadReq) (parts : List ReadPart) (k : Nat) (s : State) :
    ∃ m, (s.answerParts r parts k).2 = { s with ma := m } := by
  show ∃ m, (State.readParts k parts s).2 = _
  induction parts generalizing s with
  | nil => exact ⟨s.ma, rfl⟩
  | cons x l ih =>
    cases x with
    | mem a n => obtain ⟨m, e⟩ := ih (s.grantRead k); exact ⟨m, e⟩
    | synth b => exact ih s

/-- A list with the stage of its first selected request set, request by request. -/
theorem getElem?_setOldest (f : Stage → Bool) (st : Outstanding → Stage) (l : List Outstanding) (i : Nat) (o : Outstanding) (h : l[i]? = some o) :
    (Machine.setOldest f st l)[i]? = some o ∨
    (f o.stage = true ∧ (∀ j < i, ∀ x, l[j]? = some x → f x.stage = false) ∧ (Machine.setOldest f st l)[i]? = some { o with stage := st o }) := by
  induction l generalizing i with
  | nil => simp at h
  | cons x r ih =>
    unfold Machine.setOldest
    by_cases hx : f x.stage = true
    · rw [if_pos hx]
      cases i with
      | zero => simp at h; subst h; right; exact ⟨hx, fun j hj => by omega, rfl⟩
      | succ i => left; simpa using h
    · rw [if_neg hx]
      cases i with
      | zero => left; simpa using h
      | succ i =>
        rcases ih i (by simpa using h) with h1 | ⟨h1, h2, h3⟩
        · left; simpa using h1
        · right
          refine ⟨h1, fun j hj y hy => ?_, by simpa using h3⟩
          cases j with
          | zero => simp at hy; subst hy; simpa using hx
          | succ j => exact h2 j (by omega) y (by simpa using hy)

theorem Stage.isFree_of_hasTurn (t : Nat) (x : Stage) (h : Stage.hasTurn t x = true) : Stage.isFree x = true := by
  unfold Stage.hasTurn at h; unfold Stage.isFree; split at h <;> simp_all

/-- The read that a turn finds is the first request with that turn. -/
theorem readAt_some (t : Nat) (l : List Outstanding) (r : ReadReq) (parts : List ReadPart) (k : Nat) :
    readAt t l = some (r, parts, k) →
    (∃ o ∈ l, Stage.hasTurn t o.stage = true) ∧
    ∀ (i : Nat) (o : Outstanding), l[i]? = some o →
      (∀ j < i, ∀ x : Outstanding, l[j]? = some x → Stage.hasTurn t x.stage = false) →
      Stage.hasTurn t o.stage = true → ∀ r', o.req = .read r' → r' = r ∧ ∃ u, o.stage = .reading parts 0 k u := by
  unfold readAt
  induction l with
  | nil => intro h; simp at h
  | cons x l ih =>
    intro h
    simp only [List.findSome?_cons] at h
    split at h
    · rename_i v hv
      simp only [Option.some.injEq] at h; subst h
      have hx : ∃ p j u, x.stage = .reading p 0 j u ∧ u = t ∧ x.req = .read r ∧ p = parts ∧ j = k := by
        revert hv
        split
        · rename_i p j u q hs hq
          split
          · rename_i e
            intro hh; simp only [Option.some.injEq, Prod.mk.injEq] at hh
            exact ⟨p, j, u, hs, e, by rw [hq, hh.1], hh.2.1, hh.2.2⟩
          · intro hh; cases hh
        · intro hh; cases hh
      obtain ⟨p, j, u, h1, h2, h3, h4, h5⟩ := hx
      subst h2 h4 h5
      refine ⟨⟨x, by simp, by rw [h1]; simp [Stage.hasTurn]⟩, ?_⟩
      intro i o ho hj ht r' hr'
      cases i with
      | zero =>
        simp at ho; subst ho
        rw [h3] at hr'; injection hr' with hr'
        exact ⟨hr'.symm, u, h1⟩
      | succ i =>
        have := hj 0 (by omega) x rfl
        rw [h1] at this; simp [Stage.hasTurn] at this
    · rename_i hv
      obtain ⟨⟨o, ho, ho2⟩, h2⟩ := ih h
      refine ⟨⟨o, by simp [ho], ho2⟩, ?_⟩
      intro i o ho hj ht r' hr'
      cases i with
      | zero =>
        simp at ho; subst ho
        exfalso
        revert hv
        unfold Stage.hasTurn at ht
        split at ht
        · rename_i p j u hs
          rw [hs, hr']
          have : u = t := by simpa using ht
          simp [this]
        · cases ht
      | succ i =>
        exact h2 i o (by simpa using ho) (fun j hj' y hy => hj (j + 1) (by omega) y (by simpa using hy)) ht r' hr'

theorem countP_isFree_setOldest (f : Stage → Bool) (st : Outstanding → Stage) (l : List Outstanding) (hf : ∀ x, f x = true → Stage.isFree x = true)
    (hs : ∀ o, Stage.isFree (st o) = false) (he : ∃ o ∈ l, f o.stage = true) :
    (Machine.setOldest f st l).countP (fun o => Stage.isFree o.stage) + 1 = l.countP (fun o => Stage.isFree o.stage) := by
  induction l with
  | nil => simp at he
  | cons x r ih =>
    unfold Machine.setOldest
    by_cases hx : f x.stage = true
    · rw [if_pos hx]
      simp [hs, hf _ hx]
    · rw [if_neg hx]
      have : ∃ o ∈ r, f o.stage = true := by
        obtain ⟨o, ho, h2⟩ := he
        rcases List.mem_cons.1 ho with rfl | ho
        · exact absurd h2 hx
        · exact ⟨o, ho, h2⟩
      have := ih this
      simp only [List.countP_cons]; omega

theorem State.port_setOldest (p q : Port) (f : Stage → Bool) (st : Outstanding → Stage) (s : State) :
    ((s.setOldest p f st).port q).outstanding = if q = p then Machine.setOldest f st (s.port p).outstanding else (s.port q).outstanding := by
  cases p <;> cases q <;> rfl

/-- One port's turn: its read with that turn is answered, and no other request of either port changes. -/
theorem State.serveTurn_spec (t : Nat) (p : Port) (s : State) : State.readsServed s (s.serveTurn t p) ∧ (s.serveTurn t p).freeCount ≤ s.freeCount ∧
    ((readAt t (s.port p).outstanding).isSome = true → (s.serveTurn t p).freeCount < s.freeCount) := by
  unfold State.serveTurn
  cases h : readAt t (s.port p).outstanding with
  | none => exact ⟨State.readsServed_refl s, le_refl _, by simp⟩
  | some x =>
    obtain ⟨r, parts, k⟩ := x
    obtain ⟨he, h2⟩ := readAt_some t _ r parts k h
    obtain ⟨m, e⟩ := State.answerParts_state r parts (min k s.fwd.length) s
    simp only
    rw [e]
    have hc : (State.setOldest p (Stage.hasTurn t) (fun _ => (s.answerParts r parts (min k s.fwd.length)).1) ({ s with ma := m } : State)).freeCount + 1 = s.freeCount := by
      have := countP_isFree_setOldest (Stage.hasTurn t) (fun _ => (s.answerParts r parts (min k s.fwd.length)).1) (s.port p).outstanding (Stage.isFree_of_hasTurn t)
        (fun _ => State.answerParts_notFree r parts _ s) he
      unfold State.freeCount
      cases p
      · simp only [State.setOldest, State.setPort, State.port] at this ⊢; omega
      · simp only [State.setOldest, State.setPort, State.port] at this ⊢; omega
    refine ⟨⟨?_, ?_⟩, by omega, fun _ => by omega⟩
    · cases p
      · exact ⟨m, _, s.portB, rfl⟩
      · exact ⟨m, s.portA, _, rfl⟩
    · intro q i o ho
      rw [State.port_setOldest]
      by_cases hq : q = p
      · subst hq
        rw [if_pos rfl]
        have e2 : (({ s with ma := m } : State).port q) = s.port q := by cases q <;> rfl
        rw [e2]
        rcases getElem?_setOldest (Stage.hasTurn t) (fun _ => (s.answerParts r parts (min k s.fwd.length)).1) _ i o ho with h3 | ⟨h3, h4, h5⟩
        · exact ⟨o, h3, Or.inl rfl⟩
        · refine ⟨_, h5, Or.inr ⟨Stage.isFree_of_hasTurn _ _ h3, State.answerParts_notFree _ _ _ _, ?_⟩⟩
          intro parts' k' t' r' hs hr
          obtain ⟨h6, u, h7⟩ := h2 i o ho h4 h3 r' hr
          subst h6
          rw [hs] at h7; injection h7 with h7 _ h8 _
          subst h7 h8
          exact ⟨s.ma, s.portA, s.portB, rfl⟩
      · rw [if_neg hq]
        have e2 : (({ s with ma := m } : State).port q) = s.port q := by cases q <;> rfl
        rw [e2]
        exact ⟨o, ho, Or.inl rfl⟩

theorem mem_freeTurns (t : Nat) (l : List Outstanding) : t ∈ freeTurns l ↔ ∃ o ∈ l, ∃ parts k r, o.stage = .reading parts 0 k t ∧ o.req = .read r := by
  unfold freeTurns
  simp only [List.mem_filterMap]
  constructor
  · rintro ⟨o, ho, h⟩
    split at h
    · rename_i p k u q hs hq
      simp only [Option.some.injEq] at h; subst h
      exact ⟨o, ho, p, k, q, hs, hq⟩
    · cases h
  · rintro ⟨o, ho, p, k, r, h1, h2⟩
    exact ⟨o, ho, by rw [h1, h2]; rfl⟩

theorem readAt_isSome (t : Nat) (l : List Outstanding) (h : t ∈ freeTurns l) : (readAt t l).isSome = true := by
  obtain ⟨o, ho, p, k, r, h1, h2⟩ := (mem_freeTurns t l).1 h
  unfold readAt
  rw [List.findSome?_isSome_iff]
  exact ⟨o, ho, by rw [h1, h2]; simp⟩

/-- The first turn is that of a read that may go, and no other is lower. -/
theorem State.firstTurn_eq_some (s : State) (t : Nat) (h : s.firstTurn = some t) :
    (∃ p, t ∈ freeTurns (s.port p).outstanding) ∧ ∀ p, ∀ u ∈ freeTurns (s.port p).outstanding, t ≤ u := by
  unfold State.firstTurn at h
  rw [List.min?_eq_some_iff] at h
  obtain ⟨h1, h2⟩ := h
  refine ⟨?_, fun p u hu => h2 u (by cases p <;> simp only [State.port] at hu <;> simp [hu])⟩
  rcases List.mem_append.1 h1 with h1 | h1
  · exact ⟨.A, h1⟩
  · exact ⟨.B, h1⟩

theorem State.freeTurns_of_firstTurn_none (s : State) (h : s.firstTurn = none) (p : Port) : freeTurns (s.port p).outstanding = [] := by
  unfold State.firstTurn at h
  rw [List.min?_eq_none_iff, List.append_eq_nil_iff] at h
  cases p <;> simp [State.port, h.1, h.2]

/-- The reads that may go are answered, all of them when there are no more than turns. -/
theorem State.serveTurns_spec (n : Nat) (s : State) : State.readsServed s (s.serveTurns n) ∧ (s.freeCount ≤ n → (s.serveTurns n).firstTurn = none) := by
  have hzero : ∀ s : State, s.freeCount = 0 → s.firstTurn = none := by
    intro s hs
    unfold State.freeCount at hs
    have : ∀ l : List Outstanding, l.countP (fun o => Stage.isFree o.stage) = 0 → freeTurns l = [] := by
      intro l hl
      rw [List.eq_nil_iff_forall_not_mem]
      intro t ht
      obtain ⟨o, ho, p, k, r, h1, _⟩ := (mem_freeTurns t l).1 ht
      rw [List.countP_eq_zero] at hl
      exact hl o ho (by rw [h1]; rfl)
    unfold State.firstTurn
    rw [this _ (by omega), this _ (by omega)]; rfl
  induction n generalizing s with
  | zero => exact ⟨State.readsServed_refl s, fun h => hzero s (by omega)⟩
  | succ n ih =>
    unfold State.serveTurns
    cases h : s.firstTurn with
    | none => exact ⟨State.readsServed_refl s, fun _ => h⟩
    | some t =>
      simp only
      obtain ⟨a1, a2, a3⟩ := State.serveTurn_spec t .A s
      obtain ⟨b1, b2, b3⟩ := State.serveTurn_spec t .B (s.serveTurn t .A)
      obtain ⟨c1, c2⟩ := ih ((s.serveTurn t .A).serveTurn t .B)
      refine ⟨State.readsServed_trans a1 (State.readsServed_trans b1 c1), fun hn => c2 ?_⟩
      obtain ⟨⟨p, hp⟩, _⟩ := State.firstTurn_eq_some s t h
      cases p with
      | A => have := a3 (readAt_isSome t _ hp); omega
      | B =>
        have e : (s.serveTurn t .A).portB = s.portB := by
          unfold State.serveTurn
          split
          · rename_i r parts k _
            obtain ⟨m, e⟩ := State.answerParts_state r parts (min k s.fwd.length) s
            rw [e]; rfl
          · rfl
        have : (readAt t ((s.serveTurn t .A).port .B).outstanding).isSome = true := by
          show (readAt t (s.serveTurn t .A).portB.outstanding).isSome = true
          rw [e]; exact readAt_isSome t _ hp
        have := b3 this; omega

/-- What an answered write of the forwarded side changes. -/
theorem State.answerForward_eq (cells : Cells) (a : WriteAnswer) (s : State) : ∃ m v w,
    s.answerForward cells a
      = { s with dram := (s.forwardedWrite cells a).dram, fwd := s.fwd.tail, ma := m, portA := v, portB := w } := by
  obtain ⟨⟨m, v, w, e⟩, _⟩ :=
    (State.serveTurns_spec 16 ({ s.forwardedWrite cells a with fwd := s.fwd.tail } : State).countDown).1
  exact ⟨m, v, w, by show State.serveTurns 16 _ = _; rw [e]; rfl⟩

end Sys2Proof.Machine
end

