-- ==== Sys2Proof/Laws/Start.lean ====
section
/-! SUPPORT. What the reads of START_FRESH, START_RESTORE and RELOAD can do (09_start_and_restore.md, R153, R154): what each
returns when memory answers it, and what whole phases of them come to. -/

namespace Sys2Proof.Machine

/-! ## Maps listed by a range of keys -/

theorem Map.at?_append {α : Type} (l r : Map α) (k : Nat) : Map.at? (l ++ r) k = (Map.at? l k).or (Map.at? r k) := by
  induction l with
  | nil => rfl
  | cons c t ih =>
    obtain ⟨j, v⟩ := c
    simp only [List.cons_append, Map.at?]
    split <;> simp [ih]

/-- A map listed by a range of keys. -/
theorem Map.at?_range {α : Type} (f : Nat → Option α) (n k : Nat) :
    Map.at? ((List.range n).filterMap (fun b => (f b).map (fun v => (b, v)))) k = if k < n then f k else none := by
  induction n with
  | zero => simp [Map.at?]
  | succ n ih =>
    rw [List.range_succ, List.filterMap_append, Map.at?_append, ih]
    by_cases h : k < n
    · have h1 : n ≠ k := by omega
      simp only [h, if_true, if_pos (show k < n + 1 by omega)]
      cases f k <;> cases hn : f n <;> simp [hn, Map.at?, h1]
    · by_cases e : k = n
      · subst e
        cases hn : f k <;> simp [hn, Map.at?]
      · have h1 : n ≠ k := fun e' => e e'.symm
        simp only [h, if_false, if_neg (show ¬ k < n + 1 by omega)]
        cases hn : f n <;> simp [hn, Map.at?, h1]

/-- The bin table a start loads (R162). -/
theorem getD_loadBins (fresh : Bool) (images : Map BinImage) (b : Nat) :
    Map.getD Bin.reset (loadBins fresh images) b
      = if b < 2048 then (Map.getD BinImage.zero images b).load fresh else Bin.reset := by
  have e : loadBins fresh images = (List.range Config.bins).filterMap (fun b =>
      ((fun c => if (Map.getD BinImage.zero images c).load fresh = Bin.reset then none
        else some ((Map.getD BinImage.zero images c).load fresh)) b).map (fun v => (b, v))) := by
    unfold loadBins
    congr 1
    funext c
    split <;> rename_i h <;> simp [h]
  unfold Map.getD
  rw [e, Map.at?_range]
  simp only [Config.bins]
  by_cases h : b < 2048
  · simp only [h, if_true]
    split
    · rename_i h'; simp only [Map.getD] at h'; rw [h']; rfl
    · rfl
  · simp [h]

/-! ## Bin images -/

/-- Images that are all in range are read (R162). -/
theorem readImages_of_ok (d : Memory) (cb : Nat) (l : List Nat)
    (h : ∀ b ∈ l, (Memory.binImage d (binImageAddr cb b)).ok = true) :
    ∃ m, readImages d cb l = some m ∧ (∀ b, b ∉ l → Map.at? m b = none) ∧
      (∀ b ∈ l, Map.getD BinImage.zero m b = Memory.binImage d (binImageAddr cb b)) := by
  induction l with
  | nil => exact ⟨[], rfl, fun _ _ => rfl, fun b hb => (List.not_mem_nil hb).elim⟩
  | cons b r ih =>
    obtain ⟨m, h1, h2, h3⟩ := ih (fun c hc => h c (List.mem_cons_of_mem _ hc))
    unfold readImages
    rw [if_pos (h b List.mem_cons_self), h1]
    by_cases hz : Memory.binImage d (binImageAddr cb b) = BinImage.zero
    · refine ⟨m, by simp [hz], fun c hc => h2 c (fun e => hc (List.mem_cons_of_mem _ e)), fun c hc => ?_⟩
      rcases List.mem_cons.1 hc with rfl | hc
      · by_cases hr : c ∈ r
        · exact h3 c hr
        · unfold Map.getD; rw [h2 c hr, hz]; rfl
      · exact h3 c hc
    · refine ⟨(b, Memory.binImage d (binImageAddr cb b)) :: m, by simp [hz], fun c hc => ?_, fun c hc => ?_⟩
      · have : b ≠ c := fun e => hc (by simp [e])
        simp only [Map.at?, this, if_false]
        exact h2 c (fun e => hc (List.mem_cons_of_mem _ e))
      · by_cases e : b = c
        · subst e; simp [Map.getD, Map.at?]
        · rcases List.mem_cons.1 hc with rfl | hc
          · exact absurd rfl e
          · have := h3 c hc
            simpa [Map.getD, Map.at?, e] using this

/-- An image out of range refuses the read (R162). -/
theorem readImages_eq_none (d : Memory) (cb : Nat) (l : List Nat) :
    readImages d cb l = none ↔ ∃ b ∈ l, (Memory.binImage d (binImageAddr cb b)).ok = false := by
  induction l with
  | nil => simp [readImages]
  | cons b r ih =>
    unfold readImages
    cases hb : (Memory.binImage d (binImageAddr cb b)).ok
    · simp [hb]
    · cases hr : readImages d cb r with
      | none => simp [hb, hr] at ih ⊢; exact ih
      | some m => simp [hb, hr] at ih ⊢; exact ih

/-! ## A read of the control unit -/

/-- A read of the control unit changes the arbiter alone, and its grants answer nothing. -/
theorem State.cuRead_eq (s : State) :
    ∃ m, s.cuRead = { s with ma := m } ∧ ∀ c, Grant.done c ∈ m.order → Grant.done c ∈ s.ma.order :=
  ⟨_, rfl, fun c h => (Arbiter.done_grantUntil _ _ _ _ (s.ma.ask .cuRead) c).mp h⟩

/-- With no write of the part outstanding a read of the control unit finds DRAM on a run that no forwarded write overlaps
(R138, R141). -/
theorem State.cuRead_agree (s : State) (h : s.readsDram) (a n : Nat) (hf : overlapsForward s.fwd a n = false) :
    Memory.agree s.cuRead.memory s.dram a n :=
  State.memory_agree s.cuRead ⟨⟨h.1.1, h.1.2.1, h.1.2.2.1, h.1.2.2.2.1,
    fun c k => h.1.2.2.2.2 c ((Arbiter.done_grantUntil _ _ _ _ (s.ma.ask .cuRead) c).mp k)⟩, h.2⟩ a n hf

/-! ## Runs of reads -/

/-- Reads one after the other. -/
theorem State.reads_add (fault : Option ReadSite) (n m : Nat) (s : State) :
    State.reads fault (n + m) s = State.reads fault m (State.reads fault n s) := by
  induction n generalizing s with
  | zero => simp [State.reads]
  | succ n ih => rw [Nat.succ_add]; exact ih _

/-- The control unit has gone on to a work, by grants of its reads alone. -/
def State.readTo (w : CuWork) (s t : State) : Prop :=
  ∃ m, t = { s with ma := m, cu := { s.cu with work := w } } ∧
    ∀ c, Grant.done c ∈ m.order → Grant.done c ∈ s.ma.order

theorem State.readTo_refl {w : CuWork} {s : State} (h : s.cu.work = w) : s.readTo w s :=
  ⟨s.ma, by subst h; rfl, fun _ => id⟩

theorem State.readTo_cuRead (w : CuWork) (s : State) : s.readTo w (s.cuRead.working w) :=
  ⟨_, rfl, fun c h => (Arbiter.done_grantUntil _ _ _ _ (s.ma.ask .cuRead) c).mp h⟩

theorem State.readTo_trans {w x : CuWork} {s t u : State} (h : s.readTo w t) (k : t.readTo x u) : s.readTo x u := by
  obtain ⟨_, rfl, h⟩ := h
  obtain ⟨m, rfl, k⟩ := k
  exact ⟨m, rfl, fun c x => h c (k c x)⟩

theorem State.done_of_readTo {w : CuWork} {s t : State} (h : s.readTo w t) (c : Cells) (k : Grant.done c ∈ t.ma.order) :
    Grant.done c ∈ s.ma.order := by
  obtain ⟨_, rfl, h⟩ := h
  exact h c k

theorem State.done_of_cuRead {w : CuWork} {s t : State} (h : s.readTo w t) (c : Cells)
    (k : Grant.done c ∈ t.cuRead.ma.order) : Grant.done c ∈ s.ma.order :=
  State.done_of_readTo (State.readTo_trans h (State.readTo_cuRead .idle t)) c k

theorem State.readsDram_of_readTo {w : CuWork} {s t : State} (h : s.readTo w t) (hw : ∀ r, w ≠ .result r)
    (k : s.readsDram) : t.readsDram := by
  obtain ⟨_, rfl, h⟩ := h
  refine ⟨⟨k.1.1, k.1.2.1, k.1.2.2.1, ?_, fun c x => k.1.2.2.2.2 c (h c x)⟩, k.2⟩
  unfold State.cuFlightCells
  cases w <;> simp_all

theorem overlapsForward_part (fwd : List FwdWrite) (a n b m : Nat) (h : overlapsForward fwd a n = false) (h1 : a ≤ b)
    (h2 : b + m ≤ a + n) : overlapsForward fwd b m = false := by
  unfold overlapsForward at *
  rw [List.any_eq_false] at *
  intro w hw hc
  apply h w hw
  simp only [runsOverlap, Bool.and_eq_true, decide_eq_true_eq] at hc ⊢
  omega

/-- A read that overlaps no forwarded write need not wait (R138). -/
theorem State.cuMayRead_of_part (s : State) (a n b m : Nat) (h : overlapsForward s.fwd a n = false) (h1 : a ≤ b)
    (h2 : b + m ≤ a + n) : s.cuMayRead b m = true := by
  unfold State.cuMayRead
  rw [overlapsForward_part _ _ _ _ _ h h1 h2]; rfl

/-! ## The tables phase -/

/-- The tables of a start lie in the control block. -/
theorem tableRun_within (use : TableUse) (site : ReadSite) (h : site ∈ tableSites use) :
    (tableRun site).1 + (tableRun site).2 ≤ 20480 := by
  have key : ∀ u : TableUse, ∀ x ∈ tableSites u, (tableRun x).1 + (tableRun x).2 ≤ 20480 := by
    intro u
    cases u <;> decide
  exact key use site h

/-- A read of the tables phase that is answered OK. -/
theorem State.readNext_table (use : TableUse) (seq : Word32) (k : Nat) (t : TablesRead) (site : ReadSite) (s : State)
    (hs : s.cu.work = .tables use seq k t) (hx : (tableSites use)[k]? = some site)
    (hf : overlapsForward s.fwd s.cbBase 20480 = false) (ho : s.readsDram) :
    s.readNext none
      = if k + 1 < (tableSites use).length then
          s.cuRead.working (.tables use seq (k + 1) (t.take s.dram s.cbBase site))
        else s.cuRead.endTables use seq (t.take s.dram s.cbBase site) := by
  have hin := tableRun_within use site (List.mem_of_getElem? hx)
  have hm := State.cuMayRead_of_part s _ _ (s.cbBase + (tableRun site).1) (tableRun site).2 hf (Nat.le_add_right _ _)
    (by omega)
  unfold State.readNext
  rw [hs]
  simp only
  unfold State.readTable
  rw [hx]
  simp only [hm, if_true, reduceCtorEq, if_false]
  rw [(State.cuRead_agree s ho _ _ (overlapsForward_part _ _ _ _ _ hf (Nat.le_add_right _ _) (by omega))).take]

/-- What the reads of the tables phase have returned after `k` of them. -/
def tablesUpTo (d : Memory) (cb : Nat) (use : TableUse) (k : Nat) : TablesRead :=
  ((tableSites use).take k).foldl (TablesRead.take d cb) TablesRead.none

theorem tablesUpTo_succ (d : Memory) (cb : Nat) (use : TableUse) (k : Nat) (site : ReadSite)
    (hx : (tableSites use)[k]? = some site) :
    tablesUpTo d cb use (k + 1) = (tablesUpTo d cb use k).take d cb site := by
  unfold tablesUpTo
  rw [List.take_add_one, hx, List.foldl_append]; rfl

/-- The first reads of a tables phase (R153). -/
theorem State.reads_tables (use : TableUse) (seq : Word32) (s : State)
    (hs : s.cu.work = .tables use seq 0 TablesRead.none) (hf : overlapsForward s.fwd s.cbBase 20480 = false)
    (ho : s.readsDram) (k : Nat) (hk : k < (tableSites use).length) :
    s.readTo (.tables use seq k (tablesUpTo s.dram s.cbBase use k)) (State.reads none k s) := by
  induction k with
  | zero => exact State.readTo_refl hs
  | succ k ih =>
    have h1 := ih (by omega)
    have h2 := State.readsDram_of_readTo h1 (by simp) ho
    rw [State.reads_add none k 1]
    obtain ⟨m, e, hm⟩ := id h1
    generalize State.reads none k s = t at e h1 h2
    show s.readTo _ (t.readNext none)
    rw [State.readNext_table use seq k _ (tableSites use)[k] t (by rw [e]) (List.getElem?_eq_getElem _) (by rw [e]; exact hf)
      h2, if_pos hk, tablesUpTo_succ _ _ _ _ _ (List.getElem?_eq_getElem (by omega))]
    have h3 := fun w => State.readTo_trans h1 (State.readTo_cuRead w t)
    subst e
    exact h3 _

/-- The whole tables phase (R153, R161): what DRAM holds is validated. -/
theorem State.reads_tables_end (use : TableUse) (seq : Word32) (s : State)
    (hs : s.cu.work = .tables use seq 0 TablesRead.none) (hf : overlapsForward s.fwd s.cbBase 20480 = false)
    (ho : s.readsDram) :
    ∃ m w, (∀ r, w ≠ .result r) ∧ (∀ c, Grant.done c ∈ m.order → Grant.done c ∈ s.ma.order) ∧
      State.reads none (tableSites use).length s
      = ({ s with ma := m, cu := { s.cu with work := w } } : State).endTables use seq (tablesIn s.dram s.cbBase use) := by
  obtain ⟨k, hk⟩ : ∃ k, (tableSites use).length = k + 1 := by cases use <;> exact ⟨_, rfl⟩
  have h1 := State.reads_tables use seq s hs hf ho k (by omega)
  have h2 := State.readsDram_of_readTo h1 (by simp) ho
  obtain ⟨m, e, hm⟩ := id h1
  have e3 : tablesIn s.dram s.cbBase use = tablesUpTo s.dram s.cbBase use (k + 1) := by
    unfold tablesIn tablesUpTo
    rw [List.take_of_length_le (by omega)]
  rw [hk, State.reads_add none k 1, e3]
  generalize State.reads none k s = t at e h1 h2
  refine ⟨t.cuRead.ma, .tables use seq k (tablesUpTo s.dram s.cbBase use k), by simp,
    State.done_of_cuRead h1, ?_⟩
  show t.readNext none = _
  rw [State.readNext_table use seq k _ (tableSites use)[k] t (by rw [e]) (List.getElem?_eq_getElem _) (by rw [e]; exact hf)
    h2, if_neg (by omega), tablesUpTo_succ _ _ _ _ _ (List.getElem?_eq_getElem (by omega))]
  subst e
  rfl

/-! ## The bin image phase -/

/-- A read of eight bin images that is answered OK. -/
theorem State.readNext_images (fresh : Bool) (d : StartData) (k : Nat) (m : Map BinImage) (s : State)
    (hs : s.cu.work = .images fresh d k) (hk : k < 256) (hf : overlapsForward s.fwd s.cbBase 20480 = false)
    (ho : s.readsDram) (hm : readImages s.dram s.cbBase (blockBins k) = some m) :
    s.readNext none
      = if k + 1 < 256 then s.cuRead.working (.images fresh { d with images := d.images ++ m } (k + 1))
        else if fresh then s.cuRead.buildFresh { d with images := d.images ++ m }
        else s.cuRead.working (.headers { d with images := d.images ++ m } []) := by
  have hr := State.cuMayRead_of_part s _ _ (s.cbBase + imagesOff + 64 * k) 64 hf (by simp only [imagesOff]; omega)
    (by simp only [imagesOff]; omega)
  unfold State.readNext
  rw [hs]
  simp only
  unfold State.readImageBlock
  simp only [hr, if_true, reduceCtorEq, if_false]
  rw [(State.cuRead_agree s ho _ _ (overlapsForward_part _ _ _ _ _ hf (by simp only [imagesOff]; omega)
    (by simp only [imagesOff]; omega))).readImages, hm]
  rfl

/-- The images of the bins below `8 * k`, as DRAM holds them. -/
def imagesAre (d : Memory) (cb k : Nat) (images : Map BinImage) : Prop :=
  ∀ b, (b < 8 * k → Map.getD BinImage.zero images b = Memory.binImage d (binImageAddr cb b)) ∧
    (8 * k ≤ b → Map.at? images b = none)

theorem mem_blockBins (k b : Nat) : b ∈ blockBins k ↔ 8 * k ≤ b ∧ b < 8 * (k + 1) := by
  unfold blockBins
  rw [List.mem_map]
  constructor
  · rintro ⟨a, ha, rfl⟩
    rw [List.mem_range] at ha
    omega
  · intro h
    exact ⟨b - 8 * k, List.mem_range.2 (by omega), by omega⟩

/-- Eight images more (R162). -/
theorem imagesAre_succ (d : Memory) (cb k : Nat) (images : Map BinImage) (h : imagesAre d cb k images)
    (hok : ∀ b, b < 8 * (k + 1) → (Memory.binImage d (binImageAddr cb b)).ok = true) :
    ∃ m, readImages d cb (blockBins k) = some m ∧ imagesAre d cb (k + 1) (images ++ m) := by
  obtain ⟨m, h1, h2, h3⟩ := readImages_of_ok d cb (blockBins k)
    (fun b hb => hok b ((mem_blockBins k b).1 hb).2)
  refine ⟨m, h1, fun b => ⟨fun hb => ?_, fun hb => ?_⟩⟩
  · by_cases hlow : b < 8 * k
    · have hn : b ∉ blockBins k := fun e => by have := (mem_blockBins k b).1 e; omega
      have := (h b).1 hlow
      unfold Map.getD at *
      rw [Map.at?_append, h2 b hn, Option.or_none]; exact this
    · have := h3 b ((mem_blockBins k b).2 ⟨by omega, hb⟩)
      unfold Map.getD at *
      rw [Map.at?_append, (h b).2 (by omega), Option.none_or]; exact this
  · rw [Map.at?_append, (h b).2 (by omega), h2 b (fun e => by have := (mem_blockBins k b).1 e; omega)]; rfl

/-- The first reads of the bin image phase. -/
theorem State.reads_images (fresh : Bool) (d : StartData) (s : State) (hd : d.images = [])
    (hs : s.cu.work = .images fresh d 0) (hf : overlapsForward s.fwd s.cbBase 20480 = false) (ho : s.readsDram)
    (hok : ∀ b, b < 2048 → (Memory.binImage s.dram (binImageAddr s.cbBase b)).ok = true) (k : Nat) (hk : k < 256) :
    ∃ images, imagesAre s.dram s.cbBase k images ∧
      s.readTo (.images fresh { d with images := images } k) (State.reads none k s) := by
  induction k with
  | zero => exact ⟨[], fun b => ⟨fun hb => absurd hb (by omega), fun _ => rfl⟩, State.readTo_refl (by rw [hs, ← hd])⟩
  | succ k ih =>
    obtain ⟨images, hi, h1⟩ := ih (by omega)
    have h2 := State.readsDram_of_readTo h1 (by simp) ho
    rw [State.reads_add none k 1]
    obtain ⟨m, e, hm⟩ := id h1
    generalize State.reads none k s = t at e h1 h2
    obtain ⟨x, hx, hnext⟩ := imagesAre_succ s.dram s.cbBase k images hi (fun b hb => hok b (by omega))
    refine ⟨images ++ x, hnext, ?_⟩
    show s.readTo _ (t.readNext none)
    rw [State.readNext_images fresh { d with images := images } k x t (by rw [e]) (by omega) (by rw [e]; exact hf) h2
      (by rw [e]; exact hx), if_pos hk]
    have h3 := fun w => State.readTo_trans h1 (State.readTo_cuRead w t)
    subst e
    exact h3 _

/-- The whole bin image phase (R162). -/
theorem State.reads_images_end (fresh : Bool) (d : StartData) (s : State) (hd : d.images = [])
    (hs : s.cu.work = .images fresh d 0) (hf : overlapsForward s.fwd s.cbBase 20480 = false) (ho : s.readsDram)
    (hok : ∀ b, b < 2048 → (Memory.binImage s.dram (binImageAddr s.cbBase b)).ok = true) :
    ∃ images m w, (∀ r, w ≠ .result r) ∧ (∀ c, Grant.done c ∈ m.order → Grant.done c ∈ s.ma.order) ∧
      imagesAre s.dram s.cbBase 256 images ∧
      State.reads none 256 s
        = (if fresh then State.buildFresh { d with images := images } { s with ma := m, cu := { s.cu with work := w } }
           else { s with ma := m, cu := { s.cu with work := .headers { d with images := images } [] } }) := by
  obtain ⟨images, hi, h1⟩ := State.reads_images fresh d s hd hs hf ho hok 255 (by omega)
  have h2 := State.readsDram_of_readTo h1 (by simp) ho
  rw [State.reads_add none 255 1]
  obtain ⟨m, e, hm⟩ := id h1
  generalize State.reads none 255 s = t at e h1 h2
  obtain ⟨x, hx, hnext⟩ := imagesAre_succ s.dram s.cbBase 255 images hi (fun b hb => hok b (by omega))
  refine ⟨images ++ x, t.cuRead.ma, .images fresh { d with images := images } 255, by simp,
    State.done_of_cuRead h1, hnext, ?_⟩
  show t.readNext none = _
  rw [State.readNext_images fresh { d with images := images } 255 x t (by rw [e]) (by omega) (by rw [e]; exact hf) h2
    (by rw [e]; exact hx), if_neg (by omega)]
  subst e
  cases fresh <;> rfl

/-! ## The header phase -/

theorem queueIds_getElem (q : Fin 6) : queueIds[q.val]? = some q := by
  revert q; decide

/-- A read of a queue header that is answered OK (R164). -/
theorem State.readNext_header (d : StartData) (read : List QHeader) (q : Fin 6) (s : State)
    (hs : s.cu.work = .headers d read) (hq : read.length = q.val)
    (hf : overlapsForward s.fwd d.tables.descs[q].ringBase 48 = false) (ho : s.readsDram) :
    s.readNext none
      = if q.val < 5 then
          s.cuRead.working (.headers d (read ++ [Memory.header s.dram d.tables.descs[q].ringBase]))
        else s.cuRead.endHeaders d (read ++ [Memory.header s.dram d.tables.descs[q].ringBase]) := by
  have hm : s.cuMayRead d.tables.descs[q].ringBase 48 = true := by unfold State.cuMayRead; rw [hf]; rfl
  have hl : queueIds.length = 6 := rfl
  unfold State.readNext
  rw [hs]
  simp only
  unfold State.readHeader
  rw [hq, queueIds_getElem q]
  simp only [hm, if_true, reduceCtorEq, if_false]
  rw [(State.cuRead_agree s ho _ _ hf).header, hl]
  by_cases h : q.val < 5
  · rw [if_pos h, if_pos (by omega)]
  · rw [if_neg h, if_neg (by omega)]

theorem headersIn_take_succ (d : Memory) (descs : Vector QDesc 6) (q : Fin 6) :
    (headersIn d descs).take (q.val + 1) = (headersIn d descs).take q.val ++ [Memory.header d descs[q].ringBase] := by
  have h : (headersIn d descs)[q.val]? = some (Memory.header d descs[q].ringBase) := by
    unfold headersIn
    rw [List.getElem?_map, queueIds_getElem q]; rfl
  rw [List.take_add_one, h]; rfl

theorem length_headersIn (d : Memory) (descs : Vector QDesc 6) : (headersIn d descs).length = 6 := by
  unfold headersIn; rw [List.length_map]; rfl

/-- The first reads of the header phase. -/
theorem State.reads_headers (d : StartData) (s : State) (hs : s.cu.work = .headers d [])
    (hf : ∀ q : Fin 6, overlapsForward s.fwd d.tables.descs[q].ringBase 48 = false) (ho : s.readsDram) (k : Nat)
    (hk : k ≤ 5) :
    s.readTo (.headers d ((headersIn s.dram d.tables.descs).take k)) (State.reads none k s) := by
  induction k with
  | zero => exact State.readTo_refl hs
  | succ k ih =>
    have h1 := ih (by omega)
    have h2 := State.readsDram_of_readTo h1 (by simp) ho
    rw [State.reads_add none k 1]
    obtain ⟨m, e, hm⟩ := id h1
    generalize State.reads none k s = t at e h1 h2
    show s.readTo _ (t.readNext none)
    rw [State.readNext_header d ((headersIn s.dram d.tables.descs).take k) ⟨k, by omega⟩ t (by rw [e])
      (by rw [List.length_take, length_headersIn]; exact Nat.min_eq_left (by omega)) (by rw [e]; exact hf _) h2,
      if_pos (by show k < 5; omega), headersIn_take_succ _ _ ⟨k, by omega⟩]
    have h3 := fun w => State.readTo_trans h1 (State.readTo_cuRead w t)
    subst e
    exact h3 _

/-- The whole header phase (R164). -/
theorem State.reads_headers_end (d : StartData) (s : State) (hs : s.cu.work = .headers d [])
    (hf : ∀ q : Fin 6, overlapsForward s.fwd d.tables.descs[q].ringBase 48 = false) (ho : s.readsDram) :
    ∃ m w, (∀ r, w ≠ .result r) ∧ (∀ c, Grant.done c ∈ m.order → Grant.done c ∈ s.ma.order) ∧
      State.reads none 6 s
      = ({ s with ma := m, cu := { s.cu with work := w } } : State).endHeaders d (headersIn s.dram d.tables.descs) := by
  have h1 := State.reads_headers d s hs hf ho 5 (by omega)
  have h2 := State.readsDram_of_readTo h1 (by simp) ho
  have e3 : (headersIn s.dram d.tables.descs) = (headersIn s.dram d.tables.descs).take 5
      ++ [Memory.header s.dram d.tables.descs[(5 : Fin 6)].ringBase] := by
    exact (List.take_of_length_le (by rw [length_headersIn]; decide)).symm.trans (headersIn_take_succ s.dram d.tables.descs 5)
  obtain ⟨m, e, hm⟩ := id h1
  rw [State.reads_add none 5 1, e3]
  generalize State.reads none 5 s = t at e h1 h2
  refine ⟨t.cuRead.ma, .headers d ((headersIn s.dram d.tables.descs).take 5), by simp,
    State.done_of_cuRead h1, ?_⟩
  show t.readNext none = _
  rw [State.readNext_header d ((headersIn s.dram d.tables.descs).take 5) 5 t (by rw [e])
    (by rw [List.length_take, length_headersIn]; rfl) (by rw [e]; exact hf _) h2, if_neg (by decide)]
  subst e
  rfl

/-- Headers that all pass their checks (R164). -/
theorem checkHeaders_of_none (descs : Vector QDesc 6) (headers : List QHeader) (l : List (Fin 6))
    (h : ∀ q ∈ l, (headerOf headers q).check descs[q].capacity = none) : checkHeaders descs headers l = none := by
  induction l with
  | nil => rfl
  | cons q r ih =>
    unfold checkHeaders
    rw [h q List.mem_cons_self]
    exact ih (fun x hx => h x (List.mem_cons_of_mem _ hx))

/-- The first header that fails its check (R164). -/
theorem checkHeaders_of_first (descs : Vector QDesc 6) (headers : List QHeader) (l r : List (Fin 6)) (q : Fin 6) (n : Nat)
    (h : ∀ p ∈ l, (headerOf headers p).check descs[p].capacity = none)
    (hq : (headerOf headers q).check descs[q].capacity = some n) :
    checkHeaders descs headers (l ++ q :: r) = some (checkFail n q) := by
  induction l with
  | nil => show checkHeaders _ _ (q :: r) = _; unfold checkHeaders; rw [hq]
  | cons p t ih =>
    show checkHeaders _ _ (p :: (t ++ q :: r)) = _
    unfold checkHeaders
    rw [h p List.mem_cons_self]
    exact ih (fun x hx => h x (List.mem_cons_of_mem _ hx))

/-! ## The entry phase -/

/-- A read of a ring entry that is answered OK and passes its checks (R165). -/
theorem State.readNext_entry (d : StartData) (headers : List QHeader) (read : List RingEntry) (x : Fin 6 × Nat) (s : State)
    (hs : s.cu.work = .entries d headers read) (hx : (entrySites headers)[read.length]? = some x)
    (hf : overlapsForward s.fwd
      (d.tables.descs[x.1].entryAddr (entryPos d.tables.descs[x.1].capacity (headerOf headers x.1) x.2)) 16 = false)
    (ho : s.readsDram)
    (hc : checkEntry d.tables.areas d.images (read.map (·.position.ticket)) x.1 (entryIn s.dram d.tables.descs headers x)
      = none) :
    s.readNext none = s.cuRead.toEntries d headers (read ++
      [(entryIn s.dram d.tables.descs headers x).entered x.1
        (entryPos d.tables.descs[x.1].capacity (headerOf headers x.1) x.2)]) := by
  obtain ⟨q, k⟩ := x
  have hm : s.cuMayRead (d.tables.descs[q].entryAddr (entryPos d.tables.descs[q].capacity (headerOf headers q) k))
      Config.entryBytes = true := by unfold State.cuMayRead; simp only at hf; rw [hf]; rfl
  unfold State.readNext
  rw [hs]
  simp only
  unfold State.readEntry
  rw [hx]
  unfold entryIn at hc
  simp only at hc
  simp only [hm, if_true, reduceCtorEq, if_false]
  rw [(State.cuRead_agree s ho _ _ hf).entry, hc]
  rfl

theorem length_entriesIn (d : Memory) (descs : Vector QDesc 6) (headers : List QHeader) :
    (entriesIn d descs headers).length = (entrySites headers).length := by
  unfold entriesIn; rw [List.length_map]

theorem entriesIn_take_succ (d : Memory) (descs : Vector QDesc 6) (headers : List QHeader) (k : Nat) (x : Fin 6 × Nat)
    (hx : (entrySites headers)[k]? = some x) :
    (entriesIn d descs headers).take (k + 1) = (entriesIn d descs headers).take k ++
      [(entryIn d descs headers x).entered x.1 (entryPos descs[x.1].capacity (headerOf headers x.1) x.2)] := by
  have h : (entriesIn d descs headers)[k]?
      = some ((entryIn d descs headers x).entered x.1 (entryPos descs[x.1].capacity (headerOf headers x.1) x.2)) := by
    unfold entriesIn
    rw [List.getElem?_map, hx]; rfl
  rw [List.take_add_one, h]; rfl

/-- Every entry can be read and passes its checks. -/
def State.entriesPass (d : StartData) (headers : List QHeader) (s : State) : Prop :=
  ∀ k x, (entrySites headers)[k]? = some x →
    overlapsForward s.fwd
      (d.tables.descs[x.1].entryAddr (entryPos d.tables.descs[x.1].capacity (headerOf headers x.1) x.2)) 16 = false ∧
    checkEntry d.tables.areas d.images (((entriesIn s.dram d.tables.descs headers).take k).map (·.position.ticket)) x.1
      (entryIn s.dram d.tables.descs headers x) = none

/-- A number of reads of the entry phase. -/
theorem State.reads_entries (d : StartData) (headers : List QHeader) (s : State) (hs : s.cu.work = .entries d headers [])
    (hp : s.entriesPass d headers) (ho : s.readsDram) (k : Nat) (hk : k < (entrySites headers).length) :
    s.readTo (.entries d headers ((entriesIn s.dram d.tables.descs headers).take k)) (State.reads none k s) := by
  induction k with
  | zero => exact State.readTo_refl hs
  | succ k ih =>
    have h1 := ih (by omega)
    have h2 := State.readsDram_of_readTo h1 (by simp) ho
    have hx := List.getElem?_eq_getElem (l := entrySites headers) (i := k) (by omega)
    have hl : ((entriesIn s.dram d.tables.descs headers).take k).length = k := by
      rw [List.length_take, length_entriesIn]; omega
    rw [State.reads_add none k 1]
    obtain ⟨m, e, hm⟩ := id h1
    generalize State.reads none k s = t at e h1 h2
    show s.readTo _ (t.readNext none)
    have p := hp k _ hx
    rw [State.readNext_entry d headers _ (entrySites headers)[k] t (by rw [e]) (by rw [hl]; exact hx)
      (by rw [e]; exact p.1) h2 (by rw [e]; exact p.2), entriesIn_take_succ _ _ _ k _ hx]
    unfold State.toEntries
    rw [if_pos (by simp [length_entriesIn]; omega)]
    have h3 := fun w => State.readTo_trans h1 (State.readTo_cuRead w t)
    subst e
    exact h3 _

/-- The whole entry phase (R165). -/
theorem State.reads_entries_end (d : StartData) (headers : List QHeader) (s : State) (hp : s.entriesPass d headers)
    (ho : s.readsDram) :
    ∃ m w, State.reads none (entrySites headers).length (s.toEntries d headers [])
      = ({ s with ma := m, cu := { s.cu with work := w } } : State).endEntries d headers
          (entriesIn s.dram d.tables.descs headers) := by
  unfold State.toEntries
  by_cases hz : (entrySites headers).length = 0
  · have e : entriesIn s.dram d.tables.descs headers = [] :=
      List.eq_nil_of_length_eq_zero (by rw [length_entriesIn]; exact hz)
    rw [hz, if_neg (by simp), e]
    exact ⟨s.ma, s.cu.work, rfl⟩
  · rw [if_pos (by simp only [List.length_nil]; omega)]
    obtain ⟨k, hk⟩ : ∃ k, (entrySites headers).length = k + 1 := ⟨_, (Nat.succ_pred_eq_of_pos (by omega)).symm⟩
    have ho' : (s.working (.entries d headers [])).readsDram :=
      State.readsDram_of_readTo (w := .entries d headers []) ⟨s.ma, rfl, fun _ => id⟩ (by simp) ho
    have h1 := State.reads_entries d headers (s.working (.entries d headers [])) rfl hp ho' k (by omega)
    have h2 := State.readsDram_of_readTo h1 (by simp) ho'
    have hx := List.getElem?_eq_getElem (l := entrySites headers) (i := k) (by omega)
    have hl : ((entriesIn s.dram d.tables.descs headers).take k).length = k := by
      rw [List.length_take, length_entriesIn]; omega
    have e3 : entriesIn s.dram d.tables.descs headers = (entriesIn s.dram d.tables.descs headers).take (k + 1) :=
      (List.take_of_length_le (by rw [length_entriesIn]; omega)).symm
    obtain ⟨m, e, hm⟩ := id h1
    rw [hk, State.reads_add none k 1]
    generalize State.reads none k _ = t at e h1 h2
    refine ⟨t.cuRead.ma, t.cu.work, ?_⟩
    show t.readNext none = _
    have p := hp k _ hx
    rw [State.readNext_entry d headers ((entriesIn s.dram d.tables.descs headers).take k) (entrySites headers)[k] t
      (by rw [e]; rfl) (by rw [hl]; exact hx) (by rw [e]; exact p.1) h2 (by rw [e]; exact p.2)]
    have e4 : (entriesIn s.dram d.tables.descs headers).take k ++
        [(entryIn t.dram d.tables.descs headers (entrySites headers)[k]).entered (entrySites headers)[k].1
          (entryPos d.tables.descs[(entrySites headers)[k].1].capacity (headerOf headers (entrySites headers)[k].1)
            (entrySites headers)[k].2)] = entriesIn s.dram d.tables.descs headers := by
      have et : t.dram = s.dram := by rw [e]; rfl
      rw [et, ← entriesIn_take_succ _ _ _ k _ hx]
      exact e3.symm
    rw [e4]
    unfold State.toEntries
    rw [if_neg (by rw [length_entriesIn]; omega)]
    subst e
    rfl

/-! ## Reservations recreated (R78, R102, R166) -/

/-- How many entries name a bin. -/
def madeFor (l : List RingEntry) (b : Nat) : Nat := l.countP (fun e => decide (e.bin = b))

/-- Entries whose reservations and counts all fit behind those made. -/
def reservationsFit (ru : Ru) (bu : Bu) (l : List RingEntry) : Prop :=
  ru.table.length + l.length ≤ 1024 ∧ (l.map (·.position.id)).Nodup ∧
  (∀ e ∈ l, ∀ r ∈ ru.table, r.id ≠ e.position.id) ∧
  ∀ b, madeFor l b = 0 ∨ (bu.bin b).occupied + (bu.bin b).reserved + madeFor l b ≤ 255

theorem restockLive_cons (e : RingEntry) (l : List RingEntry) :
    restockLive (e :: l)
      = if e.position.state = .live ∧ isRestockQueue e.queue = true then e :: restockLive l else restockLive l := by
  have h := isRestockQueue_iff e.queue
  unfold restockLive
  rw [List.filter_cons]
  by_cases h1 : e.position.state = .live <;> by_cases h2 : e.queue = 0 ∨ e.queue = 1 <;> simp [h1, h2, h]

/-- The reservation unit with reservations recreated. -/
def Ru.withRestored (u : Ru) (l : List RingEntry) : Ru := { u with table := u.table ++ l.map (·.reservation) }

theorem Ru.find?_eq_none (u : Ru) (id : SlotId) : u.find? id = none ↔ ∀ r ∈ u.table, r.id ≠ id := by
  unfold Ru.find?
  rw [List.find?_eq_none]
  simp

/-- The first entry of a list that fits is recreated, and the others fit behind it (R78, R102). -/
theorem recreate_step (e : RingEntry) (l : List RingEntry) (ru : Ru) (bu : Bu)
    (h : reservationsFit ru bu (e :: l)) :
    ∃ v, ru.restoreCreate e.position.id e.bin e.queue e.position.ticket = .created (ru.withRestored [e]) ∧
      bu.restoreCount e.bin = some v ∧ v = { bu with bins := v.bins } ∧
      (∀ b, v.bin b = { bu.bin b with reserved := (bu.bin b).reserved + madeFor [e] b }) ∧
      reservationsFit (ru.withRestored [e]) v l := by
  obtain ⟨h1, h2, h3, h4⟩ := h
  have hroom : ru.hasRoom = true := by
    unfold Ru.hasRoom; simp only [List.length_cons] at h1; simp only [Config.resv, decide_eq_true_eq]; omega
  have hnone : ru.find? e.position.id = none := (Ru.find?_eq_none _ _).2 (h3 e List.mem_cons_self)
  have hself : 0 < madeFor (e :: l) e.bin := by unfold madeFor; simp
  have hcap : (bu.bin e.bin).occupied + (bu.bin e.bin).reserved < 255 := by
    rcases h4 e.bin with h | h <;> omega
  have hc : bu.restoreCount e.bin = some { bu with
      bins := Map.put Bin.reset e.bin { bu.bin e.bin with reserved := (bu.bin e.bin).reserved + 1 } bu.bins } := by
    unfold Bu.restoreCount; rw [if_pos hcap]
  have hb : ∀ b, Bu.bin { bu with
      bins := Map.put Bin.reset e.bin { bu.bin e.bin with reserved := (bu.bin e.bin).reserved + 1 } bu.bins } b
      = { bu.bin b with reserved := (bu.bin b).reserved + madeFor [e] b } := by
    intro b
    show Map.getD _ (Map.put _ _ _ _) _ = _
    rw [Map.getD_put]
    unfold madeFor
    by_cases hb : e.bin = b
    · subst hb; simp
    · simp only [hb, if_false, List.countP_cons, List.countP_nil, decide_false, Bool.false_eq_true, Nat.add_zero]; rfl
  refine ⟨_, ?_, hc, rfl, hb, ?_⟩
  · unfold Ru.restoreCreate
    rw [hroom, hnone]
    rfl
  · refine ⟨?_, ?_, ?_, ?_⟩
    · unfold Ru.withRestored; simp at h1 ⊢; omega
    · exact (List.nodup_cons.1 (by simpa using h2)).2
    · intro x hx r hr
      unfold Ru.withRestored at hr
      rcases List.mem_append.1 hr with hr | hr
      · exact h3 x (List.mem_cons_of_mem _ hx) r hr
      · have hn := (List.nodup_cons.1 (by simpa using h2 : (e.position.id :: l.map (·.position.id)).Nodup)).1
        simp only [List.map_cons, List.map_nil, List.mem_singleton] at hr
        subst hr
        intro he
        exact hn (List.mem_map.2 ⟨x, hx, he.symm⟩)
    · intro b
      rw [hb b]
      have e1 : madeFor (e :: l) b = madeFor [e] b + madeFor l b := by
        unfold madeFor; rw [← List.singleton_append, List.countP_append]
      rcases h4 b with h | h
      · left; omega
      · right; simp only; omega

/-- Restore creates and restore counts that all succeed (R166). -/
theorem recreate_of_fits (l : List RingEntry) (ru : Ru) (bu : Bu) (n : Nat) (h : reservationsFit ru bu (restockLive l)) :
    ∃ v, recreate l (ru, bu, n) = .ok (ru.withRestored (restockLive l), v, n + (restockLive l).length) ∧
      v = { bu with bins := v.bins } ∧
      ∀ b, v.bin b = { bu.bin b with reserved := (bu.bin b).reserved + madeFor (restockLive l) b } := by
  induction l generalizing ru bu n with
  | nil => exact ⟨bu, by simp [recreate, restockLive, Ru.withRestored], rfl, fun b => rfl⟩
  | cons e r ih =>
    rw [restockLive_cons] at h ⊢
    unfold recreate
    by_cases hl : e.position.state = .live ∧ isRestockQueue e.queue = true
    · rw [if_pos hl] at h ⊢
      rw [if_pos hl]
      obtain ⟨v, h1, h2, h3, h4, h5⟩ := recreate_step e _ ru bu h
      obtain ⟨w, k1, k2, k3⟩ := ih (ru.withRestored [e]) v (n + 1) h5
      rw [h1]
      simp only
      rw [h2]
      simp only
      refine ⟨w, ?_, ?_, ?_⟩
      · rw [k1]
        simp [Ru.withRestored, Nat.add_assoc, Nat.add_comm 1]
      · rw [k2, h3]
      · intro b
        rw [k3 b, h4 b]
        have e1 : madeFor (e :: restockLive r) b = madeFor [e] b + madeFor (restockLive r) b := by
          unfold madeFor; rw [← List.singleton_append, List.countP_append]
        rw [e1, Nat.add_assoc]
    · rw [if_neg hl] at h ⊢
      rw [if_neg hl]
      exact ih ru bu n h

/-- The first entry that does not fit ends the recreation, by the first of its three checks (R166). -/
theorem recreate_of_first (l : List RingEntry) (ru : Ru) (bu : Bu) (n : Nat) (before after : List RingEntry)
    (e : RingEntry) (hl : restockLive l = before ++ e :: after) (h : reservationsFit ru bu before) :
    (ru.table.length + before.length = 1024 → recreate l (ru, bu, n) = .error { result := .restoreFailed, detail := 7 }) ∧
    (ru.table.length + before.length < 1024 →
      ((∃ r ∈ ru.table, r.id = e.position.id) ∨ e.position.id ∈ before.map (·.position.id)) →
      recreate l (ru, bu, n) = .error { result := .restoreFailed, detail := 8 }) ∧
    (ru.table.length + before.length < 1024 → (∀ r ∈ ru.table, r.id ≠ e.position.id) →
      e.position.id ∉ before.map (·.position.id) →
      255 ≤ (bu.bin e.bin).occupied + (bu.bin e.bin).reserved + madeFor before e.bin →
      recreate l (ru, bu, n) = .error { result := .restoreFailed, detail := 9 }) := by
  induction l generalizing ru bu n before with
  | nil => simp [restockLive] at hl
  | cons x r ih =>
    rw [restockLive_cons] at hl
    unfold recreate
    by_cases hx : x.position.state = .live ∧ isRestockQueue x.queue = true
    · rw [if_pos hx] at hl
      rw [if_pos hx]
      cases before with
      | nil =>
        obtain ⟨rfl, -⟩ := List.cons.inj hl
        refine ⟨fun h7 => ?_, fun h8 k8 => ?_, fun h9 k9 _ m9 => ?_⟩
        · have : ru.hasRoom = false := by
            unfold Ru.hasRoom; simp only [List.length_nil] at h7; simp only [Config.resv, decide_eq_false_iff_not]; omega
          unfold Ru.restoreCreate
          rw [this]; rfl
        · have : ru.hasRoom = true := by
            unfold Ru.hasRoom; simp only [List.length_nil] at h8; simp only [Config.resv, decide_eq_true_eq]; omega
          have k : (ru.find? x.position.id).isSome = true := by
            rw [Option.isSome_iff_ne_none, Ne, Ru.find?_eq_none]
            simp only [List.map_nil, List.not_mem_nil, or_false] at k8
            obtain ⟨r, hr, e⟩ := k8
            exact fun hall => hall r hr e
          unfold Ru.restoreCreate
          rw [this, k]; rfl
        · have : ru.hasRoom = true := by
            unfold Ru.hasRoom; simp only [List.length_nil] at h9; simp only [Config.resv, decide_eq_true_eq]; omega
          have k : ru.find? x.position.id = none := (Ru.find?_eq_none _ _).2 k9
          have c : bu.restoreCount x.bin = none := by
            unfold Bu.restoreCount
            rw [if_neg (by unfold madeFor at m9; simp only [List.countP_nil] at m9; simp only [Config.binCapMax]; omega)]
          unfold Ru.restoreCreate
          rw [this, k]
          simp only [Option.isSome_none, Bool.not_true, Bool.false_eq_true, if_false]
          rw [c]
      | cons y b =>
        obtain ⟨rfl, hl'⟩ := List.cons.inj hl
        obtain ⟨v, h1, h2, h3, h4, h5⟩ := recreate_step x b ru bu h
        rw [h1]
        simp only
        rw [h2]
        simp only
        obtain ⟨i7, i8, i9⟩ := ih (ru.withRestored [x]) v (n + 1) b hl' h5
        have tl : (ru.withRestored [x]).table.length = ru.table.length + 1 := by simp [Ru.withRestored]
        have tm : ∀ q, q ∈ (ru.withRestored [x]).table ↔ q ∈ ru.table ∨ q = x.reservation := by
          intro q; simp [Ru.withRestored]
        have e1 : madeFor (x :: b) e.bin = madeFor [x] e.bin + madeFor b e.bin := by
          unfold madeFor; rw [← List.singleton_append, List.countP_append]
        refine ⟨fun h7 => i7 (by rw [tl]; simp only [List.length_cons] at h7; omega), fun h8 k8 => ?_, fun h9 k9 l9 m9 => ?_⟩
        · refine i8 (by rw [tl]; simp only [List.length_cons] at h8; omega) ?_
          rcases k8 with ⟨q, hq, e⟩ | k8
          · exact Or.inl ⟨q, (tm q).2 (Or.inl hq), e⟩
          · rw [List.map_cons, List.mem_cons] at k8
            rcases k8 with k8 | k8
            · exact Or.inl ⟨x.reservation, (tm _).2 (Or.inr rfl), k8.symm⟩
            · exact Or.inr k8
        · rw [List.map_cons, List.mem_cons, not_or] at l9
          refine i9 (by rw [tl]; simp only [List.length_cons] at h9; omega) ?_ l9.2 (by rw [h4]; simp only; omega)
          intro q hq
          rcases (tm q).1 hq with hq | hq
          · exact k9 q hq
          · subst hq; exact fun he => l9.1 he.symm
    · rw [if_neg hx] at hl
      rw [if_neg hx]
      exact ih ru bu n before hl h

/-! ## Queues rebuilt (R123, R164, R165) -/

theorem at?_foldl_ins_other (l : List RingEntry) (m : Map Position) (x : Nat) (h : ∀ e ∈ l, e.pos ≠ x) :
    Map.at? (l.foldl (fun m e => Map.ins e.pos e.position m) m) x = Map.at? m x := by
  induction l generalizing m with
  | nil => rfl
  | cons e r ih =>
    rw [List.foldl_cons, ih _ (fun y hy => h y (List.mem_cons_of_mem _ hy)), Map.at?_ins,
      if_neg (h e List.mem_cons_self)]

theorem at?_foldl_ins (l : List RingEntry) (m : Map Position) (hn : (l.map (·.pos)).Nodup) (e : RingEntry) (he : e ∈ l) :
    Map.at? (l.foldl (fun m e => Map.ins e.pos e.position m) m) e.pos = some e.position := by
  induction l generalizing m with
  | nil => exact (List.not_mem_nil he).elim
  | cons x r ih =>
    rw [List.map_cons, List.nodup_cons] at hn
    rw [List.foldl_cons]
    rcases List.mem_cons.1 he with rfl | he
    · rw [at?_foldl_ins_other _ _ _ (fun y hy e' => hn.1 (List.mem_map.2 ⟨y, hy, e'⟩)), Map.at?_ins, if_pos rfl]
    · exact ih _ hn.2 he

theorem rebuildQueues_get (headers : List QHeader) (read : List RingEntry) (q : Fin 6) :
    (rebuildQueues headers read).queues[q] = rebuildQueue (headerOf headers q) (entriesOf read q) := by
  unfold rebuildQueues
  rcases q with ⟨i, hi⟩
  match i, hi with
  | 0, _ => rfl
  | 1, _ => rfl
  | 2, _ => rfl
  | 3, _ => rfl
  | 4, _ => rfl
  | 5, _ => rfl

/-! ## The command that serves reads -/

/-- The operation that the control unit executes is in a phase of reads. -/
def CuWork.readsAny (w : CuWork) : Bool := w.readsFor .fresh || w.readsFor .restore || w.readsFor .reload

theorem CuWork.readsAny_of_readsFor (use : TableUse) (w : CuWork) (h : w.readsFor use = true) : w.readsAny = true := by
  cases use <;> simp [CuWork.readsAny, h]

/-- Outside a phase of reads there is no read to serve. -/
theorem State.readNext_of_not (fault : Option ReadSite) (s : State) (h : s.cu.work.readsAny = false) :
    s.readNext fault = s := by
  unfold State.readNext
  split
  · rename_i u _ _ _ e; rw [e] at h; cases u <;> simp [CuWork.readsAny, CuWork.readsFor] at h
  · rename_i b _ _ e; rw [e] at h; cases b <;> simp [CuWork.readsAny, CuWork.readsFor] at h
  · rename_i e; rw [e] at h; simp [CuWork.readsAny, CuWork.readsFor] at h
  · rename_i e; rw [e] at h; simp [CuWork.readsAny, CuWork.readsFor] at h
  · rfl

theorem State.reads_of_not (fault : Option ReadSite) (n : Nat) (s : State) (h : s.cu.work.readsAny = false) :
    State.reads fault n s = s := by
  induction n with
  | zero => rfl
  | succ n ih => unfold State.reads; rw [State.readNext_of_not fault s h]; exact ih

/-- The reads of an operation go on, or have ended. -/
def CuWork.goesOn (use : TableUse) (w : CuWork) : Prop := w.readsFor use = true ∨ w.readsAny = false

theorem State.endTables_goesOn (use : TableUse) (seq : Word32) (t : TablesRead) (s : State) :
    (s.endTables use seq t).cu.work.goesOn use := by
  unfold State.endTables
  split
  · cases use <;> exact Or.inr rfl
  · split
    · unfold State.reloadTests
      split <;> exact Or.inr rfl
    · exact Or.inl rfl
    · exact Or.inl rfl

theorem State.endEntries_goesOn (d : StartData) (headers : List QHeader) (read : List RingEntry) (s : State) :
    (s.endEntries d headers read).cu.work.goesOn .restore := by
  unfold State.endEntries
  split <;> exact Or.inr rfl

theorem State.toEntries_goesOn (d : StartData) (headers : List QHeader) (read : List RingEntry) (s : State) :
    (s.toEntries d headers read).cu.work.goesOn .restore := by
  unfold State.toEntries
  split
  · exact Or.inl rfl
  · exact State.endEntries_goesOn _ _ _ _

/-- A read keeps its operation in a phase of reads, or ends them. -/
theorem State.readNext_goesOn (fault : Option ReadSite) (use : TableUse) (s : State) (h : s.cu.work.readsFor use = true) :
    (s.readNext fault).cu.work.goesOn use := by
  unfold State.readNext
  split
  · rename_i u seq made t e
    have hu : u = use := by rw [e] at h; simpa [CuWork.readsFor] using h
    subst hu
    unfold State.readTable
    split
    · exact Or.inl h
    · split
      · split
        · cases u <;> exact Or.inr rfl
        · simp only
          split
          · exact Or.inl (by simp [State.working, CuWork.readsFor])
          · exact State.endTables_goesOn _ _ _ _
      · exact Or.inl h
  · rename_i fresh d made e
    have hu : use = if fresh then .fresh else .restore := by rw [e] at h; simpa [CuWork.readsFor] using h
    unfold State.readImageBlock
    split
    · split
      · exact Or.inr rfl
      · split
        · exact Or.inr rfl
        · simp only
          split
          · exact Or.inl (by subst hu; simp [State.working, CuWork.readsFor])
          · split
            · exact Or.inr rfl
            · rename_i hf
              subst hu
              rw [if_neg hf]
              exact Or.inl rfl
    · exact Or.inl h
  · rename_i d read e
    have hu : use = .restore := by rw [e] at h; simpa [CuWork.readsFor] using h
    subst hu
    unfold State.readHeader
    split
    · exact Or.inl h
    · split
      · split
        · exact Or.inr rfl
        · simp only
          split
          · exact Or.inl rfl
          · unfold State.endHeaders
            split
            · exact Or.inr rfl
            · exact State.toEntries_goesOn _ _ _ _
      · exact Or.inl h
  · rename_i d headers read e
    have hu : use = .restore := by rw [e] at h; simpa [CuWork.readsFor] using h
    subst hu
    unfold State.readEntry
    split
    · exact Or.inl h
    · simp only
      split
      · split
        · exact Or.inr rfl
        · split
          · exact Or.inr rfl
          · exact State.toEntries_goesOn _ _ _ _
      · exact Or.inl h
  · exact Or.inl h

theorem State.reads_goesOn (fault : Option ReadSite) (use : TableUse) (n : Nat) (s : State) (h : s.cu.work.goesOn use) :
    (State.reads fault n s).cu.work.goesOn use := by
  induction n generalizing s with
  | zero => exact h
  | succ n ih =>
    unfold State.reads
    apply ih
    rcases h with h | h
    · exact State.readNext_goesOn fault use s h
    · rw [State.readNext_of_not fault s h]; exact Or.inr h

/-- The command of an operation's row serves its reads, or finds no such operation (notes/assumptions/4.md). -/
theorem State.readingOperation_reads (use : TableUse) (op : Nat) (s : State) :
    (∀ n fault, s.readingOperation use op n fault = State.reads fault n (s.readingOperation use op 0 none)) ∧
      (s.readingOperation use op 0 none).cu.work.goesOn use ∨
    (∀ n fault, s.readingOperation use op n fault = s) ∧ s.cu.work.readsFor use = false := by
  unfold State.readingOperation
  by_cases h : s.cu.work.readsFor use = true
  · simp only [h, if_true]
    exact Or.inl ⟨fun _ _ => rfl, Or.inl h⟩
  · simp only [h, Bool.false_eq_true, if_false]
    unfold State.onOperation
    by_cases h1 : s.cu.work = .reading ∧ s.mailbox.op = op
    · simp only [if_pos h1]
      by_cases h2 : opAvailable op s.cu.mode = true
      · simp only [if_pos h2]
        exact Or.inl ⟨fun _ _ => rfl, Or.inl (by simp [State.reads, State.beginTables, State.working, CuWork.readsFor])⟩
      · simp only [if_neg h2]
        exact Or.inl ⟨fun n fault => (State.reads_of_not fault n _ rfl).symm, Or.inr rfl⟩
    · simp only [if_neg h1]
      exact Or.inr (by simp)

/-- The command that serves `n` reads (R160): it begins the operation where it is due, and serves them one after the other. -/
theorem exec_readsOf (use : TableUse) (s : State) :
    (∃ b : State, b.cu.work.goesOn use ∧ ∀ n fault, exec (readsOf use n fault) s = .next (State.reads fault n b)) ∨
    (s.cu.work.readsFor use = false ∧ ∀ n fault, exec (readsOf use n fault) s = .next s) := by
  have key : ∀ op, (∀ n fault, exec (readsOf use n fault) s = .next (s.readingOperation use op n fault)) →
      (∃ b : State, b.cu.work.goesOn use ∧ ∀ n fault, exec (readsOf use n fault) s = .next (State.reads fault n b)) ∨
      (s.cu.work.readsFor use = false ∧ ∀ n fault, exec (readsOf use n fault) s = .next s) := by
    intro op he
    rcases State.readingOperation_reads use op s with ⟨h1, h2⟩ | ⟨h1, h2⟩
    · exact Or.inl ⟨_, h2, fun n fault => by rw [he, h1]⟩
    · exact Or.inr ⟨h2, fun n fault => by rw [he, h1]⟩
  cases use with
  | fresh => exact key 1 (fun _ _ => rfl)
  | reload => exact key 3 (fun _ _ => rfl)
  | restore =>
    by_cases h : s.cu.work = .automatic
    · refine Or.inl ⟨s.beginTables .restore 0, Or.inl rfl, fun n fault => ?_⟩
      show Host.Outcome.next _ = _
      rw [if_pos h]
    · refine key 2 (fun n fault => ?_)
      show Host.Outcome.next _ = _
      rw [if_neg h]

/-- In a phase of reads the command serves its reads. -/
theorem exec_readsOf_reading (use : TableUse) (n : Nat) (fault : Option ReadSite) (s : State)
    (hu : s.cu.work.readsFor use = true) : exec (readsOf use n fault) s = .next (State.reads fault n s) := by
  have hr : ∀ op, s.readingOperation use op n fault = State.reads fault n s := by
    intro op; unfold State.readingOperation; rw [if_pos hu]
  cases use with
  | fresh => show Host.Outcome.next _ = _; rw [hr]
  | reload => show Host.Outcome.next _ = _; rw [hr]
  | restore =>
    show Host.Outcome.next _ = _
    rw [if_neg (by intro e; rw [e] at hu; simp [CuWork.readsFor] at hu), hr]

/-- Reads served by two commands are those served by one (R160). -/
theorem exec_readsOf_add (use : TableUse) (n m : Nat) (fault : Option ReadSite) (s : State) : ∃ u : State,
    exec (readsOf use n fault) s = .next u ∧
    exec (readsOf use (n + m) fault) s
      = (if u.cu.work.readsFor use = true then exec (readsOf use m fault) u else .next u) := by
  rcases exec_readsOf use s with ⟨b, hb, h⟩ | ⟨h1, h⟩
  · refine ⟨_, h n fault, ?_⟩
    rw [h (n + m) fault, State.reads_add]
    have g := State.reads_goesOn fault use n b hb
    generalize State.reads fault n b = u at g
    by_cases hu : u.cu.work.readsFor use = true
    · rw [if_pos hu]
      rw [exec_readsOf_reading use m fault u hu]
    · rw [if_neg hu, State.reads_of_not fault m u (g.resolve_left hu)]
  · exact ⟨s, h n fault, by rw [if_neg (by rw [h1]; decide), h]⟩

/-- An operation given by the mailbox begins its tables phase (R148, R154, R160). -/
theorem exec_readsOf_begin (use : TableUse) (op n : Nat) (fault : Option ReadSite) (s : State) (ho : s.atOperation op)
    (ha : opAvailable op s.cu.mode = true)
    (he : ∀ u : State, u.cu.work ≠ .automatic → exec (readsOf use n fault) u = .next (u.readingOperation use op n fault)) :
    exec (readsOf use n fault) s
      = .next (State.reads fault n (s.mailboxFetched.beginTables use s.mailbox.seq)) := by
  rw [he s (by rw [ho.1]; simp)]
  unfold State.readingOperation State.onOperation
  rw [if_neg (by rw [ho.1]; simp [CuWork.readsFor]), if_pos ⟨ho.1, ho.2⟩, if_pos ha]

end Sys2Proof.Machine
end

