-- ==== Sys2Proof/Laws/Rebuild.lean ====
section
/-! SUPPORT. What the checks of START_RESTORE accept and what its queues and bins are rebuilt as (R162, R164, R165).
    -/

namespace Sys2Proof.Machine

/-- The check of a bin image (R162). -/
theorem BinImage.ok_iff (i : BinImage) : i.ok = true ↔
    i.cls ≤ 31 ∧ i.capacity ≤ 255 ∧ i.occupied ≤ 255 ∧ i.state ≤ 3 ∧ ¬(i.state = 3 ∧ 0 < i.occupied) := by
  have h : (BinState.ofCode? i.state).isSome = true ↔ i.state ≤ 3 := by
    generalize i.state = n
    match n with
    | 0 => decide
    | 1 => decide
    | 2 => decide
    | 3 => decide
    | n + 4 => simp [BinState.ofCode?]
  unfold BinImage.ok
  simp only [Bool.and_eq_true, decide_eq_true_eq, h, Config.classes, Config.binCapMax]
  by_cases h3 : i.state = 3 <;> simp [h3]
  all_goals omega

/-- A bin as a start loads it (R87, R162). -/
theorem BinImage.load_spec (fresh : Bool) (i : BinImage) :
    (i.load fresh).cls = i.cls ∧ (i.load fresh).capacity = i.capacity ∧ (i.load fresh).occupied = i.occupied ∧
        (i.load fresh).reserved = 0 ∧
    (i.state = 0 → (i.load fresh).state = .opened) ∧ (i.state = 1 → (i.load fresh).state = if fresh then .opened else
        .full) ∧
    (i.state = 2 → (i.load fresh).state = .locked) ∧ (i.state = 3 → (i.load fresh).state = .retired) := by
  refine ⟨rfl, rfl, rfl, rfl, ?_, ?_, ?_, ?_⟩ <;> intro h <;> simp [BinImage.load, h, BinState.ofCode?]

/-- The checks 1 and 2 of a queue header (R164). -/
theorem QHeader.check_spec (cap : Nat) (h : QHeader) :
    ((cap ≤ h.head ∨ cap ≤ h.tail ∨ cap < h.count) → h.check cap = some 1) ∧
    (h.head < cap → h.tail < cap → h.count ≤ cap →
      (h.count = (h.tail + cap - h.head) % cap ∨ (h.count = cap ∧ h.tail = h.head) → h.check cap = none) ∧
      (¬(h.count = (h.tail + cap - h.head) % cap ∨ (h.count = cap ∧ h.tail = h.head)) → h.check cap = some 2)) := by
  refine ⟨fun hb => ?_, fun h1 h2 h3 => ⟨fun hc => ?_, fun hc => ?_⟩⟩
  · unfold QHeader.check; rw [if_pos hb]
  · unfold QHeader.check; rw [if_neg (by omega), if_pos hc]
  · unfold QHeader.check; rw [if_neg (by omega), if_neg hc]

/-- A header that passes its checks is within its capacity. -/
theorem QHeader.check_eq_none (cap : Nat) (h : QHeader) (hc : h.check cap = none) : h.head < cap ∧ h.tail < cap ∧
    h.count ≤ cap := by
  unfold QHeader.check at hc
  split at hc
  · cases hc
  · omega

/-- The checks 3 to 6 of a ring entry (R165). -/
theorem checkEntry_spec (areas : Vector AreaDesc 4) (images : Map BinImage) (seen : List Word32) (q : Fin 6) (e :
    EntryRead) :
    (e.state ≠ 1 → e.state ≠ 2 → checkEntry areas images seen q e = some 3) ∧
    ((e.state = 1 ∨ e.state = 2) → (e.ticket = 0 ∨ e.ticket ∈ seen) → checkEntry areas images seen q e = some 4) ∧
    ((e.state = 1 ∨ e.state = 2) → e.ticket ≠ 0 → e.ticket ∉ seen →
      ((e.state = 2 ∨ (q ≠ 0 ∧ q ≠ 1)) → checkEntry areas images seen q e = none) ∧
      (e.state = 1 → (q = 0 ∨ q = 1) →
        ((∀ d, areas[e.id.area]? = some d → d.valid = false ∨ d.slots ≤ e.id.slot) →
          checkEntry areas images seen q e = some 5) ∧
        (∀ d, areas[e.id.area]? = some d → d.valid = true → e.id.slot < d.slots →
          ((2048 ≤ e.bin ∨ (Map.getD BinImage.zero images e.bin).state = 3) →
            checkEntry areas images seen q e = some 6) ∧
          (e.bin < 2048 → (Map.getD BinImage.zero images e.bin).state ≠ 3 →
            checkEntry areas images seen q e = none)))) := by
    refine ⟨fun h1 h2 => ?_, fun h1 h2 => ?_, fun h1 h2 h3 => ⟨fun h4 => ?_, fun h4 h5 => ⟨fun h6 => ?_, fun d h6 h7
        h8 => ⟨fun h9 => ?_, fun h9 h10 => ?_⟩⟩⟩⟩
    · unfold checkEntry; rw [if_pos ⟨h1, h2⟩]
    · unfold checkEntry; rw [if_neg (by simp only [entLive, entVoid]; omega), if_pos (by simpa using h2)]
    all_goals
      unfold checkEntry
      rw [if_neg (by simp only [entLive, entVoid]; omega), if_neg (by simpa using ⟨h2, h3⟩)]
    · rw [if_neg]
      rintro ⟨a, b⟩
      rcases h4 with h4 | h4
      · simp [entLive] at a; omega
      · unfold isRestockQueue at b
        revert q; decide
    all_goals
      rw [if_pos ⟨h4, by rcases h5 with rfl | rfl <;> rfl⟩]
    · cases hx : areas[e.id.area]? with
      | none => rfl
      | some d =>
        simp only
        rw [if_neg]
        rintro ⟨a, b⟩
        rcases h6 d hx with c | c
        · simp [c] at a
        · omega
    · rw [h6]; simp only; rw [if_pos ⟨h7, h8⟩, if_neg]; rintro ⟨a, b⟩; simp only [Config.bins] at a
      rcases h9 with h9 | h9
      · omega
      · exact b h9
    · rw [h6]; simp only; rw [if_pos ⟨h7, h8⟩, if_pos ⟨h9, h10⟩]

/-- A bin as loaded has RESERVED 0 (R162). -/
theorem loadBins_reserved (fresh : Bool) (images : Map BinImage) (b : Nat) : (Map.getD Bin.reset (loadBins fresh
    images) b).reserved = 0 := by
  rw [getD_loadBins]; split <;> rfl

/-- A queue as it is rebuilt from its header and the entries read for it (R123, R165). -/
theorem rebuildQueues_spec (hs : List QHeader) (read : List RingEntry) (q : Fin 6) :
    let v : QState := (rebuildQueues hs read).queues[q]
    let h : QHeader := headerOf hs q
    let l : List RingEntry := read.filter (fun e => decide (e.queue = q))
    v.head = h.head ∧ v.tail = h.tail ∧ v.count = h.count ∧ v.lastTicket = h.lastTicket ∧ v.appended = h.appended ∧
    v.taken = h.taken ∧ v.voided = h.voided ∧ v.live = l.countP (fun e => decide (e.position.state = .live)) ∧
    v.waiters = [] ∧ ((l.map (·.pos)).Nodup → ∀ e ∈ l, v.position e.pos = some e.position) ∧
    (∀ x, (∀ e ∈ l, e.pos ≠ x) → v.position x = none) ∧
    (rebuildQueues hs read).waiting = [] ∧ (rebuildQueues hs read).inFlight = none := by
  intro v h l
  have e : v = rebuildQueue h l := by
    show (rebuildQueues hs read).queues[q] = _
    rw [rebuildQueues_get]
    rfl
  rw [e]
  refine ⟨rfl, rfl, rfl, rfl, rfl, rfl, rfl, rfl, rfl, fun hn e he => ?_, fun x hx => ?_, rfl, rfl⟩
  · exact at?_foldl_ins l [] hn e he
  · exact at?_foldl_ins_other l [] x hx

/-- The entry phase reads COUNT entries of each queue, from HEAD on (R165). -/
theorem entrySites_filter (hs : List QHeader) (q : Fin 6) :
    (entrySites hs).filter (fun x => decide (x.1 = q)) = (List.range (headerOf hs q).count).map (fun k => (q, k)) :=
        by
  have hg : ∀ p : Fin 6, ((List.range (headerOf hs p).count).map (fun k => (p, k))).filter (fun x => decide (x.1 = q))
      = if p = q then (List.range (headerOf hs p).count).map (fun k => (p, k)) else [] := by
    intro p
    by_cases h : p = q
    · rw [if_pos h, List.filter_eq_self]
      intro x hx
      obtain ⟨k, _, rfl⟩ := List.mem_map.1 hx
      simpa using h
    · rw [if_neg h, List.filter_eq_nil_iff]
      intro x hx
      obtain ⟨k, _, rfl⟩ := List.mem_map.1 hx
      simpa using h
  have hf : (entrySites hs).filter (fun x => decide (x.1 = q))
      = queueIds.flatMap (fun p => if p = q then (List.range (headerOf hs p).count).map (fun k => (p, k)) else []) :=
          by
    unfold entrySites
    rw [List.filter_flatMap]
    congr 1
    funext p
    exact hg p
  rw [hf]
  have key : ∀ (g : Fin 6 → List (Fin 6 × Nat)), queueIds.flatMap (fun p => if p = q then g p else []) = g q := by
    intro g
    unfold queueIds
    match q with
    | 0 => simp
    | 1 => simp
    | 2 => simp
    | 3 => simp
    | 4 => simp
    | 5 => simp
  exact key _

/-- An entry is read within the COUNT of its queue. -/
theorem mem_entrySites (hs : List QHeader) (x : Fin 6 × Nat) (h : x ∈ entrySites hs) : x.2 < (headerOf hs x.1).count
    := by
  have : x ∈ (entrySites hs).filter (fun y => decide (y.1 = x.1)) := List.mem_filter.2 ⟨h, by simp⟩
  rw [entrySites_filter] at this
  obtain ⟨k, hk, e⟩ := List.mem_map.1 this
  rw [← e]
  exact List.mem_range.1 (by rw [← e] at hk; exact hk)

/-- Distances behind HEAD within the capacity are different positions. -/
theorem entryPos_inj (cap : Nat) (h : QHeader) (k j : Nat) (hk : k < cap) (hj : j < cap) (hh : h.head < cap)
    (e : entryPos cap h k = entryPos cap h j) : k = j := by
  unfold entryPos at e
  have f : ∀ i, i < cap → (h.head + i) % cap = if h.head + i < cap then h.head + i else h.head + i - cap := by
    intro i hi
    split
    · exact Nat.mod_eq_of_lt (by assumption)
    · rw [Nat.mod_eq_sub_mod (by omega), Nat.mod_eq_of_lt (by omega)]
  rw [f k hk, f j hj] at e
  split at e <;> split at e <;> omega

/-- The entries read for a queue are as many as its COUNT, at different positions. -/
theorem entriesIn_filter (d : Memory) (descs : Vector QDesc 6) (hs : List QHeader) (q : Fin 6)
    (hc : (headerOf hs q).check descs[q].capacity = none) :
    ((entriesIn d descs hs).filter (fun e => decide (e.queue = q))).length = (headerOf hs q).count ∧
    (((entriesIn d descs hs).filter (fun e => decide (e.queue = q))).map (·.pos)).Nodup := by
  have e : (entriesIn d descs hs).filter (fun e => decide (e.queue = q))
      = ((List.range (headerOf hs q).count).map (fun k => (q, k))).map (fun x =>
          (entryIn d descs hs x).entered x.1 (entryPos descs[x.1].capacity (headerOf hs x.1) x.2)) := by
    rw [← entrySites_filter]
    unfold entriesIn
    rw [List.filter_map]
    rfl
  obtain ⟨h1, h2, h3⟩ := QHeader.check_eq_none _ _ hc
  rw [e]
  refine ⟨by simp, ?_⟩
  rw [List.map_map, List.map_map]
  refine List.Nodup.map_on ?_ List.nodup_range
  intro k hk j hj he
  rw [List.mem_range] at hk hj
  exact entryPos_inj _ _ k j (by omega) (by omega) h1 he

end Sys2Proof.Machine
end

