-- ==== Sys2Proof/Laws/Records.lean ====
section
/-! SUPPORT. Bytes and fields: the layouts of 12_formats.md read back, the grading arithmetic, and the service of a
command whose fetch is
answered. -/

namespace Sys2Proof.Machine

/-- A number is laid out in the bytes asked for. -/
theorem leBytes_length (n v : Nat) : (leBytes n v).length = n := by
  induction n generalizing v with
  | zero => rfl
  | succ n ih => simp [leBytes, ih]

/-- A number that fits is read back from its bytes. -/
theorem leNat_leBytes (n v : Nat) (h : v < 256 ^ n) : leNat (leBytes n v) = v := by
  induction n generalizing v with
  | zero => simp at h; subst h; rfl
  | succ n ih =>
    simp only [leBytes, leNat, BitVec.toNat_ofNat]
    rw [ih (v / 256) (by rw [Nat.div_lt_iff_lt_mul (by omega)]; rw [Nat.pow_succ] at h; exact h)]
    omega

/-- The cells of a run of bytes lie in the run. -/
theorem mem_cellsAt (bytes : List Byte) (a : Nat) (c : Host.Cell) (h : c ∈ cellsAt a bytes) :
    a ≤ c.1 ∧ c.1 < a + bytes.length := by
  induction bytes generalizing a with
  | nil => simp [cellsAt] at h
  | cons b r ih =>
    simp only [cellsAt, List.mem_cons] at h
    rcases h with h | h
    · subst h; simp
    · have := ih (a + 1) h; simp only [List.length_cons]; omega

/-- The cells of a field lie in the field. -/
theorem mem_fieldCells (a n : Nat) (v : Option Nat) (c : Host.Cell) (h : c ∈ fieldCells a n v) : a ≤ c.1 ∧ c.1 < a + n := by
  cases v with
  | none => simp [fieldCells] at h
  | some v => have := mem_cellsAt _ _ _ h; rw [leBytes_length] at this; exact this

/-- Reading a byte after a covered field is written. -/
theorem Memory.read_fieldCells (d : Memory) (a n x : Nat) (v : Option Nat) :
    Memory.read (Memory.writeCells d (fieldCells a n v)) x
      = if a ≤ x ∧ x < a + n then (match v with | some m => (leBytes n m)[x - a]?.getD 0 | none => Memory.read d x)
        else Memory.read d x := by
  split
  · rename_i h
    cases v with
    | none => rfl
    | some m =>
      simp only [fieldCells]
      have hi : x - a < (leBytes n m).length := by rw [leBytes_length]; omega
      have := Memory.read_cellsAt (leBytes n m) d a (x - a) hi
      rw [show a + (x - a) = x by omega] at this
      rw [this]; simp [hi]
  · rename_i h
    apply Memory.read_writeCells_of_not_mem
    intro c hc he
    have := mem_fieldCells _ _ _ _ hc
    omega

/-- Reading a byte after CMD and CMD_ARG are cleared. -/
theorem Memory.read_clearCmd (d : Memory) (a x : Nat) (b : Bool) :
    Memory.read (Memory.writeCells d (if b then cellsAt (a + 7) [0, 0, 0] else [])) x
      = if b = true ∧ a + 7 ≤ x ∧ x < a + 10 then 0 else Memory.read d x := by
  cases b with
  | false => simp [Memory.writeCells]
  | true =>
    simp only [if_true, true_and]
    split
    · rename_i h
      have := Memory.read_cellsAt [0, 0, 0] d (a + 7) (x - (a + 7)) (by simp; omega)
      rw [show a + 7 + (x - (a + 7)) = x by omega] at this
      rw [this]
      have : x - (a + 7) = 0 ∨ x - (a + 7) = 1 ∨ x - (a + 7) = 2 := by omega
      rcases this with h | h | h <;> simp [h]
    · rename_i h
      apply Memory.read_outside_cellsAt
      simp; omega

/-- The same, by the offsets of a record. -/
theorem Memory.read_fieldCells_at (d : Memory) (a k n o : Nat) (v : Option Nat) :
    Memory.read (Memory.writeCells d (fieldCells (a + k) n v)) (a + o)
      = if k ≤ o ∧ o < k + n then (match v with | some m => (leBytes n m)[o - k]?.getD 0 | none => Memory.read d (a + o))
        else Memory.read d (a + o) := by
  rw [Memory.read_fieldCells]
  have : (a + k ≤ a + o ∧ a + o < a + k + n) ↔ (k ≤ o ∧ o < k + n) := by omega
  simp only [this]
  rw [show a + o - (a + k) = o - k by omega]

/-- The same, by the offsets of a record. -/
theorem Memory.read_clearCmd_at (d : Memory) (a o : Nat) (b : Bool) :
    Memory.read (Memory.writeCells d (if b then cellsAt (a + 7) [0, 0, 0] else [])) (a + o)
      = if b = true ∧ 7 ≤ o ∧ o < 10 then 0 else Memory.read d (a + o) := by
  rw [Memory.read_clearCmd]
  have : (b = true ∧ a + 7 ≤ a + o ∧ a + o < a + 10) ↔ (b = true ∧ 7 ≤ o ∧ o < 10) := by
    constructor <;> rintro ⟨h, h1, h2⟩ <;> exact ⟨h, by omega, by omega⟩
  simp only [this]

/-- A write that memory answers, with either answer, sets no byte beside its own (R141, R143). -/
theorem answeredCells_not_mem (cells : Cells) (a : WriteAnswer) (x : Nat) (h : ∀ k ∈ cells, k.1 ≠ x) :
    ∀ k ∈ answeredCells cells a, k.1 ≠ x := by
  cases a with
  | ok => exact h
  | fault left =>
    show ∀ k ∈ List.zipWith _ _ _, _
    induction cells generalizing left with
    | nil => intro k hk; simp at hk
    | cons c r ih =>
      intro k hk
      cases left with
      | nil => simp at hk
      | cons b l =>
        simp only [List.zipWith_cons_cons, List.mem_cons] at hk
        rcases hk with rfl | hk
        · exact h c List.mem_cons_self
        · exact ih (fun y hy => h y (List.mem_cons_of_mem _ hy)) l k hk

/-- A write of the part that memory answers changes no other byte (R141). -/
theorem State.read_performed_of_not_mem (g : Grant) (cells : Cells) (s : State) (x : Nat) (h : ∀ k ∈ cells, k.1 ≠ x) :
    Memory.read (s.performed g cells).dram x = Memory.read s.dram x :=
  Memory.read_writeCells_of_not_mem _ _ _ (fun k hk => h k (List.mem_filter.mp hk).1)

/-- A write of either side that memory answers changes no byte beside its own (R141, R143). -/
theorem State.read_ownWrite_of_not_mem (q : OwnReq) (cells : Cells) (a : WriteAnswer) (s : State) (x : Nat)
    (h : ∀ k ∈ cells, k.1 ≠ x) : Memory.read (s.ownWrite q cells a).dram x = Memory.read s.dram x :=
  State.read_performed_of_not_mem _ _ _ x (answeredCells_not_mem cells a x h)

theorem State.read_forwardedWrite_of_not_mem (cells : Cells) (a : WriteAnswer) (s : State) (x : Nat)
    (h : ∀ k ∈ cells, k.1 ≠ x) : Memory.read (s.forwardedWrite cells a).dram x = Memory.read s.dram x :=
  State.read_performed_of_not_mem _ _ _ x (answeredCells_not_mem cells a x h)

/-- The record that the fetch of a command in service returns. -/
theorem State.fetched_of_atCommand (svc : Service) (a : Nat) (s : State) (h : s.atCommand svc a) :
    s.fetched? = some (svc, s.recordAt a) := by
  obtain ⟨h1, h2, h3⟩ := h
  unfold State.fetched?
  rw [h1]
  simp only [h2]
  cases he : svc.entry with
  | command id => simp only
  | take _ _ _ => rw [he] at h3; cases h3
  | expiry _ _ => rw [he] at h3; cases h3

/-- The address of the slot in service. -/
theorem Service.base_of_atCommand (svc : Service) (a : Nat) (s : State) (h : s.atCommand svc a) : svc.base = a := by
  unfold Service.base; rw [h.2.1]; rfl

/-- A command of the fetched code: refused by R41, or served by its rule. -/
theorem State.onCommand_of_atCommand (c : ItemCommand) (f : Service → Rec → State → State) (svc : Service) (a : Nat)
    (rec : Rec) (s : State)
    (h : s.atCommand svc a) (hr : s.recordAt a = rec) (hc : rec.cmd = c.code) :
    s.onCommand c f = (match refusalOf c svc.frozen rec with
      | some res => s.fetched.refuseCommand svc rec res
      | none => f svc rec s.fetched) := by
  unfold State.onCommand
  rw [State.fetched_of_atCommand svc a s h, hr]
  show (if rec.cmd = c.code then _ else s) = _
  exact if_pos hc

/-- Where a command's fetch is made, MISFIT serves the record fetched. -/
theorem State.misfit_of_atCommand (svc : Service) (a : Nat) (s : State) (h : s.atCommand svc a) :
    s.misfit = s.onCommand .misfit State.serveMisfit := by
  unfold State.misfit; rw [h.1]

/-- A command none of the cases of R41 refuses is served. -/
theorem refusalOf_served (c : ItemCommand) (fz : Bool) (rec : Rec) (h1 : c.grades = true → fz = false) (h2 :
    c.servedIn.contains rec.state = true)
    (h3 : c = .regrade → rec.state = .routed → rec.regrades < 3) : refusalOf c fz rec = none := by
  unfold refusalOf
  cases c <;> simp_all [ItemCommand.grades]

/-- The worse of two grades (R29). -/
theorem Grade.worse_spec (a b : Grade) : a.code ≤ (a.worse b).code ∧ b.code ≤ (a.worse b).code ∧
    (a.worse b = a ∨ a.worse b = b) := by
  cases a <;> cases b <;> decide

/-- The final grade is the worst of the score grade and the caps (R29). -/
theorem Gu.finalGrade_spec (g : Gu) (defects : List Nat) (base : Grade) :
    base.code ≤ (g.finalGrade base defects).code ∧ (∀ d ∈ defects, d ≠ 0 → (g.capOf d).code ≤
        (g.finalGrade base defects).code) ∧
    (g.finalGrade base defects = base ∨ ∃ d ∈ defects, d ≠ 0 ∧ g.finalGrade base defects = g.capOf d) := by
  unfold Gu.finalGrade
  induction defects generalizing base with
  | nil => simp
  | cons c r ih =>
    simp only [List.foldl_cons]
    by_cases h : c = 0
    · simp only [h, if_true]
      obtain ⟨h1, h2, h3⟩ := ih base
      refine ⟨h1, ?_, ?_⟩
      · intro d hd hd0
        simp only [List.mem_cons] at hd
        rcases hd with hd | hd
        · exact absurd hd hd0
        · exact h2 d hd hd0
      · rcases h3 with h3 | ⟨d, hd, hd0, h3⟩
        · exact Or.inl h3
        · exact Or.inr ⟨d, by simp [hd], hd0, h3⟩
    · simp only [h, if_false]
      obtain ⟨h1, h2, h3⟩ := ih (base.worse (g.capOf c))
      have hw := Grade.worse_spec base (g.capOf c)
      refine ⟨le_trans hw.1 h1, ?_, ?_⟩
      · intro d hd hd0
        simp only [List.mem_cons] at hd
        rcases hd with hd | hd
        · subst hd; exact le_trans hw.2.1 h1
        · exact h2 d hd hd0
      · rcases h3 with h3 | ⟨d, hd, hd0, h3⟩
        · rcases hw.2.2 with hw | hw
          · left; rw [h3, hw]
          · right; exact ⟨c, by simp, h, by rw [h3, hw]⟩
        · exact Or.inr ⟨d, by simp [hd], hd0, h3⟩

/-- A running maximum bounds the list and is reached. -/
theorem foldl_max_spec (l : List Nat) (m : Nat) : m ≤ l.foldl max m ∧ (∀ e ∈ l, e ≤ l.foldl max m) ∧
    (l.foldl max m = m ∨ l.foldl max m ∈ l) := by
  induction l generalizing m with
  | nil => simp
  | cons a r ih =>
    simp only [List.foldl_cons]
    obtain ⟨h1, h2, h3⟩ := ih (max m a)
    refine ⟨by omega, ?_, ?_⟩
    · intro e he; simp only [List.mem_cons] at he
      rcases he with he | he
      · omega
      · exact h2 e he
    · rcases h3 with h3 | h3
      · rcases Nat.le_total m a with hh | hh
        · right; rw [h3, Nat.max_eq_right hh]; simp
        · left; rw [h3, Nat.max_eq_left hh]
      · right; simp [h3]

/-- A running minimum bounds the list and is reached. -/
theorem foldl_min_spec (l : List Nat) (m : Nat) : l.foldl min m ≤ m ∧ (∀ e ∈ l, l.foldl min m ≤ e) ∧
    (l.foldl min m = m ∨ l.foldl min m ∈ l) := by
  induction l generalizing m with
  | nil => simp
  | cons a r ih =>
    simp only [List.foldl_cons]
    obtain ⟨h1, h2, h3⟩ := ih (min m a)
    refine ⟨by omega, ?_, ?_⟩
    · intro e he; simp only [List.mem_cons] at he
      rcases he with he | he
      · omega
      · exact h2 e he
    · rcases h3 with h3 | h3
      · rcases Nat.le_total m a with hh | hh
        · left; rw [h3, Nat.min_eq_left hh]
        · right; rw [h3, Nat.min_eq_right hh]; simp
      · right; simp [h3]

/-- SPREAD is the largest effective score less the smallest (R27). -/
theorem spreadOf_spec (l : List Nat) (hne : l ≠ []) (h : ∀ e ∈ l, e ≤ 100) :
    ∃ hi ∈ l, ∃ lo ∈ l, (∀ e ∈ l, lo ≤ e ∧ e ≤ hi) ∧ spreadOf l = hi - lo := by
  obtain ⟨a1, a2, a3⟩ := foldl_max_spec l 0
  obtain ⟨b1, b2, b3⟩ := foldl_min_spec l 100
  obtain ⟨x, hx⟩ := List.exists_mem_of_ne_nil l hne
  have ha : l.foldl max 0 ∈ l := by
    rcases a3 with a3 | a3
    · have := a2 x hx; have : x = 0 := by omega
      rw [a3]; rw [← this]; exact hx
    · exact a3
  have hb : l.foldl min 100 ∈ l := by
    rcases b3 with b3 | b3
    · have := b2 x hx; have := h x hx; have : x = 100 := by omega
      rw [b3]; rw [← this]; exact hx
    · exact b3
  exact ⟨_, ha, _, hb, fun e he => ⟨b2 e he, a2 e he⟩, rfl⟩

/-- An effective score is at most 100 (R26). -/
theorem Gu.effective_le (g : Gu) (r : Reading) : g.effective r ≤ 100 := by unfold Gu.effective; omega

/-- A sum of scores of at most 100. -/
theorem sum_le_of_le (l : List Nat) (h : ∀ e ∈ l, e ≤ 100) : l.sum ≤ 100 * l.length := by
  induction l with
  | nil => simp
  | cons a r ih =>
    have := ih (fun e he => h e (by simp [he])); have := h a (by simp)
    simp only [List.sum_cons, List.length_cons]; omega

/-- An operation that the mode has is decided by its rule (R148). -/
theorem State.onOperation_of_available (op : Nat) (f : Mailbox → State → State) (s : State) (h : s.atOperation op) (ha :
    opAvailable op s.cu.mode = true) :
    s.onOperation op f = f s.mailbox s.mailboxFetched := by
  unfold State.onOperation
  rw [if_pos (by exact h), if_pos ha]

end Sys2Proof.Machine
end

