-- ==== Sys2Proof/Laws/Service.lean ====
section
/-! SUPPORT. What joining and leaving CQ come to, which holds and stalls end,
and which writes a read overlaps. -/

namespace Sys2Proof.Machine

/-! ## The overlap of a read and a write (R138) -/

/-- Two runs of bytes overlap when an address lies in both. -/
theorem runsOverlap_iff (a n b m : Nat) :
    runsOverlap a n b m = true ↔ ∃ x, a ≤ x ∧ x < a + n ∧ b ≤ x ∧ x < b + m := by
  unfold runsOverlap
  simp only [Bool.and_eq_true, decide_eq_true_eq]
  constructor
  · intro h; exact ⟨max a b, by omega, by omega, by omega, by omega⟩
  · rintro ⟨x, h⟩; omega

/-- A read overlaps a forwarded write when an address is a byte of both. -/
theorem overlapsForward_iff (fwd : List FwdWrite) (a n : Nat) :
    overlapsForward fwd a n = true ↔ ∃ w ∈ fwd, ∃ x, a ≤ x ∧ x < a + n ∧ w.addr ≤ x ∧ x < w.addr + w.len := by
  unfold overlapsForward
  simp only [List.any_eq_true, runsOverlap_iff]

/-- A part of a read overlaps a write when an address is a byte of both. -/
theorem anyOverlaps_iff (parts : List ReadPart) (w : FwdWrite) :
    parts.any (·.overlaps w) = true ↔
      ∃ a n x, ReadPart.mem a n ∈ parts ∧ a ≤ x ∧ x < a + n ∧ w.addr ≤ x ∧ x < w.addr + w.len := by
  rw [List.any_eq_true]
  constructor
  · rintro ⟨part, hp, ho⟩
    cases part with
    | mem a n => obtain ⟨x, hx⟩ := (runsOverlap_iff a n w.addr w.len).1 ho; exact ⟨a, n, x, hp, hx⟩
    | synth c => exact Bool.noConfusion ho
  · rintro ⟨a, n, x, hp, hx⟩
    exact ⟨_, hp, (runsOverlap_iff a n w.addr w.len).2 ⟨x, hx⟩⟩

/-- A read waits for no write when it overlaps none, and otherwise for those up to the youngest that it overlaps. -/
theorem lastOverlap_spec (parts : List ReadPart) (fwd : List FwdWrite) :
    (lastOverlap parts fwd = 0 ↔ ∀ w ∈ fwd, parts.any (·.overlaps w) = false) ∧
    ∀ k, lastOverlap parts fwd = k + 1 ↔
      ∃ l w r, fwd = l ++ w :: r ∧ l.length = k ∧ parts.any (·.overlaps w) = true ∧
        ∀ v ∈ r, parts.any (·.overlaps v) = false := by
  induction fwd with
  | nil => simp [lastOverlap]
  | cons w r ih =>
    obtain ⟨h0, hs⟩ := ih
    unfold lastOverlap
    by_cases hz : lastOverlap parts r = 0
    · rw [if_pos hz]
      have hr := h0.1 hz
      by_cases hw : parts.any (·.overlaps w) = true
      · rw [if_pos hw]
        refine ⟨⟨fun h => by omega, fun h => ?_⟩, fun k => ⟨fun h => ?_, ?_⟩⟩
        · rw [h w (by simp)] at hw; cases hw
        · exact ⟨[], w, r, rfl, by simp; omega, hw, hr⟩
        · rintro ⟨l, v, t, he, hl, hv, _⟩
          cases l with
          | nil => simp at hl; omega
          | cons x l =>
            injection he with _ he
            rw [hr v (by rw [he]; simp)] at hv; cases hv
      · rw [if_neg hw]
        refine ⟨⟨fun _ v hv => ?_, fun _ => rfl⟩, fun k => ⟨fun h => by omega, ?_⟩⟩
        · rcases List.mem_cons.1 hv with rfl | hv
          · simpa using hw
          · exact hr v hv
        · rintro ⟨l, v, t, he, hl, hv, _⟩
          cases l with
          | nil => injection he with he _; rw [he] at hw; exact absurd hv hw
          | cons x l =>
            injection he with _ he
            rw [hr v (by rw [he]; simp)] at hv; cases hv
    · rw [if_neg hz]
      refine ⟨⟨fun h => by omega, fun h => absurd (h0.2 (fun v hv => h v (by simp [hv]))) hz⟩, fun k => ⟨fun h => ?_, ?_⟩⟩
      · obtain ⟨j, hj⟩ : ∃ j, lastOverlap parts r = j + 1 := ⟨_, (Nat.succ_pred_eq_of_ne_zero hz).symm⟩
        obtain ⟨l, v, t, he, hl, hv⟩ := (hs j).1 hj
        exact ⟨w :: l, v, t, by rw [he]; rfl, by simp; omega, hv⟩
      · rintro ⟨l, v, t, he, hl, hv, ht⟩
        cases l with
        | nil =>
          injection he with _ he
          exact absurd (h0.2 (fun x hx => ht x (by rw [← he]; exact hx))) hz
        | cons x l =>
          injection he with _ he
          have := (hs l.length).2 ⟨l, v, t, he, rfl, hv, ht⟩
          simp at hl
          omega

/-! ## The head of CQ (R38, R39, R40) -/

theorem Mode.serves_iff (m : Mode) : m.serves = true ↔ (m = .run ∨ m = .frozen) := by cases m <;> simp [Mode.serves]

theorem Arbiter.askFetch_eq (m : Arbiter) (a : Option Nat) :
    m.askFetch a = { m with own := m.own ++ (if a = none then [] else [OwnReq.fetch]) } := by
  cases a <;> simp [Arbiter.askFetch, Arbiter.ask]

/-- A unit that is not idle, or has nothing to take, or stands in another mode, takes no entry. -/
theorem State.takeNext_waits (s : State)
    (h : s.icu.stage ≠ .idle ∨ s.icu.cq = [] ∨ (s.cu.mode ≠ .run ∧ s.cu.mode ≠ .frozen)) : s.takeNext = s := by
  unfold State.takeNext
  split
  · rename_i hi hc
    rw [if_neg]
    rw [Mode.serves_iff]
    rintro hm
    rcases h with h | h | h
    · exact h hi
    · rw [hc] at h; cases h
    · rcases hm with hm | hm
      · exact h.1 hm
      · exact h.2 hm
  · rfl

/-- An idle unit in RUN or FROZEN takes the head entry and issues the fetch of a slot that has an address. -/
theorem State.takeNext_takes (s : State) (e : CqEntry) (r : List CqEntry) (hi : s.icu.stage = .idle)
    (hm : s.cu.mode = .run ∨ s.cu.mode = .frozen) (hc : s.icu.cq = e :: r) :
    s.takeNext = { s with
      icu := { s.icu with
        cq := r
        stage := .fetching { entry := e, frozen := decide (s.cu.mode = .frozen), addr := s.layout.slotAddr e.slot } }
      ma := { s.ma with
        own := s.ma.own ++ (if s.layout.slotAddr e.slot = none then [] else [OwnReq.fetch]) } } := by
  unfold State.takeNext
  rw [hi, hc]
  simp only
  rw [if_pos ((Mode.serves_iff _).2 hm), Arbiter.askFetch_eq]
  congr 4

/-- An entry that the unit does not take stands last in CQ. -/
theorem State.joinCq_waits (e : CqEntry) (s : State)
    (h : s.icu.stage ≠ .idle ∨ (s.cu.mode ≠ .run ∧ s.cu.mode ≠ .frozen)) :
    s.joinCq e = { s with icu := { s.icu with cq := s.icu.cq ++ [e] } } := by
  unfold State.joinCq
  refine State.takeNext_waits _ ?_
  rcases h with h | h
  · exact Or.inl h
  · exact Or.inr (Or.inr h)

/-! ## The holds and stalls that end (R135) -/

/-- A port with every stage passed through a function. -/
def PortState.restage (f : Stage → Stage) (v : PortState) : PortState :=
  { v with outstanding := v.outstanding.map (fun o => { o with stage := f o.stage }) }

theorem PortState.restage_restage (f g : Stage → Stage) (v : PortState) :
    (v.restage f).restage g = v.restage (g ∘ f) := by
  simp [PortState.restage, Function.comp_def]

theorem State.mapStages_eq (f : Stage → Stage) (s : State) :
    s.mapStages (fun o => f o.stage) = { s with portA := s.portA.restage f, portB := s.portB.restage f } := rfl

/-- The end of the mailbox holds. -/
theorem State.releaseHolds_mailbox (s : State) :
    s.releaseHolds Hold.isMailbox = { s with
      portA := s.portA.restage (fun st => if st = .held .mailbox then .waiting else st)
      portB := s.portB.restage (fun st => if st = .held .mailbox then .waiting else st) } := by
  rw [← State.mapStages_eq]
  unfold State.releaseHolds
  congr 1
  funext o
  cases o.stage with
  | held h => cases h <;> rfl
  | _ => rfl

/-- The end of the stalls for the posting stop. -/
theorem State.releaseStalls_posting (s : State) :
    s.releaseStalls Stall.isPosting = { s with
      portA := s.portA.restage (fun st => if st = .stalled .postingStopped then .waiting else st)
      portB := s.portB.restage (fun st => if st = .stalled .postingStopped then .waiting else st) } := by
  rw [← State.mapStages_eq]
  unfold State.releaseStalls
  congr 1
  funext o
  cases o.stage with
  | stalled h => cases h <;> rfl
  | _ => rfl

/-- The stage of a request when a place of CQ is freed and the busy set is `busy`. -/
def afterPlace (busy : SlotId → Bool) : Stage → Stage
  | .held .cqCommand => .waiting
  | .held .cqNotice => .waiting
  | .held (.busySlot id) => if busy id then .held (.busySlot id) else .waiting
  | st => st

/-- The end of the holds for a place and on a slot that is not busy. -/
theorem State.releasePlace_eq (s : State) :
    s.releasePlace
      = { s with portA := s.portA.restage (afterPlace s.busy), portB := s.portB.restage (afterPlace s.busy) } := by
  have h : ∀ (c : Hold → Bool) (u : State), u.releaseHolds c
      = { u with
          portA := u.portA.restage (fun st => match st with | .held x => if c x then .waiting else .held x | y => y)
          portB := u.portB.restage (fun st => match st with | .held x => if c x then .waiting else .held x | y => y) } :=
    fun _ _ => rfl
  have e : ((fun st : Stage => match st with | .held x => if Hold.onFreeSlot s x then Stage.waiting else .held x | y => y) ∘
      (fun st : Stage => match st with | .held x => if Hold.waitsForPlace x then Stage.waiting else .held x | y => y))
      = afterPlace s.busy := by
    funext st
    cases st with
    | held x =>
      cases x with
      | busySlot id => cases hb : s.busy id <;> simp [Hold.onFreeSlot, Hold.waitsForPlace, afterPlace, hb]
      | _ => rfl
    | _ => rfl
  unfold State.releasePlace
  rw [h, h]
  simp only [PortState.restage_restage, e]

/-! ## The end of a service and the resume after a RELOAD (R39, R43, R155) -/

/-- The state of the end of a service before the unit takes its next entry. -/
def State.serviceEnded (s : State) : State :=
  ({ s with icu := { s.icu with stage := if s.icu.pauseAsked then .paused else .idle } }).releasePlace

theorem State.endService_eq (s : State) : s.endService = s.serviceEnded.takeNext := rfl

/-- A unit that the control unit resumes is idle and takes the head under the layout in force. -/
theorem State.resumeIcu_of_paused (s : State) (h : s.icu.stage = .paused) :
    s.resumeIcu = ({ s with icu := { s.icu with pauseAsked := false, stage := .idle } }).takeNext := by
  unfold State.resumeIcu
  rw [h]

end Sys2Proof.Machine
end

