-- ==== Sys2Proof/Laws/Settled.lean ====
section
/-! SUPPORT. The end of a command leaves nothing to do at the ports: no request is ready, no response can be returned, and no
plain write can go (R128, R130, R139). -/

namespace Sys2Proof.Machine

/-- How many requests of a port's list are ready or stand behind one that is not. -/
def waitingIn (l : List Outstanding) : Nat := (pendingStages l).count .waiting

theorem waitingIn_le (l : List Outstanding) : waitingIn l ≤ l.length := by
  unfold waitingIn pendingStages
  exact List.count_le_length.trans ((List.length_filter_le _ _).trans (by rw [List.length_map]))

/-- The waiting requests of both ports. -/
def State.waitingRequests (s : State) : Nat := waitingIn s.portA.outstanding + waitingIn s.portB.outstanding

theorem State.waitingRequests_of_sameHeads {s t : State} (h : s.sameHeads t) : s.waitingRequests = t.waitingRequests := by
  unfold State.waitingRequests waitingIn
  rw [h.1, h.2.1]

/-- Setting the head request's stage sets the first of the stages not dispatched, or takes it away. -/
theorem pendingStages_setHeadStage (st x : Stage) (l : List Outstanding) (r : List Stage)
    (h : pendingStages l = x :: r) :
    pendingStages (setHeadStage st l) = if st.undispatched then st :: r else r := by
  induction l with
  | nil => exact absurd h (by simp [pendingStages])
  | cons o t ih =>
    rw [pendingStages_cons] at h
    unfold setHeadStage
    by_cases ho : o.stage.undispatched = true
    · rw [if_pos ho] at h ⊢
      rw [pendingStages_cons]
      simp only [(List.cons.inj h).2]
    · rw [if_neg ho] at h ⊢
      rw [pendingStages_cons, if_neg ho]
      exact ih h

/-- A waiting head request that is taken is one waiting request fewer. -/
theorem waitingIn_setHeadStage (st : Stage) (l : List Outstanding) (hs : st ≠ .waiting)
    (h : headStage l = some .waiting) : waitingIn (setHeadStage st l) + 1 = waitingIn l := by
  rw [headStage_eq] at h
  obtain ⟨r, hr⟩ : ∃ r, pendingStages l = .waiting :: r := by
    cases hp : pendingStages l with
    | nil => rw [hp] at h; cases h
    | cons x r => rw [hp] at h; exact ⟨r, by rw [Option.some.inj h]⟩
  unfold waitingIn
  rw [pendingStages_setHeadStage st _ l r hr, hr, List.count_cons_self]
  split
  · rw [List.count_cons_of_ne hs]
  · rfl

/-- The chosen port has a request that waits. -/
theorem State.chosenPort_headStage (p : Port) (s : State) (h : s.chosenPort = some p) :
    headStage (s.port p).outstanding = some .waiting := by
  have hr : (s.port p).ready = true := by
    unfold State.chosenPort at h
    cases hA : s.portA.ready <;> cases hB : s.portB.ready <;> rw [hA, hB] at h <;> cases p <;> simp_all [State.port]
  rw [PortState.ready_eq] at hr
  exact of_decide_eq_true hr

/-- Setting a waiting head request's stage leaves one waiting request fewer. -/
theorem State.setHead_waitingRequests (p : Port) (st : Stage) (s : State) (hs : st ≠ .waiting)
    (h : headStage (s.port p).outstanding = some .waiting) :
    (s.setHead p st).waitingRequests + 1 = s.waitingRequests := by
  have := waitingIn_setHeadStage st _ hs h
  cases p <;> simp only [State.waitingRequests, State.setHead, State.setPort, State.port] at this ⊢ <;> omega

/-- A choice of the ingress arbiter leaves one waiting request fewer (R130). -/
theorem State.takeOne_waitingRequests (p : Port) (s : State) (h : s.chosenPort = some p) :
    (s.takeOne p).waitingRequests + 1 = s.waitingRequests := by
  have hr := State.chosenPort_headStage p s h
  unfold State.takeOne
  rw [State.waitingRequests_of_sameHeads (State.sameHeads_trans (State.sameHeads_deliver _) (State.sameHeads_goForward _))]
  unfold State.takeHead
  have hp : ({ s with ia := otherPort p } : State).port p = s.port p := by cases p <;> rfl
  rw [hp]
  cases ho : headRequest (s.port p).outstanding with
  | none => unfold headStage at hr; rw [ho] at hr; cases hr
  | some o =>
    have hd := State.decideRequest_ports p o.twin o.req { s with ia := otherPort p }
    have hw := State.setHead_waitingRequests p _ (State.decideRequest p o.twin o.req { s with ia := otherPort p }).2
      (State.decideRequest_ne_waiting p o.twin o.req { s with ia := otherPort p })
      (by cases p <;> simp only [State.port, hd.1, hd.2.1] <;> exact hr)
    refine hw.trans ?_
    unfold State.waitingRequests
    rw [hd.1, hd.2.1]

/-- As many choices as there are waiting requests leave none ready. -/
theorem settle_chosenPort (n : Nat) (s : State) (h : s.waitingRequests ≤ n) : (settle n s).chosenPort = none := by
  induction n generalizing s with
  | zero =>
    cases hc : s.chosenPort with
    | none => exact hc
    | some p => have := State.takeOne_waitingRequests p s hc; omega
  | succ n ih =>
    unfold settle
    cases hc : s.chosenPort with
    | none => exact hc
    | some p => exact ih _ (by have := State.takeOne_waitingRequests p s hc; omega)

/-- A port that has returned what it may has nothing to return (R128). -/
theorem PortState.nothingToReturn_deliver (v : PortState) : nothingToReturn v.deliver.outstanding = true := by
  unfold PortState.deliver
  generalize v.outstanding = l
  induction l with
  | nil => rfl
  | cons o r ih =>
    unfold returnable
    cases h : o.stage with
    | complete x => exact ih
    | _ => simp [nothingToReturn, h]

/-- What a round of what may go and of what may be returned leaves. -/
theorem State.deliver_goForward_quiet (s : State) :
    forwardWaits s.goForward.deliver.fwd = true ∧ nothingToReturn s.goForward.deliver.portA.outstanding = true ∧
    nothingToReturn s.goForward.deliver.portB.outstanding = true :=
  ⟨forwardWaits_serveForward s.fwd s rfl, PortState.nothingToReturn_deliver _, PortState.nothingToReturn_deliver _⟩

/-- The takes keep what the round before them has left. -/
theorem settle_quiet (n : Nat) (s : State)
    (h : forwardWaits s.fwd = true ∧ nothingToReturn s.portA.outstanding = true ∧
      nothingToReturn s.portB.outstanding = true) :
    forwardWaits (settle n s).fwd = true ∧ nothingToReturn (settle n s).portA.outstanding = true ∧
    nothingToReturn (settle n s).portB.outstanding = true := by
  induction n generalizing s with
  | zero => exact h
  | succ n ih =>
    unfold settle
    split
    · exact ih _ (State.deliver_goForward_quiet _)
    · exact h

/-- The end of a command settles the part (R128, R130, R139). -/
theorem State.finish_settled (s : State) (hA : s.portA.outstanding.length ≤ 8) (hB : s.portB.outstanding.length ≤ 8) :
    s.finish.settled := by
  refine ⟨settle_chosenPort _ _ ?_, settle_quiet _ _ (State.deliver_goForward_quiet s)⟩
  rw [State.waitingRequests_of_sameHeads (State.sameHeads_trans (State.sameHeads_deliver _) (State.sameHeads_goForward s))]
  have h1 := waitingIn_le s.portA.outstanding
  have h2 := waitingIn_le s.portB.outstanding
  unfold State.waitingRequests
  omega

/-- A state whose ports and forwarded writes are those of a settled one is settled. -/
theorem State.settled_of_ports {s t : State} (h : s.settled) (hA : t.portA = s.portA) (hB : t.portB = s.portB)
    (hf : t.fwd = s.fwd) (hi : t.ia = s.ia) : t.settled := by
  unfold State.settled State.chosenPort at *
  rw [hA, hB, hf, hi]
  exact h

end Sys2Proof.Machine
end

