-- ==== Sys2Proof/Laws/StartFrame.lean ====
section
/-! SUPPORT. What the reads of a start or a RELOAD leave (R154, R160), and the invariants they keep. -/

namespace Sys2Proof.Machine

/-! ## The reads of a start or a RELOAD -/

/-- What the reads of a start or a RELOAD change (R154, R160 to R167): tables of the units, the operation
that goes on, the pause asked, and the grants. -/
def State.readsOnly (s t : State) : Prop :=
  ∃ gu bu ru qu icu w ma,
    t = { s with gu := gu, bu := bu, ru := ru, qu := qu, icu := icu, ma := ma, cu := { s.cu with work := w } } ∧
    (s.ma.sent ≤ s.fwd.length → ma.sent ≤ s.fwd.length) ∧
    icu.given = s.icu.given ∧ icu.cq = s.icu.cq ∧ icu.stage.service = s.icu.stage.service ∧
    (∀ r, w = .result r → s.cu.work = .result r ∨ r.after = .nothing)

theorem State.readsOnly_refl (s : State) : s.readsOnly s :=
  ⟨_, _, _, _, _, _, _, rfl, id, rfl, rfl, rfl, fun _ h => Or.inl h⟩

theorem State.readsOnly_trans {s t u : State} (h : s.readsOnly t) (k : t.readsOnly u) : s.readsOnly u := by
  obtain ⟨_, _, _, _, _, _, _, rfl, h1, h2, h3, h4, h5⟩ := h
  obtain ⟨_, _, _, _, _, _, _, rfl, k1, k2, k3, k4, k5⟩ := k
  refine ⟨_, _, _, _, _, _, _, rfl, fun h => k1 (h1 h), k2.trans h2, k3.trans h3, k4.trans h4, fun r hr => ?_⟩
  rcases k5 r hr with h | h
  · exact h5 r h
  · exact Or.inr h

theorem State.readsOnly_ownRead (r : OwnReq) (s : State) : s.readsOnly (s.ownRead r) :=
  ⟨_, _, _, _, _, _, _, rfl, fun h => (Arbiter.grantOwn_spec s.finds s.fwd.length r s.ma h).1, rfl, rfl, rfl, fun _ h => Or.inl h⟩

theorem State.readsOnly_askOwn (r : OwnReq) (s : State) : s.readsOnly (s.askOwn r) :=
  ⟨_, _, _, _, _, _, _, rfl, id, rfl, rfl, rfl, fun _ h => Or.inl h⟩

theorem State.readsOnly_cuRead (s : State) : s.readsOnly s.cuRead :=
  State.readsOnly_trans (State.readsOnly_askOwn _ _) (State.readsOnly_ownRead _ _)

theorem State.readsOnly_working (w : CuWork) (s : State) (h : ∀ r, w ≠ .result r) : s.readsOnly (s.working w) :=
  ⟨_, _, _, _, _, _, _, rfl, id, rfl, rfl, rfl, fun r e => absurd e (h r)⟩

theorem State.readsOnly_answerOp (seq : Word32) (res : MbResult) (d : Word32) (s : State) : s.readsOnly (s.answerOp seq res d) :=
  ⟨_, _, _, _, _, _, _, rfl, id, rfl, rfl, rfl, fun r e => Or.inr (by injection e with e; rw [← e])⟩

theorem State.readsOnly_failStart (seq : Word32) (f : StartFail) (s : State) : s.readsOnly (s.failStart seq f) :=
  State.readsOnly_trans (t := s.clearStart) ⟨_, _, _, _, _, _, _, rfl, id, rfl, rfl, rfl, fun _ h => Or.inl h⟩ (State.readsOnly_answerOp _ _ _ _)

theorem State.readsOnly_failTables (use : TableUse) (seq : Word32) (f : StartFail) (s : State) :
    s.readsOnly (s.failTables use seq f) := by
  cases use
  · exact State.readsOnly_failStart _ _ _
  · exact State.readsOnly_failStart _ _ _
  · exact State.readsOnly_answerOp _ _ _ _

theorem State.readsOnly_endTables (use : TableUse) (seq : Word32) (t : TablesRead) (s : State) :
    s.readsOnly (s.endTables use seq t) := by
  unfold State.endTables
  split
  · exact State.readsOnly_failTables _ _ _ _
  · cases use
    · exact State.readsOnly_working _ _ (by simp)
    · exact State.readsOnly_working _ _ (by simp)
    · simp only
      unfold State.reloadTests
      split
      · exact State.readsOnly_answerOp _ _ _ _
      · refine State.readsOnly_trans (State.readsOnly_working _ _ (by simp)) ⟨_, _, _, _, _, _, _, rfl, id, rfl, rfl, ?_, fun _ h => Or.inl h⟩
        show (IcuStage.service (match s.icu.stage with | .idle => .paused | st => st)) = s.icu.stage.service
        cases s.icu.stage <;> rfl

theorem State.readsOnly_buildFresh (d : StartData) (s : State) : s.readsOnly (s.buildFresh d) :=
  ⟨_, _, _, _, _, _, _, rfl, id, rfl, rfl, rfl, by simp⟩

theorem State.readsOnly_endEntries (d : StartData) (headers : List QHeader) (read : List RingEntry) (s : State) :
    s.readsOnly (s.endEntries d headers read) := by
  unfold State.endEntries
  split
  · exact State.readsOnly_failStart _ _ _
  · exact ⟨_, _, _, _, _, _, _, rfl, id, rfl, rfl, rfl, by simp⟩

theorem State.readsOnly_toEntries (d : StartData) (headers : List QHeader) (read : List RingEntry) (s : State) :
    s.readsOnly (s.toEntries d headers read) := by
  unfold State.toEntries
  split
  · exact State.readsOnly_working _ _ (by simp)
  · exact State.readsOnly_endEntries _ _ _ _

theorem State.readsOnly_readNext (fault : Option ReadSite) (s : State) : s.readsOnly (s.readNext fault) := by
  unfold State.readNext
  split
  · unfold State.readTable
    split
    · exact s.readsOnly_refl
    · split
      · refine State.readsOnly_trans s.readsOnly_cuRead ?_
        split
        · exact State.readsOnly_failTables _ _ _ _
        · simp only
          split
          · exact State.readsOnly_working _ _ (by simp)
          · exact State.readsOnly_endTables _ _ _ _
      · exact s.readsOnly_refl
  · unfold State.readImageBlock
    split
    · refine State.readsOnly_trans s.readsOnly_cuRead ?_
      split
      · exact State.readsOnly_failStart _ _ _
      · split
        · exact State.readsOnly_failStart _ _ _
        · simp only
          split
          · exact State.readsOnly_working _ _ (by simp)
          · split
            · exact State.readsOnly_buildFresh _ _
            · exact State.readsOnly_working _ _ (by simp)
    · exact s.readsOnly_refl
  · unfold State.readHeader
    split
    · exact s.readsOnly_refl
    · split
      · refine State.readsOnly_trans s.readsOnly_cuRead ?_
        split
        · exact State.readsOnly_failStart _ _ _
        · simp only
          split
          · exact State.readsOnly_working _ _ (by simp)
          · unfold State.endHeaders
            split
            · exact State.readsOnly_failStart _ _ _
            · exact State.readsOnly_toEntries _ _ _ _
      · exact s.readsOnly_refl
  · unfold State.readEntry
    split
    · exact s.readsOnly_refl
    · simp only
      split
      · refine State.readsOnly_trans s.readsOnly_cuRead ?_
        split
        · exact State.readsOnly_failStart _ _ _
        · split
          · exact State.readsOnly_failStart _ _ _
          · exact State.readsOnly_toEntries _ _ _ _
      · exact s.readsOnly_refl
  · exact s.readsOnly_refl

/-- The reads of an operation change nothing else. -/
theorem State.readsOnly_reads (fault : Option ReadSite) (n : Nat) (s : State) : s.readsOnly (s.reads fault n) := by
  induction n generalizing s with
  | zero => exact s.readsOnly_refl
  | succ n ih => exact State.readsOnly_trans (State.readsOnly_readNext _ _) (ih _)

/-- An operation that reads the tables changes nothing else, whether it begins, goes on or is turned away. -/
theorem State.readsOnly_readingOperation (use : TableUse) (op n : Nat) (fault : Option ReadSite) (s : State) :
    s.readsOnly (s.readingOperation use op n fault) := by
  unfold State.readingOperation
  split
  · exact State.readsOnly_reads _ _ _
  · unfold State.onOperation
    split
    · split
      · exact State.readsOnly_trans (State.readsOnly_ownRead _ s) (State.readsOnly_trans (State.readsOnly_working _ _ (by simp)) (State.readsOnly_reads _ _ _))
      · exact State.readsOnly_trans (State.readsOnly_ownRead _ s) (State.readsOnly_answerOp _ _ _ _)
    · exact s.readsOnly_refl

theorem State.withinLimits_of_reads {s t : State} (h : s.readsOnly t) (w : s.withinLimits) : t.withinLimits := by
  obtain ⟨_, _, _, _, _, _, _, rfl, h1, _⟩ := h
  exact ⟨w.1, w.2.1, w.2.2.1, w.2.2.2.1, h1 w.2.2.2.2.1, w.2.2.2.2.2⟩

theorem State.queueLimits_of_reads {s t : State} (h : s.readsOnly t) (w : s.queueLimits) : t.queueLimits := by
  obtain ⟨_, _, _, _, _, _, _, rfl, _, h2, h3, h4, _⟩ := h
  exact State.queueLimits_of_same ⟨h2, h3, h4, rfl⟩ w

theorem State.haltedHoldsNothing_of_reads {s t : State} (hm : s.cu.mode ≠ .halted) (h : s.readsOnly t)
    (w : s.haltedHoldsNothing) : t.haltedHoldsNothing := by
  obtain ⟨_, _, _, _, _, _, _, rfl, _, _, _, _, h5⟩ := h
  refine State.haltedHoldsNothing_of_cu w hm fun r hr => ?_
  rcases h5 r hr with h | h
  · exact Or.inl h
  · exact Or.inr (by rw [h]; simp)

end Sys2Proof.Machine
end

