-- ==== Sys2Proof/Laws/Switch.lean ====
section
/-! SUPPORT. What the switch of a start or a RELOAD builds: the availability lists, the header writes, the end of the
stalls (R72, R124, R135, R168). -/

namespace Sys2Proof.Machine

/-- An item that joins behind a write in flight waits, and one that joins an idle unit is issued. -/
theorem State.joinQu_items (i : QuItem) (s : State) :
    (∀ f, s.qu.inFlight = some f → (s.joinQu i).qu.inFlight = some f ∧ (s.joinQu i).qu.waiting = joinWrite i
        s.qu.waiting) ∧
    (s.qu.inFlight = none → s.qu.waiting = [] →
      (s.joinQu i).qu.inFlight.map (·.item) = some i ∧ (s.joinQu i).qu.waiting = []) := by
  refine ⟨fun f hf => ?_, fun hf hw => ?_⟩
  · unfold State.joinQu State.kickQu; simp [hf]
  · have : joinWrite i s.qu.waiting = [i] := by rw [hw]; unfold joinWrite; simp
    unfold State.joinQu State.kickQu; simp [this, hf]

/-- Changes of queues, each followed by the header write of its queue. -/
theorem foldl_joinHeader_spec (g : Fin 6 → State → State)
    (hg : ∀ q u, (g q u).qu.inFlight = u.qu.inFlight ∧ (g q u).qu.waiting = u.qu.waiting) (l : List (Fin 6)) (s :
        State) (hn : l.Nodup) :
    (∀ f, s.qu.inFlight = some f →
      (l.foldl (fun u q => (g q u).joinQu (.header q)) s).qu.inFlight = some f ∧
      (l.foldl (fun u q => (g q u).joinQu (.header q)) s).qu.waiting
        = s.qu.waiting ++ (l.map QuItem.header).filter (fun i => decide (i ∉ s.qu.waiting))) ∧
    (s.qu.inFlight = none → s.qu.waiting = [] →
      ((l.foldl (fun u q => (g q u).joinQu (.header q)) s).qu.inFlight.map (·.item)).toList
        ++ (l.foldl (fun u q => (g q u).joinQu (.header q)) s).qu.waiting = l.map QuItem.header) := by
  have A : ∀ (l : List (Fin 6)), l.Nodup → ∀ s : State, ∀ f, s.qu.inFlight = some f →
      (l.foldl (fun u q => (g q u).joinQu (.header q)) s).qu.inFlight = some f ∧
      (l.foldl (fun u q => (g q u).joinQu (.header q)) s).qu.waiting
        = s.qu.waiting ++ (l.map QuItem.header).filter (fun i => decide (i ∉ s.qu.waiting)) := by
    intro l
    induction l with
    | nil => intro _ s f hf; exact ⟨hf, by simp⟩
    | cons q r ih =>
      intro hn s f hf
      rw [List.nodup_cons] at hn
      obtain ⟨j1, j2⟩ := (State.joinQu_items (.header q) (g q s)).1 f (by rw [(hg q s).1]; exact hf)
      obtain ⟨i1, i2⟩ := ih hn.2 ((g q s).joinQu (.header q)) f j1
      rw [List.foldl_cons]
      refine ⟨i1, ?_⟩
      rw [i2, j2, (hg q s).2, List.map_cons, List.filter_cons]
      unfold joinWrite
      by_cases hq : QuItem.header q ∈ s.qu.waiting
      · simp [QuItem.isEntry, hq]
      · simp only [QuItem.isEntry, Bool.not_false, List.contains_eq_mem, hq, decide_false, Bool.and_false,
          Bool.false_eq_true, if_false, not_false_eq_true, decide_true, if_true, List.append_assoc,
              List.singleton_append]
        congr 2
        apply List.filter_congr
        intro i hi
        obtain ⟨j, hj, rfl⟩ := List.mem_map.1 hi
        have : j ≠ q := fun e => hn.1 (e ▸ hj)
        simp [this]
  refine ⟨A l hn s, fun hf hw => ?_⟩
  cases l with
  | nil => simp [hf, hw]
  | cons q r =>
    rw [List.nodup_cons] at hn
    obtain ⟨j1, j2⟩ := (State.joinQu_items (.header q) (g q s)).2 ((hg q s).1.trans hf)
      ((hg q s).2.trans hw)
    rw [List.foldl_cons]
    cases hx : ((g q s).joinQu (.header q)).qu.inFlight with
    | none => rw [hx] at j1; simp at j1
    | some f =>
      obtain ⟨i1, i2⟩ := A r hn.2 _ f hx
      rw [hx] at j1
      rw [i1, i2, j2]
      simp only [Option.map_some, Option.toList_some, List.nil_append, List.map_cons, List.singleton_append]
      have : f.item = .header q := by simpa using j1
      rw [this]
      simp

/-- A header item that joins leaves a write in flight, and asks for it when there was none. -/
theorem State.joinHeader_spec (q : Fin 6) (s : State) : ∃ qu : Qu,
    s.joinQu (.header q) = { s with
      qu := qu
      ma := { s.ma with own := s.ma.own ++ (if s.qu.inFlight = none then [.queueWrite] else []) } } ∧
    qu.queues = s.qu.queues ∧ qu.lastTicket = s.qu.lastTicket ∧ qu.inFlight ≠ none := by
  cases h : s.qu.inFlight with
  | some f =>
    refine ⟨{ s.qu with waiting := joinWrite (.header q) s.qu.waiting }, ?_, rfl, rfl, by simp [h]⟩
    rw [State.joinQu_behind _ s (by simp [h])]
    simp
  | none =>
    obtain ⟨j, l, hj⟩ : ∃ j l, joinWrite (.header q) s.qu.waiting = j :: l := by
      cases hw : joinWrite (.header q) s.qu.waiting with
      | nil =>
        exfalso
        unfold joinWrite at hw
        split at hw
        · rename_i hc; rw [hw] at hc; simp at hc
        · simp at hw
      | cons j l => exact ⟨j, l, rfl⟩
    exact ⟨_, State.joinQu_idle _ j l s h hj, rfl, rfl, by simp⟩

/-- Changes of the queues of a list, each followed by the header write of its queue, change the queue unit and the own side's
list alone: each queue of the list is changed, the first write is asked for when none was in flight, and the shared ticket
stays. -/
theorem foldl_changeQueue_spec (f : QState → QState) (l : List (Fin 6)) (s : State) : ∃ qu : Qu,
    l.foldl (fun u q => (u.setQueue q (f (u.queue q))).joinQu (.header q)) s = { s with
      qu := qu
      ma := { s.ma with own := s.ma.own ++ (if s.qu.inFlight = none ∧ l ≠ [] then [.queueWrite] else []) } } ∧
    qu.lastTicket = s.qu.lastTicket ∧ (l = [] → qu = s.qu) ∧ (∀ q, q ∉ l → qu.queues[q] = s.queue q) ∧
    (l.Nodup → ∀ q ∈ l, qu.queues[q] = f (s.queue q)) := by
  induction l generalizing s with
  | nil => exact ⟨s.qu, by simp, rfl, fun _ => rfl, fun _ _ => rfl, fun _ _ h => absurd h (by simp)⟩
  | cons q r ih =>
    obtain ⟨v, hv, hq, ht, hn⟩ := State.joinHeader_spec q (s.setQueue q (f (s.queue q)))
    obtain ⟨w, hw, kt, _, ko, kc⟩ := ih ((s.setQueue q (f (s.queue q))).joinQu (.header q))
    have hqueue : ∀ j, ((s.setQueue q (f (s.queue q))).joinQu (.header q)).queue j
        = if j = q then f (s.queue q) else s.queue j := by
      intro j
      rw [hv, ← State.queue_setQueue]
      show v.queues[j] = _
      rw [hq]; rfl
    refine ⟨w, ?_, ?_, by simp, ?_, ?_⟩
    · rw [List.foldl_cons, hw, hv]
      simp only [hn, false_and, if_false, List.append_nil, ne_eq, reduceCtorEq, not_false_eq_true, and_true]
      rfl
    · rw [kt, hv]; exact ht
    · intro j hj
      rw [ko j (fun h => hj (List.mem_cons_of_mem _ h)), hqueue, if_neg]
      exact fun h => hj (by rw [h]; exact List.mem_cons_self)
    · intro hd j hj
      rw [List.nodup_cons] at hd
      rcases List.mem_cons.1 hj with rfl | hj
      · rw [ko j hd.1, hqueue, if_pos rfl]
      · rw [kc hd.2 j hj, hqueue, if_neg]
        exact fun h => hd.1 (h ▸ hj)

/-- The first header write that joins an idle unit is issued with the bytes of its changed queue, and the others wait. -/
theorem foldl_changeQueue_first (f : QState → QState) (q : Fin 6) (l : List (Fin 6)) (s : State) (d : QDesc)
    (hn : (q :: l).Nodup) (hd : s.desc? q = some d) (hf : s.qu.inFlight = none) (hw : s.qu.waiting = []) :
    let t := (q :: l).foldl (fun u q => (u.setQueue q (f (u.queue q))).joinQu (.header q)) s
    t.qu.inFlight = some { item := .header q, cells := cellsAt d.ringBase (headerBytes (f (s.queue q))) } ∧
    t.qu.waiting = l.map QuItem.header := by
  intro t
  rw [List.nodup_cons] at hn
  have hj : (s.setQueue q (f (s.queue q))).joinQu (.header q) = _ :=
    State.joinQu_idle (.header q) (.header q) [] (s.setQueue q (f (s.queue q))) hf
      (by rw [show (s.setQueue q (f (s.queue q))).qu.waiting = [] from hw]; simp [joinWrite])
  have hs := (foldl_joinHeader_spec (fun q u => u.setQueue q (f (u.queue q))) (fun _ _ => ⟨rfl, rfl⟩) l
    ((s.setQueue q (f (s.queue q))).joinQu (.header q)) hn.2).1 _ (by rw [hj])
  refine ⟨hs.1.trans ?_, hs.2.trans ?_⟩
  · have e : (s.setQueue q (f (s.queue q))).quCells (.header q) = cellsAt d.ringBase (headerBytes (f (s.queue q))) := by
      have := State.queue_setQueue q q (f (s.queue q)) s
      rw [if_pos rfl] at this
      unfold State.quCells
      simp only [this, show (s.setQueue q (f (s.queue q))).desc? q = s.desc? q from rfl, hd]
    rw [e]
  · rw [hj]; simp
/-- The lists that a switch builds hold the eligible bins in ascending bin number (R72). -/
theorem buildLists_eq_filter (zones : List Zone) (s : State) (c : Nat) (k : ZoneKind) :
    Map.getD [] (buildLists zones s.bu.bins) (listKey c k) = (List.range 2048).filter (fun b =>
          decide ((s.bu.bin b).state = .opened ∧ 0 < (s.bu.bin b).free ∧ kindOf zones b = some k ∧ (s.bu.bin b).cls =
              c)) := by
  rw [list_buildLists]
  have hr : List.range Config.bins = List.range 2048 := congrArg List.range (rfl : Config.bins = 2048)
  rw [hr]
  generalize List.range 2048 = L
  apply List.filter_congr
  intro b _
  have := Bin.takesReservation_iff (Map.getD Bin.reset s.bu.bins b)
  rw [Bool.eq_iff_iff]
  simp only [Bool.and_eq_true, decide_eq_true_eq, this]
  unfold Bu.bin
  exact ⟨fun h => ⟨h.1.2.1, h.1.2.2, h.1.1, h.2⟩, fun h => ⟨⟨h.2.2.1, h.1, h.2.1⟩, h.2.2.2⟩⟩

/-- No request stays stalled for a reason that has ended (R135). -/
theorem State.releaseStalls_spec (c : Stall → Bool) (s : State) (h : Stall) (hc : c h = true) (p : Port) :
    ∀ o ∈ ((s.releaseStalls c).port p).outstanding, o.stage ≠ .stalled h := by
  have key : ∀ l : List Outstanding, ∀ o ∈ Machine.mapStages (fun o => match o.stage with
    | .stalled h => if c h then .waiting else .stalled h
    | st => st) l, o.stage ≠ .stalled h := by
    intro l o ho
    unfold Machine.mapStages at ho
    simp only [List.mem_map] at ho
    obtain ⟨x, _, rfl⟩ := ho
    simp only
    split
    · rename_i h' _
      split
      · simp
      · rename_i hh; intro e; injection e with e; subst e; exact hh hc
    · rename_i hne; intro e; exact hne _ e
  cases p <;> exact key _

end Sys2Proof.Machine
end

