-- ==== Sys2Proof/Laws/Tables.lean ====
section
/-! SUPPORT. What the tables of a control block are read as and what their checks accept (R19 to R21, R68, R103,
    R153). -/

namespace Sys2Proof.Machine

/-- A collected map is refused where one of its entries is. -/
theorem collect_eq_none {α : Type} (f : Nat → Option (Option α)) (l : List Nat) : collect f l = none ↔ ∃ k ∈ l, f k =
    none := by
  induction l with
  | nil => simp [collect]
  | cons k r ih =>
    unfold collect
    cases h : f k with
    | none => simp [h]
    | some o =>
      cases h2 : collect f r with
      | none =>
        rw [h2] at ih
        obtain ⟨j, hj, hj2⟩ := ih.1 rfl
        have : ∃ k_1 ∈ k :: r, f k_1 = none := ⟨j, List.mem_cons_of_mem _ hj, hj2⟩
        cases o <;> exact ⟨fun _ => this, fun _ => rfl⟩
      | some m =>
        rw [h2] at ih
        have hn : ¬ ∃ k ∈ r, f k = none := fun e => by simpa using ih.2 e
        have : ¬ ∃ k_1 ∈ k :: r, f k_1 = none := by
          rintro ⟨j, hj, hj2⟩
          rcases List.mem_cons.1 hj with rfl | hj
          · rw [h] at hj2; cases hj2
          · exact hn ⟨j, hj, hj2⟩
        cases o <;> exact ⟨fun e => by simp at e, fun e => absurd e this⟩

/-- What a collected map holds. -/
theorem collect_eq_some {α : Type} (f : Nat → Option (Option α)) (l : List Nat) (hn : l.Nodup) (m : Map α) (h :
    collect f l = some m) :
    (∀ k ∈ l, f k = some (Map.at? m k)) ∧ ∀ k, k ∉ l → Map.at? m k = none := by
  induction l generalizing m with
  | nil => simp [collect] at h; subst h; simp [Map.at?]
  | cons k r ih =>
    rw [List.nodup_cons] at hn
    unfold collect at h
    cases hf : f k with
    | none => rw [hf] at h; simp at h
    | some o =>
      cases h2 : collect f r with
      | none => rw [hf, h2] at h; cases o <;> simp at h
      | some m' =>
        obtain ⟨i1, i2⟩ := ih hn.2 m' h2
        rw [hf, h2] at h
        cases o with
        | none =>
          simp only [Option.some.injEq] at h; subst h
          refine ⟨fun j hj => ?_, fun j hj => i2 j (fun e => hj (List.mem_cons_of_mem _ e))⟩
          rcases List.mem_cons.1 hj with rfl | hj
          · rw [hf, i2 _ hn.1]
          · exact i1 j hj
        | some v =>
          simp only [Option.some.injEq] at h; subst h
          refine ⟨fun j hj => ?_, fun j hj => ?_⟩
          · unfold Map.at?
            rcases List.mem_cons.1 hj with rfl | hj'
            · simp [hf]
            · have : k ≠ j := fun e => hn.1 (e ▸ hj')
              rw [if_neg this]; exact i1 j hj'
          · unfold Map.at?
            rw [if_neg (by rintro rfl; exact hj List.mem_cons_self), i2 j (fun e => hj (List.mem_cons_of_mem _ e))]

/-- The zones read (R68): refused where one of them is, and each as read. -/
theorem Memory.zoneList_spec (d : Memory) (l : List Nat) :
    (Memory.zoneList d l = none ↔ ∃ a ∈ l, Memory.zone d a = none) ∧
    ∀ z, Memory.zoneList d l = some z → ∀ k, k < l.length → z[k]? = (l[k]?).bind (Memory.zone d) := by
  induction l with
  | nil => simp [Memory.zoneList]
  | cons a r ih =>
    unfold Memory.zoneList
    cases h : Memory.zone d a with
    | none => simp [h]
    | some x =>
      cases h2 : Memory.zoneList d r with
      | none =>
        rw [h2] at ih
        obtain ⟨j, hj, hj2⟩ := ih.1.1 rfl
        refine ⟨⟨fun _ => ⟨j, List.mem_cons_of_mem _ hj, hj2⟩, fun _ => rfl⟩, fun z hz => by simp at hz⟩
      | some m =>
        rw [h2] at ih
        refine ⟨⟨fun e => by simp at e, ?_⟩, fun z hz => ?_⟩
        · rintro ⟨j, hj, hj2⟩
          rcases List.mem_cons.1 hj with rfl | hj
          · rw [h] at hj2; cases hj2
          · exact absurd (ih.1.2 ⟨j, hj, hj2⟩) (by simp)
        · simp only [Option.some.injEq] at hz; subst hz
          intro k hk
          cases k with
          | zero => simp [h]
          | succ k => simpa using ih.2 m rfl k (by simpa using hk)

/-- A defect cap (R21): refused above 4, and else the grade of its code. -/
theorem Memory.cap_spec (d : Memory) (a : Nat) : (Memory.cap d a = none ↔ 4 < (Memory.read d a).toNat) ∧
    ∀ o, Memory.cap d a = some o → (o.getD .A).code = (Memory.read d a).toNat := by
  unfold Memory.cap Memory.byte
  generalize (Memory.read d a).toNat = n
  match n with
  | 0 => simp [Grade.ofCode?, Grade.code]
  | 1 => simp [Grade.ofCode?, Grade.code]
  | 2 => simp [Grade.ofCode?, Grade.code]
  | 3 => simp [Grade.ofCode?, Grade.code]
  | 4 => simp [Grade.ofCode?, Grade.code]
  | n + 5 => simp [Grade.ofCode?]

/-- A bias (R19): refused outside -32 to 31, and else the byte. -/
theorem Memory.bias_spec (d : Memory) (a : Nat) : (Memory.bias d a = none ↔ (Memory.read d a).toInt < -32 ∨ 31 <
    (Memory.read d a).toInt) ∧
    ∀ o, Memory.bias d a = some o → o.getD 0 = (Memory.read d a).toInt := by
  unfold Memory.bias
  simp only
  by_cases h : (Memory.read d a).toInt < -32 ∨ 31 < (Memory.read d a).toInt
  · rw [if_pos h]; simp [h]
  · rw [if_neg h]
    by_cases h0 : (Memory.read d a).toInt = 0
    · rw [if_pos h0]; simp [h0]
    · rw [if_neg h0]; refine ⟨⟨fun e => (by cases e), fun e => absurd e h⟩, ?_⟩; rintro o ⟨⟩; rfl

/-- The pass rules are the codes 0 to 3 (R30). -/
theorem PassRule.ofCode?_eq_none (n : Nat) : PassRule.ofCode? n = none ↔ 3 < n := by
  match n with
  | 0 | 1 | 2 | 3 => decide
  | n + 4 => simp [PassRule.ofCode?]

/-- The dispositions are the codes 0 to 5 (R32). -/
theorem Disp.ofCode?_eq_none (n : Nat) : Disp.ofCode? n = none ↔ 5 < n := by
  match n with
  | 0 | 1 | 2 | 3 | 4 | 5 => decide
  | n + 6 => simp [Disp.ofCode?]

/-- A disposition read has the code it was read from. -/
theorem Disp.code_of_ofCode? (n : Nat) (x : Disp) (h : Disp.ofCode? n = some x) : x.code = n := by
  match n with
  | 0 | 1 | 2 | 3 | 4 | 5 => revert x; decide
  | n + 6 => simp [Disp.ofCode?] at h

/-- A class entry (R20): void with its first byte 0, refused out of range, and else its fields as read. -/
theorem Memory.classEntry_spec (d : Memory) (a : Nat) :
    let byte (i : Nat) : Nat := (Memory.read d (a + i)).toNat
    (byte 0 = 0 → Memory.classEntry d a = some none) ∧
    (byte 0 ≠ 0 →
      (Memory.classEntry d a = none ↔ 100 < byte 1 ∨ byte 1 < byte 2 ∨ byte 2 < byte 3 ∨ 3 < byte 5 ∨ 5 < byte 6 ∨
        5 < byte 7 ∨ 5 < byte 8 ∨ 5 < byte 9 ∨ 5 < byte 10) ∧
      ∀ e, Memory.classEntry d a = some e → ∃ c, e = some c ∧
        c.tA = byte 1 ∧ c.tB = byte 2 ∧ c.tC = byte 3 ∧ c.spreadLimit = byte 4 ∧
        PassRule.ofCode? (byte 5) = some c.passRule ∧ c.dispA.code = byte 6 ∧ c.dispB.code = byte 7 ∧
        c.dispC.code = byte 8 ∧ c.dispD.code = byte 9 ∧ c.dispX.code = byte 10) := by
  intro byte
  unfold Memory.classEntry
  have hb : ∀ i, Memory.byte d (a + i) = byte i := fun _ => rfl
  have h0 : Memory.byte d a = byte 0 := rfl
  rw [h0]
  simp only [hb]
  refine ⟨fun h => by rw [if_pos h], fun h => ?_⟩
  rw [if_neg h]
  have p5 := PassRule.ofCode?_eq_none (byte 5)
  have d6 := Disp.ofCode?_eq_none (byte 6); have d7 := Disp.ofCode?_eq_none (byte 7); have d8 := Disp.ofCode?_eq_none
      (byte 8)
  have d9 := Disp.ofCode?_eq_none (byte 9); have d10 := Disp.ofCode?_eq_none (byte 10)
  have c6 := Disp.code_of_ofCode? (byte 6); have c7 := Disp.code_of_ofCode? (byte 7); have c8 := Disp.code_of_ofCode?
      (byte 8)
  have c9 := Disp.code_of_ofCode? (byte 9); have c10 := Disp.code_of_ofCode? (byte 10)
  cases h5 : PassRule.ofCode? (byte 5) with
  | none => simp [p5.1 h5]
  | some r =>
  have n5 : ¬ 3 < byte 5 := fun e => by rw [p5.2 e] at h5; cases h5
  cases h6 : Disp.ofCode? (byte 6) with
  | none => simp [d6.1 h6]
  | some x6 =>
  have n6 : ¬ 5 < byte 6 := fun e => by rw [d6.2 e] at h6; cases h6
  cases h7 : Disp.ofCode? (byte 7) with
  | none => simp [d7.1 h7]
  | some x7 =>
  have n7 : ¬ 5 < byte 7 := fun e => by rw [d7.2 e] at h7; cases h7
  cases h8 : Disp.ofCode? (byte 8) with
  | none => simp [d8.1 h8]
  | some x8 =>
  have n8 : ¬ 5 < byte 8 := fun e => by rw [d8.2 e] at h8; cases h8
  cases h9 : Disp.ofCode? (byte 9) with
  | none => simp [d9.1 h9]
  | some x9 =>
  have n9 : ¬ 5 < byte 9 := fun e => by rw [d9.2 e] at h9; cases h9
  cases h10 : Disp.ofCode? (byte 10) with
  | none => simp [d10.1 h10]
  | some x10 =>
  have n10 : ¬ 5 < byte 10 := fun e => by rw [d10.2 e] at h10; cases h10
  simp only
  by_cases hc : byte 1 ≤ 100 ∧ byte 2 ≤ byte 1 ∧ byte 3 ≤ byte 2
  · rw [if_pos hc]
    refine ⟨⟨fun e => (by cases e), fun e => (by omega)⟩, ?_⟩
    rintro e ⟨⟩
    exact ⟨_, rfl, rfl, rfl, rfl, rfl, rfl, c6 _ h6, c7 _ h7, c8 _ h8, c9 _ h9, c10 _ h10⟩
  · rw [if_neg hc]
    exact ⟨⟨fun _ => by omega, fun _ => rfl⟩, fun e he => by cases he⟩

/-- A zone (R68): not valid with VALID 0, refused out of range, and else its fields as read. -/
theorem Memory.zone_spec (d : Memory) (a : Nat) :
    let byte (i : Nat) : Nat := (Memory.read d (a + i)).toNat
    (byte 3 = 0 → ∃ z, Memory.zone d a = some z ∧ z.valid = false) ∧
    (byte 3 ≠ 0 →
      (Memory.zone d a = none ↔ 2048 ≤ Memory.nat d a 2 ∨ 1 < byte 2) ∧
      ∀ z, Memory.zone d a = some z → z.valid = true ∧ z.last = Memory.nat d a 2 ∧
        (z.kind = .pick ↔ byte 2 = 0) ∧ (z.kind = .reserve ↔ byte 2 = 1)) := by
  intro byte
  unfold Memory.zone
  have hb : ∀ i, Memory.byte d (a + i) = byte i := fun _ => rfl
  simp only [hb]
  refine ⟨fun h => ⟨_, by rw [if_pos h], rfl⟩, fun h => ?_⟩
  rw [if_neg h]
  generalize byte 2 = n
  generalize Memory.nat d a 2 = m
  by_cases hm : m < Config.bins
  · rw [if_pos hm]
    have hm' : m < 2048 := hm
    match n with
    | 0 => simp; omega
    | 1 => simp; omega
    | n + 2 => simp
  · rw [if_neg hm]
    have hm' : ¬ m < 2048 := hm
    simp; omega

/-- Two runs of bytes are disjoint when no byte is in both. -/
theorem disjointRuns_iff (a n b m : Nat) : disjointRuns (a, n) (b, m) = true ↔ ∀ x, a ≤ x → x < a + n → b ≤ x → x < b
    + m → False := by
  unfold disjointRuns runsOverlap
  simp only [Bool.not_eq_true', Bool.and_eq_false_iff, decide_eq_false_iff_not]
  constructor
  · rintro h x h1 h2 h3 h4
    omega
  · intro h
    by_contra hc
    have := h (max a b) (by omega) (by omega) (by omega) (by omega)
    exact this

/-- The checks of the areas and of the queue descriptors (R1, R103, R153), clause by clause. -/
theorem layoutChecks_spec (cb : Nat) (t : TablesRead) :
    let apart (a n b m : Nat) : Prop := ∀ x, a ≤ x → x < a + n → b ≤ x → x < b + m → False
    let rings : List (Nat × Nat) := queueIds.flatMap (fun q =>
      [(t.descs[q].ringBase, 64 + 16 * t.descs[q].capacity), (t.descs[q].viewBase, 16 * t.descs[q].capacity)])
    let areas : List AreaDesc := t.areas.toList.filter (·.valid)
    let items : Prop :=
      (∀ a ∈ areas, a.base % 64 = 0 ∧ 0 < a.slots ∧ a.slots ≤ 65536 ∧ a.base + 64 * a.slots ≤ 17179869184 ∧
        apart a.base (64 * a.slots) cb 20480 ∧ ∀ r ∈ rings, apart a.base (64 * a.slots) r.1 r.2) ∧
      areas.Pairwise (fun x y => apart x.base (64 * x.slots) y.base (64 * y.slots))
    let queues : Prop :=
      (∀ q : Fin 6,
        t.descs[q].capacity ∈ [16, 32, 64, 128, 256, 512, 1024, 2048, 4096] ∧ 1 ≤ t.descs[q].near ∧
        t.descs[q].near ≤ t.descs[q].capacity ∧ t.descs[q].ringBase % 64 = 0 ∧
        t.descs[q].viewBase % (16 * t.descs[q].capacity) = 0) ∧
      (queueIds.map (fun q => t.descs[q].capacity)).sum ≤ 8192 ∧
      (∀ r ∈ rings, r.1 + r.2 ≤ 17179869184 ∧ apart cb 20480 r.1 r.2) ∧
      rings.Pairwise (fun x y => apart x.1 x.2 y.1 y.2)
    (areasOk cb t.areas.toList t.descs = true ↔ items) ∧ (queuesOk cb t.descs = true ↔ queues) := by
  intro apart rings areas items queues
  have hr : queueRuns t.descs = rings := rfl
  have hd : ∀ x y : Nat × Nat, disjointRuns x y = true ↔ apart x.1 x.2 y.1 y.2 := fun x y => disjointRuns_iff x.1 x.2
      y.1 y.2
  constructor
  · unfold areasOk
    simp only [hr, Bool.and_eq_true, List.all_eq_true, decide_eq_true_eq, List.mem_map, forall_exists_index, and_imp,
      forall_apply_eq_imp_iff₂, List.pairwise_map, hd, withinSpace]
    constructor
    · rintro ⟨⟨⟨h1, h2⟩, h3⟩, h4⟩
      refine ⟨fun a ha => ?_, h3⟩
      obtain ⟨⟨a1, a2⟩, a3⟩ := h1 a ha
      exact ⟨a1, a2, a3, h2 a ha, (h4 a ha).1, fun r hr' => (h4 a ha).2 r hr'⟩
    · rintro ⟨h1, h3⟩
      exact ⟨⟨⟨fun a ha => ⟨⟨(h1 a ha).1, (h1 a ha).2.1⟩, (h1 a ha).2.2.1⟩, fun a ha => (h1 a ha).2.2.2.1⟩, h3⟩,
        fun a ha => ⟨(h1 a ha).2.2.2.2.1, (h1 a ha).2.2.2.2.2⟩⟩
  · unfold queuesOk
    simp only [hr, Bool.and_eq_true, List.all_eq_true, decide_eq_true_eq, hd, withinSpace, capacityOk,
        List.contains_eq_mem]
    have hq : ∀ q : Fin 6, q ∈ queueIds := by decide
    constructor
    · rintro ⟨⟨⟨⟨h1, h2⟩, h3⟩, h4⟩, h5⟩
      refine ⟨fun q => ?_, h2, fun r hr' => ⟨h3 r hr', h4 r hr'⟩, h5⟩
      obtain ⟨⟨⟨⟨a1, a2⟩, a3⟩, a4⟩, a5⟩ := h1 q (hq q)
      exact ⟨a1, a2, a3, a4, a5⟩
    · rintro ⟨h1, h2, h3, h5⟩
      exact ⟨⟨⟨⟨fun q _ => ⟨⟨⟨⟨(h1 q).1, (h1 q).2.1⟩, (h1 q).2.2.1⟩, (h1 q).2.2.2.1⟩, (h1 q).2.2.2.2⟩, h2⟩, fun r hr'
          => (h3 r hr').1⟩, fun r hr' => (h3 r hr').2⟩, h5⟩

/-- The first queue with a property is the lowest. -/
theorem find?_queueIds (f : Fin 6 → Bool) (q : Fin 6) : queueIds.find? f = some q ↔ f q = true ∧ ∀ p, p < q → f p =
    false := by
  simp only [queueIds, List.find?_cons, List.find?_nil]
  revert q
  cases e0 : f 0 <;> cases e1 : f 1 <;> cases e2 : f 2 <;> cases e3 : f 3 <;> cases e4 : f 4 <;> cases e5 : f 5 <;>
    (simp only [Fin.forall_fin_succ]; simp [*]; try decide)

/-- The first area with a property is the lowest. -/
theorem find?_areas (f : Fin 4 → Bool) (q : Fin 4) : ([0, 1, 2, 3] : List (Fin 4)).find? f = some q ↔ f q = true ∧ ∀
    p, p < q → f p = false := by
  simp only [List.find?_cons, List.find?_nil]
  revert q
  cases e0 : f 0 <;> cases e1 : f 1 <;> cases e2 : f 2 <;> cases e3 : f 3 <;>
    (simp only [Fin.forall_fin_succ]; simp [*]; try decide)

end Sys2Proof.Machine
end

