-- ==== Sys2Proof/Tests/Slice0.lean ====
section
/-! SUPPORT. Tests: what the check of well-formedness refuses, the spec's own worked values, and for every obligation with
hypotheses a state and operands that meet them, clause by clause. -/

namespace Sys2Proof.Machine.Test

/-! ## Well-formed and ill-formed commands -/

/-- A write request of given bytes, all enabled. -/
def wr (addr : Addr) (bytes : List Byte) : WriteReq :=
  { addr := addr, len := bytes.length, tag := 0, bytes := bytes.map some, mem := .ok }

/-- A read request. -/
def rd (addr : Addr) (len : Nat) : ReadReq := { addr := addr, len := len, tag := 0, mem := [] }

/-- A write whose enables do not fit its length. -/
def short : WriteReq := { wr 0 [1, 2, 3, 4, 5, 6, 7, 8] with len := 16 }

/-- Answers to the writes around a halt. -/
def answers : HaltAnswers :=
  { granted := 0, writeBack := .ok, queueWrite := .ok, imageWrite := .ok, cuWrite := .ok, resultWrite := .ok,
    echo := .ok }

theorem test_wf_accepts :
    (Instr.passWrite .A (wr 64 [1, 2, 3, 4, 5, 6, 7, 8])).wf = true ∧ (Instr.badRequest .B (.read (rd 3 5))).wf = true ∧
    (Instr.startRestore ⟨1, some (.ringEntry 5 4095)⟩).wf = true ∧ (Instr.startFresh ⟨1, some (.imageBlock 255)⟩).wf = true ∧
    (Instr.reload ⟨1, some (.table 7)⟩).wf = true ∧ (Instr.startFresh ⟨1, some .eventEnable⟩).wf = true ∧
    (Instr.halt .writeBack [1] answers).wf = true ∧ Instr.tick.wf = true := by decide

theorem test_wf_refuses_short_writes :
    (Instr.badRequest .A (.write short)).wf = false ∧ (Instr.passWrite .A short).wf = false ∧
    (Instr.itemPlainWrite .A short).wf = false ∧ (Instr.commandWrite .A short).wf = false ∧
    (Instr.viewWrite .A short).wf = false ∧ (Instr.ringWrite .A short).wf = false ∧
    (Instr.eventEnableWrite .A short).wf = false ∧ (Instr.cbTableWrite .A short).wf = false ∧
    (Instr.mailboxWrite .A short).wf = false := by decide

theorem test_wf_refuses_read_sites :
    (Instr.startFresh ⟨1, some (.table 0)⟩).wf = false ∧ (Instr.startFresh ⟨1, some (.table 8)⟩).wf = false ∧
    (Instr.startFresh ⟨1, some (.imageBlock 256)⟩).wf = false ∧ (Instr.startRestore ⟨1, some (.ringEntry 0 4096)⟩).wf = false ∧
    (Instr.startFresh ⟨1, some (.queueHeader 0)⟩).wf = false ∧ (Instr.startFresh ⟨1, some (.ringEntry 0 0)⟩).wf = false ∧
    (Instr.reload ⟨1, some .eventEnable⟩).wf = false ∧ (Instr.reload ⟨1, some (.imageBlock 0)⟩).wf = false := by decide

theorem test_wf_refuses_bytes_left_by_a_read :
    (Instr.halt .noticeFetch [1] answers).wf = false ∧ (Instr.halt (.takeRead 2) [1] answers).wf = false := by decide

theorem test_no_word_spells_a_command : decodeTableWord 16 1 = none ∧ State.reset.withFetchWord 16 1 = State.reset := by
  exact ⟨rfl, rfl⟩

/-! ## The worked values of the spec -/

/-- Class 5 of 2.4. -/
def knitwear : ClassEntry :=
  { tA := 85, tB := 70, tC := 50, spreadLimit := 15, passRule := .bothReq, dispA := .pick, dispB := .reserve,
    dispC := .outlet, dispD := .refurb, dispX := .vendor }

/-- The tables of 2.4. -/
def tables24 : Gu :=
  { classes := [(5, knitwear)], caps := [(12, .B), (21, .C), (40, .D), (55, .X)], bias := [(2, 3), (9, -4)] }

/-- A valid reading. -/
def reading (kind : PassKind) (station raw : Nat) : Reading := { valid := true, kind := kind, station := station, raw := raw }

theorem test_grading_first_garment :
    tables24.grade 5 [reading .surface 2 84, reading .detail 9 90] [3, 12, 0, 0, 0, 0]
      = .ok { score := 86, spread := 1, grade := .B, disp := .reserve, reason := .none } := by decide

theorem test_grading_second_garment :
    tables24.grade 5
        [reading .surface 2 98, reading .surface 2 60, reading .detail 9 77, { reading .surface 2 120 with valid := false }]
        [0, 0, 0, 0, 0, 0]
      = .ok { score := 78, spread := 37, grade := .B, disp := .hold, reason := .disagree } ∧
    tables24.grade 5
        [reading .surface 2 98, reading .surface 2 60, reading .detail 9 77, reading .surface 2 120] [0, 0, 0, 0, 0, 0]
      = .error .badReading := by decide

theorem test_grading_third_garment :
    tables24.grade 5 [reading .surface 9 70] [21, 21, 55, 0, 0, 0]
      = .ok { score := 66, spread := 0, grade := .X, disp := .hold, reason := .passMissing } := by decide

theorem test_grading_fourth_garment :
    tables24.grade 5 [reading .surface 9 2, reading .detail 9 30] [0, 0, 0, 0, 0, 0]
      = .ok { score := 13, spread := 26, grade := .D, disp := .hold, reason := .disagree } := by decide

/-- The bins of 4.9 at the start, with the list (7, PICK). -/
def bins49 : Bu :=
  { bins := [(210, { cls := 7, capacity := 6, occupied := 0, reserved := 0, state := .opened }),
             (215, { cls := 7, capacity := 4, occupied := 2, reserved := 1, state := .opened }),
             (230, { cls := 7, capacity := 10, occupied := 9, reserved := 0, state := .opened })]
    zones := [{ valid := true, last := 999, kind := .pick }, { valid := true, last := 1499, kind := .reserve },
              { valid := false, last := 0, kind := .pick }, { valid := true, last := 1799, kind := .pick }]
    avail := [(14, [215, 210, 230])], imageQueue := [], imageInFlight := none }

theorem test_bin_list_of_49 :
    let s0 : State := { State.reset with bu := bins49 }
    let s1 := (s0.reserveBin 7 .pick).2
    let s2 := (s1.reserveBin 7 .pick).2
    let s3 := (s2.reserveBin 7 .pick).2
    let s4 := s3.releaseBin 215
    let s5 := (s4.occupyBin 210).2
    let s6 := s5.markFullBin 210
    s1.bu.list 14 = [210, 230] ∧ s3.bu.list 14 = [210, 230] ∧ s4.bu.list 14 = [210, 230, 215] ∧
    s5.bu.list 14 = [210, 230, 215] ∧ s6.bu.list 14 = [230, 215] ∧ (s6.bu.bin 210).free = 5 ∧
    kindOf bins49.zones 999 = some .pick ∧ kindOf bins49.zones 1000 = some .reserve ∧
    kindOf bins49.zones 1799 = some .pick ∧ kindOf bins49.zones 1800 = none := by decide +kernel

/-- Queue 1 of 6.11 at the start. -/
def ring611 : QState :=
  { head := 14, tail := 2, count := 4, live := 4, lastTicket := 7004, appended := 500, taken := 490, voided := 6,
    positions := [(0, { state := .live, ticket := 7003, id := { area := 0, slot := 3 } }),
                  (1, { state := .live, ticket := 7004, id := { area := 0, slot := 4 } }),
                  (14, { state := .live, ticket := 7001, id := { area := 0, slot := 1 } }),
                  (15, { state := .live, ticket := 7002, id := { area := 0, slot := 2 } })],
    waiters := [] }

/-- A queue descriptor of CAPACITY 16. -/
def desc (q : Nat) : QDesc := { ringBase := 262144 + 4096 * q, viewBase := 524288 + 4096 * q, capacity := 16, near := 2 }

theorem test_ring_of_611 :
    viewParts (desc 1) ring611 16 16 = [.mem ((desc 1).entryAddr 15) 16] ∧
    viewParts (desc 1) ring611 80 16 = [.synth synthEntry] ∧
    (let v : QState :=
        { ring611 with positions := Map.ins 14 { state := .void, ticket := 7001, id := { area := 0, slot := 1 } }
                                      ring611.positions, live := 3, voided := 7 }
     let w := v.cleanHead 16
     w.head = 15 ∧ w.tail = 2 ∧ w.count = 3 ∧ w.live = 3 ∧ w.position 14 = none) := by decide +kernel

/-! ## States for the witnesses -/

/-- Area 0 at 65536 and trial area 1 at 131072, of four slots each, and six queues of CAPACITY 16. -/
def layout : Layout :=
  { areas := #v[{ base := 65536, slots := 4, trial := false, valid := true },
                { base := 131072, slots := 4, trial := true, valid := true },
                { base := 0, slots := 0, trial := false, valid := false },
                { base := 0, slots := 0, trial := false, valid := false }]
    descs := some #v[desc 0, desc 1, desc 2, desc 3, desc 4, desc 5] }

/-- A part with that layout in a mode, its bins as in 4.9 and its tables as in 2.4. -/
def inMode (m : Mode) : State :=
  { State.reset with layout := layout, gu := tables24, bu := bins49, cu := { State.reset.cu with mode := m } }

/-- The same in RUN. -/
def run : State := inMode .run

/-- Queue 1 as in 6.11, its tickets 7001 for a slot. -/
def withRing (id : SlotId) (s : State) : State :=
  s.setQueue 1 { ring611 with positions := Map.ins 14 { state := .live, ticket := 7001, id := id } ring611.positions }

/-- A slot of the ordinary area, and one of the trial area. -/
abbrev slotA : SlotId := { area := 0, slot := 1 }
abbrev slotT : SlotId := { area := 1, slot := 1 }

/-- A forwarded write over 64 bytes at an address. -/
def fwdAt (addr : Nat) (k : FwdKind) : FwdWrite := { addr := addr, len := 64, cells := [(addr, 7)], kind := k }

/-- A service of a command on a slot. -/
def svcOf (id : SlotId) (a : Nat) : Service := { entry := .command id, frozen := false, addr := some a }

/-- The record bytes of a command with a state, and two valid readings of class 5. -/
def recordCells (a cmd st : Nat) : Cells :=
  cellsAt (a + 6) [5, BitVec.ofNat 8 cmd] ++ cellsAt (a + 16) [33, 84, 147, 90] ++ cellsAt (a + 32) [BitVec.ofNat 8 st]
    ++ cellsAt (a + 41) [1] ++ cellsAt (a + 44) [14] ++ cellsAt (a + 48) [0x59, 0x1B]

/-- The item command unit serves a command on the slot at 65600 with its fetch made. -/
def serving (cmd st : Nat) : State :=
  { run with dram := Memory.writeCells [] (recordCells 65600 cmd st), icu := { run.icu with stage := .fetching (svcOf slotA 65600) } }

/-- The same on the trial slot at 131136. -/
def servingTrial (cmd st : Nat) : State :=
  { run with dram := Memory.writeCells [] (recordCells 131136 cmd st), icu := { run.icu with stage := .fetching (svcOf slotT 131136) } }

/-- A part that executes an operation whose mailbox block is read, in a mode. -/
def operating (m : Mode) (op arg0 : Nat) (arg1 : Byte) : State :=
  { inMode m with
    dram := Memory.writeCells [] (cellsAt 68 (leBytes 4 op) ++ cellsAt 72 (leBytes 4 arg0) ++ cellsAt 76 [arg1])
    cu := { (inMode m).cu with work := .reading } }

/-! ## The window decoder and the formats -/

/-- The first and the last byte of every range of the window decoder, and the bytes beside them (R131). -/
theorem test_witness_windows :
    [0, 63, 192, 20479].map run.classOf = [0, 63, 192, 20479].map Place.controlBlock ∧
    [64, 127].map run.classOf = [.mailbox, .mailbox] ∧ [128, 191].map run.classOf = [.event, .event] ∧
    [65536, 65599, 65600, 65791, 131072, 131327].map run.classOf
      = [.item ⟨0, 0⟩, .item ⟨0, 0⟩, .item ⟨0, 1⟩, .item ⟨0, 3⟩, .item ⟨1, 0⟩, .item ⟨1, 3⟩] ∧
    [262144, 262463, 282624, 282943].map run.classOf = [.ring 0 0, .ring 0 319, .ring 5 0, .ring 5 319] ∧
    [524288, 524543, 544768, 545023].map run.classOf = [.view 0 0, .view 0 255, .view 5 0, .view 5 255] ∧
    (∀ x ∈ [20480, 65535, 65792, 131071, 131328, 262143, 262464, 282943 + 1, 524287, 524544, 545024],
      run.classOf x = .outside) ∧
    (∀ x ∈ [65536, 262144, 524288], (inMode .init).classOf x = .outside) ∧
    (let s : State := { run with cu := { run.cu with cbsel := 1 } }
     s.cbBase = 67108864 ∧ s.classOf 64 = .outside ∧ s.classOf 67108928 = .mailbox) ∧
    layout.slotAddr ⟨0, 0⟩ = some 65536 ∧ layout.slotAddr ⟨1, 3⟩ = some 131264 ∧ layout.slotAddr ⟨1, 4⟩ = none ∧
    layout.isTrial ⟨0, 0⟩ = false ∧ layout.isTrial ⟨1, 3⟩ = true ∧ layout.isTrial ⟨7, 0⟩ = false := by
  decide +kernel

/-- A record as a fetch takes it, its fields within their ranges and out of them (R177). -/
theorem test_records_read_back :
    let at0 (l : List (Nat × Byte)) : Rec := Memory.record (Memory.writeCells [] l) 0
    (let r := at0 [(0, 1), (5, 2), (7, 3), (8, 1), (9, 2), (15, 0xFF), (22, 0xF3), (23, 0xFF), (32, 7), (34, 4), (37, 3), (38, 15),
        (41, 5), (42, 255), (43, 7), (45, 1), (47, 1), (51, 1)]
     r.tag = 2199023255553 ∧ r.cmd = 3 ∧ r.cmdArg = 513 ∧ r.defects = [0, 0, 0, 0, 0, 63] ∧
     r.readings[3]? = some { valid := true, kind := .detail, station := 15, raw := 127 } ∧ r.state = .trialed ∧
     r.grade = .X ∧ r.disp = .pick ∧ r.regrades = 3 ∧ r.queue = some 5 ∧ r.bin = 2047 ∧ r.ringIndex = 256 ∧
     r.served = 256 ∧ r.ticket = 16777216) ∧
    (let r := at0 [(32, 8), (34, 5), (35, 6), (37, 4), (41, 6)]
     r.state = .empty ∧ r.grade = .X ∧ r.disp = .reserve ∧ r.regrades = 3 ∧ r.queue = none) := by
  decide +kernel

/-- The other formats of 12.2 to 12.4, byte by byte. -/
theorem test_formats_read_back :
    (let d := Memory.writeCells [] (cellsAt 64 [1, 0, 0, 0, 2, 0, 0, 0, 3, 0, 0, 0, 4, 0, 0, 0])
     Memory.mailbox d 0 = { seq := 1, op := 2, arg0 := 3, arg1 := 4 }) ∧
    (let v : QState := { ring611 with positions := [] }
     headerBytes v = [14, 0, 2, 0, 4, 0, 4, 0, 0x5C, 0x1B, 0, 0, 0xF4, 1, 0, 0, 0xEA, 1, 0, 0, 6, 0, 0, 0]
       ++ List.replicate 24 0 ∧
     Memory.header (Memory.writeCells [] (cellsAt 0 (headerBytes v))) 0
       = { head := 14, tail := 2, count := 4, live := 4, lastTicket := 7004, appended := 500, taken := 490, voided := 6 }) ∧
    Memory.entry (Memory.writeCells [] (cellsAt 0 [5, 0, 0, 0, 0x1D, 0, 0xF0, 0xFF])) 0
      = { ticket := 5, state := 1, id := { area := 3, slot := 1 }, bin := 4095 } ∧
    (let b : Bin := { cls := 7, capacity := 6, occupied := 5, reserved := 1, state := .locked }
     binImageBytes b = [7, 2, 6, 0, 5, 0, 1, 0] ∧
     Memory.binImage (Memory.writeCells [] (cellsAt 0 (binImageBytes b))) 0
       = { cls := 7, state := 2, capacity := 6, occupied := 5, reserved := 1 }) ∧
    eventBlockBytes { Eu.reset with pending := 2049, mask := 2 }
      = [1, 8, 0, 0, 0, 0, 0, 0, 2] ++ List.replicate 55 0 := by
  decide +kernel

/-! ## Witnesses: requests -/

/-- A port with requests outstanding. -/
def withA (l : List Outstanding) (s : State) : State := s.setPort .A { outstanding := l, returned := [] }

/-- A request that waits, and one that is held. -/
def waitingOne : Outstanding := { req := .read (rd 0 8), twin := false, stage := .waiting }
def heldOne (t : Fin 8) : Outstanding := { req := .read { rd 65600 8 with tag := t }, twin := false, stage := .held (.busySlot slotA) }

/-- A request accepted while its tag was listed (R128). -/
def twinOne : Outstanding := { waitingOne with twin := true }

theorem test_witness_steps : State.reset.pending = [] ∧ (State.resetWith 0 true [] []).cu.work = .autoload ∧
    Memory.wf [] = true ∧ (∃ t, step { run with pending := [.tick] } = .next t) := ⟨rfl, rfl, rfl, _, rfl⟩

theorem test_witness_invariants :
    (withA (List.replicate 8 waitingOne)
      { run with fwd := List.replicate 8 (fwdAt 0 .posted), ma := { Arbiter.reset with order := List.replicate 8 .forwarded } }).withinLimits ∧
    State.queueLimits { run with icu := { run.icu with cq := List.replicate 24 (.expiry slotA 1) } } ∧
    (State.haltedHoldsNothing { State.reset with cu := { State.reset.cu with mode := .halted } }) := by
  refine ⟨?_, ?_, ?_⟩
  · simp only [State.withinLimits, State.forwardCovers]; decide +kernel
  · simp only [State.queueLimits]; decide +kernel
  · refine ⟨?_, fun _ => ?_⟩
    · intro r h; exact absurd (show CuWork.idle = .result r from h) (by simp)
    · decide +kernel

theorem test_witness_ports :
    let a := withA [waitingOne] run
    let b := run.setPort .B { outstanding := [waitingOne], returned := [] }
    let ab := withA [waitingOne] b
    (a.portA.ready = true ∧ a.portB.ready = false) ∧ (b.portA.ready = false ∧ b.portB.ready = true) ∧
    (ab.portA.ready = true ∧ ab.portB.ready = true) ∧ (run.portA.ready = false ∧ run.portB.ready = false) := by
  decide +kernel

theorem test_witness_waiting_requests :
    8 ≤ ((withA (List.replicate 8 waitingOne) run).port .A).outstanding.length ∧
    (let s := withA [heldOne 0, heldOne 1, heldOne 2, heldOne 3, heldOne 4, heldOne 5, heldOne 6] run
     s.settled ∧ (s.port .A).outstanding.length < 8 ∧ headRequest (s.port .A).outstanding = some (heldOne 0)) := by
  simp only [State.settled]; decide +kernel

theorem test_witness_memory_arbiter :
    let m (last : Side) (own : List OwnReq) (order : List Grant) : Arbiter :=
      { last := last, own := own, order := order, found := [] }
    let w : Grant := .forwarded
    let f (o : List Grant) : Memory := [(o.length, 1)]
    let saw (l : List (OwnReq × Memory)) (a : Arbiter) : Arbiter := { a with found := l }
    ((m .own [.fetch] []).sent < 1 ∧ (m .own [.fetch] []).last = .own) ∧
    ((m .forwarded [.fetch] []).own ≠ [] ∧ (m .forwarded [.fetch] []).last = .forwarded) ∧
    ((m .own [] [w]).own = [] ∧ 1 ≤ (m .own [] [w]).sent) ∧
    ((m .own [.fetch, .result] []).sent ≤ 2 ∧ 0 < 2) ∧
    ((m .own [.fetch, .result] []).grantOwn f 2 .result = saw [(.fetch, f [w])] (m .own [] [w, w, .own .result])) ∧
    ((m .forwarded [.fetch, .result] []).grantOwn f 2 .fetch = saw [(.fetch, f [])] (m .own [.result] [])) ∧
    ((m .own [.fetch, .result] []).grantWrite f 2 = m .forwarded [.fetch, .result] [w]) ∧
    ((m .forwarded [.queueWrite, .fetch, .result] []).grantMany f 2 2
      = saw [(.fetch, f [.own .queueWrite, w])] (m .own [.result] [.own .queueWrite, w])) ∧
    ((m .own [.fetch, .result] []).grantRead f 1 = saw [(.fetch, f [w])] (m .forwarded [.result] [w])) ∧
    ((m .own [.imageWrite] []).grantRead f 1 = m .forwarded [] [w, .own .imageWrite]) ∧
    ((m .own [] []).grantRead f 0 = m .forwarded [] []) ∧
    ((m .forwarded [.fetch] [w, w]).grantRead f 1 = saw [(.fetch, f [w, w])] (m .forwarded [] [w, w])) ∧
    ((m .own [.fetch] [w, w]).grantRead f 1 = m .forwarded [.fetch] [w, w]) := by
  decide

theorem test_witness_illegal_requests :
    run.portFree .A ∧ illegal false 0 9 = true ∧ illegal false 4 8 = true ∧ illegal true 8 8 = true ∧
    illegal (tagListed [heldOne 3] 3) 8 8 = true ∧ illegal (tagListed [heldOne 3] 2) 8 8 = false ∧
    illegal (tagListed (run.port .A).outstanding 0) 0 9 = true ∧ illegal false 64 64 = false ∧
    (let r : WriteReq := { wr 65600 [] with len := 8, bytes := List.replicate 8 none }
     illegal (tagListed (run.port .A).outstanding r.tag) r.addr r.len = false ∧ writeCellsOf r = [] ∧
     ((inMode .halted).classOf r.addr.toNat).isWatchedArea = true ∧ (inMode .halted).portFree .A) := by
  simp only [State.portFree, State.settled]; decide +kernel

theorem test_witness_twins :
    (let s := withA [{ heldOne 1 with stage := okDone 1 }, twinOne, heldOne 2] run
     headRequest (s.port .A).outstanding = some twinOne ∧ twinOne.twin = true ∧
     ∃ l r, (s.port .A).outstanding = l ++ twinOne :: r ∧ ∀ x ∈ l, x.stage.undispatched = false) ∧
    (tagListed [heldOne 3] 3 = true ∧ tagListed [heldOne 3] 4 = false) :=
  ⟨⟨rfl, rfl, [_], _, rfl, by decide⟩, by decide⟩

theorem test_witness_pass_reads :
    (inMode .init).cu.mode = .init ∧ run.portFree .A ∧ legalRead .A (rd 32768 64) run ∧
    run.classOf 32768 = .outside ∧ run.classOf 64 = .mailbox ∧ run.classOf 4096 = .controlBlock 4096 ∧
    run.classOf 0 = .controlBlock 0 ∧ run.classOf 20479 = .controlBlock 20479 ∧ run.classOf 20480 = .outside ∧
    overlapsForward run.fwd 32768 64 = false ∧
    (let s : State := { run with fwd := [fwdAt 32768 .posted] }
     s.portFree .A ∧ overlapsForward s.fwd 32768 64 = true) := by
  simp only [State.portFree, State.settled, legalRead]; decide +kernel

theorem test_witness_pass_writes :
    let r := wr 32768 [1, 2, 3, 4, 5, 6, 7, 8]
    let s (n : Nat) : State := { run with fwd := List.replicate n (fwdAt 40960 .posted) }
    let tb : Tables :=
      { deadline := 600, ticketImage := 0, classes := [], caps := [], bias := [], zones := [], areas := layout.areas,
        descs := #v[desc 0, desc 1, desc 2, desc 3, desc 4, desc 5] }
    let t : State := { run with cu := { run.cu with work := (.reloadSwitch 0 tb) } }
    ((s 8).portFree .A ∧ legalWrite .A r (s 8) ∧ (s 8).classOf r.addr.toNat = .outside ∧ (s 8).postingStopped = false ∧
      8 ≤ (s 8).buffered) ∧
    ((s 7).portFree .A ∧ legalWrite .A r (s 7) ∧ (s 7).classOf r.addr.toNat = .outside ∧ (s 7).buffered < 8) ∧
    (t.portFree .A ∧ legalWrite .A r t ∧ t.classOf r.addr.toNat = .outside ∧ t.postingStopped = true) := by
  simp only [State.portFree, State.settled, legalWrite]; decide +kernel

/-- A part whose slot A is busy, and one whose CQ has its 16 commands. -/
def busyA : State := { run with icu := { run.icu with cq := [.command slotA] } }
def fullCq : State := { run with icu := { run.icu with cq := List.replicate 16 (.command { area := 0, slot := 3 }) } }

theorem test_witness_item_requests :
    let r := rd 65600 64
    let w := wr 65600 [1, 2, 3, 4, 5, 6, 7, 0]
    let d := wr 65632 [1, 2, 3, 4, 5, 6, 7, 8]
    (run.portFree .A ∧ legalRead .A r run ∧ run.classOf r.addr.toNat = .item slotA ∧ run.cu.mode ≠ .halted ∧
      run.busy slotA = false ∧ overlapsForward run.fwd r.addr.toNat r.len = false) ∧
    ((inMode .halted).portFree .A ∧ (inMode .halted).classOf r.addr.toNat = .item slotA) ∧
    (busyA.portFree .A ∧ busyA.classOf r.addr.toNat = .item slotA ∧ busyA.busy slotA = true) ∧
    (let s : State := { run with fwd := [fwdAt 65600 .posted] }
     s.portFree .A ∧ s.busy slotA = false ∧ overlapsForward s.fwd r.addr.toNat r.len = true) ∧
    (legalWrite .A w run ∧ run.classOf w.addr.toNat = .item slotA ∧ carriesCommand w = false ∧ hostCells w ≠ []) ∧
    (legalWrite .A d run ∧ run.classOf d.addr.toNat = .item slotA ∧ carriesCommand d = false ∧ hostCells d = []) := by
  simp only [State.portFree, State.settled, legalRead, legalWrite]; decide +kernel

theorem test_witness_command_writes :
    let r := wr 65600 [1, 2, 3, 4, 5, 6, 5, 1]
    (run.portFree .A ∧ legalWrite .A r run ∧ run.classOf r.addr.toNat = .item slotA ∧ carriesCommand r = true ∧
      run.busy slotA = false) ∧
    (fullCq.portFree .A ∧ fullCq.busy slotA = false ∧ 16 ≤ fullCq.commandPlaces) ∧
    (let s : State := { run with icu := { run.icu with
        cq := List.replicate 15 (.command { area := 0, slot := 3 }) ++ List.replicate 8 (.expiry slotA 1) } }
     s.portFree .A ∧ s.busy slotA = false ∧ s.commandPlaces < 16 ∧ s.places < 24) ∧
    (let s : State := { run with icu := { run.icu with cq := List.replicate 24 (.expiry slotA 1) } }
     s.portFree .A ∧ s.busy slotA = false ∧ s.commandPlaces < 16 ∧ 24 ≤ s.places) := by
  simp only [State.portFree, State.settled, legalWrite]; decide +kernel

theorem test_witness_ring_reads :
    let ring : Nat := 266240
    (∀ p ∈ [(48, 8), (56, 8), (32, 32), (0, 64)],
      p.1 < 64 ∧ 48 < p.1 + p.2 ∧ ¬(p.1 = 48 ∧ p.2 = 16) ∧ run.classOf (ring + p.1) = .ring 1 p.1 ∧
      illegal false (BitVec.ofNat 34 (ring + p.1)) p.2 = false) ∧
    (∀ p ∈ [(40, 8), (32, 16), (0, 32), (64, 64), (312, 8)],
      (64 ≤ p.1 ∨ p.1 + p.2 ≤ 48) ∧ run.classOf (ring + p.1) = .ring 1 p.1 ∧
      (inMode .halted).classOf (ring + p.1) = .ring 1 p.1 ∧ illegal false (BitVec.ofNat 34 (ring + p.1)) p.2 = false) ∧
    run.classOf (ring + 320) = .outside ∧
    (let s : State := { run with fwd := [fwdAt 266240 (.plain .B .ok), fwdAt 0 .posted] }
     overlapsForward s.fwd 266240 8 = true) := by
  decide +kernel

theorem test_witness_take_reads :
    let r := rd 266288 16
    (run.portFree .A ∧ legalRead .A r run ∧ run.classOf r.addr.toNat = .ring 1 48 ∧ r.len = 16 ∧
      (run.queue 1).takeInProgress = false ∧ (run.queue 1).count = 0) ∧
    ((inMode .halted).portFree .A ∧ (inMode .halted).classOf r.addr.toNat = .ring 1 48) ∧
    (let s := withRing slotA run
     s.portFree .A ∧ (s.queue 1).takeInProgress = false ∧ 0 < (s.queue 1).count ∧ s.places < 24 ∧
     (s.queue 1).position (s.queue 1).head = some { state := .live, ticket := 7001, id := slotA }) ∧
    (let s := withRing slotA { run with icu := { run.icu with cq := List.replicate 24 (.expiry slotA 1) } }
     s.portFree .A ∧ (s.queue 1).takeInProgress = false ∧ 0 < (s.queue 1).count ∧ 24 ≤ s.places) ∧
    (let s := run.setQueue 1 { ring611 with positions := [(14, { state := .taking, ticket := 7001, id := slotA })] }
     s.portFree .A ∧ s.classOf r.addr.toNat = .ring 1 48 ∧ (s.queue 1).takeInProgress = true) := by
  simp only [State.portFree, State.settled, legalRead]; decide +kernel

theorem test_witness_views :
    let r := rd 528384 16
    (3 < ring611.count ∧ ring611.count ≤ 4) ∧
    (run.portFree .A ∧ legalRead .A r run ∧ run.classOf r.addr.toNat = .view 1 0 ∧ run.desc? 1 = some (desc 1) ∧
      lastOverlap (viewParts (desc 1) (run.queue 1) 0 r.len) run.fwd = 0 ∧ run.classOf 528639 = .view 1 255) ∧
    (inMode .halted).classOf r.addr.toNat = .view 1 0 ∧
    (let s := withRing slotA { run with fwd := [fwdAt 266496 .posted] }
     s.portFree .A ∧ 0 < lastOverlap (viewParts (desc 1) (s.queue 1) 0 r.len) s.fwd) ∧
    (let w := wr 528384 [1, 2, 3, 4, 5, 6, 7, 8]
     legalWrite .A w run ∧ run.classOf w.addr.toNat = .view 1 0) ∧
    (let w := wr 266240 [1, 2, 3, 4, 5, 6, 7, 8]
     legalWrite .A w run ∧ run.classOf w.addr.toNat = .ring 1 0) := by
  simp only [State.portFree, State.settled, legalRead, legalWrite]; decide +kernel

theorem test_witness_control_block :
    (run.portFree .A ∧ legalRead .A (rd 128 16) run ∧ run.classOf 128 = .event ∧ (128 : Nat) = run.cbBase + 128 ∧
      legalRead .A (rd 136 8) run ∧ run.classOf 136 = .event ∧ run.classOf 191 = .event) ∧
    (let w : WriteReq := { wr 128 [] with len := 8, bytes := [some 1, some 2, some 3, some 4, none, none, none, none] }
     legalWrite .A w run ∧ (writeCellsOf w).filter (fun c => decide (run.cbBase + 132 ≤ c.1)) = []) ∧
    (let w := wr 136 [1, 2, 3, 4, 5, 6, 7, 8]
     legalWrite .A w run ∧ run.classOf w.addr.toNat = .event ∧
     (writeCellsOf w).filter (fun c => decide (run.cbBase + 132 ≤ c.1)) ≠ []) ∧
    (let w := wr 320 [1, 2, 3, 4, 5, 6, 7, 8]
     legalWrite .A w run ∧ run.classOf w.addr.toNat = .controlBlock 320 ∧
     (writeCellsOf w).filter (fun c => !partOwns run.cu.mode (c.1 - run.cbBase)) = [] ∧
     (writeCellsOf w).filter (fun c => !partOwns (inMode .init).cu.mode (c.1 - run.cbBase)) ≠ []) ∧
    (let w := wr 8 [1, 2, 3, 4, 5, 6, 7, 8]
     legalWrite .A w run ∧ run.classOf w.addr.toNat = .controlBlock 8 ∧
     (writeCellsOf w).filter (fun c => !partOwns run.cu.mode (c.1 - run.cbBase)) = [(12, 5), (13, 6), (14, 7), (15, 8)]) := by
  simp only [State.portFree, State.settled, legalRead, legalWrite]; decide +kernel

theorem test_witness_mailbox_writes :
    let w := wr 64 [1, 0, 0, 0, 6, 0, 0, 0]
    let o := wr 80 [1, 2, 3, 4, 5, 6, 7, 8]
    let kept (r : WriteReq) : Cells :=
      (writeCellsOf r).filter (fun c => !(decide (80 ≤ c.1 - run.cbBase) && decide (c.1 - run.cbBase < 92)))
    (legalWrite .A w run ∧ run.classOf w.addr.toNat = .mailbox ∧ run.cu.work = .idle ∧
      run.operationWritePending = false ∧ kept w ≠ [] ∧ startsOperation run.cbBase (kept w) = true) ∧
    (legalWrite .A o run ∧ run.classOf o.addr.toNat = .mailbox ∧ kept o = []) ∧
    ((operating .run 6 0 0).portFree .A ∧ (operating .run 6 0 0).cu.work ≠ .idle) ∧
    (let s : State := { run with fwd := [fwdAt 64 (.mailbox .B true)] }
     s.portFree .A ∧ s.operationWritePending = true) ∧
    startsOperation run.cbBase (kept (wr 64 [1, 0, 0, 0, 0, 0, 0, 0])) = false ∧
    startsOperation run.cbBase (kept (wr 64 [1, 0, 0, 0, 0, 0, 0, 1])) = true ∧
    startsOperation run.cbBase [(68, 1), (69, 0), (70, 0)] = false := by
  simp only [State.portFree, State.settled, legalWrite]; decide +kernel

/-- Reads at port A behind two, one and no forwarded writes, and a write; the last of them has the lowest turn. -/
def readingA : State :=
  let r (n older turn : Nat) : Outstanding :=
    { req := .read (rd 65600 8), twin := false, stage := .reading (wholeRead (rd 65600 8)) n older turn }
  withA [r 2 2 1, r 1 1 2, { req := .write (wr 0 [1]), twin := false, stage := .writing }, r 0 0 0]
    { run with fwd := [fwdAt 65600 .posted, fwdAt 65600 .posted] }

theorem test_witness_forwarded_reads :
    readingA.withinLimits ∧ readingA.firstTurn = some 0 ∧ run.firstTurn = none ∧ 0 < readingA.nextTurn ∧
    ((readingA.serveReads.port .A).outstanding.map (fun o => (o.stage.isFree, o.stage == .writing))
      = [(false, false), (false, false), (false, true), (false, false)]) ∧
    (readingA.serveReads.port .A).outstanding[0]?.map (·.stage) = some (.reading (wholeRead (rd 65600 8)) 1 1 1) ∧
    (readingA.serveReads.port .A).outstanding[1]?.map (·.stage) = some (okData 0 [0, 0, 0, 0, 0, 0, 0, 0]) ∧
    (let o : Outstanding := { req := .read (rd 65600 8), twin := false, stage := .reading (wholeRead (rd 65600 8)) 0 1 3 }
     ((withA [o] run).port .A).outstanding = [] ++ o :: [] ∧ o.stage = .reading (wholeRead (rd 65600 8)) 0 1 3) := by
  refine ⟨?_, ?_⟩
  · simp only [State.withinLimits, State.forwardCovers]; decide +kernel
  · decide +kernel

/-- A read that waited for a write is granted behind the writes dispatched before it: the write posted after it keeps its
place, unless it had been granted already, and then the read finds its data (R139, R141). -/
theorem test_read_goes_before_younger_writes :
    let one : Outstanding :=
      { req := .read (rd 65600 8), twin := false, stage := .reading (wholeRead (rd 65600 8)) 1 1 1 }
    let w (x : Byte) : FwdWrite := { fwdAt 65600 .posted with cells := [(65600, x)] }
    let s (sent : Nat) : State :=
      withA [one] { run with fwd := [w 1, w 2], ma := { Arbiter.reset with order := List.replicate sent .forwarded } }
    let after (sent : Nat) : State := (s sent).answerForward [(65600, 1)] .ok
    (after 0).fwd = [w 2] ∧ (after 0).ma.order = [] ∧ (after 0).memory = [(65600, 1)] ∧
    (after 0).portA.outstanding.map (·.stage) = [okData 0 [1, 0, 0, 0, 0, 0, 0, 0]] ∧
    (after 2).ma.order = [.forwarded] ∧ (after 2).memory = [(65600, 2)] ∧
    (after 2).portA.outstanding.map (·.stage) = [okData 0 [2, 0, 0, 0, 0, 0, 0, 0]] := by
  decide +kernel

/-- A header write of Q1 in flight whose first bytes are at 32768, a PASS write of those bytes at the forwarded side, and both
granted, in an order. -/
def bothGranted (order : List Grant) : State :=
  let w : FwdWrite := { fwdAt 32768 .posted with cells := [(32768, 2), (32769, 2)] }
  { run with fwd := [w], ma := { Arbiter.reset with order := order },
             qu := { run.qu with inFlight := some { item := .header 1, cells := [(32768, 1), (32770, 1)] } } }

/-- Two writes of one byte granted and answered in either order leave what the one granted last writes, and a read between finds
it; each overtaken write stands in the order until the one before it is answered (R141). -/
theorem test_writes_go_in_the_order_of_their_grants :
    let first := bothGranted [.own .queueWrite, .forwarded]
    let last := bothGranted [.forwarded, .own .queueWrite]
    let pass (s : State) : State := s.answerForward [(32768, 2), (32769, 2)] .ok
    let queue (s : State) : State := s.ownWrite .queueWrite [(32768, 1), (32770, 1)] .ok
    let all (b : Byte) : Memory := [(32768, b), (32769, 2), (32770, 1)]
    (first.memory = all 2 ∧ (pass first).dram = [(32768, 2), (32769, 2)] ∧ (pass first).memory = all 2 ∧
      (pass first).ma.order = [.own .queueWrite, .done [(32768, 2), (32769, 2)]] ∧
      (queue (pass first)).dram = all 2 ∧ (queue (pass first)).ma.order = [] ∧
      (queue first).dram = [(32768, 1), (32770, 1)] ∧ (queue first).memory = all 2 ∧ (pass (queue first)).dram = all 2) ∧
    (last.memory = all 1 ∧ (queue last).dram = [(32768, 1), (32770, 1)] ∧ (queue last).memory = all 1 ∧
      (pass (queue last)).dram = all 1 ∧ (pass (queue last)).ma.order = [] ∧
      (pass last).memory = all 1 ∧ (queue (pass last)).dram = all 1) := by
  decide +kernel

/-- A take read at port A that waits at queue 1. -/
def takeAtA : Outstanding := { req := .read { rd 266288 16 with tag := 4 }, twin := false, stage := .atQueue 1 }

/-- The item command unit serves a notice, the record of slot A in a state. -/
def noticing (e : CqEntry) (addr : Option Nat) (st : Nat) : State :=
  { serving 0 st with icu := { run.icu with stage := .fetching { entry := e, frozen := false, addr := addr } } }

/-- A take of Q1 whose ring read waits for its grant ahead of the fetch of its notice, a posted write, and a plain write of the
entry's first byte behind it; DRAM holds 5 there. -/
def takeBesideWrite : State :=
  let s : State := withA [{ takeAtA with stage := .taking 1 }] (noticing (.take slotA 1 7001) (some 65600) 2)
  { s.setQueue 1 { ring611 with positions := [(14, { state := .taking, ticket := 7001, id := slotA })] } with
    dram := [(266528, 5)]
    fwd := [fwdAt 32768 .posted, { fwdAt 266528 (.plain .B .ok) with cells := [(266528, 9)] }]
    ma := { last := .forwarded, own := [.takeRead 1, .fetch], order := [], found := [] } }

/-- The state after a command. -/
def afterExec (i : Instr) (s : State) : State :=
  match exec i s with
  | .next t => t
  | _ => s

/-- A ring read that is granted on the way to a fetch returns the entry as its grant found it, although a write granted and
answered between has changed DRAM (R141). -/
theorem test_take_returns_what_its_grant_found :
    let s1 := afterExec .takeNotice takeBesideWrite
    let s2 := afterExec (.postedWriteDrain .ok) s1
    let s3 := afterExec (.takeComplete 1) s2
    (s1.ma.found? (.takeRead 1) = some [(266528, 5)] ∧ s1.ma.found? .fetch = none ∧ OwnReq.takeRead 1 ∉ s1.ma.own) ∧
    (s2.fwd = [] ∧ Memory.read s2.dram 266528 = 9 ∧ Memory.read s2.memory 266528 = 9 ∧
      s2.readBy (.takeRead 1) = [(266528, 5)]) ∧
    (s3.portA.returned.map (·.data) = [[5, 0, 0, 0, 0, 0, 0, 0, 0, 0, 0, 0, 0, 0, 0, 0]] ∧ s3.ma.found = []) := by
  decide +kernel

theorem test_witness_reads_of_the_part :
    takeBesideWrite.withinLimits ∧ takeBesideWrite.ma.own.Nodup ∧ OwnReq.fetch ∈ takeBesideWrite.ma.own ∧
    OwnReq.takeRead 1 ∈ takeBesideWrite.ma.own ∧ takeBesideWrite.ma.found? .fetch = none ∧
    takeBesideWrite.ma.found? (.takeRead 1) = none := by
  simp only [State.withinLimits, State.forwardCovers]; decide +kernel

theorem test_witness_performed :
    let c : Cells := [(32768, 2)]
    let s : State := bothGranted [.own .queueWrite, .forwarded, .done c]
    (s.ma.order = [.own .queueWrite] ++ .forwarded :: [.done c] ∧ Grant.forwarded ∉ [Grant.own .queueWrite]) ∧
    Grant.own .result ∉ s.ma.order ∧ (∀ x ∈ (bothGranted []).ma.order, ∀ k, x ≠ .done k) := by
  refine ⟨⟨rfl, by decide⟩, by decide, fun x hx => absurd hx (by simp [bothGranted])⟩

theorem test_witness_granted_writes :
    let b (order : List Grant) : State :=
      { run with icu := { run.icu with stage := .writeBack (svcOf slotA 65600) [(65632, 1)] [] },
                 ma := { Arbiter.reset with order := order } }
    ((b [.own .writeBack]).ownCells .writeBack = [(65632, 1)] ∧ Memory.read (b [.own .writeBack]).memory 65632 = 1 ∧
      Memory.read (b [.own .writeBack]).dram 65632 = 0) ∧
    Memory.read (b []).memory 65632 = 0 := by
  decide +kernel

theorem test_witness_forwarded_writes :
    (let s : State := { run with fwd := [fwdAt 65600 (.plain .A .ok)] }
     ∃ w r, s.fwd = w :: r ∧ w.kind = .plain .A .ok) ∧
    (let s : State := { run with fwd := [fwdAt 128 (.eventEnable .B (.fault []))] }
     ∃ w r, s.fwd = w :: r ∧ w.kind = .eventEnable .B (.fault [])) ∧
    (let s : State := { run with fwd := [fwdAt 0 .posted] }
     ∃ w r, s.fwd = w :: r ∧ w.kind = .posted) ∧
    (let s := withA [heldOne 0, { req := .write (wr 0 [1]), twin := false, stage := .writing }] run
     ∃ l o r, (s.port .A).outstanding = l ++ o :: r ∧ (∀ x ∈ l, x.stage ≠ .writing) ∧ o.stage = .writing) :=
  ⟨⟨_, _, rfl, rfl⟩, ⟨_, _, rfl, rfl⟩, ⟨_, _, rfl, rfl⟩, [heldOne 0], _, _, rfl, by decide, rfl⟩

theorem test_witness_completions :
    (let s : State := { run with fwd := [fwdAt 65600 (.command .A slotA)], icu := { run.icu with given := [slotA] } }
     s.queueLimits ∧ ∃ w r, s.fwd = w :: r ∧ w.kind = .command .A slotA) ∧
    (∃ w r, ({ run with fwd := [fwdAt 65600 (.abandoned .A)] } : State).fwd = w :: r ∧ w.kind = .abandoned .A) ∧
    (∃ w r, ({ run with fwd := [fwdAt 64 (.mailbox .A true)] } : State).fwd = w :: r ∧ w.kind = .mailbox .A true) := by
  refine ⟨⟨?_, _, _, rfl, rfl⟩, ⟨_, _, rfl, rfl⟩, ⟨_, _, rfl, rfl⟩⟩
  simp only [State.queueLimits]; decide +kernel

/-! ## Witnesses: grading and item commands -/

theorem test_witness_grading :
    (knitwear.tA ≤ 85 ∧ 84 < knitwear.tA ∧ knitwear.tB ≤ 84 ∧ knitwear.tB ≤ 70 ∧ 69 < knitwear.tB ∧ knitwear.tC ≤ 69 ∧
      knitwear.tC ≤ 50 ∧ 49 < knitwear.tC) ∧
    tables24.classOf 6 = none ∧ tables24.classOf 32 = none ∧ tables24.classOf 5 = some knitwear ∧
    (∃ r ∈ [reading .surface 2 101], r.valid = true ∧ 100 < r.raw) ∧
    (∀ r ∈ [{ reading .surface 2 101 with valid := false }], r.valid = false) ∧
    ((∀ r ∈ [reading .surface 2 100], r.valid = true → r.raw ≤ 100) ∧ ∃ r ∈ [reading .surface 2 100], r.valid = true) ∧
    ((3 : Int) + tables24.biasOf 9 < 0 ∧ 100 < (98 : Int) + tables24.biasOf 2 ∧ 0 ≤ (4 : Int) + tables24.biasOf 9 ∧
      (97 : Int) + tables24.biasOf 2 ≤ 100) ∧
    (PassRule.bothReq.met [reading .surface 2 1] = false ∧ PassRule.bothReq.met [reading .surface 2 1, reading .detail 2 1] = true ∧
      PassRule.surfaceReq.met [reading .detail 2 1] = false ∧ PassRule.detailReq.met [reading .detail 2 1] = true ∧
      PassRule.any.met [] = true) := by
  decide +kernel

/-- The item command unit's fetch of a command in a state of the record. -/
def fetchedAs (s : State) (id : SlotId) (a cmd : Nat) (st : RecState) : Prop :=
  s.atCommand (svcOf id a) a ∧ (s.recordAt a).cmd = cmd ∧ (s.recordAt a).state = st

theorem test_witness_open_clear :
    fetchedAs (serving 1 0) slotA 65600 1 .empty ∧ fetchedAs (serving 7 4) slotA 65600 7 .closed ∧
    fetchedAs (serving 7 6) slotA 65600 7 .void ∧ fetchedAs (serving 7 5) slotA 65600 7 .lost ∧
    fetchedAs (serving 7 7) slotA 65600 7 .trialed := by
  simp only [fetchedAs, State.atCommand]; decide +kernel

theorem test_witness_refused_commands :
    (fetchedAs (serving 1 1) slotA 65600 1 .opened ∧ fetchedAs (serving 2 1) slotA 65600 2 .opened ∧
      fetchedAs (serving 2 0) slotA 65600 2 .empty ∧ fetchedAs (serving 3 1) slotA 65600 3 .opened ∧
      fetchedAs (serving 3 2) slotA 65600 3 .routed ∧ fetchedAs (serving 4 2) slotA 65600 4 .routed) ∧
    (fetchedAs (serving 4 0) slotA 65600 4 .empty ∧ fetchedAs (serving 5 2) slotA 65600 5 .routed ∧
      fetchedAs (serving 5 5) slotA 65600 5 .lost ∧ fetchedAs (serving 6 4) slotA 65600 6 .closed ∧
      fetchedAs (serving 7 3) slotA 65600 7 .taken ∧ fetchedAs (serving 8 0) slotA 65600 8 .empty) ∧
    (let d := Memory.writeCells (serving 3 2).dram [(65637, 3)]
     3 ≤ (Memory.record d 65600).regrades ∧ (Memory.record d 65600).state = .routed) := by
  refine ⟨?_, ?_, by decide +kernel⟩
  all_goals simp only [fetchedAs, State.atCommand]; decide +kernel

theorem test_witness_frozen_command :
    let f : Service := { svcOf slotA 65600 with frozen := true }
    State.atCommand f 65600 { serving 2 1 with icu := { run.icu with stage := .fetching f } } ∧ f.frozen = true :=
  ⟨⟨rfl, rfl, rfl⟩, rfl⟩

/-- The grading of the record at an address. -/
def gradingAt (s : State) (a : Nat) : Except RecResult Graded :=
  let r := s.recordAt a
  s.gu.grade r.cls r.readings r.defects

theorem test_witness_commit :
    fetchedAs (serving 2 1) slotA 65600 2 .opened ∧ (serving 2 1).layout.isTrial slotA = false ∧
    fetchedAs (servingTrial 2 1) slotT 131136 2 .opened ∧ (servingTrial 2 1).layout.isTrial slotT = true ∧
    gradingAt (serving 2 1) 65600 = .ok { score := 86, spread := 1, grade := .A, disp := .pick, reason := .none } ∧
    gradingAt { serving 2 1 with gu := Gu.reset } 65600 = .error .badClass := by
  simp only [fetchedAs, State.atCommand]; decide +kernel

theorem test_witness_regrade :
    (let s := withRing slotA (serving 3 2)
     fetchedAs s slotA 65600 3 .routed ∧ (Memory.record s.dram 65600).regrades < 3 ∧
     (Memory.record s.dram 65600).queue = some 1 ∧ s.qu.entryPending = false ∧
     (s.voidEntry 1 (Memory.record s.dram 65600).ringIndex (Memory.record s.dram 65600).ticket slotA).1 = true ∧
     s.layout.isTrial slotA = false) ∧
    (let s := serving 3 2
     (s.voidEntry 1 (Memory.record s.dram 65600).ringIndex (Memory.record s.dram 65600).ticket slotA).1 = false) ∧
    (let s := withRing slotT (servingTrial 3 2)
     fetchedAs s slotT 131136 3 .routed ∧
     (s.voidEntry 1 (Memory.record s.dram 131136).ringIndex (Memory.record s.dram 131136).ticket slotT).1 = true ∧
     s.layout.isTrial slotT = true) ∧
    fetchedAs (servingTrial 3 7) slotT 131136 3 .trialed ∧
    (let s : State := { serving 3 2 with qu := { run.qu with inFlight := some { item := .entry [] true, cells := [] } } }
     s.qu.entryPending = true) ∧
    (let d := Memory.writeCells (serving 3 2).dram [(65641, 255)]
     (Memory.record d 65600).queue = none ∧ (Memory.record d 65600).state = .routed) := by
  simp only [fetchedAs, State.atCommand]; decide +kernel

/-- A TAKEN reservation of slot A on a bin. -/
def takenResv (bin : Nat) : Reservation := { id := slotA, bin := bin, queue := 0, ticket := 9, state := .taken 600 }

theorem test_witness_placed :
    fetchedAs (serving 4 3) slotA 65600 4 .taken ∧ fetchedAs (serving 4 5) slotA 65600 4 .lost ∧
    (Memory.record (serving 4 3).dram 65600).cmdArg = 0 ∧
    (let s : State := { serving 4 3 with ru := { run.ru with table := [takenResv 0] } }
     s.ru.find? slotA = some (takenResv 0)) ∧
    (let s : State := { serving 4 3 with ru := { run.ru with table := [takenResv 2] } }
     s.ru.find? slotA = some (takenResv 2) ∧ (takenResv 2).bin ≠ 0) ∧
    (serving 4 5).ru.find? slotA = none ∧
    (let d := Memory.writeCells (serving 4 5).dram [(65608, 210)]
     (Memory.record d 65600).cmdArg = 210 ∧ (run.bu.bin 210).state ≠ .retired ∧ 0 < (run.bu.bin 210).free) ∧
    (run.bu.bin 2047).free = 0 ∧
    (let d := Memory.writeCells (serving 4 5).dram [(65609, 8)]
     2048 ≤ (Memory.record d 65600).cmdArg) := by
  simp only [fetchedAs, State.atCommand]; decide +kernel

theorem test_witness_misfit_withdraw :
    fetchedAs (serving 5 3) slotA 65600 5 .taken ∧ (Memory.record (serving 5 3).dram 65600).cls ≤ 31 ∧
    (let d := Memory.writeCells (serving 5 3).dram [(65606, 32)]
     31 < (Memory.record d 65600).cls ∧ (Memory.record d 65600).state = .taken) ∧
    (serving 5 3).ru.find? slotA = none ∧
    ({ run.ru with table := [takenResv 2] } : Ru).find? slotA = some (takenResv 2) ∧
    fetchedAs (serving 6 1) slotA 65600 6 .opened ∧ fetchedAs (serving 6 7) slotA 65600 6 .trialed ∧
    fetchedAs (serving 6 5) slotA 65600 6 .lost ∧ fetchedAs (serving 6 3) slotA 65600 6 .taken ∧
    fetchedAs (serving 6 2) slotA 65600 6 .routed ∧ (Memory.record (serving 6 2).dram 65600).queue = some 1 ∧
    (serving 6 2).qu.entryPending = false := by
  simp only [fetchedAs, State.atCommand]; decide +kernel

/-- A MISFIT on a record of class 7 whose reservation names bin 210, the one bin of its list; the mailbox block holds
BIN_PICKED of that bin with 0. -/
def misfitOf210 : State :=
  { serving 5 3 with
    dram := Memory.writeCells (serving 5 3).dram
      (cellsAt 65606 [7] ++ cellsAt 68 (leBytes 4 12) ++ cellsAt 72 (leBytes 4 210))
    ru := { run.ru with table := [takenResv 210], deadlines := [slotA] }
    bu := { bins49 with avail := [(14, [210])], bins := [(210, { cls := 7, capacity := 6, occupied := 2, reserved := 1, state := .opened })] } }

/-- The same with the mailbox block read of the operation made. -/
def misfitBeforePicked : State := { misfitOf210 with cu := { misfitOf210.cu with work := .reading } }

/-- A BIN_PICKED between the mark full and the re-route reopens the bin, which the re-route then takes again; without it the
record goes to HOLD (R56, R63). -/
theorem test_misfit_bin_reopened_in_between :
    let s1 := afterExec .cmdMisfit misfitBeforePicked
    let s2 := afterExec .binPicked s1
    let s3 := afterExec .cmdMisfit s2
    let now := afterExec .cmdMisfit misfitOf210
    let first := afterExec .cmdMisfit s1
    (s1.icu.stage.service = some (svcOf slotA 65600) ∧ (s1.bu.bin 210).state = .full ∧ (s1.bu.bin 210).reserved = 0 ∧
      s1.bu.list 14 = [] ∧ s1.ru.table = [] ∧ s1.busy slotA = true ∧ s1.places = 1) ∧
    ((s2.bu.bin 210).state = .opened ∧ s2.bu.list 14 = [210]) ∧
    (s3.ru.table.map (fun r => (r.bin, r.ticket)) = [(210, 1)] ∧ (s3.bu.bin 210).reserved = 1) ∧
    (now.ru.table = [] ∧ (now.bu.bin 210).state = .full) ∧ first.ru.table = [] := by
  decide +kernel

theorem test_witness_rerouting :
    let s := afterExec .cmdMisfit misfitBeforePicked
    s.icu.stage = .rerouting (svcOf slotA 65600) (misfitBeforePicked.recordAt 65600) ∧
    fetchedAs misfitBeforePicked slotA 65600 5 .taken ∧ fetchedAs misfitOf210 slotA 65600 5 .taken ∧
    misfitBeforePicked.ru.find? slotA = some (takenResv 210) ∧ misfitOf210.ru.find? slotA = some (takenResv 210) ∧
    misfitOf210.cu.work ≠ .reading := by
  simp only [fetchedAs, State.atCommand]; decide +kernel

theorem test_witness_notices :
    (let e : CqEntry := .take slotA 1 7001
     let s := noticing e (some 65600) 2
     s.icu.stage = .fetching { entry := e, frozen := false, addr := some 65600 } ∧
     (s.recordAt 65600).state = .routed ∧ (s.recordAt 65600).ticket = 7001 ∧
     ((noticing e (some 65600) 3).recordAt 65600).state ≠ .routed ∧
     ((noticing (.take slotA 1 7002) (some 65600) 2).recordAt 65600).ticket ≠ 7002) ∧
    (let e : CqEntry := .expiry slotA 7001
     let s := noticing e (some 65600) 3
     s.icu.stage = .fetching { entry := e, frozen := false, addr := some 65600 } ∧
     (s.recordAt 65600).state = .taken ∧ (s.recordAt 65600).ticket = 7001 ∧
     ((noticing e (some 65600) 2).recordAt 65600).state ≠ .taken) ∧
    (noticing (.take slotA 1 7001) none 2).icu.stage
      = .fetching { entry := .take slotA 1 7001, frozen := false, addr := none } ∧
    (noticing (.expiry slotA 7001) none 3).icu.stage
      = .fetching { entry := .expiry slotA 7001, frozen := false, addr := none } ∧
    layout.slotAddr slotA = some 65600 ∧ layout.slotAddr { area := 0, slot := 4 } = none ∧
    layout.slotAddr { area := 2, slot := 0 } = none := by
  decide +kernel

theorem test_witness_write_backs :
    let s (m : Mode) (cq : List CqEntry) (pause : Bool) : State :=
      { inMode m with icu := { run.icu with cq := cq, pauseAsked := pause, stage := .writeBack (svcOf slotA 65600) [] [.hold] } }
    ((s .run [] false).icu.stage.service = some (svcOf slotA 65600)) ∧ (s .run [] true).icu.pauseAsked = true ∧
    ((s .frozen [.command slotT] false).icu.cq = [.command slotT] ∧ (s .frozen [.command slotT] false).cu.mode = .frozen) ∧
    ((s .init [.command slotT] false).cu.mode ≠ .run ∧ (s .init [.command slotT] false).cu.mode ≠ .frozen) ∧
    ((((withA [heldOne 0] (s .run [] false)).endService).port .A).outstanding = [{ heldOne 0 with stage := .waiting }] ∧
      (((withA [heldOne 0] (s .init [.command slotA] false)).endService).port .A).outstanding = [heldOne 0]) := by
  decide +kernel

/-! ## Witnesses: routing, queues, bins, reservations -/

/-- A route of a disposition. -/
def route (d : Disp) : Route :=
  { kind := .commit, grade := .A, score := 90, spread := 0, disp := d, reason := .none, fellBack := false, bin := none,
    ticket := 7005 }

/-- A queue that is full. -/
def fullQueue : QState := { QState.reset with count := 16 }

theorem test_witness_chain :
    ((route .refurb).disp ≠ .pick ∧ (route .refurb).disp ≠ .reserve) ∧
    (1024 ≤ (List.replicate 1024 (takenResv 0)).length ∧ (List.replicate 1023 (takenResv 0)).length < 1024) ∧
    (run.ru.table.length < 1024 ∧ run.bu.list (listKey 7 .pick) = 215 :: [210, 230]) ∧
    (let u : Bu := { bins49 with avail := [(15, [1000])] }
     u.list (listKey 7 .pick) = [] ∧ u.list (listKey 7 .reserve) = [1000]) ∧
    (run.bu.list (listKey 5 .pick) = [] ∧ run.bu.list (listKey 5 .reserve) = []) ∧
    (let s : State := { run with qu := { run.qu with inFlight := some { item := .entry [] true, cells := [] } } }
     s.qu.entryPending = true) ∧
    (run.qu.entryPending = false ∧ run.queueFull 0 = false ∧ run.queueFull 5 = false) ∧
    (let s := (run.setQueue 0 fullQueue)
     s.qu.entryPending = false ∧ s.queueFull 0 = true ∧ s.queueFull 5 = false) ∧
    (let s := (run.setQueue 0 fullQueue).setQueue 5 fullQueue
     s.qu.entryPending = false ∧ s.queueFull 0 = true ∧ s.queueFull 5 = true) := by
  decide +kernel

theorem test_witness_appends :
    (3 < 4 ∧ 65535 < 65536 ∧ 2047 < 2048 ∧ 281474976710655 < 281474976710656 ∧ 31 < 32) ∧
    (entryBytesOf 7005 { area := 3, slot := 65535 } none 281474976710655 .X .queueFull 31 true false).length = 16 ∧
    (run.desc? 0 = some (desc 0) ∧ run.qu.inFlight = none ∧ run.qu.waiting = []) ∧
    (heldTickets run.qu.queues).length ≤ 8192 ∧
    (let queues := ((run.setQueue 0 { QState.reset with positions := [(3, { state := .live, ticket := 4294967295, id := slotA })] }).setQueue 5
        { QState.reset with positions := [(9, { state := .void, ticket := 1, id := slotT })] }).qu.queues
     heldTickets queues = [4294967295, 1] ∧ freeTicket queues 4294967295 = 2 ∧ freeTicket queues 7 = 7) ∧
    (let f : QuFlight := { item := .entry [(262208, 1)] true, cells := [(262208, 1)] }
     let s : State := { run with icu := { run.icu with stage := .entryWrite (svcOf slotA 65600) (Memory.record [] 0) (route .pick) },
                                 qu := { run.qu with inFlight := some f } }
     s.qu.inFlight = some f ∧ (route .pick).disp.queue = 0 ∧ s.desc? 0 = some (desc 0) ∧
     (s.queue 0).count + 1 < (desc 0).near ∧ (desc 0).near = 2 ∧
     (let u := s.setQueue 0 { QState.reset with count := 1 }
      u.icu.stage = .entryWrite (svcOf slotA 65600) (Memory.record [] 0) (route .pick) ∧ u.qu.inFlight = some f ∧
      (u.queue 0).count < (desc 0).near ∧ (u.queue 0).count + 1 = (desc 0).near)) := by
  decide +kernel

theorem test_witness_voids_and_takes :
    (let s := withRing slotA run
     s.desc? 1 = some (desc 1) ∧ 14 < (desc 1).capacity ∧
     (s.queue 1).position 14 = some { state := .live, ticket := 7001, id := slotA } ∧ (s.queue 1).position 2 = none) ∧
    (let v : QState := { ring611 with positions := [(14, { state := .void, ticket := 7001, id := slotA })] }
     let s := run.setQueue 1 v
     (s.queue 1).position 14 = some { state := .void, ticket := 7001, id := slotA } ∧ 0 < v.count) ∧
    (let s := run.setQueue 1 { ring611 with positions := [(14, { state := .taking, ticket := 7001, id := slotA })] }
     (s.queue 1).takeInProgress = true ∧
     ∃ x, (s.queue 1).position 14 = some x ∧ x.state = .taking) := by
  refine ⟨by decide +kernel, by decide +kernel, by decide +kernel, _, rfl, rfl⟩

theorem test_witness_waiting_takes :
    (let s := withA [takeAtA] run
     (s.queue 1).takeInProgress = false ∧ headRequest (s.port .A).outstanding = some takeAtA ∧ (s.queue 1).count = 0) ∧
    (let s := withRing slotA (withA [takeAtA] run)
     (s.queue 1).takeInProgress = false ∧ 0 < (s.queue 1).count ∧ s.places < 24 ∧
     (s.queue 1).position (s.queue 1).head = some { state := .live, ticket := 7001, id := slotA }) ∧
    (let s := withRing slotA (withA [takeAtA] { run with icu := { run.icu with cq := List.replicate 24 (.expiry slotA 1) } })
     0 < (s.queue 1).count ∧ 24 ≤ s.places) ∧
    (let s := withA [{ takeAtA with stage := .taking 1 }] run
     ∃ l o r, (s.port .A).outstanding = l ++ o :: r ∧ (∀ x ∈ l, x.stage ≠ .taking 1) ∧ o.stage = .taking 1) :=
  ⟨by decide +kernel, by decide +kernel, by decide +kernel, [], _, _, rfl, by decide, rfl⟩

theorem test_witness_queue_writes :
    let s (w : List QuItem) (st : IcuStage) : State :=
      { run with icu := { run.icu with stage := st },
                 qu := { run.qu with waiting := w, inFlight := some { item := .header 0, cells := [] } } }
    ((s [] .idle).icu.stage.service = none ∧ (QuItem.header 0).isAppendEntry = false ∧
      (QuItem.entry [] false).isAppendEntry = false ∧ (s [.ticketImage] .idle).qu.waiting = .ticketImage :: []) ∧
    ((s [] (.appending (svcOf slotA 65600) (Memory.record [] 0) (route .pick))).qu.entryPending = false) ∧
    (s [.entry [] false] .idle).qu.entryPending = true := by
  decide +kernel

/-- Voids that wait for the queue unit: behind its write in flight no entry write is left; the position is LIVE, was taken, or
is none, on an ordinary and on a trial slot. -/
theorem test_witness_waiting_voids :
    let rec1 : Rec := Memory.record (serving 3 2).dram 65600
    let g : Graded := { score := 86, spread := 1, grade := .B, disp := .reserve, reason := .none }
    let s (id : SlotId) (x : Option Graded) : State :=
      withRing slotA { run with icu := { run.icu with stage := .voiding (svcOf id 65600) rec1 x },
                                qu := { run.qu with inFlight := some { item := .header 1, cells := [(266240, 1)] } } }
    let u (id : SlotId) : State := { s id none with qu := { (s id none).qu with inFlight := none } }
    rec1.queue = some 1 ∧ (u slotA).qu.entryPending = false ∧
    (s slotA none).icu.stage = .voiding (svcOf slotA 65600) rec1 none ∧
    (s slotA (some g)).icu.stage = .voiding (svcOf slotA 65600) rec1 (some g) ∧
    ((u slotA).voidEntry 1 rec1.ringIndex rec1.ticket slotA).1 = true ∧
    ((u slotT).voidEntry 1 rec1.ringIndex rec1.ticket slotT).1 = false ∧
    (s slotA none).layout.isTrial slotA = false ∧ (s slotT none).layout.isTrial slotT = true := by
  decide +kernel

/-- The write queue with an item that waits, with nothing in flight, and behind a write in flight. -/
theorem test_witness_write_queue :
    let s (w : List QuItem) (f : Option QuFlight) : State :=
      withRing slotA { run with qu := { run.qu with waiting := w, inFlight := f } }
    let f : QuFlight := { item := .header 0, cells := [] }
    ((s [.ticketImage] none).qu.inFlight = none ∧ (s [.ticketImage] none).qu.waiting = .ticketImage :: [] ∧
      (s [] (some f)).qu.inFlight ≠ none) ∧
    ((s [] (some f)).queue 1).position 14 = some { state := .live, ticket := 7001, id := slotA } ∧
    ((s [.header 1] (some f)).voidEntry 1 14 7001 slotA).2.qu.waiting = [.header 1, .entry [(266532, voidByte slotA)] false] ∧
    ((s [] (some f)).voidEntry 1 14 7001 slotA).2.qu.waiting = [.entry [(266532, voidByte slotA)] false, .header 1] ∧
    voidByte slotA = 0x12 ∧ voidByte { area := 3, slot := 31 } = 0xFE := by
  decide +kernel

/-- A change of a bin with no image write in flight, while a bin operation waits for that image. -/
theorem test_witness_image_issue :
    let s (w : CuWork) : State := { run with bu := { bins49 with imageQueue := [] }, cu := { run.cu with work := w } }
    let t : State := (s (.waitImage 1 210 0 false)).changeBin 210 (fun x => { x with occupied := 1 })
    (s .idle).bu.imageInFlight = none ∧ (s .idle).bu.imageQueue ++ [210] = 210 :: [] ∧
    t.cu.work = .waitImage 1 210 0 true ∧ t.ma.own = [.imageWrite] ∧
    t.bu.imageInFlight = some { bin := 210, cells := cellsAt 5776 [7, 0, 6, 0, 1, 0, 0, 0] } := by
  decide +kernel

theorem test_witness_bins : listsHoldEligible Bu.reset ∧ bins49.list (listKey 7 .reserve) = [] ∧
    bins49.list (listKey 7 .pick) = 215 :: [210, 230] := by
  refine ⟨fun c k => ⟨List.nodup_nil, fun b => ⟨fun h => (List.not_mem_nil h).elim, fun h => ?_⟩⟩, by decide, by decide⟩
  exact absurd (show 0 < 0 from h.2.1) (by decide)

theorem test_lists_of_49_hold_the_eligible : listsHoldEligible bins49 := by
  intro c k
  have key (n : Nat) : bins49.list n = if 14 = n then [215, 210, 230] else [] := by
    by_cases h : 14 = n <;> simp [Bu.list, Map.getD, Map.at?, bins49, h]
  have bin (b : Nat) (h : b ∉ [210, 215, 230]) : bins49.bin b = Bin.reset := by
    simp only [List.mem_cons, List.not_mem_nil, or_false, not_or] at h
    simp [Bu.bin, Map.getD, Map.at?, bins49, Ne.symm h.1, Ne.symm h.2.1, Ne.symm h.2.2]
  have in7 : ∀ b ∈ [210, 215, 230], (bins49.bin b).state = .opened ∧ 0 < (bins49.bin b).free ∧
      kindOf bins49.zones b = some .pick ∧ (bins49.bin b).cls = 7 := by decide
  rw [key]
  refine ⟨by split <;> decide, fun b => ⟨fun h => ?_, fun h => ?_⟩⟩
  · split at h
    · rename_i e
      have e7 : c = 7 ∧ k = .pick := by cases k <;> simp only [listKey] at e <;> first | exact ⟨by omega, rfl⟩ | omega
      obtain ⟨rfl, rfl⟩ := e7
      exact in7 b (by simp only [List.mem_cons] at h ⊢; tauto)
    · cases h
  · by_cases hb : b ∈ [210, 215, 230]
    · obtain ⟨-, -, h3, h4⟩ := in7 b hb
      rw [h3] at h; rw [h4] at h
      obtain ⟨-, -, h3, rfl⟩ := h
      obtain rfl := Option.some.inj h3
      rw [if_pos (by decide)]
      simp only [List.mem_cons] at hb ⊢; tauto
    · rw [bin b hb] at h
      exact absurd h.2.1 (by decide)

/-- The orders of a list of the bins of 4.9: a bin stays in its place, leaves, joins the tail, or moves to the tail of the
list of another class; and the image write queue takes a bin at its tail, once. -/
theorem test_witness_list_orders :
    let at0 (f : Bin → Bin) (b : Nat) : State := ({ run with bu := bins49 } : State).changeBin b f
    let kept := at0 (fun x => { x with occupied := x.occupied + 1 }) 210
    let left := at0 (fun x => { x with state := .locked }) 210
    let joined := left.changeBin 210 (fun x => { x with state := .opened })
    let moved := at0 (fun x => { x with cls := 5 }) 215
    kept.bu.list 14 = [215, 210, 230] ∧ left.bu.list 14 = [215, 230] ∧ joined.bu.list 14 = [215, 230, 210] ∧
    moved.bu.list 14 = [210, 230] ∧ moved.bu.list 10 = [215] ∧
    (let s : State := { run with bu := { bins49 with imageQueue := [230, 215], imageInFlight := some { bin := 210, cells := [] } } }
     (s.changeBin 210 id).bu.imageQueue = [230, 215, 210] ∧ (s.changeBin 230 id).bu.imageQueue = [230, 215]) := by
  decide +kernel

theorem test_witness_images :
    let s (q : List Nat) (w : CuWork) : State :=
      { run with bu := { bins49 with imageQueue := q, imageInFlight := some { bin := 210, cells := [] } },
                 cu := { run.cu with work := w } }
    ((s [] .idle).bu.imageInFlight = some { bin := 210, cells := [] } ∧ (s [] .idle).bu.imageQueue = []) ∧
    (s [215] .idle).bu.imageQueue = 215 :: [] ∧
    (s [] (.waitImage 1 210 0 true)).cu.work = .waitImage 1 210 0 true ∧
    ((s [] (.waitImage 1 215 0 true)).cu.work = .waitImage 1 215 0 true ∧ 215 ≠ 210) ∧
    (s [] (.waitImage 1 215 0 false)).cu.work = .waitImage 1 215 0 false := by
  decide +kernel

theorem test_witness_reservations :
    let q : Reservation := { id := slotA, bin := 2, queue := 1, ticket := 9, state := .queued }
    let u : Ru := { Ru.reset with table := [q] }
    (u.find? slotA = some q ∧ u.find? slotT = none ∧ q.state = .queued ∧ q.queue = 1 ∧ q.ticket = 9) ∧
    (∀ r, u.find? slotT = some r → r.state ≠ .queued ∨ r.queue ≠ 1 ∨ r.ticket ≠ 9) ∧
    [slotA].Pairwise (fun i j => i.slot ≤ j.slot) ∧
    (let s : State := { run with ru := { Ru.reset with table := [takenResv 215], deadlines := [slotT, slotA, ⟨0, 2⟩] } }
     let t := s.createResv slotA 230 1 9
     s.ru.find? slotA = some (takenResv 215) ∧ t.ru.deadlines = [slotT, ⟨0, 2⟩] ∧
     t.ru.table = [{ id := slotA, bin := 230, queue := 1, ticket := 9, state := .queued }] ∧
     (s.bu.bin 215).reserved = 1 ∧ (t.bu.bin 215).reserved = 0) := by
  refine ⟨by decide, fun r h => ?_, by decide, by decide +kernel⟩
  exact absurd h (by simp [Ru.find?, slotA, slotT])

theorem test_witness_ticks :
    let s (now places : Nat) : State :=
      { run with ru := { Ru.reset with table := [takenResv 2], deadlines := [slotA], now := now, pass := true },
                 icu := { run.icu with cq := List.replicate places (.expiry slotT 1) } }
    ((s 600 23).ru.pass = true ∧ (s 600 23).ru.deadlines = slotA :: [] ∧ (s 600 23).ru.find? slotA = some (takenResv 2) ∧
      (s 600 23).ru.deadlineOf slotA ≤ (s 600 23).ru.now ∧ (s 600 23).places < 24) ∧
    24 ≤ (s 600 24).places ∧ (s 599 0).ru.now < (s 599 0).ru.deadlineOf slotA ∧
    (4294967294 < 4294967295 ∧ (4294967295 : Nat) ≤ 4294967295) := by
  decide +kernel

/-! ## Witnesses: operations, halts, starts -/

/-- The mailbox operation of a code is read. -/
def reads (s : State) (op : Nat) : Prop := s.atOperation op

theorem test_witness_operations :
    reads (operating .run 14 0 0) 14 ∧ 13 < (operating .run 14 0 0).mailbox.op ∧
    reads (operating .run 1 0 0) 1 ∧ reads (operating .halted 3 0 0) 3 ∧ reads (operating .init 12 0 0) 12 ∧
    reads (operating .frozen 4 0 0) 4 ∧ reads (operating .run 5 0 0) 5 ∧ reads (operating .run 13 0 0) 13 ∧
    reads (operating .run 4 0 0) 4 ∧ reads (operating .frozen 5 0 0) 5 ∧ reads (operating .halted 13 0 0) 13 := by
  simp only [reads, State.atOperation]; decide +kernel

theorem test_witness_bias :
    (reads (operating .run 6 15 31) 6 ∧ (operating .run 6 15 31).mailbox.arg0 ≤ 15 ∧
      (operating .run 6 15 31).mailbox.arg1.toInt ≤ 31 ∧ -32 ≤ (operating .run 6 15 31).mailbox.arg1.toInt) ∧
    (15 < (operating .run 6 16 0).mailbox.arg0 ∧ 31 < (operating .run 6 0 32).mailbox.arg1.toInt) ∧
    (reads (operating .frozen 7 15 1) 7 ∧ (operating .frozen 7 15 1).mailbox.arg1 = 1 ∧
      (operating .frozen 7 15 1).gu.biasOf 15 < 31 ∧ (operating .frozen 7 15 2).mailbox.arg1 = 2 ∧
      ((operating .frozen 7 15 3).mailbox.arg1 ≠ 1 ∧ (operating .frozen 7 15 3).mailbox.arg1 ≠ 2)) ∧
    (31 ≤ ({ Gu.reset with bias := [(15, 31)] } : Gu).biasOf 15 ∧
      ({ Gu.reset with bias := [(15, -32)] } : Gu).biasOf 15 ≤ -32) := by
  simp only [reads, State.atOperation]; decide +kernel

theorem test_witness_bin_operations :
    (reads (operating .run 8 210 255) 8 ∧ (operating .run 8 210 255).mailbox.arg0 ≤ 2047 ∧
      (operating .run 8 210 255).mailbox.arg1.toNat % 65536 ≤ 255 ∧
      (operating .run 8 210 255).mailbox.arg1.toNat / 65536 ≤ 31 ∧
      (operating .run 8 210 255).mailbox.arg1.toNat / 65536 ≠ (run.bu.bin 210).cls ∧
      0 < (run.bu.bin 215).occupied + (run.bu.bin 215).reserved ∧
      (run.bu.bin 210).occupied + (run.bu.bin 210).reserved = 0) ∧
    (2047 < (operating .run 9 2048 0).mailbox.arg0 ∧ (operating .run 9 2047 0).mailbox.arg0 ≤ 2047 ∧
      (run.bu.bin 2047).state ≠ .retired) ∧
    (reads (operating .run 9 210 0) 9 ∧ reads (operating .frozen 10 210 0) 10 ∧ reads (operating .run 11 210 0) 11 ∧
      reads (operating .run 12 215 2) 12) ∧
    ((operating .run 12 215 2).mailbox.arg1.toNat ≤ (run.bu.bin 215).occupied ∧
      (run.bu.bin 215).occupied < (operating .run 12 215 3).mailbox.arg1.toNat) := by
  simp only [reads, State.atOperation]; decide +kernel

theorem test_witness_results_and_halts :
    let r : ResultWrite := { seq := some 1, result := .ok, detail := 0, prior := .bias 3 5, after := .bias 3 5 }
    let e : ResultWrite := { r with prior := .echo .frozen, after := .mode .frozen }
    let s (m : Mode) (x : ResultWrite) : State :=
      { inMode m with cu := { (inMode m).cu with work := .result x }, ma := { Arbiter.reset with own := [.cuWrite] } }
    ((s .run r).cu.work = .result r ∧ (s .init r).cu.mode = .init ∧ (s .halted r).cu.mode = .halted) ∧
    ((s .run r).haltCells .resultWrite).isSome = true ∧ ((s .run r).haltCells .biasImage).isSome = true ∧
    ((s .frozen e).haltCells .modeEcho).isSome = true ∧ ((s .halted e).haltCells .modeEcho).isSome = true ∧
    ((s .halted r).haltCells .resultWrite).isSome = true ∧
    (let b : State := { run with icu := { run.icu with stage := .writeBack (svcOf slotA 65600) [(65632, 1)] [] } }
     b.haltCells .writeBack = some [(65632, 1)]) ∧
    (let b : State := { run with qu := { run.qu with inFlight := some { item := .header 0, cells := [(262144, 1)] } } }
     b.haltCells .queueWrite = some [(262144, 1)]) ∧
    (let b : State := { run with bu := { bins49 with imageInFlight := some { bin := 0, cells := [(4096, 1)] } } }
     b.haltCells .imageWrite = some [(4096, 1)]) ∧
    (noticing (.expiry slotA 1) (some 65600) 3).haltCells .noticeFetch = some [] ∧
    (let b := run.setQueue 1 { ring611 with positions := [(14, { state := .taking, ticket := 7001, id := slotA })] }
     b.haltCells (.takeRead 1) = some []) := by
  decide +kernel

theorem test_witness_halted_memory :
    let b (own : List OwnReq) : State :=
      { run with
        icu := { run.icu with stage := .writeBack (svcOf slotA 65600) [(65632, 1)] [] }
        qu := { run.qu with inFlight := some { item := .header 0, cells := [(262144, 2)] } }
        ma := { Arbiter.reset with own := own } }
    let after (own : List OwnReq) (n x : Nat) : Byte :=
      Memory.read ((b own).endWrites .imageWrite { answers with granted := n }).dram x
    (after [.writeBack, .queueWrite] 0 65632 = 0 ∧ after [.writeBack, .queueWrite] 1 65632 = 1 ∧
      after [.writeBack, .queueWrite] 1 262144 = 0 ∧ after [.writeBack, .queueWrite] 2 262144 = 2) := by
  decide +kernel

/-- A write of the part that is discarded at a halt sets nothing; one that was granted ahead of a posted write which goes on
draining is performed under it (R141, R144, R156). -/
theorem test_halt_keeps_the_order_of_grants :
    let s : State := bothGranted [.own .queueWrite, .forwarded]
    let t : State := bothGranted [.forwarded, .own .queueWrite]
    let halted (u : State) : State := (u.endWrites .imageWrite answers).clearUnits
    (halted s).dram = [(32768, 1), (32770, 1)] ∧ (halted s).ma.order = [.forwarded] ∧
    (halted t).ma.order = [.forwarded, .done [(32768, 1), (32770, 1)]] ∧
    ((halted t).answerForward [(32768, 2), (32769, 2)] .ok).dram = [(32768, 1), (32769, 2), (32770, 1)] ∧
    ((bothGranted [.forwarded]).endWrites .imageWrite answers).dram = [] := by
  decide +kernel

/-! ## Witnesses: starts -/

/-- The cells of valid tables: version 1, a deadline of 600, area 0, no class and no zone, and the six descriptors. -/
def tableCells (op : Nat) : Cells :=
  cellsAt 0 [1] ++ cellsAt 12 (leBytes 2 600) ++ cellsAt 64 [9] ++ cellsAt 68 [BitVec.ofNat 8 op]
    ++ cellsAt 192 (leBytes 4 65536) ++ cellsAt 200 [4] ++ cellsAt 205 [1]
    ++ (List.range 6).flatMap (fun q =>
      cellsAt (384 + 32 * q) (leBytes 4 (desc q).ringBase) ++ cellsAt (392 + 32 * q) (leBytes 4 (desc q).viewBase)
        ++ cellsAt (400 + 32 * q) [16] ++ cellsAt (404 + 32 * q) [2])

/-- The header of Q0 with one entry, and that entry: ticket 5, LIVE, slot A, bin 9. -/
def ringCells : Cells := cellsAt 262144 [0, 0, 1, 0, 1, 0] ++ cellsAt 262208 [5, 0, 0, 0, 0x11, 0, 0x90, 0]

/-- What the reads of the tables make of them. -/
def readBack : Tables :=
  { deadline := 600, ticketImage := 0, classes := [], caps := [], bias := [], zones := Zone.resetTable,
    areas := #v[{ base := 65536, slots := 4, trial := false, valid := true },
                { base := 0, slots := 0, trial := false, valid := false },
                { base := 0, slots := 0, trial := false, valid := false },
                { base := 0, slots := 0, trial := false, valid := false }],
    descs := #v[desc 0, desc 1, desc 2, desc 3, desc 4, desc 5] }

/-- DRAM with those tables and that ring. -/
def startDram (op : Nat) : Memory := Memory.writeCells [] (tableCells op ++ ringCells)

/-- A part in INIT, or in another state, whose DRAM is that, at some work of the control unit. -/
def atWork (w : CuWork) (s : State) : State := { s with cu := { s.cu with work := w } }
def starting (op : Nat) : State := atWork .reading { State.reset with dram := startDram op }
def reloading (s : State) : State := atWork .reading { s with dram := startDram 3 }

/-- What the reads of an operation find, and the tables as they stand before its last read. -/
def found (use : TableUse) : TablesRead := tablesIn (startDram 1) 0 use
def beforeLast (use : TableUse) : TablesRead := tablesUpTo (startDram 1) 0 use ((tableSites use).length - 1)

/-- A start that has read its tables. -/
def data : StartData := { seq := 9, tables := readBack, mask := 0, images := [] }

theorem test_tables_read_back :
    (found .fresh).check 0 = .ok readBack ∧ (found .restore).check 0 = .ok readBack ∧ (found .reload).check 0 = .ok readBack ∧
    (tablesIn [] 0 .fresh).check 0 = .error 1 :=
  ⟨by decide +kernel, by decide +kernel, by decide +kernel, by decide +kernel⟩

theorem startDram_low (op : Nat) : ∀ c ∈ tableCells op ++ ringCells, c.1 < 4096 ∨ 20480 ≤ c.1 := by
  intro c hc
  have same : (tableCells op ++ ringCells).map (·.1) = (tableCells 0 ++ ringCells).map (·.1) := rfl
  have low : ∀ x ∈ (tableCells 0 ++ ringCells).map (·.1), x < 4096 ∨ 20480 ≤ x := by decide +kernel
  exact low _ (same ▸ List.mem_map_of_mem hc)

theorem startDram_images (op x : Nat) (h : 4096 ≤ x) (h2 : x < 20480) : Memory.read (startDram op) x = 0 := by
  unfold startDram
  rw [Memory.read_writeCells_of_not_mem]
  · rfl
  · intro c hc
    have := startDram_low op c hc
    omega

/-- The bin images of that DRAM are the one of a bin at its reset value. -/
theorem test_images_of_a_start (op b : Nat) (h : b < 2048) :
    Memory.binImage (startDram op) (0 + 4096 + 8 * b) = BinImage.zero := by
  have hr (i : Nat) (hi : i < 8) : Memory.read (startDram op) (4096 + (8 * b + i)) = 0 :=
    startDram_images op _ (by omega) (by omega)
  have h0 := hr 0 (by omega)
  simp only [Nat.add_zero] at h0
  generalize startDram op = d at *
  simp [Memory.binImage, Memory.nat, Memory.bytes, List.range, List.range.loop, hr, h0, Nat.add_assoc, leNat]
  decide

theorem starting_dram (op : Nat) : (starting op).dram = startDram op := by simp only [starting, atWork]
theorem starting_cbBase (op : Nat) : (starting op).cbBase = 0 := by
  simp only [starting, atWork, State.cbBase]; decide

/-- With nothing granted and no write of the part outstanding there is none to perform. -/
theorem noOwnWrite_of_none (s : State) (ho : s.ma.order = [])
    (h : s.writeBackCells = [] ∧ s.quFlightCells = [] ∧ s.imageFlightCells = [] ∧ s.cuFlightCells = []) : s.noOwnWrite :=
  ⟨h.1, h.2.1, h.2.2.1, h.2.2.2, fun c => by rw [ho]; exact List.not_mem_nil⟩

theorem test_witness_no_own_write : (starting 1).noOwnWrite ∧ (starting 2).noOwnWrite :=
  ⟨noOwnWrite_of_none _ (by decide +kernel) (by decide +kernel), noOwnWrite_of_none _ (by decide +kernel) (by decide +kernel)⟩

theorem test_witness_start_fresh :
    ((starting 1).atOperation 1 ∧ (starting 1).cu.mode = .init ∧ (starting 1).forwardCovers ∧
      overlapsForward (starting 1).fwd (starting 1).cbBase 20480 = false ∧
      (tablesIn (starting 1).dram (starting 1).cbBase .fresh).check (starting 1).cbBase = .ok readBack) ∧
    (∀ b, b < 2048 → (Memory.binImage (starting 1).dram ((starting 1).cbBase + 4096 + 8 * b)).ok = true) := by
  refine ⟨?_, fun b h => ?_⟩
  · simp only [State.atOperation, State.forwardCovers]; decide +kernel
  · rw [starting_dram, starting_cbBase, test_images_of_a_start 1 b h]
    decide

/-- A start at its reads of the tables, or of the images. -/
def inTables (use : TableUse) (k : Nat) (t : TablesRead) : State := atWork (.tables use 9 k t) (starting 1)
def inImages (fresh : Bool) (k : Nat) : State := atWork (.images fresh data k) (starting 1)

theorem test_witness_start_reads :
    ((inTables .fresh 0 TablesRead.none).cu.work = .tables .fresh 9 0 TablesRead.none ∧
      (tableSites .fresh)[0]? = some (.table 1) ∧ (tableSites .restore)[7]? = some (.table 7) ∧
      overlapsForward (inTables .fresh 0 TablesRead.none).fwd (0 + (tableRun (.table 1)).1) (tableRun (.table 1)).2 = false ∧
      overlapsForward [fwdAt 0 .posted] (0 + (tableRun (.table 1)).1) (tableRun (.table 1)).2 = true) ∧
    (let s := inTables .restore 7 (beforeLast .restore)
     ((beforeLast .restore).take s.cuRead.memory s.cbBase (.table 7)).check s.cbBase = .ok readBack ∧
     ((tablesUpTo [] 0 .restore 7).take ({ s with dram := [] } : State).cuRead.memory s.cbBase (.table 7)).check s.cbBase
       = .error 1) ∧
    ((inImages true 255).cu.work = .images true data 255 ∧ overlapsForward [fwdAt 4096 .posted] (0 + 4096 + 64 * 0) 64 = true ∧
      overlapsForward (inImages true 255).fwd (0 + 4096 + 64 * 255) 64 = false ∧
      (Memory.binImage (inImages false 255).cuRead.memory (0 + 4096 + 8 * 2047)).ok = true ∧
      (Memory.binImage (Memory.writeCells [] [(4096, 32)]) (0 + 4096 + 8 * 0)).ok = false) :=
  ⟨by decide +kernel, by decide +kernel, by decide +kernel⟩

theorem test_witness_bin_images :
    let i (cls cap occ st : Nat) : BinImage := { cls := cls, capacity := cap, occupied := occ, reserved := 0, state := st }
    ((i 31 255 255 2).ok = true ∧ (i 32 0 0 0).ok = false ∧ (i 0 256 0 0).ok = false ∧ (i 0 0 256 0).ok = false ∧
      (i 0 0 0 4).ok = false ∧ (i 0 0 1 3).ok = false ∧ (i 0 0 0 3).ok = true) ∧
    (((i 3 4 5 1).load true).state = .opened ∧ ((i 3 4 5 1).load false).state = .full) := by
  decide

/-- A restore given by the mailbox, and one that AUTOLOAD begins. -/
def restoring : State := starting 2
def automatic : State := atWork .automatic (starting 2)

/-- The entry of that ring, as it is entered. -/
def entryRead : RingEntry :=
  { queue := 0, pos := 0, bin := 9, position := { state := .live, ticket := 5, id := slotA } }

theorem test_witness_start_restore :
    (restoring.atOperation 2 ∧ automatic.cu.work = .automatic ∧ restoring.cu.mode = .init ∧ automatic.cu.mode = .init ∧
      restoring.forwardCovers ∧ automatic.forwardCovers) ∧
    (∀ q : Fin 6, overlapsForward restoring.fwd readBack.descs[q].ringBase readBack.descs[q].ringLen = false) ∧
    (tablesIn restoring.dram restoring.cbBase .restore).check restoring.cbBase = .ok readBack ∧
    entriesIn restoring.dram readBack.descs (headersIn restoring.dram readBack.descs) = [entryRead] ∧
    (∀ q : Fin 6, (headerOf (headersIn restoring.dram readBack.descs) q).check readBack.descs[q].capacity = none) ∧
    (∀ x ∈ entrySites (headersIn restoring.dram readBack.descs),
      (entryIn restoring.dram readBack.descs (headersIn restoring.dram readBack.descs) x).state = 1) ∧
    restockLive [entryRead] = [entryRead] ∧ readBack.areas[entryRead.position.id.area]? = some layout.areas[0] :=
  ⟨by simp only [State.atOperation, State.forwardCovers]; decide +kernel, by decide +kernel,
    by decide +kernel, by decide +kernel, by decide +kernel, by decide +kernel, by decide, by decide⟩

theorem test_witness_restores_write_nothing : restoring.noOwnWrite ∧ automatic.noOwnWrite :=
  ⟨test_witness_no_own_write.2, noOwnWrite_of_none _ (by decide +kernel) (by decide +kernel)⟩

theorem test_witness_restored_images (b : Nat) (h : b < 2048) :
    (Memory.binImage restoring.dram (restoring.cbBase + 4096 + 8 * b)).ok = true ∧
    (Memory.binImage restoring.dram (restoring.cbBase + 4096 + 8 * b)).state ≠ 3 ∧
    (Memory.binImage restoring.dram (restoring.cbBase + 4096 + 8 * b)).occupied
      + [entryRead].countP (fun e => decide (e.bin = b)) ≤ 255 := by
  unfold restoring
  rw [starting_dram, starting_cbBase, test_images_of_a_start 2 b h]
  refine ⟨by decide, by decide, ?_⟩
  have := List.countP_le_length (p := fun e : RingEntry => decide (e.bin = b)) (l := [entryRead])
  show 0 + _ ≤ 255
  simp only [List.length_singleton] at this
  omega

/-- A header, and an entry of area 0. -/
def header (head tail count : Nat) : QHeader :=
  { head := head, tail := tail, count := count, live := 0, lastTicket := 0, appended := 0, taken := 0, voided := 0 }
def entryOf (state : Nat) (ticket : Word32) (slot bin : Nat) : EntryRead :=
  { state := state, ticket := ticket, id := { area := 0, slot := slot }, bin := bin }

theorem test_witness_restore_checks :
    ((header 16 0 0).check 16 = some 1 ∧ (header 0 16 0).check 16 = some 1 ∧ (header 0 0 17).check 16 = some 1 ∧
      (header 15 14 15).check 16 = none ∧ (header 15 15 16).check 16 = none ∧ (header 15 15 0).check 16 = none ∧
      (header 15 14 16).check 16 = some 2) ∧
    (let c (q : Fin 6) (e : EntryRead) : Option Nat :=
       checkEntry layout.areas [(9, { BinImage.zero with state := 3 })] [7] q e
     c 0 (entryOf 0 5 1 8) = some 3 ∧ c 0 (entryOf 3 5 1 8) = some 3 ∧ c 0 (entryOf 1 0 1 8) = some 4 ∧
     c 0 (entryOf 2 7 1 8) = some 4 ∧ c 0 (entryOf 2 5 9 4095) = none ∧ c 2 (entryOf 1 5 9 4095) = none ∧
     c 1 (entryOf 1 5 4 8) = some 5 ∧ c 1 (entryOf 1 5 3 2048) = some 6 ∧ c 1 (entryOf 1 5 3 9) = some 6 ∧
     c 1 (entryOf 1 5 3 2047) = none) := by
  decide +kernel

/-- A restore that has read some headers, or the headers and some entries. -/
def inHeaders (l : List QHeader) : State := atWork (.headers data l) restoring
def inEntries (l : List RingEntry) : State := atWork (.entries data (headersIn (startDram 2) readBack.descs) l) restoring

theorem test_witness_restore_reads :
    let five : List QHeader := List.replicate 5 (header 0 0 0)
    let hs : List QHeader := headersIn (startDram 2) readBack.descs
    ((inHeaders five).cu.work = .headers data five ∧ five.length = (5 : Fin 6).val ∧
      overlapsForward (inHeaders five).fwd data.tables.descs[(5 : Fin 6)].ringBase 48 = false ∧
      overlapsForward [fwdAt 282624 .posted] data.tables.descs[(5 : Fin 6)].ringBase 48 = true) ∧
    ((headerOf (header 16 0 0 :: five) 0).check data.tables.descs[(0 : Fin 6)].capacity = some 1 ∧
      (∀ p : Fin 6, (headerOf (header 0 0 0 :: five) p).check data.tables.descs[p].capacity = none)) ∧
    (entrySites (header 0 0 0 :: five) = [] ∧ entrySites hs = [(0, 0)]) ∧
    ((inEntries []).cu.work = .entries data hs [] ∧ (entrySites hs)[0]? = some (0, 0) ∧
      overlapsForward (inEntries []).fwd 262208 16 = false ∧ overlapsForward [fwdAt 262208 .posted] 262208 16 = true ∧
      checkEntry data.tables.areas data.images [] 0 (Memory.entry (inEntries []).cuRead.memory 262208) = none ∧
      checkEntry data.tables.areas data.images [5] 0 (Memory.entry (inEntries []).cuRead.memory 262208) = some 4 ∧
      entrySites [header 0 2 2] = [(0, 0), (0, 1)]) := by
  decide +kernel

/-- Entries of Q0 in different slots, each naming a bin of its own. -/
def manyEntries (n : Nat) : List RingEntry :=
  (List.range n).map (fun i =>
    { queue := 0, pos := i, bin := i, position := { state := .live, ticket := 5, id := { area := 0, slot := i } } })

theorem manyEntries_bins (n b : Nat) : (manyEntries n).countP (fun e => decide (e.bin = b)) ≤ 1 := by
  unfold manyEntries
  rw [List.countP_map]
  show (List.range n).countP (fun i => decide (i = b)) ≤ 1
  have := (List.nodup_iff_count_le_one.1 (List.nodup_range (n := n))) b
  simpa [List.count, beq_eq_decide] using this

theorem test_witness_full_reservations :
    (manyEntries 1024).length = 1024 ∧ ((manyEntries 1024).map (·.position.id)).Nodup ∧
    (∀ b, (manyEntries 1024).countP (fun e => decide (e.bin = b)) = 0 ∨
      (Map.getD Bin.reset (loadBins false []) b).occupied + (manyEntries 1024).countP (fun e => decide (e.bin = b)) ≤ 255) := by
  refine ⟨by simp [manyEntries], ?_, fun b => Or.inr ?_⟩
  · unfold manyEntries
    rw [List.map_map]
    exact List.Nodup.map (fun i j h => congrArg SlotId.slot h) List.nodup_range
  · have h := manyEntries_bins 1024 b
    have z : (Map.getD Bin.reset (loadBins false []) b).occupied = 0 := by rw [getD_loadBins]; split <;> rfl
    omega

theorem test_witness_failed_reservations :
    (entryRead.position.id ∈ [entryRead].map (·.position.id)) ∧
    (({ entryRead with position := { entryRead.position with id := slotT } } : RingEntry).position.id
      ∉ [entryRead].map (·.position.id)) ∧
    255 ≤ (Map.getD Bin.reset (loadBins false [(9, { BinImage.zero with occupied := 255 })]) 9).occupied := by
  refine ⟨by decide, by decide, ?_⟩
  rw [getD_loadBins]; decide

theorem test_witness_rebuilt_queues :
    ([entryRead].filter (fun e => decide (e.queue = 0))).map (·.pos) = [0] ∧
    (rebuildQueues [header 0 1 1] [entryRead]).queues[(0 : Fin 6)].position 0 = some entryRead.position ∧
    (rebuildQueues [header 0 1 1] [entryRead]).queues[(0 : Fin 6)].position 1 = none := by
  decide +kernel

/-! ## Witnesses: switches and RELOAD -/

/-- A start at its switch. -/
def atSwitch (fwd : List FwdWrite) : State :=
  atWork (.startSwitch { data := data, detail := 0, counter := 1 }) { starting 1 with fwd := fwd }

/-- A PASS write that a switch sets free, and reads behind it, are answered in the step of the switch, whose grants may reach
the echo write: its FAULT is still the halt of R170. -/
theorem test_echo_of_a_switch_stays_outstanding :
    let w : Outstanding :=
      { req := .write (wr 32768 [1, 2, 3, 4, 5, 6, 7, 8]), twin := false, stage := .stalled .postingStopped }
    let o (tag : Fin 8) : Outstanding := { waitingOne with req := .read { rd 40960 8 with tag := tag } }
    let s : State :=
      { withA [w, o 1, o 2] (atSwitch []) with layout := layout, cu := { (atSwitch []).cu with mode := .run } }
    let t := ((s.afterSwitch { data := data, detail := 0, counter := 1 }).releaseStalls Stall.isPosting).finish
    t.portA.returned.length = 3 ∧ OwnReq.cuWrite ∉ t.ma.own ∧ t.haltCells .modeEcho = some (echoCells 0 .run) := by
  decide +kernel

/-- The FAULT of that echo write is the halt of R170. -/
theorem test_echo_fault_of_a_start :
    let r : ResultWrite := { seq := some 9, result := .ok, detail := 0, prior := .echo .run, after := .nothing }
    let s : State := { inMode .run with cu := { (inMode .run).cu with work := .result r } }
    let halted := (s.ownFault .modeEcho (echoCells s.cbBase .run) [] answers)
    s.haltCells .modeEcho = some (echoCells 0 .run) ∧ s.haltCells .resultWrite ≠ none ∧
    halted.cu.mode = .halted ∧ halted.cu.work = .idle ∧ halted.dram = Memory.writeCells [] (echoCells 0 .halted) ∧
    halted.ma.own = [] := by
  decide +kernel

/-- A RELOAD at its switch. -/
def atReload (t : Tables) (stage : IcuStage) (s : State) : State :=
  atWork (.reloadSwitch 9 t) { s with icu := { s.icu with stage := stage } }

theorem test_witness_switches :
    (0 < (atSwitch [fwdAt 32768 .posted]).buffered ∧ (atSwitch []).buffered = 0 ∧
      (atSwitch []).bu.imageInFlight = none ∧ (atSwitch []).qu.waiting = [] ∧ (atSwitch []).qu.inFlight = none) ∧
    ((atReload readBack .paused run).buffered = 0 ∧ (atReload readBack .paused run).icu.stage = .paused ∧
      (atReload readBack .paused run).reloadRefusal readBack = none ∧ (atReload readBack .idle run).icu.stage ≠ .paused ∧
      readBack.zones ≠ run.bu.zones ∧ (∀ q, run.desc? q = some readBack.descs[q]) ∧ run.qu.inFlight = none ∧
      run.qu.waiting = []) ∧
    (let t : Tables := { readBack with descs := Vector.replicate 6 (desc 0) }
     run.reloadRefusal t = none ∧ run.desc? 1 ≠ some t.descs[(1 : Fin 6)] ∧
     (withRing slotA run).reloadRefusal t = some (.queueBusy, 1)) ∧
    (let t : Tables := { readBack with zones := run.bu.zones }
     t.zones = run.bu.zones) ∧
    (let s : State := { run with qu := { run.qu with inFlight := some { item := .header 0, cells := [] } } }
     s.qu.inFlight ≠ none) := by
  decide +kernel

theorem test_witness_reload :
    ((reloading run).atOperation 3 ∧ (reloading (inMode .frozen)).atOperation 3) ∧
    (let s := atWork (.tables .reload 9 6 (beforeLast .reload)) (reloading run)
     overlapsForward s.fwd (s.cbBase + (tableRun (.table 7)).1) (tableRun (.table 7)).2 = false ∧
     overlapsForward [fwdAt 384 .posted] (s.cbBase + (tableRun (.table 7)).1) (tableRun (.table 7)).2 = true ∧
     ((beforeLast .reload).take s.cuRead.memory s.cbBase (.table 7)).check s.cbBase = .ok readBack ∧
     s.busyQueue readBack.descs = none ∧ s.busyArea readBack.areas = none) ∧
    (TablesRead.none.take [] 0 (.table 7)).check 0 = .error 1 ∧
    (let s := { withRing slotA run with layout := { layout with descs := some (Vector.replicate 6 (desc 0)) } }
     s.busyQueue readBack.descs = some 1) ∧
    ({ run with icu := { run.icu with cq := [.command slotT] } } : State).busyArea readBack.areas = some 1 ∧
    ({ run with ru := { run.ru with table := [{ takenResv 2 with id := slotT }] } } : State).busyArea readBack.areas = some 1 ∧
    (busyA.busyArea (Vector.replicate 4 { base := 0, slots := 0, trial := false, valid := false }) = some 0) :=
  ⟨by simp only [State.atOperation]; decide +kernel, by decide +kernel, by decide +kernel, by decide +kernel,
    by decide +kernel, by decide +kernel, by decide +kernel⟩

theorem test_witness_table_entries :
    let cls (l : List Byte) : Option (Option ClassEntry) := Memory.classEntry (Memory.writeCells [] (cellsAt 0 l)) 0
    let zone (l : List Byte) : Option Zone := Memory.zone (Memory.writeCells [] (cellsAt 0 l)) 0
    (cls [0, 101] = some none ∧ cls [1, 100, 100, 100, 0, 3, 5, 5, 5, 5, 5] ≠ none ∧ cls [1, 101] = none ∧ cls [1, 9, 10] = none ∧
      cls [1, 9, 9, 10] = none ∧ cls [1, 0, 0, 0, 0, 4] = none ∧ cls [1, 0, 0, 0, 0, 0, 0, 0, 0, 0, 6] = none) ∧
    (zone [0, 8, 2, 0] ≠ none ∧ zone [255, 7, 1, 1] = some { valid := true, last := 2047, kind := .reserve } ∧
      zone [0, 8, 0, 1] = none ∧ zone [0, 0, 2, 1] = none) := by
  decide +kernel

theorem test_witness_table_checks :
    let z (last : Nat) : Zone := { valid := true, last := last, kind := .pick }
    let area : AreaDesc := { base := 65536, slots := 4, trial := false, valid := true }
    let ok : TablesRead := found .reload
    ({ ok with format := 2 }.check 0 = .error 1 ∧ { ok with deadline := 29 }.check 0 = .error 1 ∧
      { ok with deadline := 3601 }.check 0 = .error 1 ∧ { ok with deadline := 30 }.check 0 ≠ .error 1 ∧
      { ok with deadline := 3600 }.check 0 ≠ .error 1) ∧
    ({ ok with classes := none }.check 0 = .error 2 ∧ { ok with caps := none }.check 0 = .error 3 ∧
      { ok with bias := none }.check 0 = .error 4 ∧ { ok with zones := none }.check 0 = .error 5 ∧
      { ok with zones := some [z 5, z 5] }.check 0 = .error 5) ∧
    ({ ok with areas := #v[{ area with base := 65504 }, area, area, area] }.check 0 = .error 6 ∧
      { ok with areas := #v[area, area, area, area] }.check 0 = .error 6 ∧
      { ok with descs := #v[desc 0, desc 1, desc 2, desc 3, desc 4, desc 4] }.check 0 = .error 7) := by
  decide +kernel

theorem test_witness_event_line :
    ({ Eu.reset with mask := 2048 }).mask.getLsbD EventKind.badRequest.index = true ∧
    ({ Eu.reset with mask := 2048 }).mask.getLsbD EventKind.cmdRefused.index = false := by decide

theorem test_witness_write_back_bytes (a : Nat) :
    (a + 6 < a + 7 ∧ a + 10 ≤ a + 10 ∧ a + 31 < a + 32 ∧ a + 52 ≤ a + 52) := by omega

/-! ## Witnesses: what a command leaves, joining CQ, and the ports at a switch -/

/-- A part that is settled and within its limits, with a held request and a request that waits for a write of its own. -/
def settledOne : State :=
  withA [{ req := .write (wr 0 [1]), twin := false, stage := .writing }, heldOne 1]
    { run with fwd := [fwdAt 64 (.mailbox .B false), fwdAt 0 (.plain .A .ok)] }

theorem test_witness_settled :
    (settledOne.withinLimits ∧ settledOne.settled ∧ settledOne.pending = []) ∧
    (let s : State := { settledOne with pending := [.postedWriteDrain .ok] }
     s.withinLimits ∧ s.settled ∧ ∃ t, step s = .next t) := by
  refine ⟨?_, ?_, ?_, _, rfl⟩ <;> simp only [State.withinLimits, State.forwardCovers, State.settled] <;> decide +kernel

/-- A posted write drains, the write that its place sets free is taken, and the response behind it goes with it. -/
theorem test_a_command_ends_settled :
    let w : Outstanding := { req := .write (wr 32768 [1, 2, 3, 4, 5, 6, 7, 8]), twin := false, stage := .stalled .bufferFull }
    let s : State := withA [w, { waitingOne with req := .read { rd 40960 8 with tag := 1 } }]
      { run with fwd := List.replicate 8 (fwdAt 0 .posted) }
    let t := afterExec (.postedWriteDrain .ok) s
    s.withinLimits ∧ s.settled ∧ t.settled ∧ t.portA.outstanding = [] ∧ t.portA.returned.length = 2 ∧ t.buffered = 8 := by
  simp only [State.withinLimits, State.forwardCovers, State.settled]; decide +kernel

theorem test_witness_takes :
    (withA [waitingOne] run).chosenPort = some .A ∧ run.chosenPort = none ∧
    headRequest ((withA [waitingOne] run).port .A).outstanding = some waitingOne := by decide +kernel

/-- A read of 8 bytes at 65600 and writes of 64 bytes that share none of its bytes, its first and its last (R138). -/
theorem test_witness_overlaps :
    let r := rd 65600 8
    let at_ (a : Nat) : FwdWrite := fwdAt a .posted
    ([65536, 65537, 65607, 65608].map (fun a => overlapsForward [at_ a] r.addr.toNat r.len) = [false, true, true, false]) ∧
    lastOverlap (wholeRead r) [] = 0 ∧ lastOverlap (wholeRead r) [at_ 65536, at_ 65608] = 0 ∧
    lastOverlap (wholeRead r) [at_ 65600] = 1 ∧ lastOverlap (wholeRead r) [at_ 65600, at_ 65537, at_ 65608] = 2 ∧
    lastOverlap [.mem 0 16, .synth [1], .mem 65600 8] [at_ 65607, at_ 128, at_ 15, at_ 16] = 3 := by decide +kernel

theorem test_witness_posting_stopped :
    (atSwitch []).postingStopped = true ∧ (atReload readBack .idle run).postingStopped = true ∧
    run.postingStopped = false ∧ (atWork .reading run).postingStopped = false ∧
    ({ run with fwd := [fwdAt 0 .posted, fwdAt 0 (.plain .A .ok), fwdAt 0 .posted] } : State).buffered = 2 := by
  decide +kernel

/-- What keeps a slot busy, and what does not (R3, R14, R16). -/
theorem test_witness_busy :
    let at_ (given : List SlotId) (cq : List CqEntry) (stage : IcuStage) : State :=
      { run with icu := { run.icu with given := given, cq := cq, stage := stage } }
    let svc (e : CqEntry) (a : Option Nat) : Service := { entry := e, frozen := false, addr := a }
    (at_ [slotA] [] .idle).busy slotA = true ∧ (at_ [] [.command slotA] .idle).busy slotA = true ∧
    (at_ [] [] (.fetching (svc (.take slotA 1 5) (some 65600)))).busy slotA = true ∧
    (at_ [] [.expiry slotA 1, .take slotA 1 5] .paused).busy slotA = false ∧
    (at_ [] [] (.fetching (svc (.expiry slotA 5) none))).busy slotA = false ∧
    (let s := at_ [slotA] [.expiry slotA 1, .command slotT] (.writeBack (svc (.take slotA 1 5) (some 65600)) [] [])
     s.places = 4 ∧ s.commandPlaces = 2) := by decide +kernel

/-- The bytes of a slot that a write may set, and the byte that carries a command (R13, 12.1). -/
theorem test_witness_slot_bytes :
    let w := wr 65600 (List.replicate 64 1)
    (hostCells w).map (·.1 - 65600) = List.range 32 ++ (List.range 12).map (52 + ·) ∧
    carriesCommand (wr 65600 [1, 2, 3, 4, 5, 6, 0, 1]) = true ∧ carriesCommand (wr 65600 [1, 2, 3, 4, 5, 6, 7, 0]) = false ∧
    carriesCommand { wr 65600 [] with len := 8, bytes := List.replicate 7 (some 1) ++ [none] } = false ∧
    carriesCommand (wr 65608 [1, 2, 3, 4, 5, 6, 7, 8]) = false ∧
    (65607, (1 : Byte)) ∈ writeCellsOf (wr 65600 [1, 2, 3, 4, 5, 6, 0, 1]) ∧ 65607 % 64 = 7 := by decide +kernel

/-- An entry joins CQ: an idle unit takes the head in RUN and FROZEN, with a fetch where the slot has an address, and the
entries wait in order otherwise (R3, R38, R39, R40). -/
theorem test_witness_joining_cq :
    let at_ (m : Mode) (cq : List CqEntry) (stage : IcuStage) : State :=
      { inMode m with icu := { run.icu with cq := cq, stage := stage }, ma := { Arbiter.reset with own := [.queueWrite] } }
    let e : CqEntry := .command slotA
    let n (slot : Nat) : CqEntry := .expiry { area := 0, slot := slot } 1
    let shown (s : State) : List CqEntry × IcuStage × List OwnReq := (s.icu.cq, s.icu.stage, s.ma.own)
    shown ((at_ .run [] .idle).joinCq e)
      = ([], .fetching { entry := e, frozen := false, addr := some 65600 }, [.queueWrite, .fetch]) ∧
    shown ((at_ .frozen [n 4, n 3] .idle).joinCq e)
      = ([n 3, e], .fetching { entry := n 4, frozen := true, addr := none }, [.queueWrite]) ∧
    shown ((at_ .run [n 3] .paused).joinCq e) = ([n 3, e], .paused, [.queueWrite]) ∧
    shown ((at_ .halted [] .idle).joinCq e) = ([e], .idle, [.queueWrite]) := by decide +kernel

/-- The end of a service: the next entry's fetch stands last, and there is none for a slot that has no address. -/
theorem test_witness_next_service :
    let s (cq : List CqEntry) : State :=
      { run with icu := { run.icu with cq := cq, stage := .writeBack (svcOf slotA 65600) [] [] },
                 ma := { Arbiter.reset with own := [.imageWrite] } }
    (s [.command slotT, .expiry slotA 1]).endService.ma.own = [.imageWrite, .fetch] ∧
    (s [.command slotT, .expiry slotA 1]).endService.icu.cq = [.expiry slotA 1] ∧
    (s [.expiry { area := 0, slot := 4 } 1]).endService.ma.own = [.imageWrite] ∧ (s []).endService.icu.stage = .idle := by
  decide +kernel

/-- A RELOAD's switch with an entry that waits, a stalled write and a changed queue, and one that is refused. -/
theorem test_witness_reload_switch :
    let t : Tables := { readBack with descs := Vector.replicate 6 (desc 0) }
    let stages (v : PortState) : List Stage := v.outstanding.map (·.stage)
    let e : CqEntry := .command slotA
    let s : State := withA [{ heldOne 0 with stage := .stalled .bufferFull }] (atReload t .paused
      { run with icu := { run.icu with cq := [e, e], pauseAsked := true }, ma := { Arbiter.reset with own := [.imageWrite] } })
    let u := afterExec .reloadSwitch s
    let none_ := afterExec .reloadSwitch { s with icu := { s.icu with cq := [.expiry slotT 1] } }
    let refused := afterExec .reloadSwitch (withRing slotA s)
    s.changedQueues t.descs = [1, 2, 3, 4, 5] ∧ s.qu.inFlight = none ∧ s.qu.waiting = [] ∧
    u.ma.own = [.imageWrite, .queueWrite, .fetch, .result] ∧ u.icu.cq = [e] ∧ u.icu.pauseAsked = false ∧
    u.icu.stage = .fetching { entry := e, frozen := false, addr := some 65600 } ∧
    u.qu.inFlight.map (·.item) = some (.header 1) ∧ u.qu.waiting = [.header 2, .header 3, .header 4, .header 5] ∧
    u.qu.lastTicket = s.qu.lastTicket ∧ stages u.portA = [.stalled .bufferFull] ∧
    none_.icu.stage = .fetching { entry := .expiry slotT 1, frozen := false, addr := none } ∧
    none_.ma.own = [.imageWrite, .queueWrite, .result] ∧
    refused.ma.own = [.imageWrite, .fetch, .result] ∧ refused.layout = run.layout ∧
    (run.changedQueues readBack.descs = []) := by decide +kernel

/-- The requests that a RELOAD's switch and a result write set free, and those that they leave. -/
theorem test_witness_requests_set_free :
    let o (st : Stage) : Outstanding := { heldOne 0 with stage := st }
    let l := [o (.held .mailbox), o (.stalled .postingStopped), o (.held .cqCommand), o (.stalled .bufferFull), o .waiting]
    ((withA l run).releaseHolds Hold.isMailbox).portA.outstanding.map (·.stage)
      = [.waiting, .stalled .postingStopped, .held .cqCommand, .stalled .bufferFull, .waiting] ∧
    ((withA l run).releaseStalls Stall.isPosting).portA.outstanding.map (·.stage)
      = [.held .mailbox, .waiting, .held .cqCommand, .stalled .bufferFull, .waiting] := by decide +kernel

/-- The first image write of a start's switch carries the image of the first changed bin. -/
theorem test_witness_start_switch_image :
    let s : State := { atSwitch [] with bu := bins49 }
    let u := afterExec .startSwitch s
    changedBins s.bu.bins data.images = [210, 215, 230] ∧ s.bu.imageInFlight = none ∧
    u.bu.imageInFlight = some { bin := 210, cells := cellsAt 5776 [7, 0, 6, 0, 0, 0, 0, 0] } ∧
    u.ma.own = [.queueWrite, .imageWrite, .cuWrite] := by decide +kernel

/-- The choice of notes/assumptions/37.md: a read of a ring's header granted behind the header write returns its data, and
memory then answers that write FAULT and leaves another byte. -/
theorem test_read_behind_a_write_that_faults :
    let s : State := { run with
      qu := { run.qu with inFlight := some { item := .header 1, cells := [(266240, 5)] } }
      ma := { Arbiter.reset with order := [.own .queueWrite] } }
    let t := afterExec (.ringRead .A (rd 266240 8)) s
    let u := afterExec (.halt .queueWrite [9] answers) t
    t.portA.returned = [{ tag := 0, status := .ok, data := [5, 0, 0, 0, 0, 0, 0, 0] }] ∧ Memory.read t.dram 266240 = 0 ∧
    Memory.read u.dram 266240 = 9 ∧ u.cu.mode = .halted := by decide +kernel

end Sys2Proof.Machine.Test
end

section
/-! The score grade (R28): one equation for each band of SCORE between the thresholds, and that no band gives X. -/

namespace Sys2Proof.Machine

theorem ClassEntry.scoreGrade_of_tA_le {c : ClassEntry} {score : Nat} (hA : c.tA ≤ score) : c.scoreGrade score = .A :=
  if_pos hA

theorem ClassEntry.scoreGrade_of_lt_tA_of_tB_le {c : ClassEntry} {score : Nat} (hA : score < c.tA)
    (hB : c.tB ≤ score) : c.scoreGrade score = .B := by
  rw [ClassEntry.scoreGrade, if_neg (Nat.not_le.mpr hA), if_pos hB]

theorem ClassEntry.scoreGrade_of_lt_tB_of_tC_le {c : ClassEntry} {score : Nat} (hA : score < c.tA)
    (hB : score < c.tB) (hC : c.tC ≤ score) : c.scoreGrade score = .C := by
  rw [ClassEntry.scoreGrade, if_neg (Nat.not_le.mpr hA), if_neg (Nat.not_le.mpr hB), if_pos hC]

theorem ClassEntry.scoreGrade_of_lt_tC {c : ClassEntry} {score : Nat} (hA : score < c.tA) (hB : score < c.tB)
    (hC : score < c.tC) : c.scoreGrade score = .D := by
  rw [ClassEntry.scoreGrade, if_neg (Nat.not_le.mpr hA), if_neg (Nat.not_le.mpr hB), if_neg (Nat.not_le.mpr hC)]

/-- SCORE lies in one of the four bands, whatever the order of the thresholds, and each band has its own grade. -/
theorem ClassEntry.scoreGrade_ne_X (c : ClassEntry) (score : Nat) : c.scoreGrade score ≠ .X := by
  rcases Nat.lt_or_ge score c.tA with hA | hA
  · rcases Nat.lt_or_ge score c.tB with hB | hB
    · rcases Nat.lt_or_ge score c.tC with hC | hC
      · simp [ClassEntry.scoreGrade_of_lt_tC hA hB hC]
      · simp [ClassEntry.scoreGrade_of_lt_tB_of_tC_le hA hB hC]
    · simp [ClassEntry.scoreGrade_of_lt_tA_of_tB_le hA hB]
  · simp [ClassEntry.scoreGrade_of_tA_le hA]

/-- Settles O27: each clause is the equation of its band. -/
theorem scoreGradeFollowsTheThresholds : Obligations.ScoreGradeFollowsTheThresholds := by
  intro c score
  exact ⟨ClassEntry.scoreGrade_of_tA_le, ClassEntry.scoreGrade_of_lt_tA_of_tB_le,
    ClassEntry.scoreGrade_of_lt_tB_of_tC_le, ClassEntry.scoreGrade_of_lt_tC, c.scoreGrade_ne_X score⟩

end Sys2Proof.Machine
end

section
/-! Writes to ring areas and view windows (R121): the decoder drops them, so no byte of them reaches the forwarded side. -/

namespace Sys2Proof.Machine

/-- In INIT only the control block is watched (R131). -/
theorem State.classOf_isWatchedArea_of_init {s : State} (x : Nat) (hm : s.cu.mode = .init) :
    (s.classOf x).isWatchedArea = false := by
  unfold State.classOf
  cases s.placeOf x <;> simp [hm, Place.isWatchedArea]

theorem exec_ringWrite (p : Port) (r : WriteReq) (s : State) : exec (.ringWrite p r) s = .next (s.issue p (.write r)) := rfl

theorem exec_viewWrite (p : Port) (r : WriteReq) (s : State) : exec (.viewWrite p r) s = .next (s.issue p (.write r)) := rfl

/-- The decoder drops a write with an enabled byte that falls in a ring area or a view window. -/
theorem State.decideWrite_of_ring_or_view {p : Port} {r : WriteReq} {q : Fin 6} {off : Nat} {s : State}
    (he : (writeCellsOf r).isEmpty = false)
    (hc : s.classOf r.addr.toNat = .ring q off ∨ s.classOf r.addr.toNat = .view q off) :
    s.decideWrite p r = s.takeDroppedWrite r := by
  rcases hc with hc | hc <;> simp [State.decideWrite, he, hc]

theorem State.takeDroppedWrite_of_halted {r : WriteReq} {s : State} (hm : s.cu.mode = .halted) :
    s.takeDroppedWrite r = (faulted r.tag, s) := if_pos hm

theorem State.takeDroppedWrite_of_not_halted {r : WriteReq} {s : State} (hm : s.cu.mode ≠ .halted) :
    s.takeDroppedWrite r = (okDone r.tag, s.raise .protection) := if_neg hm

/-- In either mode a dropped write leaves DRAM and the forwarded writes. -/
theorem State.takeDroppedWrite_memory (r : WriteReq) (s : State) :
    (s.takeDroppedWrite r).2.dram = s.dram ∧ (s.takeDroppedWrite r).2.fwd = s.fwd := by
  by_cases hm : s.cu.mode = .halted
  · simp [State.takeDroppedWrite_of_halted hm]
  · simp [State.takeDroppedWrite_of_not_halted hm]

/-- While the forwarded side waits for an answer of memory, a request that is taken moves no forwarded write. -/
theorem State.taken_memory (p : Port) (req : Request) (st : Stage) {s : State} (hf : forwardWaits s.fwd = true) :
    (State.taken p req st s).dram = s.dram ∧ (State.taken p req st s).fwd = s.fwd := by
  unfold State.taken
  rw [State.goForward_of_waits _ (by simpa using hf)]
  simp

/-- Settles O18: both rows present the write at its port, and the decoder drops it whichever of the two areas it falls in. -/
theorem ringAndViewWritesAreDropped : Obligations.RingAndViewWritesAreDropped := by
  refine ⟨fun s x q off hm => ?_, fun p r q off s hfree hlegal hc => ?_⟩
  · have hw := State.classOf_isWatchedArea_of_init x hm
    exact ⟨fun h => by simp [h, Place.isWatchedArea] at hw, fun h => by simp [h, Place.isWatchedArea] at hw⟩
  · have hissue : s.issue p (.write r)
        = State.taken p (.write r) (s.takeDroppedWrite r).1 (s.takeDroppedWrite r).2 := by
      rw [State.issue_write_of_portFree p r s hfree hlegal.1, State.decideWrite_of_ring_or_view hlegal.2 hc]
    rw [exec_ringWrite, exec_viewWrite, hissue]
    refine ⟨fun hm => ?_, fun hm => ?_, fun t ht => ?_⟩
    · rw [State.takeDroppedWrite_of_halted hm]
      exact ⟨rfl, rfl⟩
    · rw [State.takeDroppedWrite_of_not_halted hm]
      exact ⟨rfl, rfl⟩
    · obtain ⟨hdram, hfwd⟩ := State.takeDroppedWrite_memory r s
      obtain ⟨⟨-, hwaits, -⟩, -⟩ := hfree
      have hmem := State.taken_memory p (.write r) (s.takeDroppedWrite r).1 (hfwd ▸ hwaits)
      simp only [Host.Outcome.next.injEq, or_self] at ht
      rwa [ht, hdram, hfwd] at hmem

end Sys2Proof.Machine
end

section
/-! The EVENT line (R174): when it is asserted, and how it follows a raise, a mask setting and a reset. -/

namespace Sys2Proof.Machine

theorem EventKind.index_lt (k : EventKind) : k.index < 12 := by cases k <;> decide

theorem Eu.line_iff (u : Eu) :
    u.line = true ↔ ∃ n, n < 12 ∧ u.pending.getLsbD n = true ∧ u.mask.getLsbD n = true := by
  have hempty : (u.pending &&& u.mask) = 0 ↔ ∀ n, n < 12 → (u.pending &&& u.mask).getLsbD n = false := by
    simp [BitVec.eq_of_getLsbD_eq_iff]
  rw [Eu.line, bne_iff_ne, ne_eq, hempty]
  simp

@[simp] theorem Eu.raise_mask (k : EventKind) (u : Eu) : (u.raise k).mask = u.mask := rfl

@[simp] theorem Eu.setMask_pending (covered value : BitVec 12) (u : Eu) :
    (u.setMask covered value).pending = u.pending := rfl

theorem Eu.raise_pending_getLsbD (k : EventKind) (u : Eu) {n : Nat} (hn : n < 12) :
    (u.raise k).pending.getLsbD n = (u.pending.getLsbD n || decide (n = k.index)) := by
  rw [Eu.raise, BitVec.getLsbD_or, k.bit_at n hn]

/-- A mask setting changes the kinds it covers and no other (R173). -/
theorem Eu.setMask_mask_getLsbD (covered value : BitVec 12) (u : Eu) {n : Nat} (hn : n < 12) :
    (u.setMask covered value).mask.getLsbD n
      = if covered.getLsbD n then value.getLsbD n else u.mask.getLsbD n := by
  simp only [Eu.setMask, BitVec.getLsbD_or, BitVec.getLsbD_and, BitVec.getLsbD_not, hn, decide_true]
  cases covered.getLsbD n <;> simp

/-- After a raise the line is asserted when it was before or when the kind raised is enabled. -/
theorem Eu.line_raise (k : EventKind) (u : Eu) :
    (u.raise k).line = (u.line || u.mask.getLsbD k.index) := by
  rw [Bool.eq_iff_iff, Bool.or_eq_true, Eu.line_iff, Eu.line_iff]
  constructor
  · rintro ⟨n, hn, hpending, hmask⟩
    rw [Eu.raise_pending_getLsbD k u hn, Bool.or_eq_true, decide_eq_true_eq] at hpending
    rcases hpending with hpending | rfl
    · exact .inl ⟨n, hn, hpending, hmask⟩
    · exact .inr hmask
  · rintro (⟨n, hn, hpending, hmask⟩ | hmask)
    · exact ⟨n, hn, by simp [Eu.raise_pending_getLsbD k u hn, hpending], hmask⟩
    · exact ⟨k.index, k.index_lt, by simp [Eu.raise_pending_getLsbD k u k.index_lt], hmask⟩

theorem Eu.line_of_pending_eq_zero {u : Eu} (h : u.pending = 0) : u.line = false := by
  simp [Eu.line, h]

theorem Eu.line_setMask (covered value : BitVec 12) (u : Eu) :
    (u.setMask covered value).line = true ↔ ∃ n, n < 12 ∧ u.pending.getLsbD n = true ∧
      (if covered.getLsbD n then value.getLsbD n else u.mask.getLsbD n) = true := by
  rw [Eu.line_iff]
  refine exists_congr fun n => and_congr_right fun hn => ?_
  rw [Eu.setMask_pending, Eu.setMask_mask_getLsbD covered value u hn]

/-- Settles O50: the clauses on a raise follow from `Eu.pending_raise` and `Eu.line_raise`, the one on a mask setting from
`Eu.line_setMask`, and those on a read and on a reset from the empty pending set. -/
theorem eventLineIsASharedKind : Obligations.EventLineIsASharedKind := by
  refine ⟨Eu.line_iff, Eu.pending_raise, fun k u => ⟨rfl, fun hon => ?_, fun hoff => ?_⟩,
    fun u => Eu.line_of_pending_eq_zero rfl, Eu.line_setMask, fun cbsel autoload s => ?_⟩
  · rw [Eu.line_raise, hon, Bool.or_true]
  · rw [Eu.line_raise, hoff, Bool.or_false]
  · exact ⟨State.resetWith cbsel autoload s.dram s.pending, rfl, rfl, Eu.line_of_pending_eq_zero rfl⟩

end Sys2Proof.Machine
end

section
/-! What every command keeps: the limits of the traffic path, the limits of the command queue, and that a halted part holds
nothing (R14, R38, R127, R128, R137, R138, R156). -/

namespace Sys2Proof.Machine

/-! ## What an operation keeps -/

/-- What takes effect when the operation that executes ends with its result write. -/
def CuWork.after : CuWork → CuAfter
  | .result r => r.after
  | _ => .nothing

/-- The mode is not HALTED, and no result write that is made leads there. -/
def State.isUp (s : State) : Prop := s.cu.mode ≠ .halted ∧ s.cu.work.after ≠ .mode .halted

/-- What an operation keeps that is no command by itself. -/
structure State.keeps (s t : State) : Prop where
  limits : s.withinLimits → t.withinLimits
  queue : s.queueLimits → t.queueLimits
  up : s.isUp → t.isUp

theorem CuWork.after_of_sameBut {w x : CuWork} (h : w.sameBut x) : x.after = w.after := by
  rcases h with rfl | ⟨_, _, _, _, _, rfl, rfl⟩ <;> rfl

theorem CuWork.after_ne_halted_iff (w : CuWork) :
    w.after ≠ .mode .halted ↔ ∀ r, w = .result r → r.after ≠ .mode .halted := by
  cases w <;> simp [CuWork.after]

theorem State.haltedHoldsNothing_of_isUp {s : State} (h : s.isUp) : s.haltedHoldsNothing :=
  ⟨(CuWork.after_ne_halted_iff _).mp h.2, fun hm => absurd hm h.1⟩

theorem State.isUp_of_haltedHoldsNothing {s : State} (h : s.haltedHoldsNothing) (hm : s.cu.mode ≠ .halted) : s.isUp :=
  ⟨hm, (CuWork.after_ne_halted_iff _).mpr h.1⟩

theorem State.keeps_refl (s : State) : s.keeps s := ⟨id, id, id⟩

theorem State.keeps_trans {s t u : State} (h : s.keeps t) (k : t.keeps u) : s.keeps u :=
  ⟨k.limits ∘ h.limits, k.queue ∘ h.queue, k.up ∘ h.up⟩

theorem State.keeps_of_cu {s t : State} (hl : s.withinLimits → t.withinLimits) (hq : s.queueLimits → t.queueLimits)
    (hc : t.cu = s.cu) : s.keeps t :=
  ⟨hl, hq, fun h => by rw [State.isUp, hc]; exact h⟩

theorem State.keeps_of_units {s t : State} (h : s.unitsOnly t) : s.keeps t where
  limits := State.withinLimits_of_units h
  queue := State.queueLimits_of_same (State.sameCommands_of_units h)
  up hu := by
    obtain ⟨_, _, _, _, _, _, _, rfl, hw⟩ := h
    exact ⟨hu.1, (CuWork.after_of_sameBut hw).trans_ne hu.2⟩

theorem State.keeps_of_served {svc : Service} {s t : State} (hs : s.icu.stage.service = some svc) (h : s.servedTo svc t) :
    s.keeps t where
  limits := State.withinLimits_of_served h
  queue := State.queueLimits_of_same (State.sameCommands_of_served hs h)
  up hu := by
    obtain ⟨_, _, _, _, _, _, _, _, rfl, hw, -⟩ := h
    exact ⟨hu.1, (CuWork.after_of_sameBut hw).trans_ne hu.2⟩

theorem State.keeps_of_reads {s t : State} (h : s.readsOnly t) : s.keeps t where
  limits := State.withinLimits_of_reads h
  queue := State.queueLimits_of_reads h
  up hu := State.isUp_of_haltedHoldsNothing (State.haltedHoldsNothing_of_reads hu.1 h (State.haltedHoldsNothing_of_isUp hu))
    (by obtain ⟨_, _, _, _, _, _, _, rfl, -⟩ := h; exact hu.1)

theorem State.keeps_ownWrite (q : OwnReq) (cells : Cells) (a : WriteAnswer) (s : State) : s.keeps (s.ownWrite q cells a) :=
  State.keeps_of_cu (State.withinLimits_ownWrite q cells a s)
    (State.queueLimits_of_same ⟨by simp, by simp, by simp, by simp⟩) (by simp)

theorem State.keeps_ownRead (q : OwnReq) (s : State) : s.keeps (s.ownRead q) := State.keeps_of_reads (State.readsOnly_ownRead q s)

theorem State.keeps_mapStages (f : Outstanding → Stage) (s : State) : s.keeps (s.mapStages f) :=
  State.keeps_of_cu (State.withinLimits_mapStages f s) (State.queueLimits_of_same ⟨rfl, rfl, rfl, rfl⟩) rfl

theorem State.keeps_finish (s : State) : s.keeps s.finish :=
  State.keeps_of_cu (State.withinLimits_finish s) (State.queueLimits_finish s) (State.quietly_finish s).1

theorem State.keeps_takeNext (s : State) : s.keeps s.takeNext :=
  State.keeps_of_cu (State.withinLimits_takeNext s) (State.queueLimits_takeNext s) (by simp)

theorem State.keeps_endService (s : State) : s.keeps s.endService :=
  State.keeps_of_cu (State.withinLimits_endService s) (State.queueLimits_endService s)
    (by simp [State.endService_eq, State.serviceEnded])

theorem State.keeps_answerPort (p : Port) (f : Fin 8 → Stage) (s : State) : s.keeps (s.answerPort p f) :=
  State.keeps_of_cu (State.withinLimits_setOldest p _ _ s) (State.queueLimits_of_same (State.sameCommands_answerPort p f s))
    (by simp)

/-- A write that is no command-carrying one is answered. -/
theorem State.keeps_answerForward {w : FwdWrite} {r : List FwdWrite} (cells : Cells) (a : WriteAnswer) {s : State}
    (hf : s.fwd = w :: r) (hk : ∀ p id, w.kind ≠ .command p id) : s.keeps (s.answerForward cells a) :=
  State.keeps_of_cu (State.withinLimits_answerForward cells a s)
    (State.queueLimits_of_same (State.sameCommands_answerForward w r cells a s hf hk)) (by simp)

theorem State.keeps_raise (k : EventKind) (s : State) : s.keeps (s.raise k) := State.keeps_of_units (State.raise_units k s)

theorem State.keeps_raiseAll (ks : List EventKind) (s : State) : s.keeps (s.raiseAll ks) :=
  State.keeps_of_units ⟨_, _, _, _, _, _, _, rfl, CuWork.sameBut_refl _⟩

theorem State.keeps_startResult {r : ResultWrite} (hr : r.after ≠ .mode .halted) (s : State) : s.keeps (s.startResult r) :=
  ⟨id, id, fun hu => ⟨hu.1, hr⟩⟩

theorem State.keeps_answerOp (seq : Word32) (res : MbResult) (d : Word32) (s : State) : s.keeps (s.answerOp seq res d) :=
  State.keeps_of_reads (State.readsOnly_answerOp seq res d s)

theorem State.keeps_landQuWrite (f : QuFlight) (s : State) : s.keeps (s.landQuWrite f) :=
  State.keeps_trans (State.keeps_ownWrite .queueWrite f.cells .ok s)
    (State.keeps_of_units ⟨_, _, _, _, _, _, _, rfl, CuWork.sameBut_refl _⟩)

theorem State.answerPrior_work_after (s : State) : s.answerPrior.cu.work.after = s.cu.work.after := by
  unfold State.answerPrior
  split
  · next r hr =>
    split
    · rfl
    · rw [hr]; rfl
  · rfl

theorem State.keeps_answerPrior (s : State) : s.keeps s.answerPrior where
  limits := State.withinLimits_answerPrior s
  queue := State.queueLimits_atCause .resultWrite s
  up hu := ⟨by simpa using hu.1, (State.answerPrior_work_after s).trans_ne hu.2⟩

theorem State.keeps_endOperation (s : State) : s.keeps s.endOperation where
  limits := State.withinLimits_endOperation s
  queue := State.queueLimits_of_same ⟨rfl, rfl, rfl, rfl⟩
  up hu := ⟨by simpa using hu.1, by simp [CuWork.after]⟩

/-! ## What a command keeps -/

/-- What a command keeps: the stated invariants, and from a settled part within the limits that it is settled. -/
structure State.stepKeeps (s t : State) : Prop where
  limits : s.withinLimits → t.withinLimits
  settles : s.withinLimits → s.settled → t.settled
  queue : s.queueLimits → t.queueLimits
  halted : s.haltedHoldsNothing → t.haltedHoldsNothing

/-- Something stands that R156 leaves empty while the mode is HALTED, or the mode is another. -/
def State.active (s : State) : Prop :=
  s.cu.mode ≠ .halted ∨ s.icu.stage ≠ .idle ∨ s.qu ≠ Qu.reset ∨ s.bu ≠ s.bu.halted ∨ s.ru.deadlines ≠ [] ∨
  s.cu.work.builds = true ∨ commandSlots s.fwd ≠ []

theorem State.isUp_of_active {s : State} (ha : s.active) (h : s.haltedHoldsNothing) : s.isUp := by
  refine State.isUp_of_haltedHoldsNothing h fun hm => ?_
  obtain ⟨hstage, -, -, hcmd, -, hdead, hbu, hqu, hwork⟩ := h.2 hm
  rcases ha with ha | ha | ha | ha | ha | ha | ha
  · exact ha hm
  · exact ha hstage
  · exact ha hqu
  · exact ha hbu
  · exact ha hdead
  · simp [hwork] at ha
  · exact ha hcmd

theorem State.active_of_service {s : State} {svc : Service} (h : s.icu.stage.service = some svc) : s.active :=
  .inr (.inl fun e => by simp [e, IcuStage.service] at h)

theorem State.active_of_inFlight {s : State} {f : QuFlight} (h : s.qu.inFlight = some f) : s.active :=
  .inr (.inr (.inl fun e => by simp [e, Qu.reset] at h))

theorem State.active_of_imageInFlight {s : State} {f : ImageWrite} (h : s.bu.imageInFlight = some f) : s.active :=
  .inr (.inr (.inr (.inl fun e => by rw [e] at h; simp [Bu.halted, Bu.reset] at h)))

theorem State.active_of_takeInProgress {s : State} {q : Fin 6} (h : (s.queue q).takeInProgress = true) : s.active :=
  .inr (.inr (.inl fun e => by
    simp [State.queue, e, Qu.reset, QState.takeInProgress, QState.position, QState.reset, Map.at?] at h))

theorem State.active_of_builds {s : State} (h : s.cu.work.builds = true) : s.active :=
  .inr (.inr (.inr (.inr (.inr (.inl h)))))

theorem State.active_of_due {s : State} {r : Reservation} (h : s.ru.due? = some r) : s.active :=
  .inr (.inr (.inr (.inr (.inl fun e => by simp [Ru.due?, e] at h))))

theorem State.active_of_command {s : State} {w : FwdWrite} {r : List FwdWrite} {p : Port} {id : SlotId} (hf : s.fwd = w :: r)
    (hk : w.kind = .command p id) : s.active :=
  .inr (.inr (.inr (.inr (.inr (.inr (by simp [commandSlots, hf, hk]))))))

theorem State.stepKeeps_refl (s : State) : s.stepKeeps s := ⟨id, fun _ => id, id, id⟩

/-- A command that ends by taking the requests it made ready. -/
theorem State.stepKeeps_finish {s t : State} (k : s.keeps t) (h : s.haltedHoldsNothing → t.haltedHoldsNothing) :
    s.stepKeeps t.finish where
  limits := State.withinLimits_finish t ∘ k.limits
  settles w _ := State.finish_settled t (k.limits w).2.1 (k.limits w).2.2.1
  queue := State.queueLimits_finish t ∘ k.queue
  halted w := State.haltedHoldsNothing_of_quietly (State.quietly_finish t) (h w)

theorem State.stepKeeps_finish_of_active {s t : State} (ha : s.active) (k : s.keeps t) : s.stepKeeps t.finish :=
  State.stepKeeps_finish k fun h => State.haltedHoldsNothing_of_isUp (k.up (State.isUp_of_active ha h))

/-- A command that leaves the ports and the forwarded side as they are. -/
theorem State.stepKeeps_of_ports {s t : State} (k : s.keeps t)
    (hp : t.portA = s.portA ∧ t.portB = s.portB ∧ t.fwd = s.fwd ∧ t.ia = s.ia)
    (h : s.haltedHoldsNothing → t.haltedHoldsNothing) : s.stepKeeps t where
  limits := k.limits
  settles _ hs := State.settled_of_ports hs hp.1 hp.2.1 hp.2.2.1 hp.2.2.2
  queue := k.queue
  halted := h

theorem State.stepKeeps_of_active {s t : State} (ha : s.active) (k : s.keeps t)
    (hp : t.portA = s.portA ∧ t.portB = s.portB ∧ t.fwd = s.fwd ∧ t.ia = s.ia) : s.stepKeeps t :=
  State.stepKeeps_of_ports k hp fun h => State.haltedHoldsNothing_of_isUp (k.up (State.isUp_of_active ha h))

end Sys2Proof.Machine
end

section
/-! The invariants of every step: each command is a chain of operations that keep them. -/

namespace Sys2Proof.Machine

/-! ## The state after a reset -/

theorem State.withinLimits_resetWith (cbsel : Fin 16) (autoload : Bool) {d : Memory} (l : List Instr)
    (h : Memory.wf d = true) : (State.resetWith cbsel autoload d l).withinLimits :=
  ⟨h, Nat.zero_le _, Nat.zero_le _, Nat.zero_le _, Nat.le_refl _, fun _ hw => nomatch hw⟩

theorem State.queueLimits_resetWith (cbsel : Fin 16) (autoload : Bool) (d : Memory) (l : List Instr) :
    (State.resetWith cbsel autoload d l).queueLimits :=
  ⟨rfl, Nat.zero_le _, Nat.zero_le _⟩

theorem State.haltedHoldsNothing_resetWith (cbsel : Fin 16) (autoload : Bool) (d : Memory) (l : List Instr) :
    (State.resetWith cbsel autoload d l).haltedHoldsNothing :=
  State.haltedHoldsNothing_of_isUp ⟨Mode.noConfusion, by cases autoload <;> exact CuAfter.noConfusion⟩

theorem State.settled_resetWith (cbsel : Fin 16) (autoload : Bool) (d : Memory) (l : List Instr) :
    (State.resetWith cbsel autoload d l).settled :=
  ⟨rfl, rfl, rfl, rfl⟩

/-- Settles O3: a reset leaves every list empty and the mode INIT. -/
theorem resetHasTheInvariants : Obligations.ResetHasTheInvariants := fun cbsel autoload d l h =>
  ⟨State.withinLimits_resetWith cbsel autoload l h, State.queueLimits_resetWith cbsel autoload d l,
    State.haltedHoldsNothing_resetWith cbsel autoload d l, State.settled_resetWith cbsel autoload d l⟩

theorem State.stepKeeps_reset (cbsel : Fin 16) (autoload : Bool) (s : State) :
    s.stepKeeps (State.resetWith cbsel autoload s.dram s.pending) where
  limits w := State.withinLimits_resetWith cbsel autoload s.pending w.1
  settles _ _ := State.settled_resetWith cbsel autoload s.dram s.pending
  queue _ := State.queueLimits_resetWith cbsel autoload s.dram s.pending
  halted _ := State.haltedHoldsNothing_resetWith cbsel autoload s.dram s.pending

/-! ## A controller's request -/

theorem State.settled_issue (p : Port) (req : Request) {s : State} (w : s.withinLimits) (hs : s.settled) :
    (s.issue p req).settled := by
  obtain ⟨-, hA, hB, -⟩ := w
  unfold State.issue
  split
  · exact hs
  · next hlt =>
    cases p <;> simp only [State.port, Nat.not_le] at hlt
    · exact State.finish_settled _ (by simpa [State.setPort, State.port] using hlt) hB
    · exact State.finish_settled _ hA (by simpa [State.setPort, State.port] using hlt)

theorem State.stepKeeps_issue (p : Port) (req : Request) (s : State) : s.stepKeeps (s.issue p req) where
  limits := State.withinLimits_issue p req s
  settles := State.settled_issue p req
  queue := State.queueLimits_issue p req s
  halted := State.haltedHoldsNothing_of_quietly (State.quietly_issue p req s)

/-! ## The services of the item command unit -/

theorem State.ports_of_served {svc : Service} {s t : State} (h : s.servedTo svc t) :
    t.portA = s.portA ∧ t.portB = s.portB ∧ t.fwd = s.fwd ∧ t.ia = s.ia := by
  obtain ⟨_, _, _, _, _, _, _, _, rfl, -, -⟩ := h
  exact ⟨rfl, rfl, rfl, rfl⟩

theorem State.ports_of_units {s t : State} (h : s.unitsOnly t) :
    t.portA = s.portA ∧ t.portB = s.portB ∧ t.fwd = s.fwd ∧ t.ia = s.ia := by
  obtain ⟨_, _, _, _, _, _, _, rfl, -⟩ := h
  exact ⟨rfl, rfl, rfl, rfl⟩

theorem State.ports_of_reads {s t : State} (h : s.readsOnly t) :
    t.portA = s.portA ∧ t.portB = s.portB ∧ t.fwd = s.fwd ∧ t.ia = s.ia := by
  obtain ⟨_, _, _, _, _, _, _, rfl, -⟩ := h
  exact ⟨rfl, rfl, rfl, rfl⟩

/-- A service goes on, its fetch answered or not. -/
theorem State.stepKeeps_of_served {svc : Service} {s t : State} (hs : s.icu.stage.service = some svc)
    (h : s.servedTo svc t ∨ s.fetched.servedTo svc t) : s.stepKeeps t := by
  rcases h with h | h
  · exact State.stepKeeps_of_active (State.active_of_service hs) (State.keeps_of_served hs h) (State.ports_of_served h)
  · have hs' : s.fetched.icu.stage.service = some svc := by simpa using hs
    exact State.stepKeeps_of_active (State.active_of_service hs)
      (State.keeps_trans (State.keeps_ownRead .fetch s) (State.keeps_of_served hs' h))
      (by simpa using State.ports_of_served h)

theorem State.stepKeeps_onCommand (c : ItemCommand) {f : Service → Rec → State → State} (s : State)
    (hf : ∀ svc rec u, State.servedTo svc u (f svc rec u)) : s.stepKeeps (s.onCommand c f) := by
  rcases State.onCommand_served c f s hf with h | ⟨svc, hstage, h⟩
  · rw [h]; exact s.stepKeeps_refl
  · exact State.stepKeeps_of_served (by rw [hstage]; rfl) (.inr h)

theorem State.stepKeeps_misfit (s : State) : s.stepKeeps s.misfit := by
  rcases State.misfit_served s with h | ⟨svc, hs, h⟩
  · rw [h]; exact s.stepKeeps_refl
  · exact State.stepKeeps_of_served hs h

theorem State.service_of_fetched? {s : State} {x : Service × Rec} (h : s.fetched? = some x) :
    s.icu.stage.service = some x.1 := by
  unfold State.fetched? at h
  split at h
  · next svc hstage =>
    split at h
    · obtain rfl := Option.some.inj h; rw [hstage]; rfl
    · cases h
  · cases h

/-- A command that ends without service writes its record back. -/
theorem State.stepKeeps_writeBack {s : State} {svc : Service} (hs : s.icu.stage.service = some svc) (cells : Cells)
    (events : List EventKind) : s.stepKeeps (s.fetched.startWriteBack svc cells events) :=
  State.stepKeeps_of_served hs (.inr (State.startWriteBack_served svc cells events s.fetched))

theorem State.stepKeeps_endNotice {s t : State} (ha : s.active) (k : s.keeps t) : s.stepKeeps t.endNotice :=
  State.stepKeeps_finish_of_active ha (State.keeps_trans k (State.keeps_endService t))

theorem State.stepKeeps_serveNotice {s : State} {svc : Service} (hs : s.icu.stage.service = some svc)
    (f : Rec → Option RecUpdate) : s.stepKeeps (s.serveNotice svc f) := by
  unfold State.serveNotice
  split
  · exact State.stepKeeps_endNotice (State.active_of_service hs) s.keeps_refl
  · split
    · exact State.stepKeeps_writeBack hs _ _
    · exact State.stepKeeps_endNotice (State.active_of_service hs) (State.keeps_ownRead .fetch s)

theorem exec_badCommand_stepKeeps (s : State) : ∃ t, exec .badCommand s = .next t ∧ s.stepKeeps t := by
  refine ⟨_, rfl, ?_⟩
  split
  · next svc rec h =>
    split
    · exact State.stepKeeps_writeBack (State.service_of_fetched? h) _ _
    · exact s.stepKeeps_refl
  · exact s.stepKeeps_refl

theorem exec_fetchFault_stepKeeps (s : State) : ∃ t, exec .fetchFault s = .next t ∧ s.stepKeeps t := by
  refine ⟨_, rfl, ?_⟩
  split
  · next svc rec h => exact State.stepKeeps_writeBack (State.service_of_fetched? h) _ _
  · exact s.stepKeeps_refl

theorem exec_takeNotice_stepKeeps (s : State) : ∃ t, exec .takeNotice s = .next t ∧ s.stepKeeps t := by
  refine ⟨_, rfl, ?_⟩
  split
  · next svc hstage =>
    split
    · exact State.stepKeeps_serveNotice (by rw [hstage]; rfl) _
    · exact s.stepKeeps_refl
  · exact s.stepKeeps_refl

theorem exec_expiryNotice_stepKeeps (s : State) : ∃ t, exec .expiryNotice s = .next t ∧ s.stepKeeps t := by
  refine ⟨_, rfl, ?_⟩
  split
  · next svc hstage =>
    split
    · exact State.stepKeeps_serveNotice (by rw [hstage]; rfl) _
    · exact s.stepKeeps_refl
  · exact s.stepKeeps_refl

theorem exec_writeBackComplete_stepKeeps (s : State) : ∃ t, exec .writeBackComplete s = .next t ∧ s.stepKeeps t := by
  refine ⟨_, rfl, ?_⟩
  split
  · next svc cells events hstage =>
    exact State.stepKeeps_endNotice (State.active_of_service (svc := svc) (by rw [hstage]; rfl))
      (State.keeps_trans (State.keeps_ownWrite .writeBack cells .ok s) (State.keeps_raiseAll events _))
  · exact s.stepKeeps_refl

/-! ## The queue unit -/

theorem State.ports_landQuWrite (f : QuFlight) (s : State) :
    (s.landQuWrite f).portA = s.portA ∧ (s.landQuWrite f).portB = s.portB ∧ (s.landQuWrite f).fwd = s.fwd ∧
    (s.landQuWrite f).ia = s.ia := by
  simp [State.landQuWrite]

theorem State.landQuWrite_icu (f : QuFlight) (s : State) : (s.landQuWrite f).icu = s.icu := by simp [State.landQuWrite]

/-- A write of the queue unit is answered, and then the units go on. -/
theorem State.stepKeeps_landed {f : QuFlight} {s t : State} (hf : s.qu.inFlight = some f) (k : (s.landQuWrite f).keeps t)
    (hp : t.portA = (s.landQuWrite f).portA ∧ t.portB = (s.landQuWrite f).portB ∧ t.fwd = (s.landQuWrite f).fwd ∧
      t.ia = (s.landQuWrite f).ia) : s.stepKeeps t := by
  obtain ⟨hA, hB, hF, hI⟩ := State.ports_landQuWrite f s
  exact State.stepKeeps_of_active (State.active_of_inFlight hf) (State.keeps_trans (State.keeps_landQuWrite f s) k)
    ⟨hp.1.trans hA, hp.2.1.trans hB, hp.2.2.1.trans hF, hp.2.2.2.trans hI⟩

theorem State.acceptAppend_served (svc : Service) (rec : Rec) (r : Route) (s : State) :
    s.servedTo svc (s.acceptAppend svc rec r).kickQu :=
  State.units_of_servedTo
    (State.servedTo_of_units (State.appendEffect_units _ _ _ s) (State.endCommand_served _ _ _ _ _)) (State.kickQu_units _)

theorem exec_appendEntryWriteDone_stepKeeps (s : State) :
    ∃ t, exec .appendEntryWriteDone s = .next t ∧ s.stepKeeps t := by
  refine ⟨_, rfl, ?_⟩
  split
  · next f svc rec r hf hstage =>
    split
    · have h := State.acceptAppend_served svc rec r (s.landQuWrite f)
      exact State.stepKeeps_landed hf
        (State.keeps_of_served (by rw [State.landQuWrite_icu, hstage]; rfl) h) (State.ports_of_served h)
    · exact s.stepKeeps_refl
  · exact s.stepKeeps_refl

theorem exec_quWriteDone_stepKeeps (s : State) : ∃ t, exec .quWriteDone s = .next t ∧ s.stepKeeps t := by
  refine ⟨_, rfl, ?_⟩
  split
  · next f hf =>
    have hkick := State.kickQu_units (s.landQuWrite f)
    split
    · exact s.stepKeeps_refl
    · rcases State.resumeClaim_served (s.landQuWrite f).kickQu with h | ⟨svc, hs, h⟩
      · rw [h]
        exact State.stepKeeps_landed hf (State.keeps_of_units hkick) (State.ports_of_units hkick)
      · obtain ⟨hA, hB, hF, hI⟩ := State.ports_of_units hkick
        obtain ⟨kA, kB, kF, kI⟩ := State.ports_of_served h
        exact State.stepKeeps_landed hf (State.keeps_trans (State.keeps_of_units hkick) (State.keeps_of_served hs h))
          ⟨kA.trans hA, kB.trans hB, kF.trans hF, kI.trans hI⟩
  · exact s.stepKeeps_refl

theorem State.beginTake_cu (q : Fin 6) (tag : Fin 8) (s : State) : (s.beginTake q tag).2.cu = s.cu := by
  obtain ⟨_, _, _, _, h⟩ := State.beginTake_only_units q tag s
  rw [h]

theorem serveWaiters_cu (q : Fin 6) (l : List Port) (s : State) : (serveWaiters q l s).cu = s.cu := by
  induction l generalizing s with
  | nil => rfl
  | cons p r ih =>
    unfold serveWaiters
    split
    · simp
    · split
      · rw [ih]; simp [State.beginTake_cu]
      · exact ih s

theorem State.keeps_completeTake (q : Fin 6) (d : QDesc) (s : State) : s.keeps (s.completeTake q d) :=
  State.keeps_of_cu (State.withinLimits_completeTake q d s) (State.queueLimits_completeTake q d s)
    (by simp [State.completeTake, serveWaiters_cu])

theorem exec_takeComplete_stepKeeps (q : Fin 6) (s : State) : ∃ t, exec (.takeComplete q) s = .next t ∧ s.stepKeeps t := by
  refine ⟨_, rfl, ?_⟩
  split
  · next d hd =>
    split
    · next htake =>
      exact State.stepKeeps_finish_of_active (State.active_of_takeInProgress htake) (State.keeps_completeTake q d s)
    · exact s.stepKeeps_refl
  · exact s.stepKeeps_refl

end Sys2Proof.Machine
end

section
/-! The invariants of every step, continued: the answers of memory, the reservation unit, the operations and the halt. -/

namespace Sys2Proof.Machine

/-! ## Answers of memory to forwarded writes -/

theorem State.stepKeeps_finish_of_quietly {s t : State} (k : s.keeps t) (q : s.quietly t) : s.stepKeeps t.finish :=
  State.stepKeeps_finish k (State.haltedHoldsNothing_of_quietly q)

theorem FwdWrite.kind_ne_command_of_posted {w : FwdWrite} (h : w.isPosted = true) (p : Port) (id : SlotId) :
    w.kind ≠ .command p id := by
  simp only [FwdWrite.isPosted, decide_eq_true_eq] at h
  simp [h]

theorem State.raisePosted_frame (a : WriteAnswer) (s : State) : s.keeps (s.raisePosted a) ∧ s.quietly (s.raisePosted a) := by
  cases a with
  | ok => exact ⟨s.keeps_refl, s.quietly_refl⟩
  | fault left => exact ⟨State.keeps_raise .memFault s, State.quietly_raise .memFault s⟩

theorem exec_postedWriteDrain_stepKeeps (a : WriteAnswer) (s : State) :
    ∃ t, exec (.postedWriteDrain a) s = .next t ∧ s.stepKeeps t := by
  refine ⟨_, rfl, ?_⟩
  split
  · next w r hf =>
    split
    · next hw =>
      have hk := FwdWrite.kind_ne_command_of_posted hw
      obtain ⟨hraise, hquiet⟩ := State.raisePosted_frame a (s.answerForward w.cells a)
      exact State.stepKeeps_finish_of_quietly
        (State.keeps_trans (State.keeps_trans (State.keeps_answerForward _ a hf hk) hraise) (State.keeps_mapStages _ _))
        (State.quietly_trans (State.quietly_trans (State.quietly_answerForward w r _ a s hf hk) hquiet)
          (State.quietly_mapStages _ _))
    · exact s.stepKeeps_refl
  · exact s.stepKeeps_refl

theorem State.keeps_answered (p : Port) (f : Fin 8 → Stage) {w : FwdWrite} {r : List FwdWrite} (a : WriteAnswer) {s : State}
    (hf : s.fwd = w :: r) (hk : ∀ p id, w.kind ≠ .command p id) :
    s.keeps ((s.answerForward w.cells a).answerPort p f) ∧ s.quietly ((s.answerForward w.cells a).answerPort p f) :=
  ⟨State.keeps_trans (State.keeps_answerForward _ a hf hk) (State.keeps_answerPort p f _),
    State.quietly_trans (State.quietly_answerForward w r _ a s hf hk) (State.quietly_answerPort p f _)⟩

theorem State.withinLimits_dropGiven (id : SlotId) {s : State} (w : s.withinLimits) : (s.dropGiven id).withinLimits := w

/-- A command joins the queue in the place that its write held (R14). -/
theorem State.queueLimits_joinCommand {w : FwdWrite} {r : List FwdWrite} {p : Port} {id : SlotId} (a : WriteAnswer) {s : State}
    (hf : s.fwd = w :: r) (hk : w.kind = .command p id) (h : s.queueLimits) :
    (((s.answerForward w.cells a).dropGiven id).joinCq (.command id)).queueLimits := by
  obtain ⟨⟨hgiven, -, -⟩, hplaces, hcmds⟩ := State.queueLimits_dropGiven w r p id a s hf hk h
  obtain ⟨kgiven, kfwd, kplaces, kcmds⟩ := State.joinCq_places (.command id) ((s.answerForward w.cells a).dropGiven id)
  obtain ⟨-, hp, hc⟩ := h
  refine ⟨by rw [kgiven, kfwd, hgiven], by omega, ?_⟩
  simp only [CqEntry.isCommand, if_true] at kcmds
  omega

theorem State.keeps_joinCommand {w : FwdWrite} {r : List FwdWrite} {p : Port} {id : SlotId} (a : WriteAnswer) {s : State}
    (hf : s.fwd = w :: r) (hk : w.kind = .command p id) :
    s.keeps (((s.answerForward w.cells a).dropGiven id).joinCq (.command id)) :=
  State.keeps_of_cu
    (fun h => State.withinLimits_joinCq _ _ (State.withinLimits_dropGiven id (State.withinLimits_answerForward _ a s h)))
    (State.queueLimits_joinCommand a hf hk) (by simp)

theorem State.keeps_dropCommand {w : FwdWrite} {r : List FwdWrite} {p : Port} {id : SlotId} (a : WriteAnswer) {s : State}
    (hf : s.fwd = w :: r) (hk : w.kind = .command p id) :
    s.keeps (((s.answerForward w.cells a).dropGiven id).releasePlace) :=
  State.keeps_trans
    (State.keeps_of_cu (fun h => State.withinLimits_dropGiven id (State.withinLimits_answerForward _ a s h))
      (fun h => (State.queueLimits_dropGiven w r p id a s hf hk h).1) (by simp))
    (State.keeps_trans (State.keeps_mapStages _ _) (State.keeps_mapStages _ _))

theorem State.stepKeeps_completeCommand {w : FwdWrite} {r : List FwdWrite} {p : Port} {id : SlotId} (a : WriteAnswer)
    {s : State} (hf : s.fwd = w :: r) (hk : w.kind = .command p id) : s.stepKeeps (s.completeCommand p id w.cells a) := by
  have ha := State.active_of_command hf hk
  cases a with
  | ok =>
    exact State.stepKeeps_finish_of_active ha (State.keeps_trans (State.keeps_joinCommand .ok hf hk) (State.keeps_answerPort ..))
  | fault left =>
    exact State.stepKeeps_finish_of_active ha
      (State.keeps_trans (State.keeps_dropCommand (.fault left) hf hk) (State.keeps_answerPort ..))

theorem exec_commandWriteComplete_stepKeeps (p : Port) (a : WriteAnswer) (s : State) :
    ∃ t, exec (.commandWriteComplete p a) s = .next t ∧ s.stepKeeps t := by
  refine ⟨_, rfl, ?_⟩
  split
  · exact s.stepKeeps_refl
  · next w r hf =>
    split
    · next p' id hk =>
      split
      · next hp => subst hp; exact State.stepKeeps_completeCommand a hf hk
      · exact s.stepKeeps_refl
    · next p' hk =>
      split
      · obtain ⟨k, q⟩ := State.keeps_answered p faulted a hf (by simp [hk])
        exact State.stepKeeps_finish_of_quietly k q
      · exact s.stepKeeps_refl
    · exact s.stepKeeps_refl

/-- An operation that starts holds nothing that R156 clears. -/
theorem State.stepKeeps_afterMailboxWrite {s t : State} (starts : Bool) (a : WriteAnswer) (k : s.keeps t) (q : s.quietly t) :
    s.stepKeeps (t.afterMailboxWrite starts a).finish := by
  unfold State.afterMailboxWrite
  split
  · refine State.stepKeeps_finish (State.keeps_trans k ⟨id, id, fun hu => ⟨hu.1, CuAfter.noConfusion⟩⟩) fun h => ?_
    obtain ⟨-, hhalted⟩ := State.haltedHoldsNothing_of_quietly q h
    refine ⟨fun r hr => CuWork.noConfusion hr, fun hm => ?_⟩
    obtain ⟨hstage, hcq, hgiven, hcmd, htable, hdead, hbu, hqu, -⟩ := hhalted hm
    exact ⟨hstage, hcq, hgiven, hcmd, htable, hdead, hbu, hqu, rfl⟩
  · exact State.stepKeeps_finish_of_quietly (State.keeps_trans k (State.keeps_mapStages _ _))
      (State.quietly_trans q (State.quietly_mapStages _ _))
  · exact State.stepKeeps_finish_of_quietly k q

theorem exec_mailboxWriteDone_stepKeeps (p : Port) (a : WriteAnswer) (s : State) :
    ∃ t, exec (.mailboxWriteDone p a) s = .next t ∧ s.stepKeeps t := by
  refine ⟨_, rfl, ?_⟩
  split
  · exact s.stepKeeps_refl
  · next w r hf =>
    split
    · next p' starts hk =>
      split
      · obtain ⟨k, q⟩ := State.keeps_answered p (fun t => answeredWrite t a) a hf (by simp [hk])
        exact State.stepKeeps_afterMailboxWrite starts a k q
      · exact s.stepKeeps_refl
    · exact s.stepKeeps_refl

/-! ## The bin unit and the reservation unit -/

theorem State.imageDone_reads (bin : Nat) (s : State) : s.readsOnly (s.imageDone bin) := by
  unfold State.imageDone
  split
  · split
    · exact State.readsOnly_answerOp ..
    · exact s.readsOnly_refl
  · exact s.readsOnly_refl

theorem exec_binImageWriteDone_stepKeeps (s : State) : ∃ t, exec .binImageWriteDone s = .next t ∧ s.stepKeeps t := by
  refine ⟨_, rfl, ?_⟩
  split
  · next f hf =>
    have hland : (s.ownWrite .imageWrite f.cells .ok).unitsOnly
        { s.ownWrite .imageWrite f.cells .ok with
          bu := { (s.ownWrite .imageWrite f.cells .ok).bu with imageInFlight := none } } :=
      ⟨_, _, _, _, _, _, _, rfl, CuWork.sameBut_refl _⟩
    refine State.stepKeeps_of_active (State.active_of_imageInFlight hf)
      (State.keeps_trans (State.keeps_trans (State.keeps_trans (State.keeps_ownWrite ..) (State.keeps_of_units hland))
        (State.keeps_of_reads (State.imageDone_reads ..))) (State.keeps_of_units (State.kickImages_units _))) ?_
    simpa using State.ports_of_reads (State.imageDone_reads f.bin
      { s.ownWrite .imageWrite f.cells .ok with
        bu := { (s.ownWrite .imageWrite f.cells .ok).bu with imageInFlight := none } })
  · exact s.stepKeeps_refl

theorem State.lookPass_units (s : State) : s.unitsOnly s.lookPass :=
  ⟨_, _, _, _, _, _, _, rfl, CuWork.sameBut_refl _⟩

/-- A change of the reservation unit that makes no reservation. -/
theorem State.stepKeeps_ru {s : State} (u : Ru) (ht : u.table = s.ru.table) (hd : u.deadlines = s.ru.deadlines) :
    s.stepKeeps { s with ru := u } := by
  have hu : s.unitsOnly { s with ru := u } := ⟨_, _, _, _, _, _, _, rfl, CuWork.sameBut_refl _⟩
  refine State.stepKeeps_of_ports (State.keeps_of_units hu) ⟨rfl, rfl, rfl, rfl⟩ fun h => ⟨h.1, fun hm => ?_⟩
  obtain ⟨hstage, hcq, hgiven, hcmd, htable, hdead, hrest⟩ := h.2 hm
  exact ⟨hstage, hcq, hgiven, hcmd, ht.trans htable, hd.trans hdead, hrest⟩

theorem exec_tick_stepKeeps (s : State) : ∃ t, exec .tick s = .next t ∧ s.stepKeeps t :=
  ⟨_, rfl, State.stepKeeps_ru _ rfl rfl⟩

theorem State.queueLimits_expire (r : Reservation) {s : State} (hp : s.places < 24) (h : s.queueLimits) :
    (s.expire r).queueLimits := by
  have hu : s.unitsOnly ((s.removeResv r.id).releaseBin r.bin) :=
    State.unitsOnly_trans (State.removeResv_units r.id s) (State.changeBin_units ..)
  obtain ⟨hplaces, -⟩ := State.places_of_same (State.sameCommands_of_units hu)
  exact State.queueLimits_of_same (State.sameCommands_of_units (State.raise_units ..))
    (State.queueLimits_joinNotice _ _ rfl (by omega) (State.queueLimits_of_same (State.sameCommands_of_units hu) h))

theorem State.keeps_expire (r : Reservation) {s : State} (hp : s.places < 24) : s.keeps (s.expire r) where
  limits h := State.withinLimits_of_units (State.raise_units ..) (State.withinLimits_joinCq _ _
    (State.withinLimits_of_units (State.changeBin_units ..) (State.withinLimits_of_units (State.removeResv_units ..) h)))
  queue := State.queueLimits_expire r hp
  up h := by
    obtain ⟨_, _, _, _, _, w, _, e, hw⟩ := State.changeBin_units r.bin
      (fun x => { x with reserved := x.reserved - 1 }) (s.removeResv r.id)
    have hcu : (s.expire r).cu = { s.cu with work := w } := by
      simp only [State.expire, State.raise_frame, State.joinCq_frame, State.releaseBin]
      rw [e]; simp
    rw [State.isUp, hcu]
    exact ⟨h.1, (CuWork.after_of_sameBut hw).trans_ne (by simpa using h.2)⟩

theorem State.ports_expire (r : Reservation) (s : State) :
    (s.expire r).portA = s.portA ∧ (s.expire r).portB = s.portB ∧ (s.expire r).fwd = s.fwd ∧ (s.expire r).ia = s.ia := by
  simp [State.expire, State.releaseBin]

theorem exec_expiry_stepKeeps (s : State) : ∃ t, exec .expiry s = .next t ∧ s.stepKeeps t := by
  refine ⟨_, rfl, ?_⟩
  split
  · dsimp only
    split
    · next r hdue =>
      split
      · next hpass =>
        have hplaces : s.lookPass.places < 24 := by
          simp only [State.lookPass, Bool.and_eq_true, decide_eq_true_eq] at hpass
          exact hpass.2
        obtain ⟨hA, hB, hF, hI⟩ := State.ports_expire r s.lookPass
        have hactive : s.active := State.active_of_due (r := r) hdue
        refine State.stepKeeps_of_active hactive
          (State.keeps_trans (State.keeps_of_units s.lookPass_units)
            (State.keeps_trans (State.keeps_expire r hplaces) (State.keeps_of_units (State.lookPass_units _)))) ?_
        exact ⟨hA, hB, hF, hI⟩
      · exact State.stepKeeps_ru _ rfl rfl
    · exact State.stepKeeps_ru _ rfl rfl
  · exact s.stepKeeps_refl

end Sys2Proof.Machine
end

section
/-! The invariants of every step, concluded: the operations of the control unit, the switches, the result write and the halt. -/

namespace Sys2Proof.Machine

/-! ## Operations -/

theorem State.stepKeeps_work {s : State} (w : CuWork) (ha : s.active) (hw : w.after ≠ .mode .halted) :
    s.stepKeeps (s.working w) :=
  State.stepKeeps_of_active ha ⟨id, id, fun hu => ⟨hu.1, hw⟩⟩ ⟨rfl, rfl, rfl, rfl⟩

/-- The operation whose mailbox block was read is answered, in whatever mode. -/
theorem State.stepKeeps_answers (r : ResultWrite) (hr : r.after ≠ .mode .halted) (s : State) :
    s.stepKeeps (s.mailboxFetched.startResult r) := by
  refine State.stepKeeps_of_ports (State.keeps_trans (State.keeps_ownRead .cuRead s) (State.keeps_startResult hr _))
    (by simp) fun h => ⟨fun x hx => ?_, fun hm => ?_⟩
  · obtain rfl : r = x := CuWork.result.inj (by simpa using hx)
    exact hr
  · obtain ⟨hstage, hcq, hgiven, hcmd, htable, hdead, hbu, hqu, -⟩ := h.2 (by simpa using hm)
    simp only [State.startResult_frame, State.mailboxFetched_frame]
    exact ⟨hstage, hcq, hgiven, hcmd, htable, hdead, hbu, hqu, rfl⟩

theorem State.stepKeeps_answerOp (seq : Word32) (res : MbResult) (d : Word32) (s : State) :
    s.stepKeeps (s.mailboxFetched.answerOp seq res d) :=
  State.stepKeeps_answers _ CuAfter.noConfusion s

/-- An operation is decided (R148): its rule is asked in a mode that has it. -/
theorem State.stepKeeps_onOperation (op : Nat) {f : Mailbox → State → State} (s : State)
    (hf : opAvailable op s.cu.mode = true → s.stepKeeps (f s.mailbox s.mailboxFetched)) : s.stepKeeps (s.onOperation op f) := by
  unfold State.onOperation
  split
  · split
    · next ha => exact hf ha
    · exact State.stepKeeps_answerOp ..
  · exact s.stepKeeps_refl

/-- CLEAR_HALT alone is available in HALTED (R148). -/
theorem active_of_opAvailable {op : Nat} {s : State} (hop : op ≠ 13) (h : opAvailable op s.cu.mode = true) : s.active :=
  .inl fun hm => by simp [opAvailable, hm, hop] at h

theorem exec_modeOperation_stepKeeps (op : Nat) {m : Mode} (hm : m ≠ .halted) (s : State) :
    s.stepKeeps (s.onOperation op (State.changeMode m)) :=
  State.stepKeeps_onOperation op s fun _ => State.stepKeeps_answers _ (by simpa using hm) s

theorem State.stepKeeps_writeBias (mb : Mailbox) (v : Int) (s : State) : s.stepKeeps (s.mailboxFetched.writeBias mb v) :=
  State.stepKeeps_answers _ CuAfter.noConfusion s

theorem State.stepKeeps_setBias (s : State) : s.stepKeeps (s.onOperation 6 State.setBias) :=
  State.stepKeeps_onOperation 6 s fun _ => by
    unfold State.setBias
    split
    · exact State.stepKeeps_answerOp ..
    · exact State.stepKeeps_writeBias ..

theorem State.stepKeeps_nudge (s : State) : s.stepKeeps (s.onOperation 7 State.nudge) :=
  State.stepKeeps_onOperation 7 s fun _ => by
    unfold State.nudge
    split
    · exact State.stepKeeps_answerOp ..
    · dsimp only
      generalize (if s.mailbox.arg1 = 1 then _ else _ : Int) = new
      split
      · exact State.stepKeeps_answerOp ..
      · exact State.stepKeeps_writeBias ..

theorem State.stepKeeps_binOperation {op : Nat} (hop : op ≠ 13) (verdict : Mailbox → Bin → BinVerdict) (s : State) :
    s.stepKeeps (s.onOperation op (State.binOperation verdict)) :=
  State.stepKeeps_onOperation op s fun ha => by
    unfold State.binOperation
    split
    · exact State.stepKeeps_answerOp ..
    · dsimp only
      split
      · exact State.stepKeeps_answerOp ..
      · exact State.stepKeeps_answerOp ..
      · refine State.stepKeeps_of_active (active_of_opAvailable hop ha)
          (State.keeps_trans (State.keeps_ownRead .cuRead s) (State.keeps_trans (State.keeps_of_reads
            (State.readsOnly_working (.waitImage ..) _ (by simp))) (State.keeps_of_units (State.changeBin_units ..)))) ?_
        simp

/-! ## The reads of a start and of a RELOAD -/

theorem CuWork.builds_of_readsFor {use : TableUse} {w : CuWork} (h : w.readsFor use = true) : w.builds = true := by
  cases w <;> simp_all [CuWork.readsFor, CuWork.builds]

theorem State.stepKeeps_of_reads {s t : State} (ha : s.active) (h : s.readsOnly t) : s.stepKeeps t :=
  State.stepKeeps_of_active ha (State.keeps_of_reads h) (State.ports_of_reads h)

theorem State.stepKeeps_readingOperation (use : TableUse) {op : Nat} (hop : op ≠ 13) (n : Nat) (fault : Option ReadSite)
    (s : State) : s.stepKeeps (s.readingOperation use op n fault) := by
  unfold State.readingOperation
  split
  · next h =>
    exact State.stepKeeps_of_reads (State.active_of_builds (CuWork.builds_of_readsFor h)) (State.readsOnly_reads ..)
  · refine State.stepKeeps_onOperation op s fun ha => State.stepKeeps_of_reads (active_of_opAvailable hop ha) ?_
    exact State.readsOnly_trans (State.readsOnly_ownRead .cuRead s)
      (State.readsOnly_trans (State.readsOnly_working _ _ (by simp)) (State.readsOnly_reads ..))

theorem exec_startRestore_stepKeeps (r : ReadsServed) (s : State) :
    ∃ t, exec (.startRestore r) s = .next t ∧ s.stepKeeps t := by
  refine ⟨_, rfl, ?_⟩
  split
  · next h =>
    exact State.stepKeeps_of_reads (State.active_of_builds (by rw [h]; rfl))
      (State.readsOnly_trans (State.readsOnly_working _ _ (by simp)) (State.readsOnly_reads ..))
  · exact State.stepKeeps_readingOperation _ (by decide) _ _ s

theorem exec_autoloadRestore_stepKeeps (s : State) : ∃ t, exec .autoloadRestore s = .next t ∧ s.stepKeeps t := by
  refine ⟨_, rfl, ?_⟩
  split
  · next h => exact State.stepKeeps_work _ (State.active_of_builds (by rw [h]; rfl)) CuAfter.noConfusion
  · exact s.stepKeeps_refl

/-! ## The switches -/

theorem State.keeps_switched (p : StartPlan) (s : State) : s.keeps (s.switched p) :=
  ⟨id, id, fun hu => ⟨Mode.noConfusion, hu.2⟩⟩

theorem State.joinHeaders_units (l : List (Fin 6)) (s : State) :
    s.unitsOnly (l.foldl (fun u q => u.joinQu (.header q)) s) := by
  induction l generalizing s with
  | nil => exact s.unitsOnly_refl
  | cons q r ih => exact State.unitsOnly_trans (State.joinQu_units _ s) (ih _)

theorem State.keeps_afterSwitch (p : StartPlan) (s : State) : s.keeps (s.afterSwitch p) :=
  State.keeps_trans (State.keeps_of_units (State.unitsOnly_trans (State.joinHeaders_units queueIds s)
    (State.kickImages_units _))) (State.keeps_startResult CuAfter.noConfusion _)

theorem exec_startSwitch_stepKeeps (s : State) : ∃ t, exec .startSwitch s = .next t ∧ s.stepKeeps t := by
  refine ⟨_, rfl, ?_⟩
  split
  · next p h =>
    split
    · exact State.stepKeeps_finish_of_active (State.active_of_builds (by rw [h]; rfl))
        (State.keeps_trans (State.keeps_switched p s)
          (State.keeps_trans (State.keeps_afterSwitch p _) (State.keeps_mapStages _ _)))
    · exact s.stepKeeps_refl
  · exact s.stepKeeps_refl

theorem State.relayQueues_units (l : List (Fin 6)) (s : State) :
    s.unitsOnly (l.foldl (fun u q => (u.setQueue q ((u.queue q).relaid true)).joinQu (.header q)) s) := by
  induction l generalizing s with
  | nil => exact s.unitsOnly_refl
  | cons q r ih =>
    exact State.unitsOnly_trans (State.unitsOnly_trans (State.setQueue_units ..) (State.joinQu_units ..)) (ih _)

/-- The switch of a RELOAD without the queues it lays anew: tables, layout and setting in force (R155). -/
def State.tablesInForce (t : Tables) (s : State) : State :=
  { s with
    gu := t.gu
    bu := { s.bu with
            zones := t.zones
            avail := if t.zones = s.bu.zones then s.bu.avail else buildLists t.zones s.bu.bins }
    ru := { s.ru with setting := t.deadline }
    layout := { areas := t.areas, descs := some t.descs } }

theorem State.reloaded_eq (t : Tables) (s : State) :
    s.reloaded t = (s.changedQueues t.descs).foldl
      (fun u q => (u.setQueue q ((u.queue q).relaid true)).joinQu (.header q)) (s.tablesInForce t) := rfl

theorem State.keeps_reloaded (t : Tables) (s : State) : s.keeps (s.reloaded t) :=
  have hforce : s.keeps (s.tablesInForce t) := ⟨id, id, id⟩
  State.keeps_trans hforce (State.keeps_of_units (State.relayQueues_units ..))

theorem State.keeps_unpaused {s : State} (h : s.icu.stage = .paused) :
    s.keeps { s with icu := { s.icu with pauseAsked := false, stage := .idle } } :=
  State.keeps_of_cu id (State.queueLimits_of_same ⟨rfl, rfl, by rw [h]; rfl, rfl⟩) rfl

theorem State.keeps_resumeIcu {s : State} (h : s.icu.stage = .paused) : s.keeps s.resumeIcu := by
  rw [State.resumeIcu_of_paused s h]
  exact State.keeps_trans (State.keeps_unpaused h) (State.keeps_takeNext _)

theorem State.stepKeeps_endReload {s t : State} (ha : s.active) (k : s.keeps t) (ht : t.icu.stage = .paused) (seq : Word32)
    (res : MbResult) (d : Nat) : s.stepKeeps (t.endReload seq res d) :=
  State.stepKeeps_finish_of_active ha (State.keeps_trans k (State.keeps_trans (State.keeps_resumeIcu ht)
    (State.keeps_trans (State.keeps_answerOp ..) (State.keeps_mapStages _ _))))

theorem State.reloaded_stage (t : Tables) (s : State) : (s.reloaded t).icu.stage = s.icu.stage := by
  obtain ⟨_, _, _, _, _, _, _, e, -⟩ := State.relayQueues_units (s.changedQueues t.descs) (s.tablesInForce t)
  rw [State.reloaded_eq, e]
  rfl

theorem exec_reloadSwitch_stepKeeps (s : State) : ∃ t, exec .reloadSwitch s = .next t ∧ s.stepKeeps t := by
  refine ⟨_, rfl, ?_⟩
  split
  · next seq t h =>
    have ha : s.active := State.active_of_builds (by rw [h]; rfl)
    split
    · next hwait =>
      split
      · exact State.stepKeeps_endReload ha s.keeps_refl hwait.2 ..
      · exact State.stepKeeps_endReload ha (State.keeps_reloaded t s) ((State.reloaded_stage t s).trans hwait.2) ..
    · exact s.stepKeeps_refl
  · exact s.stepKeeps_refl

/-! ## The result write and the halt -/

/-- The end of an operation leaves a halted part as it is but for the operation. -/
theorem State.haltedHoldsNothing_endOperation {s t : State} (h : s.haltedHoldsNothing)
    (hm : t.cu.mode = .halted → s.cu.mode = .halted)
    (hu : t.icu = s.icu ∧ t.ru = s.ru ∧ t.bu = s.bu ∧ t.qu = s.qu ∧ t.fwd = s.fwd) : t.endOperation.haltedHoldsNothing := by
  refine ⟨fun r hr => by simp at hr, fun hmode => ?_⟩
  obtain ⟨hicu, hru, hbu, hqu, hfwd⟩ := hu
  obtain ⟨kstage, kcq, kgiven, kcmd, ktable, kdead, kbu, kqu, -⟩ := h.2 (hm (by simpa using hmode))
  simp only [State.endOperation_frame, hicu, hru, hbu, hqu, hfwd]
  exact ⟨kstage, kcq, kgiven, kcmd, ktable, kdead, kbu, kqu, rfl⟩

theorem State.applyAfter_units (a : CuAfter) (s : State) :
    (s.applyAfter a).icu = s.icu ∧ (s.applyAfter a).ru = s.ru ∧ (s.applyAfter a).bu = s.bu ∧ (s.applyAfter a).qu = s.qu ∧
    (s.applyAfter a).fwd = s.fwd ∧ (s.applyAfter a).cu.work = s.cu.work ∧
    (a ≠ .mode .halted → (s.applyAfter a).cu.mode = .halted → s.cu.mode = .halted) := by
  cases a with
  | mode m => exact ⟨rfl, rfl, rfl, rfl, rfl, rfl, fun h hm => absurd (congrArg CuAfter.mode hm) h⟩
  | _ => exact ⟨rfl, rfl, rfl, rfl, rfl, rfl, fun _ hm => hm⟩

theorem State.keeps_applyAfter (a : CuAfter) (s : State) (ha : s.isUp → a ≠ .mode .halted) : s.keeps (s.applyAfter a) where
  limits h := by cases a <;> exact h
  queue h := by cases a <;> exact h
  up hu := by
    obtain ⟨-, -, -, -, -, hwork, hmode⟩ := State.applyAfter_units a s
    exact ⟨fun hm => hu.1 (hmode (ha hu) hm), by rw [hwork]; exact hu.2⟩

theorem State.keeps_resultDone {r : ResultWrite} {s : State} (hr : s.cu.work = .result r) (cells : Cells) :
    s.keeps ((((s.answerPrior.ownWrite .result cells .ok).applyAfter r.after).raise .mailbox).endOperation) := by
  refine State.keeps_trans (State.keeps_trans (State.keeps_answerPrior s) (State.keeps_ownWrite ..))
    (State.keeps_trans (State.keeps_applyAfter _ _ fun hu => ?_) (State.keeps_trans (State.keeps_raise ..)
      (State.keeps_endOperation _)))
  have hafter : s.cu.work.after ≠ .mode .halted := by
    rw [← State.answerPrior_work_after s]
    simpa using hu.2
  rwa [hr] at hafter

theorem State.halted_resultDone {r : ResultWrite} {s : State} (hr : s.cu.work = .result r) (cells : Cells)
    (h : s.haltedHoldsNothing) :
    ((((s.answerPrior.ownWrite .result cells .ok).applyAfter r.after).raise .mailbox).endOperation).haltedHoldsNothing := by
  obtain ⟨hicu, hru, hbu, hqu, hfwd, -, hmode⟩ :=
    State.applyAfter_units r.after (s.answerPrior.ownWrite .result cells .ok)
  refine State.haltedHoldsNothing_endOperation h (fun hm => ?_) ⟨?_, ?_, ?_, ?_, ?_⟩
  · simpa using hmode (h.1 r hr) (by simpa using hm)
  · simp [hicu]
  · simp [hru]
  · simp [hbu]
  · simp [hqu]
  · simp [hfwd]

theorem State.settled_ownFault (c : HaltCause) (cells : Cells) (left : List Byte) (h : HaltAnswers) {s : State}
    (w : s.withinLimits) : (s.ownFault c cells left h).settled := by
  have hset (u : State) (hA : u.portA.outstanding.length = s.portA.outstanding.length)
      (hB : u.portB.outstanding.length = s.portB.outstanding.length) : u.finish.settled :=
    State.finish_settled u (hA ▸ w.2.1) (hB ▸ w.2.2.1)
  have hports (c : HaltCause) : (s.atCause c).portA = s.portA ∧ (s.atCause c).portB = s.portB := by
    cases c <;> simp [State.atCause]
  have hhalt (u : State) (hA : u.portA = s.portA) (hB : u.portB = s.portB) : (u.enterHalt c h).settled := by
    obtain ⟨d, m, e, -, -⟩ := State.endWrites_spec c h u
    refine hset _ ?_ ?_ <;>
      simp [State.clearUnits, State.mapStages, e, length_mapStages, hA, hB]
  unfold State.ownFault
  dsimp only
  split
  · exact hhalt _ (by simp [hports]) (by simp [hports])
  · exact hhalt _ (by simp [hports]) (by simp [hports])
  · refine hset _ ?_ ?_ <;>
      simp [State.endOperation, State.releaseHolds, State.mapStages, length_mapStages, hports]
  · refine hset _ ?_ ?_ <;>
      simp [State.endOperation, State.releaseHolds, State.mapStages, length_mapStages, hports]

theorem State.halted_ownFault (c : HaltCause) (cells : Cells) (left : List Byte) (h : HaltAnswers) {s : State}
    (hs : s.haltedHoldsNothing) : (s.ownFault c cells left h).haltedHoldsNothing := by
  have hcause : (s.atCause c).icu = s.icu ∧ (s.atCause c).ru = s.ru ∧ (s.atCause c).bu = s.bu ∧ (s.atCause c).qu = s.qu ∧
      (s.atCause c).fwd = s.fwd ∧ (s.atCause c).cu.mode = s.cu.mode := by
    cases c <;> simp [State.atCause]
  have hend : (((s.atCause c).ownWrite (causeRequest c) cells (.fault left)).endOperation).haltedHoldsNothing :=
    State.haltedHoldsNothing_endOperation hs (by simp [hcause]) (by simp [hcause])
  unfold State.ownFault
  dsimp only
  split
  · exact State.haltedHoldsNothing_enterHalt ..
  · exact State.haltedHoldsNothing_enterHalt ..
  · exact State.haltedHoldsNothing_of_quietly (State.quietly_finish _) hend
  · exact State.haltedHoldsNothing_of_quietly (State.quietly_trans (State.quietly_raise ..) (State.quietly_finish _)) hend

theorem State.stepKeeps_ownFault (c : HaltCause) (cells : Cells) (left : List Byte) (h : HaltAnswers) (s : State) :
    s.stepKeeps (s.ownFault c cells left h) where
  limits := State.withinLimits_ownFault c cells left h s
  settles w _ := State.settled_ownFault c cells left h w
  queue := State.queueLimits_ownFault c cells left h s
  halted := State.halted_ownFault c cells left h

theorem exec_halt_stepKeeps (c : HaltCause) (left : List Byte) (h : HaltAnswers) (s : State) :
    ∃ t, exec (.halt c left h) s = .next t ∧ s.stepKeeps t := by
  refine ⟨_, rfl, ?_⟩
  split
  · exact State.stepKeeps_ownFault ..
  · exact s.stepKeeps_refl

theorem exec_mailboxResultWriteDone_stepKeeps (a : WriteAnswer) (h : HaltAnswers) (s : State) :
    ∃ t, exec (.mailboxResultWriteDone a h) s = .next t ∧ s.stepKeeps t := by
  refine ⟨_, rfl, ?_⟩
  split
  · next r hr =>
    cases a with
    | ok => exact State.stepKeeps_finish (State.keeps_resultDone hr _) (State.halted_resultDone hr _)
    | fault left => exact State.stepKeeps_ownFault ..
  · exact s.stepKeeps_refl

theorem exec_mailboxReadFault_stepKeeps (s : State) : ∃ t, exec .mailboxReadFault s = .next t ∧ s.stepKeeps t := by
  refine ⟨_, rfl, ?_⟩
  split
  · exact State.stepKeeps_answers _ CuAfter.noConfusion s
  · exact s.stepKeeps_refl

theorem exec_badOp_stepKeeps (s : State) : ∃ t, exec .badOp s = .next t ∧ s.stepKeeps t := by
  refine ⟨_, rfl, ?_⟩
  split
  · exact State.stepKeeps_answerOp ..
  · exact s.stepKeeps_refl

/-! ## Every command -/

/-- Every command answers a next state and keeps the invariants. -/
theorem exec_stepKeeps (i : Instr) (s : State) : ∃ t, exec i s = .next t ∧ s.stepKeeps t := by
  cases i with
  | powerOn cbsel autoload => exact ⟨_, rfl, State.stepKeeps_reset ..⟩
  | lineReset cbsel autoload => exact ⟨_, rfl, State.stepKeeps_reset ..⟩
  | autoloadRestore => exact exec_autoloadRestore_stepKeeps s
  | badRequest p r => exact ⟨_, rfl, State.stepKeeps_issue ..⟩
  | takeWordMisuse p r => exact ⟨_, rfl, State.stepKeeps_issue ..⟩
  | passRead p r => exact ⟨_, rfl, State.stepKeeps_issue ..⟩
  | passWrite p r => exact ⟨_, rfl, State.stepKeeps_issue ..⟩
  | postedWriteDrain a => exact exec_postedWriteDrain_stepKeeps a s
  | itemRead p r => exact ⟨_, rfl, State.stepKeeps_issue ..⟩
  | itemPlainWrite p r => exact ⟨_, rfl, State.stepKeeps_issue ..⟩
  | commandWrite p r => exact ⟨_, rfl, State.stepKeeps_issue ..⟩
  | commandWriteComplete p a => exact exec_commandWriteComplete_stepKeeps p a s
  | cmdOpen => exact ⟨_, rfl, State.stepKeeps_onCommand _ s State.serveOpen_served⟩
  | cmdCommit => exact ⟨_, rfl, State.stepKeeps_onCommand _ s State.serveCommit_served⟩
  | appendEntryWriteDone => exact exec_appendEntryWriteDone_stepKeeps s
  | cmdRegrade => exact ⟨_, rfl, State.stepKeeps_onCommand _ s State.serveRegrade_served⟩
  | cmdPlaced => exact ⟨_, rfl, State.stepKeeps_onCommand _ s State.servePlaced_served⟩
  | cmdMisfit => exact ⟨_, rfl, State.stepKeeps_misfit s⟩
  | cmdWithdraw => exact ⟨_, rfl, State.stepKeeps_onCommand _ s State.serveWithdraw_served⟩
  | cmdClear => exact ⟨_, rfl, State.stepKeeps_onCommand _ s State.serveClear_served⟩
  | badCommand => exact exec_badCommand_stepKeeps s
  | fetchFault => exact exec_fetchFault_stepKeeps s
  | takeNotice => exact exec_takeNotice_stepKeeps s
  | expiryNotice => exact exec_expiryNotice_stepKeeps s
  | writeBackComplete => exact exec_writeBackComplete_stepKeeps s
  | takeRead p r => exact ⟨_, rfl, State.stepKeeps_issue ..⟩
  | takeComplete q => exact exec_takeComplete_stepKeeps q s
  | viewRead p r => exact ⟨_, rfl, State.stepKeeps_issue ..⟩
  | viewWrite p r => exact ⟨_, rfl, State.stepKeeps_issue ..⟩
  | ringRead p r => exact ⟨_, rfl, State.stepKeeps_issue ..⟩
  | ringWrite p r => exact ⟨_, rfl, State.stepKeeps_issue ..⟩
  | quWriteDone => exact exec_quWriteDone_stepKeeps s
  | binImageWriteDone => exact exec_binImageWriteDone_stepKeeps s
  | tick => exact exec_tick_stepKeeps s
  | expiry => exact exec_expiry_stepKeeps s
  | eventRead p r => exact ⟨_, rfl, State.stepKeeps_issue ..⟩
  | eventEnableWrite p r => exact ⟨_, rfl, State.stepKeeps_issue ..⟩
  | cbTableWrite p r => exact ⟨_, rfl, State.stepKeeps_issue ..⟩
  | mailboxReadFault => exact exec_mailboxReadFault_stepKeeps s
  | badOp => exact exec_badOp_stepKeeps s
  | startFresh r => exact ⟨_, rfl, State.stepKeeps_readingOperation _ (by decide) _ _ s⟩
  | startRestore r => exact exec_startRestore_stepKeeps r s
  | startSwitch => exact exec_startSwitch_stepKeeps s
  | reload r => exact ⟨_, rfl, State.stepKeeps_readingOperation _ (by decide) _ _ s⟩
  | reloadSwitch => exact exec_reloadSwitch_stepKeeps s
  | freeze => exact ⟨_, rfl, exec_modeOperation_stepKeeps 4 Mode.noConfusion s⟩
  | thaw => exact ⟨_, rfl, exec_modeOperation_stepKeeps 5 Mode.noConfusion s⟩
  | setBias => exact ⟨_, rfl, State.stepKeeps_setBias s⟩
  | nudge => exact ⟨_, rfl, State.stepKeeps_nudge s⟩
  | binSet => exact ⟨_, rfl, State.stepKeeps_binOperation (by decide) _ s⟩
  | binLock => exact ⟨_, rfl, State.stepKeeps_binOperation (by decide) _ s⟩
  | binUnlock => exact ⟨_, rfl, State.stepKeeps_binOperation (by decide) _ s⟩
  | binRetire => exact ⟨_, rfl, State.stepKeeps_binOperation (by decide) _ s⟩
  | binPicked => exact ⟨_, rfl, State.stepKeeps_binOperation (by decide) _ s⟩
  | clearHalt => exact ⟨_, rfl, exec_modeOperation_stepKeeps 13 Mode.noConfusion s⟩
  | mailboxResultWriteDone a h => exact exec_mailboxResultWriteDone_stepKeeps a h s
  | halt c left h => exact exec_halt_stepKeeps c left h s
  | mailboxWrite p r => exact ⟨_, rfl, State.stepKeeps_issue ..⟩
  | mailboxWriteDone p a => exact exec_mailboxWriteDone_stepKeeps p a s

/-- A step keeps what its command keeps; the queue of commands that wait is in none of the invariants. -/
theorem step_stepKeeps {s t : State} (h : step s = .next t) : s.stepKeeps t := by
  unfold step at h
  split at h
  · obtain rfl := Host.Outcome.next.inj h
    exact s.stepKeeps_refl
  · next c r _ =>
    obtain ⟨u, hu, k⟩ := exec_stepKeeps c { s with pending := r }
    obtain rfl : u = t := Host.Outcome.next.inj (hu.symm.trans h)
    exact ⟨k.limits, k.settles, k.queue, k.halted⟩

/-- Settles O4: `State.stepKeeps` of the step. -/
theorem stepsKeepTheLimits : Obligations.StepsKeepTheLimits := fun _ _ w h =>
  ⟨(step_stepKeeps h).limits w, (step_stepKeeps h).settles w⟩

/-- Settles O5: `State.stepKeeps` of the step. -/
theorem stepsKeepTheQueueLimits : Obligations.StepsKeepTheQueueLimits := fun _ _ w h => (step_stepKeeps h).queue w

/-- Settles O6: `State.stepKeeps` of the step. -/
theorem stepsKeepHaltedEmpty : Obligations.StepsKeepHaltedEmpty := fun _ _ w h => (step_stepKeeps h).halted w

end Sys2Proof.Machine
end

section
/-! A step is the command at the front of the queue, and the two resets (R159). -/

namespace Sys2Proof.Machine

theorem step_of_pending_nil {s : State} (h : s.pending = []) : step s = .next s := by
  rw [step, h]

/-- Settles O1: both clauses are the equations of `step`. -/
theorem stepRunsTheFrontCommand : Obligations.StepRunsTheFrontCommand := fun _ _ => ⟨rfl, step_of_pending_nil⟩

theorem exec_autoloadRestore_of_autoload {s : State} (h : s.cu.work = .autoload) :
    exec .autoloadRestore s = .next { s with cu := { s.cu with work := .automatic } } :=
  congrArg Host.Outcome.next (if_pos h)

theorem State.desc_resetWith (cbsel : Fin 16) (autoload : Bool) (d : Memory) (l : List Instr) :
    (∀ a ∈ (State.resetWith cbsel autoload d l).layout.areas.toList, a.valid = false) ∧
    ∀ z ∈ (State.resetWith cbsel autoload d l).bu.zones, z.valid = false := by
  constructor
  · intro a ha
    simp only [State.resetWith, Layout.reset, Vector.toList_replicate] at ha
    rw [List.eq_of_mem_replicate ha]
  · intro z hz
    rw [List.eq_of_mem_replicate hz]

/-- Every queue of the queue unit after a reset is the empty one (R126). -/
theorem State.queue_resetWith (cbsel : Fin 16) (autoload : Bool) (d : Memory) (l : List Instr) (q : Fin 6) :
    (State.resetWith cbsel autoload d l).queue q = QState.reset := by
  simp [State.queue, State.resetWith, Qu.reset]

/-- Settles O2: both resets answer `State.resetWith`, whose fields are the reset values. -/
theorem resetsSetEveryUnit : Obligations.ResetsSetEveryUnit := by
  refine ⟨fun u hu => exec_autoloadRestore_of_autoload hu, fun cbsel autoload s =>
    ⟨State.resetWith cbsel autoload s.dram s.pending, rfl, rfl, rfl, rfl, rfl, rfl, rfl, ?_⟩⟩
  obtain ⟨hareas, hzones⟩ := State.desc_resetWith cbsel autoload s.dram s.pending
  refine ⟨hareas, rfl, fun c => ?_, fun _ => rfl, fun _ => rfl, fun _ => rfl, hzones, fun _ => rfl, rfl, rfl, rfl, rfl, rfl,
    rfl, rfl, fun q => ?_, rfl, rfl, rfl, rfl, rfl, rfl, rfl, rfl, rfl, rfl, rfl, rfl, rfl, rfl, rfl, Eu.line_of_pending_eq_zero rfl, rfl, rfl⟩
  · exact ite_self _
  · rw [State.queue_resetWith]
    exact ⟨rfl, rfl, rfl, rfl, rfl, rfl, rfl, rfl, fun _ => rfl, rfl⟩

end Sys2Proof.Machine
end

section
/-! The arbiters (R128, R129, R130, R139, R140): what a port returns, what the end of a command does, and what a grant is. -/

namespace Sys2Proof.Machine

/-! ## The ports -/

/-- What a list returns is its run of complete requests at the front. -/
theorem returnable_spec (l : List Outstanding) : ∃ done : List Outstanding,
    l = done ++ (returnable l).2 ∧ done.map (·.stage) = (returnable l).1.map Stage.complete := by
  induction l with
  | nil => exact ⟨[], rfl, rfl⟩
  | cons o r ih =>
    unfold returnable
    split
    · next x hx =>
      obtain ⟨done, hlist, hstages⟩ := ih
      exact ⟨o :: done, congrArg (o :: ·) hlist, by simp [hx, hstages]⟩
    · exact ⟨[], rfl, rfl⟩

theorem PortState.deliver_spec (v : PortState) : ∃ done : List Outstanding, ∃ responses : List Response,
    v.outstanding = done ++ v.deliver.outstanding ∧ v.deliver.returned = v.returned ++ responses ∧
    done.map (·.stage) = responses.map Stage.complete ∧ nothingToReturn v.deliver.outstanding = true := by
  obtain ⟨done, hlist, hstages⟩ := returnable_spec v.outstanding
  exact ⟨done, _, hlist, rfl, hstages, PortState.nothingToReturn_deliver v⟩

theorem State.takeHead_of_head {p : Port} {s : State} {o : Outstanding} (h : headRequest (s.port p).outstanding = some o) :
    s.takeHead p = (s.decideRequest p o.twin o.req).2.setHead p (s.decideRequest p o.twin o.req).1 := by
  rw [State.takeHead, h]

theorem State.takeHead_ia (p : Port) (s : State) : (s.takeHead p).ia = s.ia := by
  unfold State.takeHead
  split
  · simp [State.decideRequest_ports]
  · rfl

theorem State.takeOne_ia (p : Port) (s : State) : (s.takeOne p).ia = otherPort p :=
  ((State.sameHeads_goForward _).2.2).trans (State.takeHead_ia p { s with ia := otherPort p })

theorem settle_of_chosen {n : Nat} {s : State} {p : Port} (h : s.chosenPort = some p) :
    settle (n + 1) s = settle n (s.takeOne p) := by
  rw [settle, h]

/-! ## The grants -/

variable {mem : List Grant → Memory}

theorem Arbiter.grantNext_forwarded {n : Nat} {m : Arbiter} (hs : m.sent < n) (ho : m.own = [] ∨ m.last = .own) :
    m.grantNext mem n = { m with last := .forwarded, order := m.order ++ [.forwarded] } := by
  have hchoice : grantChoice m.last (m.offersWrite n) m.offersOwn = some .forwarded := by
    rcases ho with ho | ho
    · simp [Arbiter.offersWrite, Arbiter.offersOwn, grantChoice, hs, ho]
    · cases hown : m.offersOwn <;> simp [Arbiter.offersWrite, grantChoice, otherSide, hs, ho]
  rw [Arbiter.grantNext, hchoice]
  rfl

theorem Arbiter.grantNext_own {n : Nat} {m : Arbiter} (ho : m.own ≠ []) (hs : n ≤ m.sent ∨ m.last = .forwarded) :
    m.grantNext mem n = m.grant mem .own := by
  have hown : m.offersOwn = true := by simp [Arbiter.offersOwn, ho]
  have hchoice : grantChoice m.last (m.offersWrite n) m.offersOwn = some .own := by
    rcases hs with hs | hs
    · simp [Arbiter.offersWrite, grantChoice, hown, Nat.not_lt.mpr hs]
    · cases hw : m.offersWrite n <;> simp [grantChoice, otherSide, hown, hs]
  rw [Arbiter.grantNext, hchoice]

theorem Arbiter.grantNext_none {n : Nat} {m : Arbiter} (ho : m.own = []) (hs : n ≤ m.sent) : m.grantNext mem n = m := by
  simp [Arbiter.grantNext, Arbiter.offersWrite, Arbiter.offersOwn, grantChoice, ho, Nat.not_lt.mpr hs]

/-- What a write of the part that is granted adds to the order of grants; a read adds nothing (R141). -/
def OwnReq.ordered (r : OwnReq) : List Grant :=
  if r = .writeBack ∨ r = .queueWrite ∨ r = .imageWrite ∨ r = .cuWrite ∨ r = .result then [.own r] else []

/-- The arbiter with the oldest request of the own side granted, and the alternation state naming a side. -/
def Arbiter.withOwn (mem : List Grant → Memory) (g : Arbiter) (x : Side) : Arbiter :=
  match g.own with
  | [] => { g with last := x }
  | r :: l =>
    { last := x, own := l, order := g.order ++ r.ordered,
      found := g.found ++ (if r.ordered = [] then [(r, mem g.order)] else []) }

theorem Arbiter.withOwn_eq (g : Arbiter) (x : Side) : { g.grant mem .own with last := x } = g.withOwn mem x := by
  unfold Arbiter.withOwn
  split
  · next h => simp [Arbiter.grant, h]
  · next r l h => cases r <;> simp [Arbiter.grant, h, OwnReq.isWrite, OwnReq.ordered]

/-- Grants until a condition holds are the first so many that make it hold, where it holds once nothing waits. -/
theorem Arbiter.grantUntil_first (mem : List Grant → Memory) {n : Nat} {done : Arbiter → Bool} {m : Arbiter} (h : m.sent ≤ n)
    (hd : ∀ x : Arbiter, x.own = [] → x.sent = n → done x = true) :
    ∃ k, Arbiter.grantUntil mem n done (m.waiting n) m = (Arbiter.grantNext mem n)^[k] m ∧
      done ((Arbiter.grantNext mem n)^[k] m) = true ∧ ∀ j, j < k → done ((Arbiter.grantNext mem n)^[j] m) = false := by
  obtain ⟨k, -, hk, hbefore⟩ := Arbiter.grantUntil_iterate mem n done (m.waiting n) m
  refine ⟨k, hk, ?_, hbefore⟩
  rw [← hk]
  exact Arbiter.grantUntil_done mem n done (m.waiting n) m (by unfold Arbiter.waiting; omega) h hd

theorem Arbiter.grantOwn_first (mem : List Grant → Memory) {n : Nat} {m : Arbiter} (h : m.sent ≤ n) (r : OwnReq) :
    ∃ k, m.grantOwn mem n r = (Arbiter.grantNext mem n)^[k] m ∧ r ∉ ((Arbiter.grantNext mem n)^[k] m).own ∧
      ∀ j, j < k → r ∈ ((Arbiter.grantNext mem n)^[j] m).own := by
  obtain ⟨k, hk, hdone, hbefore⟩ := Arbiter.grantUntil_first mem (done := fun x => !x.own.contains r) h
    (fun x hx _ => by simp [hx])
  exact ⟨k, hk, by simpa using hdone, fun j hj => by simpa using hbefore j hj⟩

theorem Arbiter.grantWrite_first (mem : List Grant → Memory) {n : Nat} {m : Arbiter} (h : m.sent ≤ n) (hn : 0 < n) :
    ∃ k, m.grantWrite mem n = (Arbiter.grantNext mem n)^[k] m ∧ 0 < ((Arbiter.grantNext mem n)^[k] m).sent ∧
      ∀ j, j < k → ((Arbiter.grantNext mem n)^[j] m).sent = 0 := by
  obtain ⟨k, hk, hdone, hbefore⟩ := Arbiter.grantUntil_first mem (done := fun x => decide (0 < x.sent)) h
    (fun x _ hx => by simp [hx, hn])
  exact ⟨k, hk, by simpa using hdone, fun j hj => by simpa using hbefore j hj⟩

theorem Arbiter.grantMany_first (mem : List Grant → Memory) {n : Nat} {m : Arbiter} (h : m.sent ≤ n) (i : Nat) :
    ∃ k, m.grantMany mem n i = (Arbiter.grantNext mem n)^[k] m ∧
      ((Arbiter.grantNext mem n)^[k] m).own.length ≤ m.own.length - i ∧
      ∀ j, j < k → m.own.length - i < ((Arbiter.grantNext mem n)^[j] m).own.length := by
  obtain ⟨k, hk, hdone, hbefore⟩ := Arbiter.grantUntil_first mem
    (done := fun x => decide (x.own.length ≤ m.own.length - i)) h (fun x hx _ => by simp [hx])
  exact ⟨k, hk, by simpa using hdone, fun j hj => by simpa using hbefore j hj⟩

/-- The grant of a read itself, when every older forwarded write is granted: the own side goes first where it was not the last
(R140). -/
theorem Arbiter.grantRead_of_granted {n : Nat} {m g : Arbiter}
    (hg : Arbiter.grantUntil mem n (fun x => !x.offersWrite n) (m.waiting n) m = g) :
    (g.last = .forwarded → m.grantRead mem n = g.withOwn mem .forwarded) ∧
    (g.last = .own → m.grantRead mem n = { g with last := .forwarded }) := by
  constructor <;> intro hlast <;> simp only [Arbiter.grantRead, hg, hlast]
  · rw [← Arbiter.withOwn_eq]
    cases hown : g.own <;> simp [Arbiter.offersOwn, grantChoice, otherSide, Arbiter.grant, hown]
  · cases ho : g.offersOwn <;> rfl

theorem Arbiter.grantRead_first (mem : List Grant → Memory) {n : Nat} {m : Arbiter} (h : m.sent ≤ n) :
    ∃ k g, g = (Arbiter.grantNext mem n)^[k] m ∧ g.sent = n ∧
      (∀ j, j < k → ((Arbiter.grantNext mem n)^[j] m).sent < n) ∧
      (g.last = .forwarded → m.grantRead mem n = g.withOwn mem .forwarded) ∧
      (g.last = .own → m.grantRead mem n = { g with last := .forwarded }) := by
  obtain ⟨k, hk, hdone, hbefore⟩ := Arbiter.grantUntil_first mem (done := fun x => !x.offersWrite n) h
    (fun x _ hx => by simp [Arbiter.offersWrite, hx])
  have hle := (Arbiter.grantUntil_spec mem n (fun x => !x.offersWrite n) (m.waiting n) m h).1
  refine ⟨k, _, rfl, Nat.le_antisymm (hk ▸ hle) ?_, fun j hj => ?_, Arbiter.grantRead_of_granted hk⟩
  · simpa [Arbiter.offersWrite] using hdone
  · simpa [Arbiter.offersWrite] using hbefore j hj

theorem Arbiter.grantUntil_of_done {n k : Nat} {done : Arbiter → Bool} {m : Arbiter} (h : done m = true) :
    Arbiter.grantUntil mem n done k m = m := by
  cases k with
  | zero => rfl
  | succ k => rw [Arbiter.grantUntil, if_pos h]

/-- Settles O7: each clause is the equation of its operation; the grants are the first so many that reach their condition. -/
theorem portsTakeTurnsAndAnswerInOrder : Obligations.PortsTakeTurnsAndAnswerInOrder := by
  refine ⟨PortState.deliver_spec, fun s => ?_, fun n s => ?_, fun last => ⟨rfl, rfl, rfl, rfl, rfl⟩, fun _ => rfl,
    fun m r q d => ⟨Arbiter.found?_nil r m, Arbiter.found?_cons r q d m, Arbiter.found?_answerRead r q m, rfl⟩,
    fun mem n m => ?_⟩
  · refine ⟨fun hA hB => ?_, fun hA hB => ?_, fun hA hB => ?_, fun hA hB => ?_, fun p => State.takeOne_ia p s⟩ <;>
      simp [State.chosenPort, hA, hB]
  · exact ⟨rfl, rfl, settle_of_none (n + 1) s, fun p => ⟨settle_of_chosen, rfl, fun o => State.takeHead_of_head⟩⟩
  · refine ⟨Arbiter.grantNext_forwarded, fun ho hs => ?_, Arbiter.grantNext_none, fun _ => rfl, fun hs => ?_, fun hs => ?_⟩
    · exact (Arbiter.grantNext_own ho hs).trans (Arbiter.withOwn_eq m .own)
    · exact ⟨Arbiter.grantOwn_first mem hs, Arbiter.grantWrite_first mem hs, Arbiter.grantMany_first mem hs,
        Arbiter.grantRead_first mem hs⟩
    · exact Arbiter.grantRead_of_granted (Arbiter.grantUntil_of_done (by simp [Arbiter.offersWrite, Nat.le_of_lt hs]))

end Sys2Proof.Machine
end

section
/-! Requests at the ports: those that wait, those that are refused at once, and those that pass (R12, R127 to R142). -/

namespace Sys2Proof.Machine

/-! ## Requests that wait -/

theorem State.issue_of_full {p : Port} {req : Request} {s : State} (h : 8 ≤ (s.port p).outstanding.length) :
    s.issue p req = s := if_pos h

theorem headRequest_append_of_some {l r : List Outstanding} {o : Outstanding} (h : headRequest l = some o) :
    headRequest (l ++ r) = some o := by
  unfold headRequest at h ⊢
  rw [List.find?_append, h]
  rfl

/-- A request accepted behind a head request that is not ready leaves the part settled. -/
theorem State.settled_accept {p : Port} (req : Request) {s : State} {o : Outstanding} (hs : s.settled)
    (ho : headRequest (s.port p).outstanding = some o) : (s.setPort p ((s.port p).accept req)).settled := by
  obtain ⟨hchosen, hwaits, hA, hB⟩ := hs
  obtain ⟨hrA, hrB⟩ := State.notReady_of_none s hchosen
  have hready : ((s.port p).accept req).ready = (s.port p).ready := by
    simp only [PortState.ready, PortState.accept]
    rw [headRequest_append_of_some ho, ho]
  cases p
  · exact ⟨State.chosenPort_none _ (hready.trans hrA) hrB, hwaits, nothingToReturn_append_waiting _ _ rfl hA, hB⟩
  · exact ⟨State.chosenPort_none _ hrA (hready.trans hrB), hwaits, hA, nothingToReturn_append_waiting _ _ rfl hB⟩

theorem State.issue_behind_head {p : Port} (req : Request) {s : State} {o : Outstanding} (hs : s.settled)
    (hl : (s.port p).outstanding.length < 8) (ho : headRequest (s.port p).outstanding = some o) :
    s.issue p req = s.setPort p ((s.port p).accept req) := by
  rw [State.issue_eq p req s hl, State.finish_of_settled _ (State.settled_accept req hs ho)]

/-- Settles O8: every row presents its request at the port; the list's length and its head decide what follows. -/
theorem requestsThatWait : Obligations.RequestsThatWait := by
  refine fun p req s => ⟨fun h => ?_, fun o hs hl ho => ?_, fun h => ?_, fun r hr => ?_, fun r hr => ?_⟩
  · exact congrArg Host.Outcome.next (State.issue_of_full h)
  · exact congrArg Host.Outcome.next (State.issue_behind_head req hs hl ho)
  · exact congrArg Host.Outcome.next (State.issue_of_portFree p req s h)
  · subst hr; exact ⟨rfl, rfl, rfl, rfl, rfl, rfl, rfl⟩
  · subst hr; exact ⟨rfl, rfl, rfl, rfl, rfl, rfl, rfl, rfl⟩

/-! ## Requests answered without service -/

theorem illegal_iff (twin : Bool) (addr : Addr) (len : Nat) :
    illegal twin addr len = true ↔ (len ≠ 8 ∧ len ≠ 16 ∧ len ≠ 32 ∧ len ≠ 64) ∨ addr.toNat % len ≠ 0 ∨ twin = true := by
  simp only [illegal, legalLength, Bool.or_eq_true, Bool.not_eq_true', bne_iff_ne, ne_eq, or_assoc]
  simp

theorem tagListed_iff (l : List Outstanding) (tag : Fin 8) : tagListed l tag = true ↔ ∃ o ∈ l, tagOf o.req = tag := by
  simp [tagListed]

theorem State.decideRequest_of_illegal_read {p : Port} {twin : Bool} {r : ReadReq} {s : State}
    (h : illegal twin r.addr r.len = true) : s.decideRequest p twin (.read r) = (faulted r.tag, s.raise .badRequest) := if_pos h

theorem State.decideRequest_of_illegal_write {p : Port} {twin : Bool} {r : WriteReq} {s : State}
    (h : illegal twin r.addr r.len = true) : s.decideRequest p twin (.write r) = (faulted r.tag, s.raise .badRequest) := if_pos h

theorem State.decideRequest_of_twin (p : Port) (req : Request) (s : State) :
    s.decideRequest p true req = (faulted (tagOf req), s.raise .badRequest) := by
  cases req with
  | read r => exact State.decideRequest_of_illegal_read (by simp [illegal])
  | write r => exact State.decideRequest_of_illegal_write (by simp [illegal])

theorem setHeadStage_at_head (st : Stage) (l r : List Outstanding) (o : Outstanding)
    (hl : ∀ x ∈ l, x.stage.undispatched = false) (ho : o.stage.undispatched = true) :
    setHeadStage st (l ++ o :: r) = l ++ { o with stage := st } :: r := by
  induction l with
  | nil => exact if_pos ho
  | cons x l ih =>
    rw [List.cons_append, setHeadStage, hl x List.mem_cons_self, ih fun y hy => hl y (List.mem_cons_of_mem x hy)]
    rfl

theorem State.port_setHead (p : Port) (st : Stage) (s : State) :
    ((s.setHead p st).port p).outstanding = setHeadStage st (s.port p).outstanding := by cases p <;> rfl

theorem undispatched_of_head {l : List Outstanding} {o : Outstanding} (h : headRequest l = some o) :
    o.stage.undispatched = true := List.find?_some (p := fun x : Outstanding => x.stage.undispatched) h

/-- A write with every enable clear changes no state (R127). -/
theorem State.decideWrite_of_nothing_enabled (p : Port) {r : WriteReq} (s : State) (h : writeCellsOf r = []) :
    s.decideWrite p r
      = (if (s.classOf r.addr.toNat).isWatchedArea = true ∧ s.cu.mode = .halted then faulted r.tag else okDone r.tag, s) := by
  unfold State.decideWrite
  dsimp only
  rw [if_pos (by rw [h]; rfl)]
  simp

/-- Settles O9: the decoder answers an illegal request, and a write with no enabled byte, without looking at its class. -/
theorem requestsAnsweredWithoutService : Obligations.RequestsAnsweredWithoutService := by
  refine ⟨illegal_iff, tagListed_iff, fun p o s ho => ⟨fun htwin => ?_, fun l r st hl hbefore => ?_⟩, fun p r s hp hi => ?_,
    fun p r s hp hi => ?_, fun p r s hp hl hnone => ?_⟩
  · rw [State.takeHead_of_head ho, htwin, State.decideRequest_of_twin]
  · rw [State.port_setHead, hl, setHeadStage_at_head st l r o hbefore (undispatched_of_head ho)]
  · refine congrArg Host.Outcome.next ((State.issue_of_portFree p (.read r) s hp).trans ?_)
    rw [tagOf, State.decideRequest_of_illegal_read hi]
  · refine congrArg Host.Outcome.next ((State.issue_of_portFree p (.write r) s hp).trans ?_)
    rw [tagOf, State.decideRequest_of_illegal_write hi]
  · refine congrArg Host.Outcome.next ((State.issue_write_of_portFree p r s hp hl).trans ?_)
    rw [State.decideWrite_of_nothing_enabled p s hnone]

/-! ## The ranges the decoder watches -/

/-- In INIT no watched area counts (R131). -/
theorem State.classOf_eq (s : State) (x : Nat) :
    s.classOf x = if (s.placeOf x).isWatchedArea = true ∧ s.cu.mode = .init then .outside else s.placeOf x := by
  unfold State.classOf
  cases s.placeOf x <;> simp [Place.isWatchedArea]

theorem State.placeOf_inBlock {s : State} {x : Nat} (h : s.cbBase ≤ x ∧ x < s.cbBase + 20480) :
    s.placeOf x = controlBlockPlace (x - s.cbBase) := if_pos h

theorem controlBlockPlace_not_watched (off : Nat) : (controlBlockPlace off).isWatchedArea = false := by
  unfold controlBlockPlace
  split
  · rfl
  · split <;> rfl

/-- The control block is watched in every mode (R131). -/
theorem State.classOf_inBlock {s : State} {x off : Nat} (hx : x = s.cbBase + off) (ho : off < 20480) :
    s.classOf x = controlBlockPlace off := by
  have hplace : s.placeOf x = controlBlockPlace off := by
    rw [State.placeOf_inBlock ⟨by omega, by omega⟩, hx, Nat.add_sub_cancel_left]
  rw [State.classOf_eq, hplace, controlBlockPlace_not_watched, if_neg (by simp)]

/-- The place of an address outside the control block. -/
theorem State.placeOf_outBlock {s : State} {x : Nat} (h : ¬(s.cbBase ≤ x ∧ x < s.cbBase + 20480)) :
    s.placeOf x = match findSlot x 0 s.layout.areas.toList with
      | some id => .item id
      | none => match s.layout.descs with
        | some v => findQueue v x queueIds
        | none => .outside := if_neg h

/-- An address falls in a valid area (R1). -/
def AreaDesc.holds (d : AreaDesc) (x : Nat) : Prop := d.valid = true ∧ d.base ≤ x ∧ x < d.base + 64 * d.slots

theorem findSlot_cons (x i : Nat) (d : AreaDesc) (r : List AreaDesc) :
    (d.holds x → findSlot x i (d :: r) = some { area := i, slot := (x - d.base) / 64 }) ∧
    (¬d.holds x → findSlot x i (d :: r) = findSlot x (i + 1) r) := by
  constructor <;> intro h <;> simp only [AreaDesc.holds] at h <;> simp [findSlot, and_assoc, h]

/-- No area holds the address. -/
theorem findSlot_of_none {x : Nat} {l : List AreaDesc} (i : Nat) (h : ∀ d ∈ l, ¬d.holds x) : findSlot x i l = none := by
  induction l generalizing i with
  | nil => rfl
  | cons d r ih =>
    rw [List.forall_mem_cons] at h
    rw [(findSlot_cons x i d r).2 h.1, ih (i + 1) h.2]

/-- The first area that holds the address counts. -/
theorem findSlot_of_first {x : Nat} {l : List AreaDesc} (r : List AreaDesc) {d : AreaDesc} (i : Nat)
    (hl : ∀ e ∈ l, ¬e.holds x) (hd : d.holds x) :
    findSlot x i (l ++ d :: r) = some { area := i + l.length, slot := (x - d.base) / 64 } := by
  induction l generalizing i with
  | nil => exact (findSlot_cons x i d r).1 hd
  | cons e l ih =>
    rw [List.forall_mem_cons] at hl
    rw [List.cons_append, (findSlot_cons x i e _).2 hl.1, ih (i + 1) hl.2, List.length_cons]
    congr 2
    omega

/-- An address falls in the ring area, or in the view window, of a queue (R103). -/
def QDesc.inRing (d : QDesc) (x : Nat) : Prop := d.ringBase ≤ x ∧ x < d.ringBase + 64 + 16 * d.capacity

/-- An address falls in the view window of a queue (R103). -/
def QDesc.inView (d : QDesc) (x : Nat) : Prop := d.viewBase ≤ x ∧ x < d.viewBase + 16 * d.capacity

theorem findQueue_cons (v : Vector QDesc 6) (x : Nat) (q : Fin 6) (r : List (Fin 6)) :
    (v[q].inRing x → findQueue v x (q :: r) = .ring q (x - v[q].ringBase)) ∧
    (v[q].inView x → ¬v[q].inRing x → findQueue v x (q :: r) = .view q (x - v[q].viewBase)) ∧
    (¬v[q].inRing x → ¬v[q].inView x → findQueue v x (q :: r) = findQueue v x r) := by
  have hring : v[q].ringBase ≤ x ∧ x < v[q].ringBase + v[q].ringLen ↔ v[q].inRing x := by
    rw [QDesc.inRing, QDesc.ringLen, Nat.add_assoc]
  have hview : v[q].viewBase ≤ x ∧ x < v[q].viewBase + v[q].viewLen ↔ v[q].inView x := Iff.rfl
  refine ⟨fun h => if_pos (hring.mpr h), fun h h' => ?_, fun h h' => ?_⟩
  · rw [findQueue, if_neg (mt hring.mp h'), if_pos (hview.mpr h)]
  · rw [findQueue, if_neg (mt hring.mp h), if_neg (mt hview.mp h')]

/-- Queues that hold the address in neither range are passed over. -/
theorem findQueue_append {v : Vector QDesc 6} {x : Nat} {l : List (Fin 6)} (r : List (Fin 6))
    (h : ∀ q ∈ l, ¬v[q].inRing x ∧ ¬v[q].inView x) : findQueue v x (l ++ r) = findQueue v x r := by
  induction l with
  | nil => rfl
  | cons q l ih =>
    rw [List.forall_mem_cons] at h
    rw [List.cons_append, (findQueue_cons v x q _).2.2 h.1.1 h.1.2, ih h.2]

/-- The queues below a queue, and the queue itself, at its place in the list of all six. -/
theorem queueIds_split (q : Fin 6) : queueIds = queueIds.take q.val ++ q :: queueIds.drop (q.val + 1) ∧
    ∀ p ∈ queueIds.take q.val, p < q := by
  decide +revert

theorem Vector.toList_split {α : Type} {n : Nat} (v : Vector α n) (i : Fin n) :
    v.toList = v.toList.take i.val ++ v[i] :: v.toList.drop (i.val + 1) ∧
    ∀ a ∈ v.toList.take i.val, ∃ j : Fin n, j < i ∧ v[j] = a := by
  have hi : i.val < v.toList.length := by simp
  constructor
  · conv_lhs => rw [← List.take_append_drop i.val v.toList, List.drop_eq_getElem_cons hi]
    simp
  · intro a ha
    obtain ⟨j, hj, rfl⟩ := List.mem_take_iff_getElem.mp ha
    have hji : j < i.val := by omega
    exact ⟨⟨j, by omega⟩, hji, by simp⟩

theorem State.placeOf_item {s : State} {x : Nat} (hb : ¬(s.cbBase ≤ x ∧ x < s.cbBase + 20480)) {i : Fin 4}
    (hi : s.layout.areas[i].holds x) (hbelow : ∀ j, j < i → ¬s.layout.areas[j].holds x) :
    s.placeOf x = .item { area := i.val, slot := (x - s.layout.areas[i].base) / 64 } := by
  obtain ⟨hsplit, hmem⟩ := Vector.toList_split s.layout.areas i
  have hfind := findSlot_of_first (s.layout.areas.toList.drop (i.val + 1)) 0 (fun e he => by
    obtain ⟨j, hj, rfl⟩ := hmem e he
    exact hbelow j hj) hi
  rw [State.placeOf_outBlock hb, hsplit, hfind]
  simp

theorem State.placeOf_queues {s : State} {x : Nat} (hb : ¬(s.cbBase ≤ x ∧ x < s.cbBase + 20480))
    (h : ∀ i : Fin 4, ¬s.layout.areas[i].holds x) :
    s.placeOf x = match s.layout.descs with
      | some v => findQueue v x queueIds
      | none => .outside := by
  have hnone : findSlot x 0 s.layout.areas.toList = none := findSlot_of_none 0 fun d hd => by
    obtain ⟨i, hi, rfl⟩ := List.getElem_of_mem hd
    simpa using h ⟨i, by simpa using hi⟩
  rw [State.placeOf_outBlock hb, hnone]

theorem State.desc?_eq_some {s : State} {q : Fin 6} {d : QDesc} :
    s.desc? q = some d ↔ ∃ v, s.layout.descs = some v ∧ v[q] = d := by
  simp [State.desc?]

/-- A queue is passed over when the address is in neither of its ranges. -/
theorem State.placeOf_queue {s : State} {x : Nat} (hb : ¬(s.cbBase ≤ x ∧ x < s.cbBase + 20480))
    (ha : ∀ i : Fin 4, ¬s.layout.areas[i].holds x) {q : Fin 6} {d : QDesc} (hd : s.desc? q = some d)
    (hbelow : ∀ p, p < q → ∀ e, s.desc? p = some e → ¬e.inRing x ∧ ¬e.inView x) :
    (d.inRing x → s.placeOf x = .ring q (x - d.ringBase)) ∧
    (d.inView x → ¬d.inRing x → s.placeOf x = .view q (x - d.viewBase)) := by
  obtain ⟨v, hv, rfl⟩ := State.desc?_eq_some.mp hd
  obtain ⟨hsplit, hlt⟩ := queueIds_split q
  have hfind : findQueue v x queueIds = findQueue v x (q :: queueIds.drop (q.val + 1)) :=
    (congrArg (findQueue v x) hsplit).trans
      (findQueue_append _ fun p hp => hbelow p (hlt p hp) _ (State.desc?_eq_some.mpr ⟨v, hv, rfl⟩))
  have hplace : s.placeOf x = findQueue v x (q :: queueIds.drop (q.val + 1)) := by
    rw [State.placeOf_queues hb ha, hv, ← hfind]
  rw [hplace]
  exact ⟨(findQueue_cons v x q _).1, (findQueue_cons v x q _).2.1⟩

theorem State.placeOf_outside {s : State} {x : Nat} (hb : ¬(s.cbBase ≤ x ∧ x < s.cbBase + 20480))
    (ha : ∀ i : Fin 4, ¬s.layout.areas[i].holds x)
    (hq : ∀ q d, s.desc? q = some d → ¬d.inRing x ∧ ¬d.inView x) : s.placeOf x = .outside := by
  rw [State.placeOf_queues hb ha]
  split
  · next v hv =>
    have h := findQueue_append (l := queueIds) [] fun q _ => hq q v[q] (State.desc?_eq_some.mpr ⟨v, hv, rfl⟩)
    rw [← List.append_nil queueIds, h]
    rfl
  · rfl

theorem State.classOf_of_serving {s : State} {x : Nat} {pl : Place} (hm : s.cu.mode ≠ .init) (h : s.placeOf x = pl) :
    s.classOf x = pl := by
  rw [State.classOf_eq, if_neg fun k => hm k.2, h]

theorem State.classOf_outBlock_of_init {s : State} {x : Nat} (hb : ¬(s.cbBase ≤ x ∧ x < s.cbBase + 20480))
    (hm : s.cu.mode = .init) : s.classOf x = .outside := by
  have hplace : (s.placeOf x).isWatchedArea = true ∨ s.placeOf x = .outside := by
    rw [State.placeOf_outBlock hb]
    split
    · exact .inl rfl
    · split
      · next v _ =>
        induction queueIds with
        | nil => exact .inr rfl
        | cons q r ih =>
          unfold findQueue
          split
          · exact .inl rfl
          · split
            · exact .inl rfl
            · exact ih
      · exact .inr rfl
  rw [State.classOf_eq]
  rcases hplace with h | h
  · rw [if_pos ⟨h, hm⟩]
  · rw [h, ite_self]

theorem Layout.slotAddr_eq_some (l : Layout) (id : SlotId) (a : Nat) : l.slotAddr id = some a ↔
    ∃ d, l.areas[id.area]? = some d ∧ d.valid = true ∧ id.slot < d.slots ∧ a = d.base + 64 * id.slot := by
  unfold Layout.slotAddr
  cases l.areas[id.area]? with
  | none => simp
  | some d =>
    constructor
    · intro h
      by_cases hc : d.valid = true ∧ id.slot < d.slots
      · exact ⟨d, rfl, hc.1, hc.2, by simpa [hc, eq_comm (b := a)] using h⟩
      · simp [hc] at h
    · rintro ⟨e, he, hvalid, hslot, rfl⟩
      obtain rfl := Option.some.inj he
      simp [hvalid, hslot]

theorem Layout.isTrial_iff (l : Layout) (id : SlotId) :
    l.isTrial id = true ↔ ∃ d, l.areas[id.area]? = some d ∧ d.trial = true := by
  unfold Layout.isTrial
  cases l.areas[id.area]? with
  | none => simp
  | some d => simp

/-! ## Requests that pass -/

theorem wholeRead_overlaps_iff (r : ReadReq) (w : FwdWrite) : (wholeRead r).any (·.overlaps w) = true ↔
    ∃ x, r.addr.toNat ≤ x ∧ x < r.addr.toNat + r.len ∧ w.addr ≤ x ∧ x < w.addr + w.len := by
  simp [wholeRead, ReadPart.overlaps, runsOverlap_iff]

/-- A read of the part's own ranges that the decoder passes on (R12, R131, R133). -/
theorem State.decideRead_of_pass (p : Port) {r : ReadReq} {s : State}
    (hc : s.classOf r.addr.toNat = .outside ∨ s.classOf r.addr.toNat = .mailbox ∨
      ∃ off, s.classOf r.addr.toNat = .controlBlock off) : s.decideRead p r = s.forwardRead r (wholeRead r) := by
  unfold State.decideRead
  rcases hc with h | h | ⟨off, h⟩ <;> rw [h]

/-- What a forwarded read of a request's own bytes comes to, taken at a free port. -/
theorem State.issue_forwardRead {p : Port} {r : ReadReq} {s : State} (hp : s.portFree p) (hl : legalRead p r s)
    (hd : s.decideRead p r = s.forwardRead r (wholeRead r)) :
    (overlapsForward s.fwd r.addr.toNat r.len = false → s.issue p (.read r) = State.taken p (.read r)
      (if r.mem.head? = some .fault then faulted r.tag
       else okData r.tag (Memory.bytes (s.grantRead s.fwd.length).memory r.addr.toNat r.len))
      (s.grantRead s.fwd.length)) ∧
    (overlapsForward s.fwd r.addr.toNat r.len = true → s.issue p (.read r) = State.taken p (.read r)
      (.reading (wholeRead r) (lastOverlap (wholeRead r) s.fwd) s.fwd.length s.nextTurn) s) := by
  rw [State.issue_read_of_portFree p r s hp hl, hd]
  exact ⟨fun h => by rw [State.forwardRead_whole r s h], fun h => by rw [State.forwardRead_whole_waits r s h]⟩

/-- Settles O10: the class of an address by the ranges in their order, and a passed read by `State.issue_forwardRead`. -/
theorem passReadsReturnMemory : Obligations.PassReadsReturnMemory := by
  refine ⟨fun s x => State.classOf_isWatchedArea_of_init x, fun _ => rfl, fun s x => ⟨fun off hx ho => ?_, ?_, ?_⟩,
    fun l id a => ⟨Layout.slotAddr_eq_some l id a, Layout.isTrial_iff l id⟩, fun _ _ => rfl,
    fun fwd r => ⟨overlapsForward_iff fwd r.addr.toNat r.len, fun k => ?_⟩, fun p r s hp hl hc => ?_⟩
  · exact State.classOf_inBlock hx ho
  · exact State.classOf_outBlock_of_init
  · intro hb hm
    refine ⟨fun i hi hbelow => State.classOf_of_serving hm (State.placeOf_item hb hi hbelow), fun ha =>
      ⟨fun q d hd hring hbelow => ?_, fun q d hd hview hring hbelow => ?_, fun hq => ?_⟩⟩
    · obtain ⟨e, he, hin⟩ := hring
      obtain rfl := Option.some.inj (hd.symm.trans he)
      refine State.classOf_of_serving hm ((State.placeOf_queue hb ha hd fun p hp e he => ?_).1 hin)
      exact ⟨fun h => (hbelow p hp).1 ⟨e, he, h⟩, fun h => (hbelow p hp).2 ⟨e, he, h⟩⟩
    · obtain ⟨e, he, hin⟩ := hview
      obtain rfl := Option.some.inj (hd.symm.trans he)
      refine State.classOf_of_serving hm ((State.placeOf_queue hb ha hd fun p hp e he => ?_).2 hin fun h => hring ⟨d, hd, h⟩)
      exact ⟨fun h => (hbelow p hp).1 ⟨e, he, h⟩, fun h => (hbelow p hp).2 ⟨e, he, h⟩⟩
    · exact State.classOf_of_serving hm (State.placeOf_outside hb ha fun q d hd =>
        ⟨fun h => (hq q).1 ⟨d, hd, h⟩, fun h => (hq q).2 ⟨d, hd, h⟩⟩)
  · rw [(lastOverlap_spec (wholeRead r) fwd).2 k]
    simp only [← wholeRead_overlaps_iff, Bool.not_eq_true]
  · obtain ⟨hgo, hwait⟩ := State.issue_forwardRead hp hl (State.decideRead_of_pass p hc)
    exact ⟨fun h => congrArg Host.Outcome.next (hgo h), fun h => congrArg Host.Outcome.next (hwait h)⟩

theorem State.postingStopped_iff (s : State) : s.postingStopped = true ↔
    (∃ p, s.cu.work = .startSwitch p) ∨ ∃ seq t, s.cu.work = .reloadSwitch seq t := by
  unfold State.postingStopped
  cases s.cu.work <;> simp

theorem State.buffered_eq (s : State) : s.buffered = (s.fwd.filter (fun w => decide (w.kind = .posted))).length :=
  List.countP_eq_length_filter

theorem State.decideWrite_of_outside (p : Port) {r : WriteReq} {s : State} (he : (writeCellsOf r).isEmpty = false)
    (hc : s.classOf r.addr.toNat = .outside) : s.decideWrite p r = s.takePassWrite r := by
  simp [State.decideWrite, he, hc]

/-- Settles O11: the three cases of `State.takePassWrite`. -/
theorem passWritesArePosted : Obligations.PassWritesArePosted := by
  refine ⟨fun s => ⟨s.postingStopped_iff, s.buffered_eq⟩, fun p r s hp hl hc => ?_⟩
  have hissue : exec (.passWrite p r) s
      = .next (State.taken p (.write r) (s.takePassWrite r).1 (s.takePassWrite r).2) := by
    refine congrArg Host.Outcome.next ?_
    rw [State.issue_write_of_portFree p r s hp hl.1, State.decideWrite_of_outside p hl.2 hc]
  rw [hissue]
  refine ⟨fun hstop => ?_, fun hstop hfull => ?_, fun hstop hroom => ?_⟩
  · rw [State.takePassWrite, if_pos hstop]
  · rw [State.takePassWrite, if_neg (by simp [hstop]), if_pos hfull]
  · rw [State.takePassWrite, if_neg (by simp [hstop]), if_neg (Nat.not_le.mpr hroom)]
    rfl

end Sys2Proof.Machine
end

section
/-! Requests to item slots, ring areas and view windows (R12 to R17, R114, R115, R119, R122). -/

namespace Sys2Proof.Machine

/-! ## The busy set and the places -/

theorem CqEntry.isCommand_iff (e : CqEntry) : e.isCommand = true ↔ e = .command e.slot := by
  cases e <;> simp [CqEntry.isCommand, CqEntry.slot]

theorem State.mem_serviceSlots (s : State) (id : SlotId) : id ∈ s.serviceSlots ↔
    ∃ svc, s.icu.stage.service = some svc ∧ svc.addr ≠ none ∧ svc.entry.slot = id := by
  unfold State.serviceSlots
  cases s.icu.stage.service with
  | none => simp
  | some svc =>
    cases h : svc.addr with
    | none => simp [h]
    | some a => simp [h, eq_comm]

theorem State.busy_iff (s : State) (id : SlotId) : s.busy id = true ↔
    id ∈ s.icu.given ∨ CqEntry.command id ∈ s.icu.cq ∨
    ∃ svc, s.icu.stage.service = some svc ∧ svc.addr ≠ none ∧ svc.entry.slot = id := by
  have hcq : id ∈ (s.icu.cq.filter (·.isCommand)).map (·.slot) ↔ CqEntry.command id ∈ s.icu.cq := by
    simp only [List.mem_map, List.mem_filter, CqEntry.isCommand_iff]
    constructor
    · rintro ⟨e, ⟨he, hcommand⟩, rfl⟩
      rwa [← hcommand]
    · exact fun h => ⟨_, ⟨h, rfl⟩, rfl⟩
  simp only [State.busy, State.busySlots, List.contains_iff_mem, List.mem_append, hcq, State.mem_serviceSlots, or_assoc]

theorem IcuStage.service_eq_some (stage : IcuStage) (svc : Service) : stage.service = some svc ↔
    stage = .fetching svc ∨ (∃ rec g, stage = .voiding svc rec g) ∨ (∃ rec, stage = .rerouting svc rec) ∨
    (∃ rec x, stage = .appending svc rec x) ∨ (∃ rec x, stage = .entryWrite svc rec x) ∨
    ∃ cells events, stage = .writeBack svc cells events := by
  cases stage <;> simp [IcuStage.service]

/-! ## Item slots -/

theorem State.decideRead_of_item (p : Port) {r : ReadReq} {id : SlotId} {s : State}
    (hc : s.classOf r.addr.toNat = .item id) : s.decideRead p r = s.takeItemRead id r := by
  rw [State.decideRead, hc]

theorem State.takeItemRead_cases (id : SlotId) (r : ReadReq) (s : State) :
    (s.cu.mode = .halted → s.takeItemRead id r = (faulted r.tag, s)) ∧
    (s.cu.mode ≠ .halted → s.busy id = true → s.takeItemRead id r = (.held (.busySlot id), s)) ∧
    (s.cu.mode ≠ .halted → s.busy id = false → s.takeItemRead id r = s.forwardRead r (wholeRead r)) := by
  refine ⟨fun hm => if_pos hm, fun hm hb => ?_, fun hm hb => ?_⟩ <;> rw [State.takeItemRead, if_neg hm, hb] <;> rfl

/-- Settles O12: the busy set by its three parts, and the cases of `State.takeItemRead`. -/
theorem itemReads : Obligations.ItemReads := by
  refine ⟨State.busy_iff, fun id => ⟨rfl, fun _ => ⟨rfl, fun _ => rfl⟩⟩, IcuStage.service_eq_some, fun p r id s hp hl hc => ?_⟩
  have hd := State.decideRead_of_item p hc
  obtain ⟨hhalted, hbusy, hfree⟩ := State.takeItemRead_cases id r s
  have hissue := State.issue_read_of_portFree p r s hp hl
  rw [hd] at hissue
  refine ⟨fun hm => congrArg Host.Outcome.next ?_, fun hm hb => congrArg Host.Outcome.next ?_,
    fun hm hb ho => congrArg Host.Outcome.next ?_, fun hm hb ho => congrArg Host.Outcome.next ?_⟩
  · rw [hissue, hhalted hm]
  · rw [hissue, hbusy hm hb]
  · exact (State.issue_forwardRead hp hl (hd.trans (hfree hm hb))).1 ho
  · exact (State.issue_forwardRead hp hl (hd.trans (hfree hm hb))).2 ho

theorem mem_enabledCells_iff (a : Nat) (l : List (Option Byte)) (c : Host.Cell) :
    c ∈ enabledCells a l ↔ ∃ i b, l[i]? = some (some b) ∧ c = (a + i, b) := by
  induction l generalizing a with
  | nil => simp [enabledCells]
  | cons o l ih =>
    have hshift : (∃ i b, l[i]? = some (some b) ∧ c = (a + 1 + i, b)) ↔
        ∃ i b, (o :: l)[i + 1]? = some (some b) ∧ c = (a + (i + 1), b) := by
      simp only [List.getElem?_cons_succ, Nat.add_right_comm a 1, Nat.add_assoc]
    have hfirst : (∃ i b, (o :: l)[i]? = some (some b) ∧ c = (a + i, b)) ↔
        (∃ b, o = some b ∧ c = (a, b)) ∨ ∃ i b, (o :: l)[i + 1]? = some (some b) ∧ c = (a + (i + 1), b) := by
      constructor
      · rintro ⟨i | i, b, hb, hcell⟩
        · exact .inl ⟨b, by simpa using hb, hcell⟩
        · exact .inr ⟨i, b, hb, hcell⟩
      · rintro (⟨b, rfl, hcell⟩ | ⟨i, b, hb, hcell⟩)
        · exact ⟨0, b, rfl, hcell⟩
        · exact ⟨i + 1, b, hb, hcell⟩
    rw [hfirst, ← hshift, ← ih]
    cases o <;> simp [enabledCells]

theorem mem_writeCellsOf_iff (r : WriteReq) (c : Host.Cell) : c ∈ writeCellsOf r ↔
    ∃ i b, i < r.len ∧ r.bytes[i]? = some (some b) ∧ c = (r.addr.toNat + i, b) := by
  rw [writeCellsOf, mem_enabledCells_iff]
  refine exists_congr fun i => exists_congr fun b => ?_
  rw [List.getElem?_take]
  split
  · next h => simp [h]
  · next h => simp [h]

theorem hostCells_eq (r : WriteReq) :
    hostCells r = (writeCellsOf r).filter (fun c => decide (c.1 % 64 < 32 ∨ 52 ≤ c.1 % 64)) := by
  simp only [hostCells, inHostRegion, Bool.decide_or]

theorem carriesCommand_iff (r : WriteReq) :
    carriesCommand r = true ↔ ∃ x b, (x, b) ∈ writeCellsOf r ∧ x % 64 = 7 ∧ b ≠ 0 := by
  simp [carriesCommand, Config.recBytes]

/-- A write whose dropped bytes are noted is forwarded with the others, or answered OK where none is left (R13, R133, R176). -/
theorem State.forwardWrite_protect {r : WriteReq} (kept : Cells) (k : FwdKind) (s : State)
    (he : (writeCellsOf r).isEmpty = false) :
    (kept = [] →
      (s.protect (writeCellsOf r) kept).forwardWrite r kept k = (okDone r.tag, s.raise .protection)) ∧
    (kept ≠ [] → (s.protect (writeCellsOf r) kept).forwardWrite r kept k
      = (.writing, { protection (writeCellsOf r) kept s with
          fwd := s.fwd ++ [{ addr := r.addr.toNat, len := r.len, cells := kept, kind := k }] })) := by
  constructor
  · rintro rfl
    rw [State.protect_nothing_kept _ s he, State.forwardWrite_nil]
  · intro h
    rw [State.forwardWrite_of_ne_nil r kept k _ h, State.joinForward_protect]

theorem State.decideWrite_of_item (p : Port) {r : WriteReq} {id : SlotId} {s : State}
    (he : (writeCellsOf r).isEmpty = false) (hc : s.classOf r.addr.toNat = .item id) :
    s.decideWrite p r = s.takeItemWrite p id r := by
  simp [State.decideWrite, he, hc]

theorem State.takeItemWrite_cases (p : Port) (id : SlotId) (r : WriteReq) (s : State) :
    (s.cu.mode = .halted → s.takeItemWrite p id r = (faulted r.tag, s)) ∧
    (s.cu.mode ≠ .halted → s.busy id = true → s.takeItemWrite p id r = (.held (.busySlot id), s)) ∧
    (s.cu.mode ≠ .halted → s.busy id = false → carriesCommand r = false → s.takeItemWrite p id r
      = (s.protect (writeCellsOf r) (hostCells r)).forwardWrite r (hostCells r) (.plain p r.mem)) ∧
    (s.cu.mode ≠ .halted → s.busy id = false → carriesCommand r = true → (16 ≤ s.commandPlaces ∨ 24 ≤ s.places) →
      s.takeItemWrite p id r = (.held .cqCommand, s)) ∧
    (s.cu.mode ≠ .halted → s.busy id = false → carriesCommand r = true → s.commandPlaces < 16 → s.places < 24 →
      s.takeItemWrite p id r = (.writing,
        ({ s.protect (writeCellsOf r) (hostCells r) with
           icu := { (s.protect (writeCellsOf r) (hostCells r)).icu with
             given := (s.protect (writeCellsOf r) (hostCells r)).icu.given ++ [id] } }).joinForward r (hostCells r)
           (.command p id))) := by
  refine ⟨fun hm => if_pos hm, fun hm hb => ?_, fun hm hb hcmd => ?_, fun hm hb hcmd hfull => ?_,
    fun hm hb hcmd hcommands hplaces => ?_⟩ <;> rw [State.takeItemWrite, if_neg hm, hb]
  · rfl
  · rw [hcmd]; rfl
  · rw [hcmd, if_neg Bool.false_ne_true, if_pos rfl, if_neg fun h => hfull.elim (Nat.not_le.mpr h.1) (Nat.not_le.mpr h.2)]
  · rw [hcmd, if_neg Bool.false_ne_true, if_pos rfl, if_pos ⟨hcommands, hplaces⟩]

theorem State.issue_itemWrite {p : Port} {r : WriteReq} {id : SlotId} {s : State} (hp : s.portFree p) (hl : legalWrite p r s)
    (hc : s.classOf r.addr.toNat = .item id) :
    s.issue p (.write r) = State.taken p (.write r) (s.takeItemWrite p id r).1 (s.takeItemWrite p id r).2 := by
  rw [State.issue_write_of_portFree p r s hp hl.1, State.decideWrite_of_item p hl.2 hc]

/-- Settles O13: the bytes of a write by their places, and the cases of `State.takeItemWrite` without a command. -/
theorem plainItemWrites : Obligations.PlainItemWrites := by
  refine ⟨mem_writeCellsOf_iff, fun r => ⟨hostCells_eq r, carriesCommand_iff r⟩, fun p r id s hp hl hc => ?_⟩
  have hissue := State.issue_itemWrite hp hl hc
  obtain ⟨hhalted, hbusy, hplain, -⟩ := State.takeItemWrite_cases p id r s
  obtain ⟨hnone, hsome⟩ := State.forwardWrite_protect (hostCells r) (.plain p r.mem) s hl.2
  refine ⟨fun hm => congrArg Host.Outcome.next (hissue.trans ?_), fun hm hb => congrArg Host.Outcome.next (hissue.trans ?_),
    fun hm hb hcmd hk => congrArg Host.Outcome.next (hissue.trans ?_),
    fun hm hb hcmd hk => congrArg Host.Outcome.next (hissue.trans ?_)⟩
  · rw [hhalted hm]
  · rw [hbusy hm hb]
  · rw [hplain hm hb hcmd, hnone hk]
  · rw [hplain hm hb hcmd, hsome hk]

theorem State.places_eq (s : State) :
    s.places = s.icu.given.length + s.icu.cq.length + s.icu.stage.service.toList.length := by
  unfold State.places
  cases s.icu.stage.service <;> rfl

theorem CqEntry.isCommand_eq (e : CqEntry) : e.isCommand = decide (e = .command e.slot) := by
  rw [Bool.eq_iff_iff, CqEntry.isCommand_iff, decide_eq_true_eq]

theorem State.commandPlaces_eq (s : State) : s.commandPlaces = s.icu.given.length
    + (s.icu.cq.filter (fun e => decide (e = .command e.slot))).length
    + (s.icu.stage.service.toList.filter (fun svc => decide (svc.entry = .command svc.entry.slot))).length := by
  unfold State.commandPlaces
  simp only [← CqEntry.isCommand_eq, List.countP_eq_length_filter]
  cases s.icu.stage.service with
  | none => rfl
  | some svc => cases h : svc.entry.isCommand <;> simp [h]

/-- The state that an admitted command-carrying write leaves (R14). -/
def State.admitted (p : Port) (id : SlotId) (r : WriteReq) (kept : Cells) (s : State) : State :=
  { protection (writeCellsOf r) kept s with
    icu := { s.icu with given := s.icu.given ++ [id] }
    fwd := s.fwd ++ [{ addr := r.addr.toNat, len := r.len, cells := kept, kind := .command p id }] }

theorem State.admitted_eq (p : Port) (id : SlotId) (r : WriteReq) (kept : Cells) (s : State) :
    ({ s.protect (writeCellsOf r) kept with
       icu := { (s.protect (writeCellsOf r) kept).icu with
         given := (s.protect (writeCellsOf r) kept).icu.given ++ [id] } }).joinForward r kept (.command p id)
      = s.admitted p id r kept := by
  unfold State.admitted State.joinForward
  rw [show protection (writeCellsOf r) kept s = s.protect (writeCellsOf r) kept from rfl]
  simp only [State.protect_frame]

theorem State.admitted_queue (p : Port) (id : SlotId) (r : WriteReq) (kept : Cells) (s : State) :
    (s.admitted p id r kept).busy id = true ∧ (s.admitted p id r kept).places = s.places + 1 ∧
    (s.admitted p id r kept).commandPlaces = s.commandPlaces + 1 := by
  have hicu : (s.admitted p id r kept).icu = { s.icu with given := s.icu.given ++ [id] } := rfl
  refine ⟨(State.busy_iff _ _).mpr (.inl (by simp [hicu])), ?_, ?_⟩
  · simp only [State.places, hicu, List.length_append, List.length_singleton]
    omega
  · simp only [State.commandPlaces, hicu, List.length_append, List.length_singleton]
    omega

/-- Settles O14: the places by their owners, and the cases of `State.takeItemWrite` with a command. -/
theorem commandWrites : Obligations.CommandWrites := by
  refine ⟨fun s => ⟨s.places_eq, s.commandPlaces_eq⟩, fun p r id s hp hl hc hcmd kept hk => ?_⟩
  rw [← carriesCommand_iff] at hcmd
  rw [← hostCells_eq] at hk
  subst hk
  have hissue := State.issue_itemWrite hp hl hc
  obtain ⟨hhalted, hbusy, -, hfull, hroom⟩ := State.takeItemWrite_cases p id r s
  refine ⟨fun hm => congrArg Host.Outcome.next (hissue.trans ?_), fun hm hb => congrArg Host.Outcome.next (hissue.trans ?_),
    fun hm hb hpl => congrArg Host.Outcome.next (hissue.trans ?_), fun hm hb hcommands hplaces =>
      ⟨s.admitted p id r (hostCells r), congrArg Host.Outcome.next (hissue.trans ?_), rfl, State.admitted_queue p id r _ s⟩⟩
  · rw [hhalted hm]
  · rw [hbusy hm hb]
  · rw [hfull hm hb hcmd hpl]
  · rw [hroom hm hb hcmd hcommands hplaces, State.admitted_eq]

end Sys2Proof.Machine
end

section
/-! Requests to ring areas, take words and view windows (R114, R115, R119, R122). -/

namespace Sys2Proof.Machine

/-! ## What a request comes to, from the decoder's decision on it -/

theorem State.next_issue_read {p : Port} {r : ReadReq} {s u : State} {st : Stage} (hp : s.portFree p) (hl : legalRead p r s)
    (hd : s.decideRead p r = (st, u)) :
    (.next (s.issue p (.read r)) : Host.Outcome State Fault Refusal) = .next (State.taken p (.read r) st u) := by
  rw [State.issue_read_of_portFree p r s hp hl, hd]

theorem State.next_issue_write {p : Port} {r : WriteReq} {s u : State} {st : Stage} (hp : s.portFree p)
    (hl : legalWrite p r s) (hd : s.decideWrite p r = (st, u)) :
    (.next (s.issue p (.write r)) : Host.Outcome State Fault Refusal) = .next (State.taken p (.write r) st u) := by
  rw [State.issue_write_of_portFree p r s hp hl.1, hd]

/-! ## Ring areas -/

theorem State.decideRead_of_ring (p : Port) {r : ReadReq} {q : Fin 6} {off : Nat} {s : State}
    (hc : s.classOf r.addr.toNat = .ring q off) : s.decideRead p r = s.takeRingRead p q off r := by
  rw [State.decideRead, hc]

theorem coversTakeWord_iff (off len : Nat) : coversTakeWord off len = true ↔ off < 64 ∧ 48 < off + len := by
  simp [coversTakeWord]

/-- A read of a ring area that misuses the take word, or that leaves it alone (R114, R122). -/
theorem State.takeRingRead_cases (p : Port) (q : Fin 6) (off : Nat) (r : ReadReq) (s : State) :
    (off < 64 → 48 < off + r.len → ¬(off = 48 ∧ r.len = 16) →
      s.takeRingRead p q off r = (faulted r.tag, s.raise .badRequest)) ∧
    ((64 ≤ off ∨ off + r.len ≤ 48) → s.cu.mode = .halted → s.takeRingRead p q off r = (faulted r.tag, s)) ∧
    ((64 ≤ off ∨ off + r.len ≤ 48) → s.cu.mode ≠ .halted →
      s.takeRingRead p q off r = s.forwardRead r (wholeRead r)) := by
  have htake : (off == 48 && r.len == 16) = decide (off = 48 ∧ r.len = 16) := by
    rw [Bool.eq_iff_iff]; simp
  have huncovered (h : 64 ≤ off ∨ off + r.len ≤ 48) : coversTakeWord off r.len = false := by
    rw [← Bool.not_eq_true, coversTakeWord_iff]; omega
  unfold State.takeRingRead
  rw [htake]
  refine ⟨fun hlow hhigh hnot => ?_, fun h hm => ?_, fun h hm => ?_⟩
  · rw [(coversTakeWord_iff off r.len).mpr ⟨hlow, hhigh⟩, decide_eq_false hnot]
    rfl
  · rw [huncovered h, Bool.false_and, if_neg Bool.false_ne_true, if_pos hm]
  · rw [huncovered h, Bool.false_and, if_neg Bool.false_ne_true, if_neg hm, if_neg (by omega)]

/-- Settles O15: the cases of `State.takeRingRead`, and a raw read by `State.issue_forwardRead`. -/
theorem ringReads : Obligations.RingReads := by
  intro p r q off s hp hl hc
  have hd := State.decideRead_of_ring p hc
  obtain ⟨hmisuse, hhalted, hraw⟩ := State.takeRingRead_cases p q off r s
  refine ⟨fun hlow hhigh hnot => State.next_issue_read hp hl (hd.trans (hmisuse hlow hhigh hnot)),
    fun h hm => State.next_issue_read hp hl (hd.trans (hhalted h hm)), fun h hm ho => congrArg Host.Outcome.next ?_,
    fun h hm ho => congrArg Host.Outcome.next ?_⟩
  · exact (State.issue_forwardRead hp hl (hd.trans (hraw h hm))).1 ho
  · exact (State.issue_forwardRead hp hl (hd.trans (hraw h hm))).2 ho

/-! ## Take words -/

theorem State.takeRingRead_takeWord (p : Port) (q : Fin 6) {r : ReadReq} (s : State) (hlen : r.len = 16) :
    (s.cu.mode = .halted → s.takeRingRead p q 48 r = (faulted r.tag, s)) ∧
    (s.cu.mode ≠ .halted → s.takeRingRead p q 48 r = s.serveTake p q r.tag) := by
  unfold State.takeRingRead
  rw [hlen, if_neg (by decide)]
  exact ⟨fun hm => if_pos hm, fun hm => by rw [if_neg hm, if_pos ⟨rfl, rfl⟩]⟩

theorem State.serveTake_of_inProgress (p : Port) {q : Fin 6} (tag : Fin 8) {s : State}
    (h : (s.queue q).takeInProgress = true) : s.serveTake p q tag
      = (.atQueue q, s.setQueue q { s.queue q with waiters := (s.queue q).waiters ++ [p] }) :=
  if_pos h

theorem State.serveTake_of_none (p : Port) {q : Fin 6} (tag : Fin 8) {s : State}
    (h : (s.queue q).takeInProgress = false) : s.serveTake p q tag = s.beginTake q tag :=
  if_neg (by simp [h])

/-- The units after a take of the position `x` at the head has begun (R115). -/
def State.takeBegun (q : Fin 6) (x : Position) (s : State) : State :=
  (({ s.setQueue q { s.queue q with
      positions := Map.ins (s.queue q).head { x with state := .taking } (s.queue q).positions
      live := (s.queue q).live - 1 } with
    ru := if q = 0 ∨ q = 1 then s.ru.takeNotice x.id q x.ticket else s.ru }).joinCq (.take x.id q x.ticket)).askOwn
      (.takeRead q)

theorem State.beginTake_cases (q : Fin 6) (tag : Fin 8) (s : State) :
    ((s.queue q).count = 0 → s.beginTake q tag = (okData tag synthEntry, s)) ∧
    (0 < (s.queue q).count → 24 ≤ s.places → s.beginTake q tag = (.held .cqNotice, s)) ∧
    (∀ x, 0 < (s.queue q).count → s.places < 24 → (s.queue q).position (s.queue q).head = some x →
      s.beginTake q tag = (.taking q, s.takeBegun q x)) := by
  refine ⟨fun h => if_pos h, fun h hp => ?_, fun x h hp hx => ?_⟩
  · rw [State.beginTake, if_neg (by omega), if_pos hp]
  · rw [State.beginTake, if_neg (by omega), if_neg (Nat.not_le.mpr hp), hx]
    unfold State.takeBegun
    by_cases hq : q = 0 ∨ q = 1
    · simp only [if_pos hq, if_pos ((isRestockQueue_iff q).mpr hq)]
      rfl
    · simp only [if_neg hq, if_neg (mt (isRestockQueue_iff q).mp hq)]
      rfl

theorem State.takeBegun_queue (q : Fin 6) (x : Position) (s : State) :
    ((s.takeBegun q x).queue q).takeInProgress = true ∧ (s.takeBegun q x).places = s.places + 1 := by
  have hqueue : (s.takeBegun q x).queue q = { s.queue q with
      positions := Map.ins (s.queue q).head { x with state := .taking } (s.queue q).positions
      live := (s.queue q).live - 1 } := by
    simp [State.queue, State.takeBegun]
  constructor
  · simp [hqueue, QState.takeInProgress, QState.position, Map.at?_ins]
  · exact (State.joinCq_places _ _).2.2.1

/-- Settles O16: a take read comes to `State.serveTake`, and the cases of that and of `State.beginTake`. -/
theorem takeReads : Obligations.TakeReads := by
  refine ⟨rfl, fun p r q s hp hl hc hlen => ?_⟩
  have hd := State.decideRead_of_ring p hc
  obtain ⟨hhalted, hserve⟩ := State.takeRingRead_takeWord p q s hlen
  obtain ⟨hempty, hfull, hbegin⟩ := State.beginTake_cases q r.tag s
  have hnew (hm : s.cu.mode ≠ .halted) (hnone : (s.queue q).takeInProgress = false) :
      s.decideRead p r = s.beginTake q r.tag :=
    hd.trans ((hserve hm).trans (State.serveTake_of_none p r.tag hnone))
  refine ⟨fun hm => State.next_issue_read hp hl (hd.trans (hhalted hm)), fun hm hbusy => ?_, fun hm hnone hcount => ?_,
    fun hm hnone hcount hplaces => ?_, fun x hm hnone hcount hplaces hx => ⟨s.takeBegun q x, ?_, rfl, s.takeBegun_queue q x⟩⟩
  · exact State.next_issue_read hp hl (hd.trans ((hserve hm).trans (State.serveTake_of_inProgress p r.tag hbusy)))
  · exact State.next_issue_read hp hl ((hnew hm hnone).trans (hempty hcount))
  · exact State.next_issue_read hp hl ((hnew hm hnone).trans (hfull hcount hplaces))
  · exact State.next_issue_read hp hl ((hnew hm hnone).trans (hbegin x hcount hplaces hx))

/-! ## View windows -/

theorem viewPart_cases (d : QDesc) (v : QState) (k off len : Nat) :
    (k < v.count → viewPart d v k off len
      = .mem (d.ringBase + 64 + 16 * ((v.head + k) % d.capacity) + off) len) ∧
    (v.count ≤ k → viewPart d v k off len = .synth ((synthEntry.drop off).take len)) :=
  ⟨fun h => if_pos h, fun h => if_neg (Nat.not_lt.mpr h)⟩

theorem State.answerParts_stage (r : ReadReq) (l : List ReadPart) (k : Nat) (s : State) :
    (s.answerParts r l k).1 = (if ReadAnswer.fault ∈ r.mem.take (l.countP (·.isMem)) then faulted r.tag
      else okData r.tag (State.readParts k l s).1) := by
  simp [State.answerParts]

theorem State.decideRead_of_view (p : Port) {r : ReadReq} {q : Fin 6} {off : Nat} {d : QDesc} {s : State}
    (hc : s.classOf r.addr.toNat = .view q off) (hd : s.desc? q = some d) : s.decideRead p r
      = if s.cu.mode = .halted then (faulted r.tag, s) else s.forwardRead r (viewParts d (s.queue q) off r.len) := by
  rw [State.decideRead, hc]
  simp only [State.takeViewRead, hd]

/-- Settles O17: the parts by their lengths, their answer part by part, and the cases of a view read. -/
theorem viewReads : Obligations.ViewReads := by
  refine ⟨viewPart_cases, fun d v off => ⟨rfl, rfl, rfl, rfl⟩, fun r l k s =>
    ⟨s.answerParts_stage r l k, rfl, rfl, fun _ _ => rfl, fun _ => rfl⟩, fun p r q off d s hp hl hc hd parts hparts => ?_⟩
  have hdec := State.decideRead_of_view p hc hd
  rw [← hparts] at hdec
  refine ⟨fun hm => ?_, fun hm ho => ?_, fun hm ho => ?_⟩
  · exact State.next_issue_read hp hl (hdec.trans (if_pos hm))
  · exact State.next_issue_read hp hl (hdec.trans ((if_neg hm).trans (if_pos ho)))
  · exact State.next_issue_read hp hl (hdec.trans ((if_neg hm).trans (if_neg (Nat.ne_of_gt ho))))

end Sys2Proof.Machine
end

section
/-! Requests to the control block (R133, R135, R146, R147, R172, R175, R176). -/

namespace Sys2Proof.Machine

/-! ## The event block -/

theorem EventKind.exists_index {m : Nat} (h : m < 12) : ∃ k : EventKind, k.index = m := by
  have hmem : m ∈ [EventKind.cmdRefused, .protection, .expired, .latePlace, .nearFull, .hold, .misfit, .mailbox,
      .memFault, .halt, .lockedBin, .badRequest].map EventKind.index := List.mem_range.mpr h
  obtain ⟨k, -, hk⟩ := List.mem_map.mp hmem
  exact ⟨k, hk⟩

theorem getElem?_leBytes (n v i : Nat) : (leBytes n v)[i]? = if i < n then some (BitVec.ofNat 8 (v / 256 ^ i)) else none := by
  induction n generalizing v i with
  | zero => simp [leBytes]
  | succ n ih =>
    cases i with
    | zero => simp [leBytes]
    | succ i => simp [leBytes, ih, Nat.div_div_eq_div_mul, Nat.pow_succ']

/-- A bit that is set in the bytes of a set of kinds is a kind's. -/
theorem EventKind.exists_of_leBytes_bit {x : BitVec 12} {i n : Nat} {b : Byte} (hb : (leBytes 8 x.toNat)[i]? = some b)
    (hn : n < 8) (hset : b.getLsbD n = true) : ∃ k : EventKind, i = k.index / 8 ∧ n = k.index % 8 := by
  rw [getElem?_leBytes] at hb
  split at hb
  · obtain rfl := Option.some.inj hb
    have hpow : (256 : Nat) ^ i = 2 ^ (8 * i) := by rw [Nat.pow_mul]
    have hbit : x.getLsbD (8 * i + n) = true := by
      rw [BitVec.getLsbD_ofNat, hpow, Nat.testBit_div_two_pow] at hset
      simpa [BitVec.getLsbD, hn, Nat.add_comm] using hset
    obtain ⟨k, hk⟩ := EventKind.exists_index (BitVec.lt_of_getLsbD hbit)
    exact ⟨k, by omega, by omega⟩
  · exact absurd hb (by simp)

theorem eventBlockBytes_parts (u : Eu) (i : Nat) : (eventBlockBytes u)[i]?
    = if i < 8 then (leBytes 8 u.pending.toNat)[i]? else if i < 16 then (leBytes 8 u.mask.toNat)[i - 8]?
      else (List.replicate 48 (0 : Byte))[i - 16]? := by
  have hlen : (leBytes 8 u.pending.toNat ++ leBytes 8 u.mask.toNat).length = 16 := by
    rw [List.length_append, leBytes_length, leBytes_length]
  unfold eventBlockBytes
  rw [List.getElem?_append, List.getElem?_append, hlen, leBytes_length]
  by_cases h8 : i < 8
  · rw [if_pos (by omega), if_pos h8, if_pos h8]
  · rw [if_neg h8, if_neg h8]

theorem eventBlockBytes_bit {u : Eu} {i n : Nat} {b : Byte} (hb : (eventBlockBytes u)[i]? = some b) (hn : n < 8)
    (hset : b.getLsbD n = true) :
    ∃ k : EventKind, (i = k.index / 8 ∨ i = 8 + k.index / 8) ∧ n = k.index % 8 := by
  rw [eventBlockBytes_parts] at hb
  split at hb
  · obtain ⟨k, hi, hk⟩ := EventKind.exists_of_leBytes_bit hb hn hset
    exact ⟨k, .inl hi, hk⟩
  · split at hb
    · obtain ⟨k, hi, hk⟩ := EventKind.exists_of_leBytes_bit hb hn hset
      exact ⟨k, .inr (by omega), hk⟩
    · rw [List.getElem?_replicate] at hb
      split at hb
      · obtain rfl := Option.some.inj hb
        simp at hset
      · exact absurd hb (by simp)

theorem State.decideRead_of_event (p : Port) {r : ReadReq} {s : State} (hc : s.classOf r.addr.toNat = .event) :
    s.decideRead p r = s.takeEventRead r := by
  rw [State.decideRead, hc]

/-- A read of the event block by whether it covers the EVENT word (R175). -/
theorem State.takeEventRead_cases {r : ReadReq} {s : State} (hc : s.classOf r.addr.toNat = .event) :
    (r.addr.toNat = s.cbBase + 128 → s.takeEventRead r
      = (okData r.tag ((eventBlockBytes s.eu).take r.len), { s with eu := { s.eu with pending := 0 } })) ∧
    (r.addr.toNat ≠ s.cbBase + 128 → s.takeEventRead r
      = (okData r.tag (((eventBlockBytes s.eu).drop (r.addr.toNat - (s.cbBase + 128))).take r.len), s)) := by
  obtain ⟨hlow, -⟩ := s.event_bounds _ hc
  have hoff : r.addr.toNat - s.cbBase - eventOff = r.addr.toNat - (s.cbBase + 128) := Nat.sub_sub _ _ _
  unfold State.takeEventRead
  rw [hoff]
  refine ⟨fun h => ?_, fun h => ?_⟩
  · simp [h]
  · simp only [if_neg (show ¬r.addr.toNat - (s.cbBase + 128) = 0 by omega)]

/-- Settles O19: the two cases of the read, and each bit of the event block by the byte it lies in. -/
theorem eventReads : Obligations.EventReads := by
  refine ⟨by decide, fun p r s hp hl hc => ?_⟩
  have hd := State.decideRead_of_event p hc
  obtain ⟨hword, hother⟩ := State.takeEventRead_cases hc
  refine ⟨fun h => State.next_issue_read hp hl (hd.trans (hword h)),
    fun h => State.next_issue_read hp hl (hd.trans (hother h)), fun k => ?_, fun k => ?_, ?_,
    fun i b n hb hn hset => eventBlockBytes_bit hb hn hset⟩
  · rw [eventBlockBytes_pending, leBytes_bit]
  · rw [eventBlockBytes_mask, leBytes_bit]
  · simp [eventBlockBytes, leBytes_length]

theorem State.decideWrite_of_event (p : Port) {r : WriteReq} {s : State} (he : (writeCellsOf r).isEmpty = false)
    (hc : s.classOf r.addr.toNat = .event) : s.decideWrite p r = s.takeEventWrite p r := by
  simp [State.decideWrite, he, hc]

/-- Settles O20: a write to the event block by whether a byte of it is left. -/
theorem eventEnableWrites : Obligations.EventEnableWrites := by
  intro p r s hp hl hc kept hkept
  have hd : s.decideWrite p r = (s.protect (writeCellsOf r) kept).forwardWrite r kept (.eventEnable p r.mem) := by
    rw [State.decideWrite_of_event p hl.2 hc, hkept]
    rfl
  obtain ⟨hnone, hsome⟩ := State.forwardWrite_protect kept (.eventEnable p r.mem) s hl.2
  exact ⟨fun h => State.next_issue_write hp hl (hd.trans (hnone h)), fun h => State.next_issue_write hp hl (hd.trans (hsome h))⟩

/-! ## The tables of the control block -/

theorem partOwns_iff (m : Mode) (off : Nat) : partOwns m off = true ↔
    m ≠ .init ∧ ((4 ≤ off ∧ off < 12) ∨ (320 ≤ off ∧ off < 336) ∨ 4096 ≤ off) := by
  have h : partOwns m off = true ↔ m ≠ .init ∧ ((modeEchoOff ≤ off ∧ off < modeEchoOff + 8) ∨
      (biasOff ≤ off ∧ off < biasOff + 16) ∨ imagesOff ≤ off) := by
    simp [partOwns, or_assoc]
  exact h

theorem State.decideWrite_of_controlBlock (p : Port) {r : WriteReq} {off : Nat} {s : State}
    (he : (writeCellsOf r).isEmpty = false) (hc : s.classOf r.addr.toNat = .controlBlock off) :
    s.decideWrite p r = s.takeTableWrite p r := by
  simp [State.decideWrite, he, hc]

/-- Settles O21: the part's own bytes, and a write to the tables by whether a byte of it is left. -/
theorem tableWrites : Obligations.TableWrites := by
  refine ⟨partOwns_iff, fun p r off s hp hl hc kept hkept => ?_⟩
  have hd : s.decideWrite p r = (s.protect (writeCellsOf r) kept).forwardWrite r kept (.plain p r.mem) := by
    rw [State.decideWrite_of_controlBlock p hl.2 hc, hkept]
    rfl
  obtain ⟨hnone, hsome⟩ := State.forwardWrite_protect kept (.plain p r.mem) s hl.2
  exact ⟨fun h => State.next_issue_write hp hl (hd.trans (hnone h)), fun h => State.next_issue_write hp hl (hd.trans (hsome h))⟩

/-! ## The mailbox block -/

theorem Map.at?_eq_some_iff {α : Type} {m : Map α} (h : m.Pairwise (fun a b => a.1 < b.1)) (k : Nat) (v : α) :
    Map.at? m k = some v ↔ (k, v) ∈ m := by
  induction m with
  | nil => simp [Map.at?]
  | cons c r ih =>
    obtain ⟨hlow, hrest⟩ := List.pairwise_cons.mp h
    unfold Map.at?
    split
    · next hk =>
      have hnone : (k, v) ∉ r := fun hmem => by have := hlow _ hmem; omega
      subst hk
      simp [hnone, Prod.ext_iff, eq_comm]
    · next hk =>
      rw [ih hrest]
      simp [Prod.ext_iff, Ne.symm hk]

theorem enabledCells_pairwise (a : Nat) (l : List (Option Byte)) :
    (enabledCells a l).Pairwise (fun x y => x.1 < y.1) := by
  induction l generalizing a with
  | nil => exact List.Pairwise.nil
  | cons o l ih =>
    cases o with
    | none => exact ih (a + 1)
    | some b => exact List.pairwise_cons.mpr ⟨fun c hc => (mem_enabledCells _ _ c hc).1, ih (a + 1)⟩

/-- A write starts an operation when each byte of OP is among its cells, and one of them is not 0 (R147). -/
theorem startsOperation_iff {cells : Cells} (h : cells.Pairwise (fun a b => a.1 < b.1)) (cb : Nat) :
    startsOperation cb cells = true ↔
      (∀ i, i < 4 → ∃ b, (cb + 68 + i, b) ∈ cells) ∧ ∃ i b, i < 4 ∧ (cb + 68 + i, b) ∈ cells ∧ b ≠ 0 := by
  have hbyte (i : Nat) : (Map.at? cells (cb + 68 + i)).isSome = true ↔ ∃ b, (cb + 68 + i, b) ∈ cells := by
    simp only [Option.isSome_iff_exists, Map.at?_eq_some_iff h]
  have hall : startsOperation cb cells = true ↔ (∀ i ∈ [0, 1, 2, 3], (Map.at? cells (cb + 68 + i)).isSome = true) ∧
      ∃ i ∈ [0, 1, 2, 3], Map.at? cells (cb + 68 + i) ≠ some 0 := by
    simp only [startsOperation, mailboxOff, Bool.and_eq_true, List.all_map, List.any_map, List.all_eq_true, List.any_eq_true,
      Function.comp, decide_eq_true_eq]
  have hmem (i : Nat) : i ∈ [0, 1, 2, 3] ↔ i < 4 := by simp; omega
  rw [hall]
  simp only [hmem, hbyte]
  refine and_congr_right fun hcovers => exists_congr fun i => ?_
  constructor
  · rintro ⟨hi, hne⟩
    obtain ⟨b, hb⟩ := hcovers i hi
    exact ⟨b, hi, hb, fun h0 => hne ((Map.at?_eq_some_iff h _ _).mpr (h0 ▸ hb))⟩
  · rintro ⟨b, hi, hb, hne⟩
    rw [(Map.at?_eq_some_iff h _ _).mpr hb]
    exact ⟨hi, by simpa using hne⟩

theorem State.operationWritePending_iff (s : State) :
    s.operationWritePending = true ↔ ∃ w ∈ s.fwd, ∃ p, w.kind = .mailbox p true := by
  simp only [State.operationWritePending, List.any_eq_true]
  refine exists_congr fun w => and_congr_right fun _ => ?_
  cases hk : w.kind <;> simp

theorem State.mailboxHeld_iff (s : State) :
    s.mailboxHeld = true ↔ s.cu.work ≠ .idle ∨ s.operationWritePending = true := by
  simp [State.mailboxHeld, or_comm]

theorem State.decideWrite_of_mailbox (p : Port) {r : WriteReq} {s : State} (he : (writeCellsOf r).isEmpty = false)
    (hc : s.classOf r.addr.toNat = .mailbox) : s.decideWrite p r = s.takeMailboxWrite p r := by
  simp [State.decideWrite, he, hc]

/-- Settles O22: a mailbox write is held, or forwarded with the bytes that are left. -/
theorem mailboxWrites : Obligations.MailboxWrites := by
  intro p r s hp hl hc kept hkept
  have hd := State.decideWrite_of_mailbox p hl.2 hc
  have hgo (hidle : s.cu.work = .idle) (hnone : s.operationWritePending = false) : s.decideWrite p r
      = (s.protect (writeCellsOf r) kept).forwardWrite r kept (.mailbox p (startsOperation s.cbBase kept)) := by
    have hheld : ¬s.mailboxHeld = true := fun h =>
      ((State.mailboxHeld_iff s).mp h).elim (fun k => k hidle) (by simp [hnone])
    rw [hd, State.takeMailboxWrite, if_neg hheld, hkept]
    rfl
  obtain ⟨hnothing, hsome⟩ := State.forwardWrite_protect kept (.mailbox p (startsOperation s.cbBase kept)) s hl.2
  have hkeys : kept.Pairwise (fun a b => a.1 < b.1) := hkept ▸ (enabledCells_pairwise _ _).filter _
  refine ⟨fun h => ?_, fun hi hn hk => ?_, fun hi hn hk => ?_, startsOperation_iff hkeys _, s.operationWritePending_iff⟩
  · exact State.next_issue_write hp hl (hd.trans (if_pos ((State.mailboxHeld_iff s).mpr h)))
  · exact State.next_issue_write hp hl ((hgo hi hn).trans (hnothing hk))
  · exact State.next_issue_write hp hl ((hgo hi hn).trans (hsome hk))

end Sys2Proof.Machine
end

section
/-! Forwarded writes and the reads that wait for them (R138 to R142, R176). -/

namespace Sys2Proof.Machine

/-! ## The writes that a read waits for (R138) -/

theorem lastOverlap_shares (parts : List ReadPart) (fwd : List FwdWrite) :
    let shares (w : FwdWrite) : Prop :=
      ∃ a n x, ReadPart.mem a n ∈ parts ∧ a ≤ x ∧ x < a + n ∧ w.addr ≤ x ∧ x < w.addr + w.len
    (lastOverlap parts fwd = 0 ↔ ∀ w ∈ fwd, ¬shares w) ∧
    ∀ k, lastOverlap parts fwd = k + 1 ↔
      ∃ l w r, fwd = l ++ w :: r ∧ l.length = k ∧ shares w ∧ ∀ v ∈ r, ¬shares v := by
  obtain ⟨hnone, hlast⟩ := lastOverlap_spec parts fwd
  simp only [← anyOverlaps_iff, Bool.not_eq_true]
  exact ⟨hnone, hlast⟩

/-! ## A write that memory answers (R139, R141) -/

theorem Memory.setUnder_eq (later : Cells) (d : Memory) (cells : Cells) : Memory.setUnder later d cells
    = Memory.writeCells d (cells.filter (fun c => decide (∀ k ∈ later, k.1 ≠ c.1))) := by
  unfold Memory.setUnder
  congr 2
  funext c
  rw [Bool.eq_iff_iff]
  simp

theorem State.performed_dram_of_no_done {g : Grant} {cells : Cells} {s : State} (h : ∀ c, Grant.done c ∉ s.ma.order) :
    (s.performed g cells).dram = Memory.writeCells s.dram cells := by
  unfold State.performed
  simp only [laterCells_of_no_done g s.ma.order h, Memory.setUnder_nil]

/-- With no answered write in the order of grants, an answered write is set whole. -/
theorem State.written_of_no_done {s : State} (cells : Cells) (a : WriteAnswer) (h : ∀ c, Grant.done c ∉ s.ma.order) :
    (s.forwardedWrite cells a).dram = Memory.writeCells s.dram (answeredCells cells a) ∧
    ∀ r, (s.ownWrite r cells a).dram = Memory.writeCells s.dram (answeredCells cells a) := by
  constructor
  · exact State.performed_dram_of_no_done (s := { s with ma := s.ma.grantWrite s.finds s.fwd.length })
      fun c => mt (Arbiter.done_grantUntil s.finds _ _ _ _ c).mp (h c)
  · exact fun r => State.performed_dram_of_no_done (s := s.grantOwn r)
      fun c => mt (Arbiter.done_grantUntil s.finds _ _ _ _ c).mp (h c)

/-- What a write's answer does to the order of grants. -/
theorem dropDone_markDone_spec (g : Grant) (cells : Cells) (o : List Grant) :
    (∀ l r, o = l ++ g :: r → g ∉ l →
      (∀ k, k ∈ laterCells g o ↔ ∃ c, Grant.done c ∈ r ∧ k ∈ c) ∧
      ∃ x, l ++ .done cells :: r = x ++ dropDone (markDone g cells o) ∧ ∀ y ∈ x, ∃ c, y = .done c) ∧
    (g ∉ o → laterCells g o = [] ∧
      ∃ x, o = x ++ dropDone (markDone g cells o) ∧ ∀ y ∈ x, ∃ c, y = .done c) := by
  refine ⟨fun l r ho hg => ⟨fun k => ?_, ?_⟩, fun hg => ⟨laterCells_of_not_mem g o hg, ?_⟩⟩
  · rw [ho, laterCells_at g l r hg, mem_doneCells]
  · rw [ho, markDone_at g cells l r hg]
    exact (dropDone_spec _).2
  · rw [markDone_of_not_mem g cells o hg]
    exact (dropDone_spec _).2

theorem State.performed_spec (s : State) (g : Grant) (cells : Cells) : ∃ m : Arbiter,
    s.performed g cells
      = { s with
          dram := Memory.writeCells s.dram (cells.filter (fun c => decide (∀ k ∈ laterCells g s.ma.order, k.1 ≠ c.1)))
          ma := m } ∧
    m.last = s.ma.last ∧ m.own = s.ma.own ∧ m.found = s.ma.found ∧ (∀ c, m.order.head? ≠ some (.done c)) ∧
    (∀ l r, s.ma.order = l ++ g :: r → g ∉ l →
      (∀ k, k ∈ laterCells g s.ma.order ↔ ∃ c, Grant.done c ∈ r ∧ k ∈ c) ∧
      ∃ x, l ++ .done cells :: r = x ++ m.order ∧ ∀ y ∈ x, ∃ c, y = .done c) ∧
    (g ∉ s.ma.order → laterCells g s.ma.order = [] ∧
      ∃ x, s.ma.order = x ++ m.order ∧ ∀ y ∈ x, ∃ c, y = .done c) := by
  obtain ⟨hmem, hnot⟩ := dropDone_markDone_spec g cells s.ma.order
  refine ⟨s.ma.answer g cells, ?_, rfl, rfl, rfl, (dropDone_spec _).1, hmem, hnot⟩
  rw [← Memory.setUnder_eq]
  rfl

/-! ## The reads that wait (R138, R139) -/

/-- How far a request has come when one forwarded write less is ahead of it. -/
def Stage.countedDown : Stage → Stage
  | .reading parts n older t => .reading parts (n - 1) (older - 1) t
  | st => st

theorem Stage.countedDown_of_not_reading {st : Stage} (h : ∀ parts n k t, st ≠ .reading parts n k t) : st.countedDown = st := by
  cases st with
  | reading parts n k t => exact absurd rfl (h parts n k t)
  | _ => rfl

theorem State.countDown_outstanding (s : State) (p : Port) : (s.countDown.port p).outstanding
    = (s.port p).outstanding.map (fun o => { o with stage := o.stage.countedDown }) := by
  cases p <;> rfl

theorem State.freeCount_le_of_withinLimits {s : State} (h : s.withinLimits) : s.countDown.freeCount ≤ 16 := by
  obtain ⟨-, hA, hB, -⟩ := h
  have hcount (p : Port) : (s.countDown.port p).outstanding.countP (fun o => Stage.isFree o.stage)
      ≤ (s.port p).outstanding.length := by
    rw [State.countDown_outstanding]
    exact List.countP_le_length.trans (List.length_map _).le
  exact Nat.add_le_add ((hcount .A).trans hA) ((hcount .B).trans hB)

/-- One request of a port, as serving the reads leaves it. -/
theorem State.serveReads_getElem? {s : State} (h : s.withinLimits) {p : Port} {i : Nat} {o : Outstanding}
    (ho : (s.port p).outstanding[i]? = some o) :
    (Stage.isFree o.stage.countedDown = false →
      (s.serveReads.port p).outstanding[i]? = some { o with stage := o.stage.countedDown }) ∧
    ∀ parts k t r, o.stage.countedDown = .reading parts 0 k t → o.req = .read r →
      ∃ m a b, (s.serveReads.port p).outstanding[i]?
        = some { o with stage := (State.answerParts r parts (min k s.fwd.length)
            { s with ma := m, portA := a, portB := b }).1 } := by
  have hdown : (s.countDown.port p).outstanding[i]? = some { o with stage := o.stage.countedDown } := by
    rw [State.countDown_outstanding, List.getElem?_map, ho]
    rfl
  obtain ⟨⟨-, hserved⟩, hall⟩ := State.serveTurns_spec 16 s.countDown
  obtain ⟨o', ho', hgoes⟩ := hserved p i _ hdown
  constructor
  · intro hfree
    rcases hgoes with rfl | ⟨hf, -, -⟩
    · exact ho'
    · exact absurd (hfree.symm.trans hf) Bool.false_ne_true
  · intro parts k t r hs hr
    rcases hgoes with rfl | ⟨-, -, hgo⟩
    · have hnone := State.freeTurns_of_firstTurn_none _ (hall (State.freeCount_le_of_withinLimits h)) p
      have hmem : t ∈ freeTurns (s.serveReads.port p).outstanding :=
        (mem_freeTurns t _).mpr ⟨_, List.mem_of_getElem? ho', parts, k, r, hs, hr⟩
      exact absurd (hnone ▸ hmem) List.not_mem_nil
    · obtain ⟨m, a, b, heq⟩ := hgo parts k t r hs hr
      exact ⟨m, a, b, ho'.trans (congrArg some heq)⟩

theorem State.serveReads_request {s : State} (h : s.withinLimits) {p : Port} {i : Nat} {o : Outstanding}
    (ho : (s.port p).outstanding[i]? = some o) :
    (∀ parts n k t, o.stage = .reading parts (n + 2) k t →
      (s.serveReads.port p).outstanding[i]? = some { o with stage := .reading parts (n + 1) (k - 1) t }) ∧
    (∀ parts n k t r, n ≤ 1 → o.stage = .reading parts n k t → o.req = .read r →
      ∃ m a b, (s.serveReads.port p).outstanding[i]?
        = some { o with stage := (State.answerParts r parts (min (k - 1) s.fwd.length)
            { s with ma := m, portA := a, portB := b }).1 }) ∧
    ((∀ parts n k t, o.stage ≠ .reading parts n k t) → (s.serveReads.port p).outstanding[i]? = some o) := by
  obtain ⟨hstays, hgoes⟩ := State.serveReads_getElem? h ho
  refine ⟨fun parts n k t hs => ?_, fun parts n k t r hn hs hr => hgoes parts (k - 1) t r ?_ hr, fun hs => ?_⟩
  · rw [hs] at hstays
    exact hstays rfl
  · rw [hs, Stage.countedDown, Nat.sub_eq_zero_of_le hn]
  · rw [Stage.countedDown_of_not_reading hs] at hstays
    refine hstays ?_
    cases hst : o.stage with
    | reading parts n k t => exact absurd hst (hs parts n k t)
    | _ => rfl

theorem State.serveReads_eq (s : State) : ∃ m a b, s.serveReads = { s with ma := m, portA := a, portB := b } := by
  obtain ⟨⟨⟨m, a, b, heq⟩, -⟩, -⟩ := State.serveTurns_spec 16 s.countDown
  exact ⟨m, a, b, heq⟩

/-! ## The turns of the reads (R139) -/

theorem mem_turnsOf (t : Nat) (l : List Outstanding) :
    t ∈ turnsOf l ↔ ∃ o ∈ l, ∃ parts n k, o.stage = .reading parts n k t := by
  unfold turnsOf
  rw [List.mem_filterMap]
  refine exists_congr fun o => and_congr_right fun _ => ?_
  cases o.stage <;> simp

theorem State.lt_nextTurn {s : State} {p : Port} {t : Nat} (h : t ∈ turnsOf (s.port p).outstanding) : t < s.nextTurn := by
  have hmem : t ∈ turnsOf s.portA.outstanding ++ turnsOf s.portB.outstanding := by
    cases p
    · exact List.mem_append_left _ h
    · exact List.mem_append_right _ h
  obtain ⟨-, hmax, -⟩ := foldl_max_spec (turnsOf s.portA.outstanding ++ turnsOf s.portB.outstanding) 0
  exact Nat.lt_succ_of_le (hmax t hmem)

theorem State.serveTurns_step (n : Nat) (s : State) : s.serveReads = s.countDown.serveTurns 16 ∧ s.serveTurns 0 = s ∧
    (s.firstTurn = none → s.serveTurns (n + 1) = s) ∧
    (∀ t, s.firstTurn = some t →
      s.serveTurns (n + 1) = State.serveTurns n ((s.serveTurn t .A).serveTurn t .B) ∧
      (∃ p, ∃ o ∈ (s.port p).outstanding, ∃ parts k r, o.stage = .reading parts 0 k t ∧ o.req = .read r) ∧
      ∀ p, ∀ o ∈ (s.port p).outstanding, ∀ parts k u r, o.stage = .reading parts 0 k u → o.req = .read r → t ≤ u) ∧
    (∀ p, ∀ o ∈ (s.port p).outstanding, ∀ parts n k t, o.stage = .reading parts n k t → t < s.nextTurn) := by
  refine ⟨rfl, rfl, fun h => ?_, fun t h => ⟨?_, ?_, fun p o ho parts k u r hs hr => ?_⟩, fun p o ho parts n k t hs => ?_⟩
  · rw [State.serveTurns, h]
  · rw [State.serveTurns, h]
  · obtain ⟨⟨p, hp⟩, -⟩ := s.firstTurn_eq_some t h
    exact ⟨p, (mem_freeTurns t _).mp hp⟩
  · exact (s.firstTurn_eq_some t h).2 p u ((mem_freeTurns u _).mpr ⟨o, ho, parts, k, r, hs, hr⟩)
  · exact State.lt_nextTurn ((mem_turnsOf t _).mpr ⟨o, ho, parts, n, k, hs⟩)

theorem readAt_first {t : Nat} {l rest : List Outstanding} {o : Outstanding} {parts : List ReadPart} {k : Nat} {r : ReadReq}
    (hs : o.stage = .reading parts 0 k t) (hr : o.req = .read r) (hl : ∀ x ∈ l, ∀ ps j, x.stage ≠ .reading ps 0 j t) :
    readAt t (l ++ o :: rest) = some (r, parts, k) := by
  unfold readAt
  rw [List.findSome?_append, List.findSome?_eq_none_iff.mpr, List.findSome?_cons, hs, hr]
  · simp
  · intro x hx
    split
    · next ps j u q hstage _ =>
      rw [if_neg fun hu : u = t => hl x hx ps j (hu ▸ hstage)]
    · rfl

theorem Stage.hasTurn_iff (t : Nat) (st : Stage) : st.hasTurn t = true ↔ ∃ parts k, st = .reading parts 0 k t := by
  unfold Stage.hasTurn
  split
  · simp
  · next h =>
    simp only [Bool.false_eq_true, false_iff]
    rintro ⟨parts, k, rfl⟩
    exact h _ _ _ rfl

theorem State.serveTurn_first {s : State} {t : Nat} {p : Port} {l rest : List Outstanding} {o : Outstanding}
    {parts : List ReadPart} {k : Nat} {r : ReadReq} (hl : (s.port p).outstanding = l ++ o :: rest)
    (hs : o.stage = .reading parts 0 k t) (hr : o.req = .read r) (hfirst : ∀ x ∈ l, ∀ ps j, x.stage ≠ .reading ps 0 j t) :
    let a := s.answerParts r parts (min k s.fwd.length)
    s.serveTurn t p
      = a.2.setPort p { s.port p with outstanding := l ++ { o with stage := a.1 } :: rest } := by
  have hread : readAt t (s.port p).outstanding = some (r, parts, k) := hl ▸ readAt_first hs hr hfirst
  obtain ⟨m, hm⟩ := State.answerParts_state r parts (min k s.fwd.length) s
  have hport : (s.answerParts r parts (min k s.fwd.length)).2.port p = s.port p := by
    rw [hm]; cases p <;> rfl
  have hnot : ∀ x ∈ l, Stage.hasTurn t x.stage = false := fun x hx => by
    rw [← Bool.not_eq_true, Stage.hasTurn_iff]
    rintro ⟨ps, j, h⟩
    exact hfirst x hx ps j h
  have hold : Stage.hasTurn t o.stage = true := (Stage.hasTurn_iff t _).mpr ⟨parts, k, hs⟩
  intro a
  unfold State.serveTurn
  simp only [hread]
  unfold State.setOldest
  rw [hport, hl, setOldest_at_first _ _ l rest o hnot hold]

/-! ## What a read finds (R141) -/

theorem OwnReq.isWrite_of_read {r : OwnReq} (h : r = .fetch ∨ r = .cuRead ∨ ∃ q, r = .takeRead q) : r.isWrite = false := by
  rcases h with rfl | rfl | ⟨q, rfl⟩ <;> rfl

theorem State.readBy_cases {s : State} (w : s.withinLimits) (r : OwnReq) :
    (∀ d, r ∉ s.ma.own → s.ma.found? r = some d → s.readBy r = d) ∧
    ((r = .fetch ∨ r = .cuRead ∨ ∃ q, r = .takeRead q) → s.ma.own.Nodup → r ∈ s.ma.own → s.ma.found? r = none →
      s.readBy r = ({ s with ma := s.ma.grantOwn s.finds s.fwd.length r }).memory) := by
  obtain ⟨-, -, -, -, hsent, -⟩ := w
  exact ⟨fun d hown hfound => State.readBy_of_found r s d hsent hown hfound, fun hr hnodup hmem hfound =>
    State.readBy_of_waiting r s hsent (OwnReq.isWrite_of_read hr) hnodup hmem hfound⟩

theorem orderCells_equations (own : OwnReq → Cells) (w : FwdWrite) (f : List FwdWrite) (l : List Grant) :
    orderCells own f [] = [] ∧ orderCells own (w :: f) (.forwarded :: l) = w.cells ++ orderCells own f l ∧
    (∀ r, orderCells own f (.own r :: l) = own r ++ orderCells own f l) ∧
    ∀ c, orderCells own f (.done c :: l) = c ++ orderCells own f l := by
  cases f <;> exact ⟨rfl, rfl, fun _ => rfl, fun _ => rfl⟩

theorem State.ownCells_cases (s : State) :
    (∀ svc cells events, s.icu.stage = .writeBack svc cells events → s.ownCells .writeBack = cells) ∧
    (∀ f, s.qu.inFlight = some f → s.ownCells .queueWrite = f.cells) ∧
    (∀ f, s.bu.imageInFlight = some f → s.ownCells .imageWrite = f.cells) ∧
    (∀ r, s.cu.work = .result r → s.ownCells .cuWrite = r.cells s.cbBase ∧ s.ownCells .result = r.cells s.cbBase) := by
  refine ⟨fun svc cells events h => ?_, fun f h => ?_, fun f h => ?_, fun r h => ?_⟩
  · simp only [State.ownCells, State.writeBackCells, h]
  · simp only [State.ownCells, State.quFlightCells, h]
  · simp only [State.ownCells, State.imageFlightCells, h]
  · simp only [State.ownCells, State.cuFlightCells, h, and_self]

theorem ResultWrite.cells_eq (cb : Nat) (r : ResultWrite) : r.cells cb = match r.prior with
    | .nothing => resultCells cb r
    | .echo m => cellsAt (cb + 4) (leBytes 4 m.code)
    | .bias n v => [(cb + 320 + n, BitVec.ofInt 8 v)] := by
  unfold ResultWrite.cells
  cases r.prior <;> rfl

theorem Memory.writeCells_order (d : Memory) (l k : Cells) (x : Nat) (b : Byte) :
    Memory.writeCells d (l ++ k) = Memory.writeCells (Memory.writeCells d l) k ∧
    Memory.read (Memory.writeCells d (l ++ [(x, b)])) x = b ∧
    ((∀ c ∈ l, c.1 ≠ x) → Memory.read (Memory.writeCells d l) x = Memory.read d x) := by
  refine ⟨Memory.writeCells_append d l k, ?_, Memory.read_writeCells_of_not_mem l d x⟩
  rw [Memory.writeCells_append]
  exact (Memory.read_write _ x x b).trans (if_pos rfl)

/-! ## The writes that go at once (R139, R142, R176) -/

theorem State.goForward_of_plain {s : State} {w : FwdWrite} {r : List FwdWrite} {p : Port} {a : WriteAnswer}
    (hf : s.fwd = w :: r) (hk : w.kind = .plain p a) :
    s.goForward = ((s.answerForward w.cells a).answerPort p (fun t => answeredWrite t a)).goForward := by
  have hrest : ((s.answerForward w.cells a).answerPort p (fun t => answeredWrite t a)).fwd = r := by
    simp [hf]
  unfold State.goForward
  rw [hrest, hf, State.serveForward]
  simp only [hk]

theorem State.takeEnable_eq (cells : Cells) (a : WriteAnswer) (s : State) : s.takeEnable cells a
    = { s with eu := if a = .ok then
          s.eu.setMask (enableBits s.cbBase cells (fun _ => 255)) (enableBits s.cbBase cells (·.toNat)) else s.eu } := by
  cases a <;> rfl

theorem State.goForward_of_eventEnable {s : State} {w : FwdWrite} {r : List FwdWrite} {p : Port} {a : WriteAnswer}
    (hf : s.fwd = w :: r) (hk : w.kind = .eventEnable p a) :
    s.goForward
      = ({ (s.answerForward w.cells a).answerPort p (fun t => answeredWrite t a) with
           eu := if a = WriteAnswer.ok then
               s.eu.setMask (enableBits s.cbBase w.cells (fun _ => 255)) (enableBits s.cbBase w.cells (·.toNat))
             else s.eu }).goForward := by
  have hrest : (((s.answerForward w.cells a).takeEnable w.cells a).answerPort p (fun t => answeredWrite t a)).fwd = r := by
    simp [hf]
  have heq : ((s.answerForward w.cells a).takeEnable w.cells a).answerPort p (fun t => answeredWrite t a)
      = { (s.answerForward w.cells a).answerPort p (fun t => answeredWrite t a) with
          eu := if a = WriteAnswer.ok then
              s.eu.setMask (enableBits s.cbBase w.cells (fun _ => 255)) (enableBits s.cbBase w.cells (·.toNat))
            else s.eu } := by
    have hcb : (s.answerForward w.cells a).cbBase = s.cbBase := by simp [State.cbBase]
    have heu : (s.answerForward w.cells a).eu = s.eu := by simp
    rw [State.takeEnable_eq, hcb, heu]
    cases p <;> rfl
  rw [← heq]
  unfold State.goForward
  rw [hrest, hf, State.serveForward]
  simp only [hk]

theorem State.answerPort_first {s : State} {p : Port} (f : Fin 8 → Stage) {l r : List Outstanding} {o : Outstanding}
    (hl : (s.port p).outstanding = l ++ o :: r) (hfirst : ∀ x ∈ l, x.stage ≠ .writing) (ho : o.stage = .writing) :
    ((s.answerPort p f).port p).outstanding = l ++ { o with stage := f (tagOf o.req) } :: r := by
  unfold State.answerPort
  rw [State.port_setOldest, if_pos rfl, hl]
  exact setOldest_at_first _ _ l r o (fun x hx => by simpa using hfirst x hx) (by simp [ho])

theorem Eu.setMask_bit (e : Eu) (covered value : BitVec 12) (n : Nat) (hn : n < 12) :
    (e.setMask covered value).mask.getLsbD n = (if covered.getLsbD n then value.getLsbD n else e.mask.getLsbD n) ∧
    (e.setMask covered value).pending = e.pending := by
  refine ⟨?_, rfl⟩
  simp only [Eu.setMask, BitVec.getLsbD_or, BitVec.getLsbD_and, BitVec.getLsbD_not, hn, decide_true, Bool.true_and]
  cases covered.getLsbD n <;> simp

/-- Settles O23, one rule about the forwarded side at a time. -/
theorem forwardedWritesReachMemory : Obligations.ForwardedWritesReachMemory := by
  refine ⟨lastOverlap_shares, fun s cells a => ⟨rfl, rfl, fun _ => rfl, rfl, fun _ => rfl, State.written_of_no_done cells a,
      fun x hx => ⟨?_, fun r => ?_⟩⟩, State.performed_spec, fun s w p i o ho => State.serveReads_request w ho,
    State.serveReads_eq, State.serveTurns_step, fun s t p l rest o parts k r hl hs hr hfirst =>
      State.serveTurn_first hl hs hr hfirst, fun s => ⟨fun _ => rfl, rfl⟩, fun s r => ⟨rfl, fun w => State.readBy_cases w r⟩,
    orderCells_equations, fun s => ?_, Memory.writeCells_order, fun s => forwardWaits_serveForward s.fwd s rfl,
    fun s w r p a hf hk => State.goForward_of_plain hf hk, fun s w r p a hf hk => State.goForward_of_eventEnable hf hk,
    fun s p f l r o hl hfirst ho => State.answerPort_first f hl hfirst ho, Eu.setMask_bit⟩
  · exact State.read_forwardedWrite_of_not_mem cells a s x hx
  · exact State.read_ownWrite_of_not_mem r cells a s x hx
  · obtain ⟨hwriteBack, hqueue, himage, hresult⟩ := s.ownCells_cases
    refine ⟨hwriteBack, hqueue, himage, fun r hr => ?_⟩
    rw [(hresult r hr).1, (hresult r hr).2, ResultWrite.cells_eq]
    cases r.prior <;> exact ⟨rfl, rfl⟩

end Sys2Proof.Machine
end

section
/-! Writes of the forwarded side whose answer is a command of its own (R14, R18, R135, R137, R143, R147). -/

namespace Sys2Proof.Machine

theorem State.port_restage (f : Stage → Stage) (s : State) (q : Port) :
    ({ s with portA := s.portA.restage f, portB := s.portB.restage f } : State).port q = (s.port q).restage f := by
  cases q <;> rfl

/-- The oldest write of the forwarded side, answered: DRAM and the list change, and the reads that waited go. -/
theorem State.answerForward_units {s : State} {w : FwdWrite} {r : List FwdWrite} (cells : Cells) (a : WriteAnswer)
    (hf : s.fwd = w :: r) :
    (s.answerForward cells a).dram = (s.forwardedWrite cells a).dram ∧ (s.answerForward cells a).fwd = r ∧
    (s.answerForward cells a).icu = s.icu ∧ (s.answerForward cells a).eu = s.eu ∧ (s.answerForward cells a).cu = s.cu ∧
    (s.answerForward cells a).gu = s.gu ∧ (s.answerForward cells a).bu = s.bu ∧ (s.answerForward cells a).ru = s.ru ∧
    (s.answerForward cells a).qu = s.qu ∧ (s.answerForward cells a).layout = s.layout := by
  simp [hf]

/-! ## The posted write buffer (R137, R143) -/

theorem State.releaseStalls_full (s : State) :
    s.releaseStalls Stall.isFull = { s with
      portA := s.portA.restage (fun st => if st = .stalled .bufferFull then .waiting else st)
      portB := s.portB.restage (fun st => if st = .stalled .bufferFull then .waiting else st) } := by
  rw [← State.mapStages_eq]
  unfold State.releaseStalls
  congr 1
  funext o
  cases o.stage with
  | stalled h => cases h <;> rfl
  | _ => rfl

theorem State.raisePosted_eq (a : WriteAnswer) (s : State) :
    s.raisePosted a = { s with eu := if a = .ok then s.eu else s.eu.raise .memFault } := by
  cases a <;> rfl

theorem exec_postedWriteDrain {s : State} {w : FwdWrite} {r : List FwdWrite} (a : WriteAnswer) (hf : s.fwd = w :: r)
    (hk : w.kind = .posted) : exec (.postedWriteDrain a) s
      = .next (((s.answerForward w.cells a).raisePosted a).releaseStalls Stall.isFull).finish := by
  show execPostedWriteDrain a s = _
  simp only [execPostedWriteDrain, hf, FwdWrite.isPosted, hk, decide_true, if_true]

/-- Settles O24: the answer, the event of a FAULT and the end of the stalls, each on its own part of the state. -/
theorem postedWritesDrain : Obligations.PostedWritesDrain := by
  intro s w r a hf hk
  obtain ⟨hdram, hfwd, hicu, heu, hcu, hgu, hbu, hru, hqu, hlayout⟩ := State.answerForward_units w.cells a hf
  have hpending : (s.answerForward w.cells a).pending = s.pending := by simp
  have hu : ((s.answerForward w.cells a).raisePosted a).releaseStalls Stall.isFull
      = { s.answerForward w.cells a with
          eu := if a = .ok then s.eu else s.eu.raise .memFault
          portA := (s.answerForward w.cells a).portA.restage (fun st => if st = .stalled .bufferFull then .waiting else st)
          portB := (s.answerForward w.cells a).portB.restage
            (fun st => if st = .stalled .bufferFull then .waiting else st) } := by
    rw [State.releaseStalls_full, State.raisePosted_eq, heu]
  refine ⟨_, exec_postedWriteDrain a hf hk, ?_, fun p => ?_, ?_, ?_, ?_, ?_,
    State.releaseStalls_none Stall.isFull _ .bufferFull rfl, ?_⟩
  · rw [hu]
  · rw [hu]
    cases p <;> rfl
  · rw [hu]
    exact hdram
  · rw [hu]
    exact hfwd
  · have hbuffered : (((s.answerForward w.cells a).raisePosted a).releaseStalls Stall.isFull).buffered
        = r.countP (·.isPosted) := by
      rw [hu, State.buffered, hfwd]
    rw [hbuffered, State.buffered, hf, List.countP_cons_of_pos (by simp [FwdWrite.isPosted, hk])]
  · rw [hu]
  · rw [hu]
    exact ⟨hcu, hlayout, hgu, hbu, hru, hqu, hicu, hpending⟩

/-! ## Command-carrying writes (R14, R18, R38, R39) -/

theorem State.joinCq_takes {s : State} {e h : CqEntry} {l : List CqEntry} (hi : s.icu.stage = .idle)
    (hm : s.cu.mode = .run ∨ s.cu.mode = .frozen) (hc : s.icu.cq ++ [e] = h :: l) :
    s.joinCq e = { s with
      icu := { s.icu with
        cq := l
        stage := .fetching { entry := h, frozen := decide (s.cu.mode = .frozen), addr := s.layout.slotAddr h.slot } }
      ma := { s.ma with own := s.ma.own ++ (if s.layout.slotAddr h.slot = none then [] else [OwnReq.fetch]) } } :=
  State.takeNext_takes { s with icu := { s.icu with cq := s.icu.cq ++ [e] } } h l hi hm hc

theorem State.completeCommand_dropGiven {s : State} {w : FwdWrite} {r : List FwdWrite} {p : Port} {id : SlotId}
    (a : WriteAnswer) (hf : s.fwd = w :: r) (hk : w.kind = .command p id) (hq : s.queueLimits) :
    ((s.answerForward w.cells a).dropGiven id).icu = { s.icu with given := commandSlots r } := by
  obtain ⟨hgiven, -, -⟩ := hq
  obtain ⟨-, -, hicu, -⟩ := State.answerForward_units w.cells a hf
  have herase : s.icu.given.erase id = commandSlots r := by
    have hfirst : commandSlots (w :: r) = id :: commandSlots r := by
      rw [commandSlots, List.filterMap_cons, hk]
      rfl
    rw [hgiven, hf, hfirst, List.erase_cons_head]
  simp only [State.dropGiven, hicu, herase]

theorem exec_commandWriteComplete {s : State} {w : FwdWrite} {r : List FwdWrite} {p : Port} (a : WriteAnswer)
    (hf : s.fwd = w :: r) :
    (∀ id, w.kind = .command p id →
      exec (.commandWriteComplete p a) s = .next (s.completeCommand p id w.cells a)) ∧
    (w.kind = .abandoned p →
      exec (.commandWriteComplete p a) s = .next ((s.answerForward w.cells a).answerPort p faulted).finish) := by
  refine ⟨fun id hk => ?_, fun hk => ?_⟩ <;> refine congrArg Host.Outcome.next ?_ <;> simp only [hf, hk, if_true]

theorem afterPlace_eq (busy : SlotId → Bool) (st : Stage) : afterPlace busy st = match st with
    | .held .cqCommand => .waiting
    | .held .cqNotice => .waiting
    | .held (.busySlot i) => if busy i = true then .held (.busySlot i) else .waiting
    | st => st := rfl

theorem afterPlace_ne_held (busy : SlotId → Bool) (st : Stage) :
    afterPlace busy st ≠ .held .cqCommand ∧ afterPlace busy st ≠ .held .cqNotice := by
  unfold afterPlace
  split
  · simp
  · simp
  · split <;> simp
  · next hcommand hnotice _ => exact ⟨fun h => hcommand h, fun h => hnotice h⟩

theorem State.releasePlace_held_none (s : State) (q : Port) : ∀ o ∈ (s.releasePlace.port q).outstanding,
    o.stage ≠ .held .cqCommand ∧ o.stage ≠ .held .cqNotice := by
  rw [State.releasePlace_eq, State.port_restage]
  intro o ho
  obtain ⟨x, -, rfl⟩ := List.mem_map.mp ho
  exact afterPlace_ne_held s.busy x.stage

/-- Settles O25: an entry joins CQ, and the three answers to a command-carrying write. -/
theorem commandWriteCompletes : Obligations.CommandWriteCompletes := by
  refine ⟨fun e s => ⟨State.joinCq_waits e s, fun h l hi hm hc => State.joinCq_takes hi hm hc⟩,
    fun s w r p id hf => ⟨fun hk hq => ⟨?_, fun left => ?_⟩, fun a hk => ?_⟩⟩
  · have hexec := (exec_commandWriteComplete .ok hf).1 id hk
    obtain ⟨hdram, hfwd, -, heu, hcu, hgu, hbu, hru, hqu, hlayout⟩ := State.answerForward_units w.cells .ok hf
    exact ⟨(s.answerForward w.cells .ok).dropGiven id, hexec, rfl, hdram, hfwd,
      State.completeCommand_dropGiven .ok hf hk hq, heu, hcu, hgu, hbu, hru, hqu, hlayout⟩
  · have hexec := (exec_commandWriteComplete (.fault left) hf).1 id hk
    obtain ⟨hdram, hfwd, -, heu, hcu, hgu, hbu, hru, hqu, hlayout⟩ := State.answerForward_units w.cells (.fault left) hf
    obtain ⟨-, hplaces, -⟩ := State.queueLimits_dropGiven w r p id (.fault left) s hf hk hq
    have hicu := State.completeCommand_dropGiven (.fault left) hf hk hq
    refine ⟨((s.answerForward w.cells (.fault left)).dropGiven id).releasePlace, hexec, ?_, fun q => ?_, hdram, hfwd, hicu,
      hplaces, State.releasePlace_held_none _, heu, hcu, hgu, hbu, hru, hqu, hlayout⟩
    · rw [State.releasePlace_eq]
      rfl
    · rw [State.releasePlace_eq, State.port_restage]
      cases q <;> rfl
  · have hexec := (exec_commandWriteComplete a hf).2 hk
    obtain ⟨hdram, hfwd, hicu, heu, hcu, hgu, hbu, hru, hqu, hlayout⟩ := State.answerForward_units w.cells a hf
    exact ⟨s.answerForward w.cells a, hexec, rfl, hdram, hfwd, hicu, heu, hcu, hgu, hbu, hru, hqu, hlayout⟩

/-! ## Mailbox writes (R135, R142, R147) -/

theorem State.afterMailboxWrite_eq (starts : Bool) (a : WriteAnswer) (s : State) : s.afterMailboxWrite starts a
    = if starts = false then s
      else if a = .ok then ({ s with cu := { s.cu with work := .reading } }).askOwn .cuRead
      else s.releaseHolds Hold.isMailbox := by
  cases starts <;> cases a <;> rfl

theorem exec_mailboxWriteDone {s : State} {w : FwdWrite} {r : List FwdWrite} {p : Port} {starts : Bool} (a : WriteAnswer)
    (hf : s.fwd = w :: r) (hk : w.kind = .mailbox p starts) : exec (.mailboxWriteDone p a) s
      = .next ((((s.answerForward w.cells a).answerPort p (fun t => answeredWrite t a)).afterMailboxWrite starts a).finish) := by
  refine congrArg Host.Outcome.next ?_
  simp only [hf, hk, if_true]

/-- Settles O26: the port's answer, and what the answer starts or ends. -/
theorem mailboxWriteCompletes : Obligations.MailboxWriteCompletes := by
  intro s w r p starts a hf hk
  obtain ⟨hdram, hfwd, hicu, heu, hcu, hgu, hbu, hru, hqu, hlayout⟩ := State.answerForward_units w.cells a hf
  refine ⟨s.answerForward w.cells a, _, exec_mailboxWriteDone a hf hk, rfl, hdram, hfwd, ?_, hcu, heu, hicu, hgu, hbu, hru, hqu,
    hlayout⟩
  have hwork : ((s.answerForward w.cells a).answerPort p (fun t => answeredWrite t a)).cu = s.cu := by simp
  rw [State.afterMailboxWrite_eq, hwork, State.releaseHolds_mailbox]
  rfl

end Sys2Proof.Machine
end

section
/-! The grading unit's answer (R24 to R31). -/

namespace Sys2Proof.Machine

/-! ## The answer and its cases (R25) -/

theorem Gu.grade_of_class {g : Gu} {cls : Nat} {c : ClassEntry} (h : g.classOf cls = some c) (readings : List Reading)
    (defects : List Nat) : g.grade cls readings defects
      = if (readings.filter (·.valid)).any (fun r => decide (100 < r.raw)) then .error .badReading
        else if (readings.filter (·.valid)).isEmpty then .error .noReadings
        else .ok (g.gradeValid c (readings.filter (·.valid)) defects) := by
  unfold Gu.grade
  rw [h]

theorem validReadings_isEmpty_iff (readings : List Reading) :
    (readings.filter (·.valid)).isEmpty = true ↔ ∀ r ∈ readings, r.valid = false := by
  simp

theorem validReadings_any_iff (readings : List Reading) :
    (readings.filter (·.valid)).any (fun r => decide (100 < r.raw)) = true ↔
      ∃ r ∈ readings, r.valid = true ∧ 100 < r.raw := by
  simp

theorem Gu.grade_cases (g : Gu) (cls : Nat) (readings : List Reading) (defects : List Nat) :
    (g.classOf cls = none → g.grade cls readings defects = .error .badClass) ∧
    ∀ c, g.classOf cls = some c →
      ((∃ r ∈ readings, r.valid = true ∧ 100 < r.raw) → g.grade cls readings defects = .error .badReading) ∧
      ((∀ r ∈ readings, r.valid = false) → g.grade cls readings defects = .error .noReadings) ∧
      ((∀ r ∈ readings, r.valid = true → r.raw ≤ 100) → (∃ r ∈ readings, r.valid = true) →
        g.grade cls readings defects = .ok (g.gradeValid c (readings.filter (·.valid)) defects)) := by
  refine ⟨fun h => ?_, fun c h => ⟨fun hbad => ?_, fun hnone => ?_, fun hgood hsome => ?_⟩⟩
  · rw [Gu.grade, h]
  · rw [Gu.grade_of_class h, if_pos ((validReadings_any_iff readings).mpr hbad)]
  · have hany : ¬(readings.filter (·.valid)).any (fun r => decide (100 < r.raw)) = true := by
      rw [validReadings_any_iff]
      rintro ⟨r, hr, hvalid, -⟩
      exact absurd ((hnone r hr).symm.trans hvalid) Bool.false_ne_true
    rw [Gu.grade_of_class h, if_neg hany, if_pos ((validReadings_isEmpty_iff readings).mpr hnone)]
  · have hany : ¬(readings.filter (·.valid)).any (fun r => decide (100 < r.raw)) = true := by
      rw [validReadings_any_iff]
      rintro ⟨r, hr, hvalid, hraw⟩
      exact absurd (hgood r hr hvalid) (Nat.not_le.mpr hraw)
    have hempty : ¬(readings.filter (·.valid)).isEmpty = true := by
      rw [validReadings_isEmpty_iff]
      obtain ⟨r, hr, hvalid⟩ := hsome
      exact fun hnone => absurd ((hnone r hr).symm.trans hvalid) Bool.false_ne_true
    rw [Gu.grade_of_class h, if_neg hany, if_neg hempty]

/-! ## The graded result (R26 to R31) -/

theorem meanScore_le {l : List Nat} (h : ∀ e ∈ l, e ≤ 100) : meanScore l ≤ 100 := by
  have hsum := sum_le_of_le l h
  exact Nat.div_le_of_le_mul (by rwa [Nat.mul_comm] at hsum)

theorem ClassEntry.decide_eq (c : ClassEntry) (valid : List Reading) (spread : Nat) (grade : Grade) :
    c.decide valid spread grade
      = (if c.passRule.met valid = false then (.hold, .passMissing)
         else if c.spreadLimit < spread then (.hold, .disagree)
         else if c.dispOf grade = .hold then (.hold, .policy)
         else (c.dispOf grade, .none)) := by
  unfold ClassEntry.decide
  cases c.passRule.met valid <;> rfl

theorem Gu.scores_le (g : Gu) (valid : List Reading) : ∀ e ∈ valid.map g.effective, e ≤ 100 := by
  intro e he
  obtain ⟨r, -, rfl⟩ := List.mem_map.mp he
  exact g.effective_le r

theorem Gu.gradeValid_spread (g : Gu) (c : ClassEntry) {valid : List Reading} (defects : List Nat) (hne : valid ≠ []) :
    (∃ hi ∈ valid.map g.effective, ∃ lo ∈ valid.map g.effective,
      (∀ e ∈ valid.map g.effective, lo ≤ e ∧ e ≤ hi) ∧ (g.gradeValid c valid defects).spread = hi - lo) ∧
    (g.gradeValid c valid defects).spread ≤ 100 ∧
    (valid.length = 1 → (g.gradeValid c valid defects).spread = 0) := by
  obtain ⟨hi, hhi, lo, hlo, hbounds, hspread⟩ :=
    spreadOf_spec (valid.map g.effective) (by simpa using hne) (g.scores_le valid)
  refine ⟨⟨hi, hhi, lo, hlo, hbounds, hspread⟩, ?_, fun hone => ?_⟩
  · exact hspread.trans_le ((Nat.sub_le _ _).trans (g.scores_le valid hi hhi))
  · obtain ⟨r, rfl⟩ := List.length_eq_one_iff.mp hone
    obtain rfl := List.mem_singleton.mp hhi
    obtain rfl := List.mem_singleton.mp hlo
    exact hspread.trans (Nat.sub_self _)

theorem Gu.effective_cases (g : Gu) (r : Reading) :
    ((r.raw : Int) + g.biasOf r.station < 0 → g.effective r = 0) ∧
    (100 < (r.raw : Int) + g.biasOf r.station → g.effective r = 100) ∧
    (0 ≤ (r.raw : Int) + g.biasOf r.station → (r.raw : Int) + g.biasOf r.station ≤ 100 →
      (g.effective r : Int) = (r.raw : Int) + g.biasOf r.station) := by
  unfold Gu.effective
  refine ⟨fun h => ?_, fun h => ?_, fun h h' => ?_⟩ <;> omega

theorem PassRule.met_iff (valid : List Reading) :
    PassRule.any.met valid = true ∧
    (PassRule.surfaceReq.met valid = true ↔ ∃ r ∈ valid, r.kind = .surface) ∧
    (PassRule.detailReq.met valid = true ↔ ∃ r ∈ valid, r.kind = .detail) ∧
    (PassRule.bothReq.met valid = true ↔ (∃ r ∈ valid, r.kind = .surface) ∧ ∃ r ∈ valid, r.kind = .detail) := by
  simp [PassRule.met]

/-- Settles O28: the refusals in their order, and each field of the graded result. -/
theorem gradingFollowsTheRules : Obligations.GradingFollowsTheRules := by
  refine ⟨fun g cls readings defects => ?_, Gu.effective_cases, PassRule.met_iff, fun c => ⟨rfl, rfl, rfl, rfl, rfl⟩⟩
  obtain ⟨hclass, hcases⟩ := g.grade_cases cls readings defects
  refine ⟨hclass, fun c hc => ?_⟩
  obtain ⟨hbad, hnone, hgraded⟩ := hcases c hc
  refine ⟨hbad, hnone, fun hgood hsome => ⟨_, hgraded hgood hsome, congrArg _ (List.length_map _), ?_⟩⟩
  have hne : readings.filter (·.valid) ≠ [] := by
    obtain ⟨r, hr, hvalid⟩ := hsome
    exact List.ne_nil_of_mem (List.mem_filter.mpr ⟨hr, hvalid⟩)
  obtain ⟨hspread, hspreadLe, hone⟩ := g.gradeValid_spread c defects hne
  obtain ⟨hbase, hcaps, hreached⟩ := g.finalGrade_spec defects
    (c.scoreGrade (meanScore ((readings.filter (·.valid)).map g.effective)))
  exact ⟨hspread, meanScore_le (g.scores_le _), hspreadLe, hone, hbase, hcaps, hreached, c.decide_eq _ _ _⟩

end Sys2Proof.Machine
end

section
/-! Records in memory: the fields a fetch takes, and the bytes a write-back sets (R9, R43, R177, 12.1). -/

namespace Sys2Proof.Machine

/-! ## Fields written side by side -/

/-- The cells of fields given by offset, width and value; a field with no value has its enables clear. -/
def fieldsCells (a : Nat) (l : List (Nat × Nat × Option Nat)) : Cells := l.flatMap (fun f => fieldCells (a + f.1) f.2.1 f.2.2)

/-- The byte of a number, and the byte as it was where there is none. -/
def byteOr (v : Option Nat) (old : Byte) : Byte :=
  match v with
  | some m => BitVec.ofNat 8 m
  | none => old

/-- Byte `i` of a field with a value, and the byte as it was for a field with none. -/
def fieldByte (v : Option Nat) (i : Nat) (old : Byte) : Byte := byteOr (v.map (· / 256 ^ i)) old

theorem getElem?_leBytes_getD {n m i : Nat} (hi : i < n) : (leBytes n m)[i]?.getD 0 = BitVec.ofNat 8 (m / 256 ^ i) := by
  rw [getElem?_leBytes, if_pos hi]
  rfl

theorem Memory.read_fieldsCells_outside (d : Memory) (a x : Nat) (l : List (Nat × Nat × Option Nat))
    (h : ∀ f ∈ l, x < a + f.1 ∨ a + f.1 + f.2.1 ≤ x) :
    Memory.read (Memory.writeCells d (fieldsCells a l)) x = Memory.read d x := by
  refine Memory.read_writeCells_of_not_mem _ d x fun c hc hx => ?_
  obtain ⟨f, hf, hcell⟩ := List.mem_flatMap.mp hc
  obtain ⟨hlow, hhigh⟩ := mem_fieldCells _ _ _ c hcell
  have := h f hf
  omega

/-- A byte of one of several fields that do not overlap. -/
theorem Memory.read_fieldsCells (d : Memory) (a : Nat) {l : List (Nat × Nat × Option Nat)}
    (hd : l.Pairwise (fun f g => f.1 + f.2.1 ≤ g.1)) {k n i : Nat} {v : Option Nat} (hf : (k, n, v) ∈ l) (hi : i < n) :
    Memory.read (Memory.writeCells d (fieldsCells a l)) (a + (k + i)) = fieldByte v i (Memory.read d (a + (k + i))) := by
  obtain ⟨l₁, l₂, rfl⟩ := List.append_of_mem hf
  obtain ⟨-, h₂, h₁⟩ := List.pairwise_append.mp hd
  have hbefore : ∀ f ∈ l₁, a + (k + i) < a + f.1 ∨ a + f.1 + f.2.1 ≤ a + (k + i) := fun f hf' => by
    have : f.1 + f.2.1 ≤ k := h₁ f hf' _ List.mem_cons_self
    omega
  have hafter : ∀ f ∈ l₂, a + (k + i) < a + f.1 ∨ a + f.1 + f.2.1 ≤ a + (k + i) := fun f hf' => by
    have : k + n ≤ f.1 := (List.pairwise_cons.mp h₂).1 f hf'
    omega
  have hsplit : fieldsCells a (l₁ ++ (k, n, v) :: l₂) = fieldsCells a l₁ ++ (fieldCells (a + k) n v ++ fieldsCells a l₂) := by
    simp [fieldsCells]
  rw [hsplit, Memory.writeCells_append, Memory.writeCells_append, Memory.read_fieldsCells_outside _ a _ l₂ hafter,
    Memory.read_fieldCells_at, if_pos ⟨by omega, by omega⟩, Nat.add_sub_cancel_left]
  cases v with
  | some m => exact getElem?_leBytes_getD hi
  | none => exact Memory.read_fieldsCells_outside _ a _ l₁ hbefore

/-! ## The fields of a write-back (R43, 12.1) -/

/-- The fields of a record write-back by offset and width, in the order of 12.1. -/
def RecUpdate.fields (u : RecUpdate) : List (Nat × Nat × Option Nat) :=
  [(7, 3, if u.clearCmd then some 0 else none), (32, 1, u.state.map (·.code)), (33, 1, u.result.map (·.code)),
    (34, 1, u.grade.map (·.code)), (35, 1, u.disp.map (·.code)), (36, 1, u.reason.map (·.code)), (37, 1, u.regrades),
    (38, 1, u.flags.map (·.code)), (39, 1, u.score), (40, 1, u.spread), (41, 1, u.queue.map queueCode),
    (42, 2, u.bin.map binCode), (44, 2, u.ringIndex), (46, 2, u.served), (48, 4, u.ticket.map (·.toNat))]

theorem RecUpdate.cells_eq (a : Nat) (u : RecUpdate) : u.cells a = fieldsCells a u.fields := by
  have hclear : fieldCells (a + 7) 3 (if u.clearCmd then some 0 else none)
      = if u.clearCmd then cellsAt (a + 7) [0, 0, 0] else [] := by
    cases u.clearCmd <;> rfl
  simp only [RecUpdate.cells, RecUpdate.fields, fieldsCells, List.flatMap_cons, List.flatMap_nil, hclear, List.append_assoc,
    List.append_nil]

theorem RecUpdate.fields_disjoint (u : RecUpdate) : u.fields.Pairwise (fun f g => f.1 + f.2.1 ≤ g.1) := by
  simp [RecUpdate.fields]

/-- Byte `i` of a field after a write-back. -/
theorem RecUpdate.read_field (d : Memory) (a : Nat) (u : RecUpdate) {k n : Nat} {v : Option Nat} (hf : (k, n, v) ∈ u.fields)
    (i : Nat) (hi : i < n) : Memory.read (Memory.writeCells d (u.cells a)) (a + (k + i))
      = fieldByte v i (Memory.read d (a + (k + i))) := by
  rw [RecUpdate.cells_eq]
  exact Memory.read_fieldsCells d a u.fields_disjoint hf hi

theorem RecUpdate.read_outside (d : Memory) (a : Nat) (u : RecUpdate) {x : Nat}
    (h : x < a + 7 ∨ (a + 10 ≤ x ∧ x < a + 32) ∨ a + 52 ≤ x) :
    Memory.read (Memory.writeCells d (u.cells a)) x = Memory.read d x := by
  rw [RecUpdate.cells_eq]
  have hfields : ∀ f ∈ u.fields, 7 ≤ f.1 ∧ f.1 + f.2.1 ≤ 52 ∧ (f.1 + f.2.1 ≤ 10 ∨ 32 ≤ f.1) := by
    simp [RecUpdate.fields]
  refine Memory.read_fieldsCells_outside d a x _ fun f hf => ?_
  have := hfields f hf
  omega

/-! ## The fields of a fetched record (R9, R177) -/

theorem RecState.code_ofCode (n : Nat) : (RecState.ofCode n).code = if n ≤ 7 then n else 0 := by
  by_cases h : n ≤ 7
  · rw [if_pos h]
    interval_cases n <;> rfl
  · rw [if_neg h]
    obtain ⟨m, rfl⟩ := Nat.exists_eq_add_of_le' (Nat.not_le.mp h)
    rfl

theorem Grade.code_ofFetched (n : Nat) : (Grade.ofFetched n).code = if n ≤ 4 then n else 4 := by
  by_cases h : n ≤ 4
  · rw [if_pos h]
    interval_cases n <;> rfl
  · rw [if_neg h]
    obtain ⟨m, rfl⟩ := Nat.exists_eq_add_of_le' (Nat.not_le.mp h)
    rfl

theorem queueOfFetched_iff (n : Nat) :
    (∀ q : Fin 6, queueOfFetched n = some q ↔ n = q.val) ∧ (queueOfFetched n = none ↔ 6 ≤ n) := by
  unfold queueOfFetched
  by_cases h : n < 6
  · simp [h, Fin.ext_iff]
  · rw [dif_neg h]
    exact ⟨fun q => ⟨fun hq => by simp at hq, fun hq => absurd q.isLt (hq ▸ h)⟩, fun _ => Nat.not_lt.mp h, fun _ => rfl⟩

theorem Byte.getLsbD_eq (b : Byte) (i : Nat) : b.getLsbD i = decide (b.toNat / 2 ^ i % 2 = 1) := by
  rw [BitVec.getLsbD, Nat.testBit_eq_decide_div_mod_eq]

theorem RecFlags.ofByte_eq (b : Byte) : RecFlags.ofByte b
    = { trial := decide (b.toNat % 2 = 1), rerouted := decide (b.toNat / 2 % 2 = 1),
        fellBack := decide (b.toNat / 4 % 2 = 1), late := decide (b.toNat / 8 % 2 = 1) } := by
  simp only [RecFlags.ofByte, Byte.getLsbD_eq, Nat.pow_zero, Nat.div_one, Nat.pow_one, Nat.reducePow]

theorem Reading.ofBytes_eq (b₀ b₁ : Byte) : Reading.ofBytes b₀ b₁
    = { valid := decide (b₀.toNat % 2 = 1), kind := if b₀.toNat / 2 % 2 = 1 then .detail else .surface,
        station := b₀.toNat / 16, raw := b₁.toNat % 128 } := by
  simp only [Reading.ofBytes, Byte.getLsbD_eq, Nat.pow_zero, Nat.div_one, Nat.pow_one, decide_eq_true_eq]

theorem Memory.nat_succ (d : Memory) (a n : Nat) :
    Memory.nat d a (n + 1) = (Memory.read d a).toNat + 256 * Memory.nat d (a + 1) n := by
  have hbytes : Memory.bytes d a (n + 1) = Memory.read d a :: Memory.bytes d (a + 1) n := by
    simp [Memory.bytes, List.range_succ_eq_map, Function.comp_def, Nat.add_right_comm, Nat.add_assoc]
  unfold Memory.nat
  rw [hbytes]
  rfl

theorem Memory.record_fields (d : Memory) (a : Nat) :
    let byte (o : Nat) : Nat := (Memory.read d (a + o)).toNat
    (Memory.record d a).defects = [10, 11, 12, 13, 14, 15].map (fun o => byte o % 64) ∧
    (Memory.record d a).readings = [16, 18, 20, 22].map (fun o =>
      { valid := decide (byte o % 2 = 1), kind := if byte o / 2 % 2 = 1 then .detail else .surface,
        station := byte o / 16, raw := byte (o + 1) % 128 }) ∧
    (Memory.record d a).regrades = (if byte 37 ≤ 3 then byte 37 else 3) := by
  refine ⟨rfl, ?_, rfl⟩
  simp only [← Reading.ofBytes_eq]
  rfl

theorem fieldByte_zero (v : Option Nat) (old : Byte) : fieldByte v 0 old = byteOr v old := by
  simp [fieldByte]

/-- The first byte of field `j`, and its byte `i`. -/
theorem RecUpdate.read_getElem? (d : Memory) (a : Nat) (u : RecUpdate) (j : Nat) {k n : Nat} {v : Option Nat}
    (hf : u.fields[j]? = some (k, n, v)) :
    (0 < n → Memory.read (Memory.writeCells d (u.cells a)) (a + k) = byteOr v (Memory.read d (a + k))) ∧
    ∀ i, i < n → Memory.read (Memory.writeCells d (u.cells a)) (a + (k + i))
      = byteOr (v.map (· / 256 ^ i)) (Memory.read d (a + (k + i))) := by
  have hmem := List.mem_of_getElem? hf
  exact ⟨fun hn => (RecUpdate.read_field d a u hmem 0 hn).trans (fieldByte_zero v _), RecUpdate.read_field d a u hmem⟩

theorem RecUpdate.read_clearCmd (d : Memory) (a : Nat) (u : RecUpdate) (i : Nat) (hi : i < 3) :
    Memory.read (Memory.writeCells d (u.cells a)) (a + (7 + i))
      = byteOr (if u.clearCmd then some 0 else none) (Memory.read d (a + (7 + i))) := by
  have hbyte := (RecUpdate.read_getElem? d a u 0 rfl).2 i hi
  rw [hbyte]
  cases u.clearCmd <;> simp

/-- Settles O29: the values of the encodings, the fields of a fetched record, and the bytes of a write-back field by field. -/
theorem writeBacksCoverTheirFields : Obligations.WriteBacksCoverTheirFields := by
  refine ⟨fun d a n v => ⟨rfl, Memory.nat_succ d a n, rfl, rfl, rfl, rfl, fun _ _ => rfl⟩,
    ⟨by decide, by decide, by decide, by decide, by decide, fun _ => rfl, rfl, fun _ => rfl, rfl, fun _ => rfl⟩,
    fun d a => ?_, fun d a u x => ?_⟩
  · obtain ⟨hdefects, hreadings, hregrades⟩ := Memory.record_fields d a
    obtain ⟨hqueue, hnone⟩ := queueOfFetched_iff (Memory.read d (a + 41)).toNat
    exact ⟨rfl, rfl, rfl, rfl, hdefects, hreadings, RecState.code_ofCode _, Grade.code_ofFetched _, rfl, hregrades,
      RecFlags.ofByte_eq _, hqueue, hnone, rfl, rfl, rfl, rfl⟩
  · have single (j : Nat) {k : Nat} {v : Option Nat} (hf : u.fields[j]? = some (k, 1, v)) :=
      (RecUpdate.read_getElem? d a u j hf).1 Nat.one_pos
    obtain ⟨hbin, hbins⟩ := RecUpdate.read_getElem? d a u 11 rfl
    obtain ⟨hring, hrings⟩ := RecUpdate.read_getElem? d a u 12 rfl
    obtain ⟨hserved, hserveds⟩ := RecUpdate.read_getElem? d a u 13 rfl
    obtain ⟨hticket, htickets⟩ := RecUpdate.read_getElem? d a u 14 rfl
    simp only [Option.map_map] at hbins htickets
    exact ⟨⟨RecUpdate.read_clearCmd d a u 0 (by decide), RecUpdate.read_clearCmd d a u 1 (by decide),
        RecUpdate.read_clearCmd d a u 2 (by decide)⟩, single 1 rfl, single 2 rfl, single 3 rfl, single 4 rfl, single 5 rfl,
      single 6 rfl, single 7 rfl, single 8 rfl, single 9 rfl, single 10 rfl, hbin (by decide), hbins 1 (by decide),
      hring (by decide), hrings 1 (by decide), hserved (by decide), hserveds 1 (by decide), hticket (by decide),
      htickets 1 (by decide), htickets 2 (by decide), htickets 3 (by decide), fun hx => RecUpdate.read_outside d a u hx⟩

end Sys2Proof.Machine
end

section
/-! The item commands served and refused (R9 to R11, R33, R34, R40, R41, R46, R51 to R59). -/

namespace Sys2Proof.Machine

/-! ## The write-back of a command at its slot's address -/

theorem State.endCommand_eq {svc : Service} {a : Nat} (ha : svc.addr = some a) (rec : Rec) (u : RecUpdate)
    (events : List EventKind) (s : State) : s.endCommand svc rec u events
      = s.writesBack svc (RecUpdate.cells a { u with clearCmd := true, served := some (servedAfter rec) }) events := by
  have hbase : svc.base = a := by rw [Service.base, ha]; rfl
  rw [State.endCommand, hbase]
  rfl

theorem State.refuseCommand_eq {svc : Service} {a : Nat} (ha : svc.addr = some a) (rec : Rec) (res : RecResult) (s : State) :
    s.refuseCommand svc rec res = s.writesBack svc
      (RecUpdate.cells a { clearCmd := true, result := some res, served := some (servedAfter rec) }) [.cmdRefused] :=
  State.endCommand_eq ha rec _ _ s

theorem State.onCommand_of_served {c : ItemCommand} (f : Service → Rec → State → State) {svc : Service} {a : Nat} {rec : Rec}
    {s : State} (h : s.atCommand svc a) (hr : s.recordAt a = rec) (hc : rec.cmd = c.code)
    (hserved : refusalOf c svc.frozen rec = none) : s.onCommand c f = f svc rec s.fetched := by
  rw [State.onCommand_of_atCommand c f svc a rec s h hr hc, hserved]

theorem State.onCommand_of_refused {c : ItemCommand} (f : Service → Rec → State → State) {svc : Service} {a : Nat} {rec : Rec}
    {s : State} (h : s.atCommand svc a) (hr : s.recordAt a = rec) (hc : rec.cmd = c.code) {res : RecResult}
    (hrefused : refusalOf c svc.frozen rec = some res) : s.onCommand c f = s.fetched.writesBack svc
      (RecUpdate.cells a { clearCmd := true, result := some res, served := some (servedAfter rec) }) [.cmdRefused] := by
  obtain ⟨-, ha, -⟩ := id h
  rw [State.onCommand_of_atCommand c f svc a rec s h hr hc, hrefused]
  exact State.refuseCommand_eq ha rec res _

/-! ## The checks before service (R41) -/

theorem refusalOf_frozen {c : ItemCommand} {rec : Rec} (hc : c.grades = true)
    (hs : rec.state = .opened ∨ rec.state = .routed ∨ rec.state = .trialed) :
    refusalOf c true rec = some .frozen := by
  have hlisted : [RecState.opened, .routed, .trialed].contains rec.state = true := by simpa using hs
  rw [refusalOf, hc, hlisted]
  rfl

theorem refusalOf_state {c : ItemCommand} {fz : Bool} {rec : Rec}
    (hc : c.grades = false ∨ fz = false ∨ (rec.state ≠ .opened ∧ rec.state ≠ .routed ∧ rec.state ≠ .trialed))
    (hs : rec.state ∉ c.servedIn) :
    refusalOf c fz rec = some (if c.reportsPlacement && rec.state == .routed then .notTaken else .badState) := by
  have hcase : (c.grades && fz && [RecState.opened, .routed, .trialed].contains rec.state) = false := by
    rcases hc with h | h | h
    · rw [h]; rfl
    · rw [h, Bool.and_false]; rfl
    · simp [h]
  have hnot : (!c.servedIn.contains rec.state) = true := by simpa using hs
  rw [refusalOf, hcase, hnot, if_neg Bool.false_ne_true, if_pos rfl]

theorem refusalOf_regradeLimit {rec : Rec} (hs : rec.state = .routed) (hn : 3 ≤ rec.regrades) :
    refusalOf .regrade false rec = some .regradeLimit := by
  simp [refusalOf, ItemCommand.servedIn, hs, hn]

/-- A command that a record's state excludes, other than by a freeze. -/
theorem refusalOf_badState {c : ItemCommand} {fz : Bool} {rec : Rec}
    (hc : c.grades = false ∨ fz = false ∨ (rec.state ≠ .opened ∧ rec.state ≠ .routed ∧ rec.state ≠ .trialed))
    (hs : rec.state ∉ c.servedIn) (hp : c.reportsPlacement = false ∨ rec.state ≠ .routed) :
    refusalOf c fz rec = some .badState := by
  have hplacement : (c.reportsPlacement && rec.state == .routed) = false := by
    rcases hp with h | h
    · rw [h]; rfl
    · simp [h]
  rw [refusalOf_state hc hs, hplacement]
  rfl

/-- A placement reported of a ROUTED record. -/
theorem refusalOf_notTaken {c : ItemCommand} {fz : Bool} {rec : Rec} (hp : c = .placed ∨ c = .misfit)
    (hs : rec.state = .routed) : refusalOf c fz rec = some .notTaken := by
  rcases hp with rfl | rfl <;> simp [refusalOf, ItemCommand.grades, ItemCommand.servedIn, ItemCommand.reportsPlacement, hs]

theorem State.fetched?_eq_some {svc : Service} {a : Nat} {rec : Rec} {s : State} (h : s.atCommand svc a)
    (hr : s.recordAt a = rec) : s.fetched? = some (svc, rec) :=
  hr ▸ State.fetched_of_atCommand svc a s h

theorem exec_badCommand {svc : Service} {a : Nat} {rec : Rec} {s : State} (h : s.atCommand svc a) (hr : s.recordAt a = rec)
    (hc : 7 < rec.cmd) : exec .badCommand s = .next (s.fetched.writesBack svc
      (RecUpdate.cells a { clearCmd := true, result := some .badCommand }) [.cmdRefused]) := by
  refine congrArg Host.Outcome.next ?_
  simp only [State.fetched?_eq_some h hr, if_pos hc, Service.base_of_atCommand svc a s h]
  rfl

theorem exec_fetchFault {svc : Service} {a : Nat} {rec : Rec} {s : State} (h : s.atCommand svc a) (hr : s.recordAt a = rec) :
    exec .fetchFault s = .next (s.fetched.writesBack svc
      (RecUpdate.cells a { clearCmd := true, result := some .memFault }) [.memFault]) := by
  refine congrArg Host.Outcome.next ?_
  simp only [State.fetched?_eq_some h hr, Service.base_of_atCommand svc a s h]
  rfl

/-! ## OPEN and CLEAR (R10, R11) -/

/-- Settles O30: a fetch by its definition, and the two commands served. -/
theorem openAndClear : Obligations.OpenAndClear := by
  refine ⟨fun s a => ⟨rfl, rfl⟩, fun svc a rec s h hr => ⟨fun hc hs => congrArg Host.Outcome.next ?_,
    fun hc hs => congrArg Host.Outcome.next ?_⟩⟩
  · have hserved : refusalOf .opened svc.frozen rec = none :=
      refusalOf_served .opened svc.frozen rec (fun k => by simp [ItemCommand.grades] at k) (by simp [ItemCommand.servedIn, hs])
        (fun k => by simp at k)
    rw [State.onCommand_of_served (c := .opened) _ h hr hc hserved, State.serveOpen, Service.base_of_atCommand svc a s h]
    rfl
  · have hserved : refusalOf .clear svc.frozen rec = none :=
      refusalOf_served .clear svc.frozen rec (fun k => by simp [ItemCommand.grades] at k)
        (by simpa [ItemCommand.servedIn] using hs) (fun k => by simp at k)
    obtain ⟨-, ha, -⟩ := id h
    rw [State.onCommand_of_served (c := .clear) _ h hr hc hserved, State.serveClear, State.endCommand_eq ha]

/-! ## Commands ended without service (R40, R41) -/

/-- Settles O31: each command by the first of the cases of R41 that its record meets. -/
theorem commandsRefusedBeforeService : Obligations.CommandsRefusedBeforeService := by
  intro svc a rec s h hr refused frozenAnswer
  have refuses {c : ItemCommand} (f : Service → Rec → State → State) (hc : rec.cmd = c.code) {res : RecResult}
      (hres : refusalOf c svc.frozen rec = some res) :=
    congrArg (Host.Outcome.next (φ := Fault) (ρ := Refusal)) (State.onCommand_of_refused f h hr hc hres)
  have hmisfit : exec .cmdMisfit s = .next (s.onCommand .misfit State.serveMisfit) :=
    congrArg Host.Outcome.next (State.misfit_of_atCommand svc a s h)
  refine ⟨fun hc hs => ?_, fun hc hf hs => ?_, fun hc hf hs => ?_, fun hc hf hs => ?_, fun hc hf hr ht => ?_,
    fun hc hf hs hn => ?_, fun hc hs => ?_, fun hc ht hl hr => ?_, fun hc hs => ?_, fun hc ht hr => ?_, fun hc hs => ?_,
    fun hc hs => ?_, exec_badCommand h hr, exec_fetchFault h hr⟩
  · exact refuses _ (c := .opened) hc (refusalOf_badState (.inl rfl) (by simp [ItemCommand.servedIn, hs]) (.inl rfl))
  · exact refuses _ (c := .commit) hc (hf ▸ refusalOf_frozen rfl hs)
  · refine refuses _ (c := .commit) hc (refusalOf_badState (.inr ?_) (by simp [ItemCommand.servedIn, hs]) (.inl rfl))
    exact hf.imp_right fun k => ⟨hs, k.1, k.2⟩
  · exact refuses _ (c := .regrade) hc (hf ▸ refusalOf_frozen rfl hs)
  · refine refuses _ (c := .regrade) hc (refusalOf_badState (.inr ?_) (by simp [ItemCommand.servedIn, hr, ht]) (.inl rfl))
    exact hf.imp_right fun k => ⟨k, hr, ht⟩
  · exact refuses _ (c := .regrade) hc (hf ▸ refusalOf_regradeLimit hs hn)
  · exact refuses _ (c := .placed) hc (refusalOf_notTaken (.inl rfl) hs)
  · exact refuses _ (c := .placed) hc (refusalOf_badState (.inl rfl) (by simp [ItemCommand.servedIn, ht, hl]) (.inr hr))
  · exact hmisfit.trans (refuses _ (c := .misfit) hc (refusalOf_notTaken (.inr rfl) hs))
  · exact hmisfit.trans
      (refuses _ (c := .misfit) hc (refusalOf_badState (.inl rfl) (by simp [ItemCommand.servedIn, ht]) (.inr hr)))
  · refine refuses _ (c := .withdraw) hc (refusalOf_badState (.inl rfl) ?_ (.inl rfl))
    rcases hs with k | k | k <;> simp [ItemCommand.servedIn, k]
  · refine refuses _ (c := .clear) hc (refusalOf_badState (.inl rfl) ?_ (.inl rfl))
    rcases hs with k | k | k | k <;> simp [ItemCommand.servedIn, k]

end Sys2Proof.Machine
end

section
/-! COMMIT, REGRADE, PLACED, MISFIT and WITHDRAW (R33, R34, R46, R51 to R57). -/

namespace Sys2Proof.Machine

/-! ## COMMIT (R33, R34, R46) -/

theorem State.endTrial_eq {svc : Service} {a : Nat} (ha : svc.addr = some a) (rec : Rec) (g : Graded) (regrades : Option Nat)
    (s : State) : s.endTrial svc rec g regrades = s.writesBack svc
      (RecUpdate.cells a
        { clearCmd := true, state := some .trialed, result := some .ok, grade := some g.grade, disp := some g.disp,
          reason := some g.reason, regrades := regrades, flags := some { rec.flags with trial := true },
          score := some g.score, spread := some g.spread, queue := some none, bin := some none, ringIndex := some 0,
          served := some (servedAfter rec), ticket := some 0 }) [] :=
  State.endCommand_eq ha rec _ _ s

theorem State.serveCommit_cases (svc : Service) (rec : Rec) (s : State) :
    (∀ res, s.gu.grade rec.cls rec.readings rec.defects = .error res → s.serveCommit svc rec = s.refuseCommand svc rec res) ∧
    ∀ g, s.gu.grade rec.cls rec.readings rec.defects = .ok g →
      (s.layout.isTrial svc.entry.slot = true → s.serveCommit svc rec = s.endTrial svc rec g none) ∧
      (s.layout.isTrial svc.entry.slot = false → s.serveCommit svc rec = s.routeGraded .commit svc rec g) := by
  unfold State.serveCommit
  refine ⟨fun res h => ?_, fun g h => ⟨fun ht => ?_, fun ht => ?_⟩⟩
  · rw [h]
  · simp only [h, ht, if_true]
  · simp only [h, ht, Bool.false_eq_true, if_false]

/-- Settles O32: the grading's two outcomes, and the area of the slot. -/
theorem commitGradesAndRoutes : Obligations.CommitGradesAndRoutes := by
  intro svc a rec s h hr hc hs hf
  have hserved : refusalOf .commit svc.frozen rec = none :=
    refusalOf_served .commit svc.frozen rec (fun _ => hf) (by simp [ItemCommand.servedIn, hs]) (fun k => by simp at k)
  have hexec : exec .cmdCommit s = .next (s.fetched.serveCommit svc rec) :=
    congrArg Host.Outcome.next (State.onCommand_of_served (c := .commit) State.serveCommit h hr hc hserved)
  obtain ⟨-, ha, -⟩ := id h
  obtain ⟨herror, hok⟩ := State.serveCommit_cases svc rec s.fetched
  rw [hexec]
  refine ⟨fun res hg => congrArg Host.Outcome.next ?_, fun g hg ht => congrArg Host.Outcome.next ?_,
    fun g hg ht => congrArg Host.Outcome.next ?_⟩
  · exact (herror res hg).trans (State.refuseCommand_eq ha rec res _)
  · exact ((hok g hg).1 ht).trans (State.endTrial_eq ha rec g none _)
  · exact (hok g hg).2 ht

/-! ## Void claims (R51, R57, R112) -/

theorem State.claimVoid_cases (svc : Service) (rec : Rec) (graded : Option Graded) (s : State) :
    (rec.queue ≠ none → s.qu.entryPending = true →
      s.claimVoid svc rec graded = { s with icu := { s.icu with stage := .voiding svc rec graded } }) ∧
    (rec.queue = none → s.claimVoid svc rec graded = s.afterVoid svc rec graded false) ∧
    ∀ q, rec.queue = some q → s.qu.entryPending = false →
      s.claimVoid svc rec graded = (s.voidEntry q rec.ringIndex rec.ticket svc.entry.slot).2.afterVoid svc rec graded
        (s.voidEntry q rec.ringIndex rec.ticket svc.entry.slot).1 := by
  unfold State.claimVoid
  refine ⟨fun hq hp => ?_, fun hq => ?_, fun q hq hp => ?_⟩
  · rw [hp, Option.isSome_iff_ne_none.mpr hq]
    rfl
  · rw [hq, Option.isSome_none, Bool.and_false, if_neg Bool.false_ne_true, State.takeVoid, hq]
  · rw [hp, Bool.false_and, if_neg Bool.false_ne_true, State.takeVoid, hq]

theorem State.voidEntry_frame (q : Fin 6) (ring : Nat) (t : Word32) (id : SlotId) (s : State) :
    (s.voidEntry q ring t id).2.layout = s.layout ∧ (s.voidEntry q ring t id).2.icu = s.icu := by
  unfold State.voidEntry
  split
  · split
    · split <;> simp
    · exact ⟨rfl, rfl⟩
  · exact ⟨rfl, rfl⟩

/-- The cancellation of a restock reservation. -/
def State.cancelRestock (q : Fin 6) (id : SlotId) (s : State) : State := if q = 0 ∨ q = 1 then s.cancelResv id else s

theorem State.cancelRestock_eq (q : Fin 6) (id : SlotId) (s : State) :
    (if isRestockQueue q then s.cancelResv id else s) = s.cancelRestock q id := by
  unfold State.cancelRestock
  by_cases h : q = 0 ∨ q = 1
  · rw [if_pos h, if_pos ((isRestockQueue_iff q).mpr h)]
  · rw [if_neg h, if_neg (mt (isRestockQueue_iff q).mp h)]

theorem State.cancelRestock_frame (q : Fin 6) (id : SlotId) (s : State) :
    (s.cancelRestock q id).layout = s.layout ∧ (s.cancelRestock q id).icu = s.icu := by
  obtain ⟨hlayout, hicu, -⟩ := s.cancelResv_frame_units id
  unfold State.cancelRestock
  split
  · exact ⟨hlayout, hicu⟩
  · exact ⟨rfl, rfl⟩

/-! ## REGRADE (R51, R52) -/

theorem State.serveRegrade_cases (svc : Service) (rec : Rec) (s : State) :
    (∀ res, s.gu.grade rec.cls rec.readings rec.defects = .error res → s.serveRegrade svc rec = s.refuseCommand svc rec res) ∧
    ∀ g, s.gu.grade rec.cls rec.readings rec.defects = .ok g →
      (rec.state = .trialed → s.serveRegrade svc rec = s.endTrial svc rec g none) ∧
      (rec.state ≠ .trialed → s.serveRegrade svc rec = s.claimVoid svc rec (some g)) := by
  unfold State.serveRegrade
  refine ⟨fun res h => ?_, fun g h => ⟨fun ht => ?_, fun ht => ?_⟩⟩
  · rw [h]
  · simp only [h, if_pos ht]
  · simp only [h, if_neg ht]

theorem State.regradeAfterVoid_voided {svc : Service} {rec : Rec} {g : Graded} {q : Fin 6} {s : State}
    (hq : rec.queue = some q) : s.regradeAfterVoid svc rec g true
      = if (s.cancelRestock q svc.entry.slot).layout.isTrial svc.entry.slot
        then (s.cancelRestock q svc.entry.slot).endTrial svc rec g (some (rec.regrades + 1))
        else (s.cancelRestock q svc.entry.slot).routeGraded .regrade svc rec g := by
  simp only [State.regradeAfterVoid, hq, State.cancelRestock_eq, if_true]

/-- Settles O33: the grading's two outcomes, and for a ROUTED record the void claim's answers. -/
theorem regradeVoidsAndRoutes : Obligations.RegradeVoidsAndRoutes := by
  intro svc a rec s h hr hc hf
  have hexec (hs : rec.state = .trialed ∨ (rec.state = .routed ∧ rec.regrades < 3)) :
      exec .cmdRegrade s = .next (s.fetched.serveRegrade svc rec) := by
    have hserved : refusalOf .regrade svc.frozen rec = none := by
      refine refusalOf_served .regrade svc.frozen rec (fun _ => hf) ?_ (fun _ hrouted => ?_)
      · rcases hs with k | ⟨k, -⟩ <;> simp [ItemCommand.servedIn, k]
      · rcases hs with k | ⟨-, k⟩
        · simp [k] at hrouted
        · exact k
    exact congrArg Host.Outcome.next (State.onCommand_of_served (c := .regrade) State.serveRegrade h hr hc hserved)
  obtain ⟨-, ha, -⟩ := id h
  obtain ⟨herror, hok⟩ := State.serveRegrade_cases svc rec s.fetched
  refine ⟨fun res hs hg => ?_, fun g hs hg => ?_, fun g hs hn hg => ?_⟩
  · rw [hexec hs, herror res hg, State.refuseCommand_eq ha]
  · rw [hexec (.inl hs), (hok g hg).1 hs, State.endTrial_eq ha]
  · have hclaim : exec .cmdRegrade s = .next (s.fetched.claimVoid svc rec (some g)) := by
      rw [hexec (.inr ⟨hs, hn⟩), (hok g hg).2 (by simp [hs])]
    obtain ⟨hwaits, hnone, htaken⟩ := State.claimVoid_cases svc rec (some g) s.fetched
    rw [hclaim]
    refine ⟨fun hq hp => congrArg Host.Outcome.next (hwaits hq hp), fun hq => ?_, fun q hq hp hv => ?_,
      fun q u v hq hp hv hcancel => ?_⟩
    · rw [hnone hq]
      exact congrArg Host.Outcome.next (State.refuseCommand_eq ha rec .tooLate _)
    · rw [htaken q hq hp, hv, State.voidEntry_of_not_voided _ _ _ _ _ hv]
      exact congrArg Host.Outcome.next (State.refuseCommand_eq ha rec .tooLate _)
    · obtain ⟨hlayout, hicu⟩ := State.voidEntry_frame q rec.ringIndex rec.ticket svc.entry.slot s.fetched
      obtain ⟨hlayout', hicu'⟩ := State.cancelRestock_frame q svc.entry.slot u
      have hcancel : v = u.cancelRestock q svc.entry.slot := hcancel
      rw [hv] at hlayout hicu
      have hafter : s.fetched.claimVoid svc rec (some g) = u.regradeAfterVoid svc rec g true := by
        rw [htaken q hq hp, hv]
        rfl
      rw [hafter, State.regradeAfterVoid_voided hq, ← hcancel]
      rw [← hcancel] at hlayout' hicu'
      have htrial : v.layout.isTrial svc.entry.slot = s.layout.isTrial svc.entry.slot := by rw [hlayout', hlayout]; rfl
      have hcounter : v.icu.counter = s.icu.counter := by rw [hicu', hicu]; rfl
      refine ⟨fun ht => ?_, fun ht => ?_⟩
      · rw [htrial, if_pos ht, State.endTrial_eq ha]
      · rw [htrial, if_neg (by simp [ht]), State.routeGraded, hcounter]

/-! ## WITHDRAW (R57) -/

theorem State.endVoid_eq {svc : Service} {a : Nat} (ha : svc.addr = some a) (rec : Rec) (s : State) :
    s.endVoid svc rec = s.writesBack svc
      (RecUpdate.cells a { clearCmd := true, state := some .void, result := some .ok, served := some (servedAfter rec) }) [] :=
  State.endCommand_eq ha rec _ _ s

theorem State.withdrawAfterVoid_eq (svc : Service) (rec : Rec) (s : State) :
    (rec.queue = none → s.withdrawAfterVoid svc rec = s.endVoid svc rec) ∧
    ∀ q, rec.queue = some q → s.withdrawAfterVoid svc rec = (s.cancelRestock q svc.entry.slot).endVoid svc rec := by
  refine ⟨fun h => ?_, fun q h => ?_⟩
  · simp [State.withdrawAfterVoid, h]
  · simp only [State.withdrawAfterVoid, h, State.cancelRestock_eq]

theorem State.serveWithdraw_cases (svc : Service) (rec : Rec) (s : State) :
    (rec.state = .routed → s.serveWithdraw svc rec = s.claimVoid svc rec none) ∧
    (rec.state = .taken → s.serveWithdraw svc rec = (s.cancelResv svc.entry.slot).endVoid svc rec) ∧
    (rec.state ≠ .routed → rec.state ≠ .taken → s.serveWithdraw svc rec = s.endVoid svc rec) := by
  unfold State.serveWithdraw
  refine ⟨fun h => ?_, fun h => ?_, fun hr ht => ?_⟩
  · rw [h]
  · rw [h]
  · split
    · exact absurd (by assumption) hr
    · exact absurd (by assumption) ht
    · rfl

/-- Settles O36: the state of the record, and for a ROUTED one the void claim's answers. -/
theorem withdrawEndsTheRecord : Obligations.WithdrawEndsTheRecord := by
  intro svc a rec s h hr hc voided
  have hexec (hs : rec.state ∈ ItemCommand.servedIn .withdraw) :
      exec .cmdWithdraw s = .next (s.fetched.serveWithdraw svc rec) := by
    have hserved : refusalOf .withdraw svc.frozen rec = none :=
      refusalOf_served .withdraw svc.frozen rec (fun k => by simp [ItemCommand.grades] at k) (by simpa using hs)
        (fun k => by simp at k)
    exact congrArg Host.Outcome.next (State.onCommand_of_served (c := .withdraw) State.serveWithdraw h hr hc hserved)
  obtain ⟨-, ha, -⟩ := id h
  obtain ⟨hrouted, htaken, hother⟩ := State.serveWithdraw_cases svc rec s.fetched
  have hclaim (hs : rec.state = .routed) : exec .cmdWithdraw s = .next (s.fetched.claimVoid svc rec none) := by
    rw [hexec (by simp [ItemCommand.servedIn, hs]), hrouted hs]
  obtain ⟨hwaits, hnone, hgoes⟩ := State.claimVoid_cases svc rec none s.fetched
  have hvoided (u : State) : Host.Outcome.next (φ := Fault) (ρ := Refusal) (u.endVoid svc rec) = .next (u.writesBack svc _ _) :=
    congrArg Host.Outcome.next (State.endVoid_eq ha rec u)
  refine ⟨fun hs => ?_, fun hs => ?_, fun hs hq => ?_, fun q hs hq hp => ?_, fun q u hs hq hp hu => ?_⟩
  · have hstate : rec.state ≠ .routed ∧ rec.state ≠ .taken := by rcases hs with k | k | k <;> simp [k]
    have hserves : rec.state ∈ ItemCommand.servedIn .withdraw := by
      rcases hs with k | k | k <;> simp [ItemCommand.servedIn, k]
    exact (hexec hserves).trans (hother hstate.1 hstate.2 ▸ hvoided _)
  · exact (hexec (by simp [ItemCommand.servedIn, hs])).trans (htaken hs ▸ hvoided _)
  · refine (hclaim hs).trans ?_
    rw [hnone hq]
    exact (congrArg Host.Outcome.next ((State.withdrawAfterVoid_eq svc rec _).1 hq)).trans (hvoided _)
  · exact (hclaim hs).trans (congrArg Host.Outcome.next (hwaits (by simp [hq]) hp))
  · refine (hclaim hs).trans ?_
    rw [hgoes q hq hp, hu]
    exact (congrArg Host.Outcome.next ((State.withdrawAfterVoid_eq svc rec _).2 q hq)).trans (hvoided _)

end Sys2Proof.Machine
end

section
/-! PLACED, MISFIT, the notices and the completion of a write-back (R43, R53 to R59, R97, R98). -/

namespace Sys2Proof.Machine

/-! ## The reservation of a slot that is not TAKEN (R97, R98) -/

theorem State.confirmResv_of_taken {s : State} {id : SlotId} {r : Reservation} {d : Nat} (hr : s.ru.find? id = some r)
    (ht : r.state = .taken d) (bin : Nat) :
    (r.bin = bin → s.confirmResv id bin
      = (.confirmed (s.bu.bin r.bin).isLocked, ((s.removeResv id).occupyBin r.bin).2)) ∧
    (r.bin ≠ bin → s.confirmResv id bin = (.wrongBin, s)) := by
  unfold State.confirmResv
  simp only [hr, ht]
  exact ⟨fun h => if_pos h, fun h => if_neg h⟩

theorem State.confirmResv_of_not_taken {s : State} {id : SlotId} (bin : Nat)
    (h : ∀ r d, s.ru.find? id = some r → r.state ≠ .taken d) : s.confirmResv id bin = (.none, s) := by
  unfold State.confirmResv
  split
  · next r hr =>
    split
    · next d hd => exact absurd hd (h r d hr)
    · rfl
  · rfl

theorem State.misfitResv_of_not_taken {s : State} {id : SlotId} (h : ∀ r d, s.ru.find? id = some r → r.state ≠ .taken d) :
    s.misfitResv id = (false, s) := by
  unfold State.misfitResv
  split
  · next r hr =>
    split
    · next d hd => exact absurd hd (h r d hr)
    · rfl
  · rfl

theorem State.misfitResv_of_taken {s : State} {id : SlotId} {r : Reservation} {d : Nat} (hr : s.ru.find? id = some r)
    (ht : r.state = .taken d) : s.misfitResv id = (true, (s.removeResv id).markFullBin r.bin) := by
  unfold State.misfitResv
  simp only [hr, ht]

/-! ## PLACED (R53, R54) -/

theorem Bin.isLocked_ite {α : Type} (b : Bin) (x y : α) :
    (if b.isLocked then x else y) = if b.state = .locked then x else y := by
  simp [Bin.isLocked]

theorem lockedEvent_eq (b : Bin) : lockedEvent b.isLocked = if b.state = .locked then [.lockedBin] else [] :=
  Bin.isLocked_ite b _ _

theorem latePlace_lockedEvent (b : Bin) : EventKind.latePlace :: lockedEvent b.isLocked
    = if b.state = .locked then [.latePlace, .lockedBin] else [.latePlace] := by
  rw [lockedEvent_eq]
  split <;> rfl

/-- The late path by the bin that CMD_ARG names (R54). -/
theorem State.servePlacedLate_cases {svc : Service} {a : Nat} (ha : svc.addr = some a) (rec : Rec) (s : State) :
    (rec.cmdArg < 2048 → (s.bu.bin rec.cmdArg).state ≠ .retired → 0 < (s.bu.bin rec.cmdArg).free →
      s.servePlacedLate svc rec
        = (s.changeBin rec.cmdArg (fun x => { x with occupied := x.occupied + 1 })).writesBack svc
            (RecUpdate.cells a
              { clearCmd := true, state := some .closed, result := some .lateAccepted, bin := some (some rec.cmdArg),
                flags := some { rec.flags with late := true }, served := some (servedAfter rec) })
            (if (s.bu.bin rec.cmdArg).state = .locked then [.latePlace, .lockedBin] else [.latePlace])) ∧
    ((2048 ≤ rec.cmdArg ∨ (s.bu.bin rec.cmdArg).state = .retired ∨ (s.bu.bin rec.cmdArg).free = 0) →
      s.servePlacedLate svc rec = s.writesBack svc
        (RecUpdate.cells a
          { clearCmd := true, state := some .lost, result := some .lateRefused, bin := some (some rec.bin),
            flags := some { rec.flags with late := true }, served := some (servedAfter rec) }) [.latePlace]) := by
  unfold State.servePlacedLate
  refine ⟨fun hb hs hfree => ?_, fun h => ?_⟩
  · simp only [if_pos (show rec.cmdArg < Config.bins from hb), State.lateOccupyBin, if_pos (And.intro hs hfree)]
    rw [latePlace_lockedEvent]
    exact State.endCommand_eq ha rec _ _ _
  · have hnone : (if rec.cmdArg < Config.bins then s.lateOccupyBin rec.cmdArg else (none, s)) = (none, s) := by
      by_cases hb : rec.cmdArg < Config.bins
      · rw [if_pos hb, State.lateOccupyBin, if_neg]
        rintro ⟨hs, hfree⟩
        rcases h with h | h | h
        · exact absurd hb (Nat.not_lt.mpr h)
        · exact hs h
        · exact absurd h (Nat.ne_of_gt hfree)
      · rw [if_neg hb]
    simp only [hnone]
    exact State.endCommand_eq ha rec _ _ _

/-- Settles O34: the confirm's three answers, and the late path. -/
theorem placedConfirmsOrPlacesLate : Obligations.PlacedConfirmsOrPlacesLate := by
  intro svc a rec s h hr hc hs
  have hserved : refusalOf .placed svc.frozen rec = none :=
    refusalOf_served .placed svc.frozen rec (fun k => by simp [ItemCommand.grades] at k)
      (by simpa [ItemCommand.servedIn] using hs) (fun k => by simp at k)
  have hexec : exec .cmdPlaced s = .next (s.fetched.servePlaced svc rec) :=
    congrArg Host.Outcome.next (State.onCommand_of_served (c := .placed) State.servePlaced h hr hc hserved)
  obtain ⟨-, ha, -⟩ := id h
  rw [hexec]
  refine ⟨fun r d hfind ht hb => congrArg Host.Outcome.next ?_, fun r d hfind ht hb => congrArg Host.Outcome.next ?_,
    fun hnot => ?_⟩
  · rw [State.servePlaced, (State.confirmResv_of_taken (s := s.fetched) hfind ht rec.cmdArg).1 hb]
    simp only [Bin.isLocked_ite, lockedEvent_eq]
    exact State.endCommand_eq ha rec _ _ _
  · rw [State.servePlaced, (State.confirmResv_of_taken (s := s.fetched) hfind ht rec.cmdArg).2 hb]
    exact State.refuseCommand_eq ha rec .wrongBin _
  · have hlate : s.fetched.servePlaced svc rec = s.fetched.servePlacedLate svc rec := by
      rw [State.servePlaced, State.confirmResv_of_not_taken (s := s.fetched) rec.cmdArg hnot]
    obtain ⟨haccepted, hrefused⟩ := State.servePlacedLate_cases ha rec s.fetched
    rw [hlate]
    exact ⟨fun hb hstate hfree => congrArg Host.Outcome.next (haccepted hb hstate hfree),
      fun k => congrArg Host.Outcome.next (hrefused k)⟩

/-! ## MISFIT (R55, R56, R98) -/

theorem State.markFullBin_frame (b : Nat) (id : SlotId) (s : State) :
    ((s.removeResv id).markFullBin b).icu = s.icu := by
  simp [State.markFullBin]

theorem State.serveMisfit_cases {svc : Service} {a : Nat} (ha : svc.addr = some a) (rec : Rec) (s : State) :
    (31 < rec.cls → s.serveMisfit svc rec = s.writesBack svc
      (RecUpdate.cells a { clearCmd := true, result := some .badClass, served := some (servedAfter rec) }) [.cmdRefused]) ∧
    (rec.cls ≤ 31 → (∀ r d, s.ru.find? svc.entry.slot = some r → r.state ≠ .taken d) →
      s.serveMisfit svc rec = s.writesBack svc
        (RecUpdate.cells a
          { clearCmd := true, state := some .lost, result := some .tooLate, served := some (servedAfter rec) })
        [.cmdRefused]) ∧
    (∀ r d, rec.cls ≤ 31 → s.ru.find? svc.entry.slot = some r → r.state = .taken d →
      (s.cu.work ≠ .reading → s.serveMisfit svc rec
        = ((s.removeResv svc.entry.slot).markFullBin r.bin).runChain svc rec (misfitRoute rec s.icu.counter)) ∧
      (s.cu.work = .reading → s.serveMisfit svc rec
        = { (s.removeResv svc.entry.slot).markFullBin r.bin with icu := { s.icu with stage := .rerouting svc rec } })) := by
  unfold State.serveMisfit
  refine ⟨fun hcls => ?_, fun hcls hnot => ?_, fun r d hcls hfind ht => ⟨fun hw => ?_, fun hw => ?_⟩⟩
  · rw [if_pos (show Config.classes ≤ rec.cls from hcls)]
    exact State.refuseCommand_eq ha rec .badClass s
  · rw [if_neg (Nat.not_le.mpr (Nat.lt_succ_of_le hcls)), State.misfitResv_of_not_taken hnot]
    exact State.endCommand_eq ha rec _ _ s
  · rw [if_neg (Nat.not_le.mpr (Nat.lt_succ_of_le hcls)), State.misfitResv_of_taken hfind ht]
    simp only [if_neg hw, State.reroute, State.markFullBin_frame]
  · rw [if_neg (Nat.not_le.mpr (Nat.lt_succ_of_le hcls)), State.misfitResv_of_taken hfind ht]
    simp only [if_pos hw, State.markFullBin_frame]

/-- Settles O35: the command's four outcomes, and the re-route that waited. -/
theorem misfitReroutes : Obligations.MisfitReroutes := by
  refine ⟨fun svc a rec s h hr hc hs => ?_, fun svc rec s hs => ⟨by rw [hs]; rfl, congrArg Host.Outcome.next ?_⟩⟩
  · have hserved : refusalOf .misfit svc.frozen rec = none :=
      refusalOf_served .misfit svc.frozen rec (fun k => by simp [ItemCommand.grades] at k)
        (by simp [ItemCommand.servedIn, hs]) (fun k => by simp at k)
    have hexec : exec .cmdMisfit s = .next (s.fetched.serveMisfit svc rec) :=
      congrArg Host.Outcome.next ((State.misfit_of_atCommand svc a s h).trans
        (State.onCommand_of_served (c := .misfit) State.serveMisfit h hr hc hserved))
    obtain ⟨-, ha, -⟩ := id h
    obtain ⟨hclass, hlate, hmarked⟩ := State.serveMisfit_cases ha rec s.fetched
    rw [hexec]
    exact ⟨fun hcls => congrArg Host.Outcome.next (hclass hcls),
      fun hcls hnot => congrArg Host.Outcome.next (hlate hcls hnot), fun r d hcls hfind ht =>
        ⟨fun hw => congrArg Host.Outcome.next ((hmarked r d hcls hfind ht).1 hw),
          fun hw => congrArg Host.Outcome.next ((hmarked r d hcls hfind ht).2 hw)⟩⟩
  · rw [State.misfit, hs]
    rfl

/-! ## The notices (R58, R59) -/

theorem State.serveNotice_cases (svc : Service) (f : Rec → Option RecUpdate) (s : State) :
    (svc.addr = none → s.serveNotice svc f = s.endService.finish) ∧
    ∀ a, svc.addr = some a →
      (∀ u, f (s.recordAt a) = some u → s.serveNotice svc f = s.fetched.writesBack svc (RecUpdate.cells a u) []) ∧
      (f (s.recordAt a) = none → s.serveNotice svc f = s.fetched.endService.finish) := by
  refine ⟨fun h => ?_, fun a h => ⟨fun u hu => ?_, fun hn => ?_⟩⟩
  · simp only [State.serveNotice, h]
    rfl
  · simp only [State.serveNotice, h, hu]
    rfl
  · simp only [State.serveNotice, h, hn]
    rfl

theorem takeUpdate_cases (q : Fin 6) (ticket : Word32) (rec : Rec) :
    (rec.state = .routed → rec.ticket = ticket → takeUpdate q ticket rec
      = some { state := some (if q = 0 ∨ q = 1 then .taken else .closed), flags := some rec.flags }) ∧
    ((rec.state ≠ .routed ∨ rec.ticket ≠ ticket) → takeUpdate q ticket rec = none) := by
  refine ⟨fun hs ht => ?_, fun h => if_neg fun k => h.elim (fun g => g k.1) fun g => g k.2⟩
  rw [takeUpdate, if_pos ⟨hs, ht⟩]
  simp only [isRestockQueue_iff]

theorem expiryUpdate_cases (ticket : Word32) (rec : Rec) :
    (rec.state = .taken → rec.ticket = ticket → expiryUpdate ticket rec
      = some { state := some .lost, flags := some { rec.flags with late := true } }) ∧
    ((rec.state ≠ .taken ∨ rec.ticket ≠ ticket) → expiryUpdate ticket rec = none) :=
  ⟨fun hs ht => if_pos ⟨hs, ht⟩, fun h => if_neg fun k => h.elim (fun g => g k.1) fun g => g k.2⟩

/-- Settles O37: a notice is served by its update, which it has or has not. -/
theorem noticesMoveTheirRecords : Obligations.NoticesMoveTheirRecords := by
  intro svc id q ticket s hs
  refine ⟨fun he => ?_, fun he => ?_⟩
  · have hexec : exec .takeNotice s = .next (s.serveNotice svc (takeUpdate q ticket)) := by
      refine congrArg Host.Outcome.next ?_
      simp only [hs, he]
    obtain ⟨hnone, hsome⟩ := State.serveNotice_cases svc (takeUpdate q ticket) s
    rw [hexec]
    exact ⟨fun a ha hstate ht => congrArg Host.Outcome.next
        ((hsome a ha).1 _ ((takeUpdate_cases q ticket (s.recordAt a)).1 hstate ht)),
      fun ha => congrArg Host.Outcome.next (hnone ha), fun a ha h => congrArg Host.Outcome.next
        ((hsome a ha).2 ((takeUpdate_cases q ticket (s.recordAt a)).2 h))⟩
  · have hexec : exec .expiryNotice s = .next (s.serveNotice svc (expiryUpdate ticket)) := by
      refine congrArg Host.Outcome.next ?_
      simp only [hs, he]
    obtain ⟨hnone, hsome⟩ := State.serveNotice_cases svc (expiryUpdate ticket) s
    rw [hexec]
    exact ⟨fun a ha hstate ht => congrArg Host.Outcome.next
        ((hsome a ha).1 _ ((expiryUpdate_cases ticket (s.recordAt a)).1 hstate ht)),
      fun ha => congrArg Host.Outcome.next (hnone ha), fun a ha h => congrArg Host.Outcome.next
        ((hsome a ha).2 ((expiryUpdate_cases ticket (s.recordAt a)).2 h))⟩

/-! ## The end of a service (R38, R39, R43) -/

/-- The busy set when no entry is in service. -/
theorem State.busy_of_no_service {s : State} (h : s.icu.stage.service = none) (id : SlotId) :
    s.busy id = decide (id ∈ s.icu.given ∨ CqEntry.command id ∈ s.icu.cq) := by
  rw [Bool.eq_iff_iff, State.busy_iff, decide_eq_true_eq]
  simp [h]

/-- How far a request has come when a service has ended: the holds for a place end, and the holds on a slot that no command
of the queue names. -/
def Icu.afterService (u : Icu) : Stage → Stage
  | .held .cqCommand => .waiting
  | .held .cqNotice => .waiting
  | .held (.busySlot id) => if id ∈ u.given ∨ CqEntry.command id ∈ u.cq then .held (.busySlot id) else .waiting
  | st => st

theorem State.afterPlace_of_no_service {s : State} (h : s.icu.stage.service = none) :
    afterPlace s.busy = s.icu.afterService := by
  funext st
  cases st with
  | held k =>
    cases k with
    | busySlot id => simp only [afterPlace, Icu.afterService, State.busy_of_no_service h, decide_eq_true_eq]
    | _ => rfl
  | _ => rfl

/-- The end of a service before the next entry is taken: the holds end, and the unit is idle or paused. -/
theorem State.serviceEnded_eq (s : State) : s.serviceEnded = { s with
    portA := s.portA.restage s.icu.afterService
    portB := s.portB.restage s.icu.afterService
    icu := { s.icu with stage := if s.icu.pauseAsked then .paused else .idle } } := by
  have hservice : (if s.icu.pauseAsked then IcuStage.paused else .idle).service = none := by
    split <;> rfl
  unfold State.serviceEnded
  rw [State.releasePlace_eq, State.afterPlace_of_no_service hservice]
  rfl

theorem exec_writeBackComplete {s : State} {svc : Service} {cells : Cells} {events : List EventKind}
    (h : s.icu.stage = .writeBack svc cells events) : exec .writeBackComplete s
      = .next ((s.ownWrite .writeBack cells .ok).raiseAll events).endService.finish := by
  refine congrArg Host.Outcome.next ?_
  simp only [h]

/-- Settles O38: what the answer changes, and the end of the service by whether the unit pauses, waits or takes an entry. -/
theorem writeBackEndsTheService : Obligations.WriteBackEndsTheService := by
  refine ⟨fun s svc cells events h => ⟨_, exec_writeBackComplete h, rfl, fun k => Eu.pending_raiseAll events k s.eu,
    Eu.mask_raiseAll events s.eu⟩, fun s svc h => ?_⟩
  rw [State.endService_eq, State.serviceEnded_eq]
  refine ⟨fun hp => ?_, fun hp hw => ?_, fun e r hp hq hm => ?_⟩
  · rw [hp, State.takeNext_waits _ (.inl (by simp))]
    rfl
  · rw [hp]
    exact State.takeNext_waits _ (.inr hw)
  · rw [hp]
    exact State.takeNext_takes _ e r rfl hm hq

end Sys2Proof.Machine
end

section
/-! The routing chain (R47 to R49, R94, R95, R107, R110). -/

namespace Sys2Proof.Machine

/-! ## The chain's search for a bin (R47, R94, R95) -/

theorem Disp.isRestock_iff (d : Disp) : d.isRestock = true ↔ d = .pick ∨ d = .reserve := by
  cases d <;> simp [Disp.isRestock]

theorem State.reserveBin_cases (cls : Nat) (k : ZoneKind) (s : State) :
    (s.bu.list (listKey cls k) = [] → s.reserveBin cls k = (none, s)) ∧
    ∀ b l, s.bu.list (listKey cls k) = b :: l →
      s.reserveBin cls k = (some b, s.changeBin b (fun x => { x with reserved := x.reserved + 1 })) := by
  unfold State.reserveBin
  exact ⟨fun h => by rw [h], fun b l h => by rw [h]⟩

theorem State.seekBin_pick {r : Route} (cls : Nat) (s : State) (hr : r.disp = .pick) :
    (∀ b l, s.bu.list (listKey cls .pick) = b :: l → s.seekBin r cls
      = (some { r with bin := some b }, s.changeBin b (fun x => { x with reserved := x.reserved + 1 }))) ∧
    (∀ b l, s.bu.list (listKey cls .pick) = [] → s.bu.list (listKey cls .reserve) = b :: l → s.seekBin r cls
      = (some { r with disp := .reserve, fellBack := true, bin := some b },
          s.changeBin b (fun x => { x with reserved := x.reserved + 1 }))) ∧
    (s.bu.list (listKey cls .pick) = [] → s.bu.list (listKey cls .reserve) = [] → s.seekBin r cls = (none, s)) := by
  obtain ⟨hnoPick, hpick⟩ := s.reserveBin_cases cls .pick
  obtain ⟨hnoReserve, hreserve⟩ := s.reserveBin_cases cls .reserve
  unfold State.seekBin
  rw [if_pos hr]
  refine ⟨fun b l h => ?_, fun b l hp h => ?_, fun hp h => ?_⟩
  · simp only [hpick b l h]
  · simp only [hnoPick hp, hreserve b l h]
  · simp only [hnoPick hp, hnoReserve h]

theorem State.seekBin_reserve {r : Route} (cls : Nat) (s : State) (hr : r.disp = .reserve) :
    (∀ b l, s.bu.list (listKey cls .reserve) = b :: l → s.seekBin r cls
      = (some { r with bin := some b }, s.changeBin b (fun x => { x with reserved := x.reserved + 1 }))) ∧
    (s.bu.list (listKey cls .reserve) = [] → s.seekBin r cls = (none, s)) := by
  obtain ⟨hnone, hsome⟩ := s.reserveBin_cases cls .reserve
  unfold State.seekBin
  rw [if_neg (by simp [hr])]
  refine ⟨fun b l h => ?_, fun h => ?_⟩
  · simp only [hsome b l h]
  · simp only [hnone h]

/-- The chain by the disposition, the room of the reservation table and the answer of the search. -/
theorem State.runChain_cases (svc : Service) (rec : Rec) (r : Route) (s : State) :
    ((r.disp ≠ .pick ∧ r.disp ≠ .reserve) → s.runChain svc rec r = s.claimAppend svc rec r) ∧
    ((r.disp = .pick ∨ r.disp = .reserve) →
      (1024 ≤ s.ru.table.length →
        s.runChain svc rec r = s.claimAppend svc rec { r with disp := .hold, reason := .noReservation }) ∧
      (s.ru.table.length < 1024 →
        (∀ r₁ s₁, s.seekBin r rec.cls = (some r₁, s₁) → s.runChain svc rec r
          = (s₁.createResv svc.entry.slot (r₁.bin.getD 0) r₁.disp.queue r₁.ticket).claimAppend svc rec r₁) ∧
        (∀ s₁, s.seekBin r rec.cls = (none, s₁) →
          s.runChain svc rec r = s₁.claimAppend svc rec { r with disp := .hold, reason := .noBin }))) := by
  unfold State.runChain
  refine ⟨fun h => ?_, fun h => ⟨fun hfull => ?_, fun hroom => ⟨fun r₁ s₁ hseek => ?_, fun s₁ hseek => ?_⟩⟩⟩
  · rw [if_neg (mt (Disp.isRestock_iff r.disp).mp (by simpa using h))]
  · rw [if_pos ((Disp.isRestock_iff r.disp).mpr h), if_neg (by simpa [Ru.hasRoom] using hfull)]
  · rw [if_pos ((Disp.isRestock_iff r.disp).mpr h), if_pos (by simpa [Ru.hasRoom] using hroom), hseek]
  · rw [if_pos ((Disp.isRestock_iff r.disp).mpr h), if_pos (by simpa [Ru.hasRoom] using hroom), hseek]

/-- Settles O39: the chain's cases, with the answers of the search. -/
theorem chainSeeksABin : Obligations.ChainSeeksABin := by
  intro svc rec r s reserved created
  obtain ⟨hother, hrestock⟩ := State.runChain_cases svc rec r s
  refine ⟨hother, fun hr hfull => (hrestock hr).1 hfull, fun b l hr hroom hl => ?_, fun b l hr hroom hp hl => ?_,
    fun b l hr hroom hl => ?_, fun hr hroom hp hl => ?_⟩
  · rw [((hrestock (.inl hr)).2 hroom).1 _ _ ((State.seekBin_pick rec.cls s hr).1 b l hl)]
    simp only [hr]
    rfl
  · rw [((hrestock (.inl hr)).2 hroom).1 _ _ ((State.seekBin_pick rec.cls s hr).2.1 b l hp hl)]
    rfl
  · rw [((hrestock (.inr hr)).2 hroom).1 _ _ ((State.seekBin_reserve rec.cls s hr).1 b l hl)]
    simp only [hr]
    rfl
  · have hseek : s.seekBin r rec.cls = (none, s) := by
      rcases hr with h | h
      · exact (State.seekBin_pick rec.cls s h).2.2 (hp h) hl
      · exact (State.seekBin_reserve rec.cls s h).2 hl
    exact ((hrestock hr).2 hroom).2 s hseek

/-! ## The chain's appends (R48, R49, R110) -/

theorem State.queueFull_iff {s : State} {q : Fin 6} {d : QDesc} (hd : s.desc? q = some d) :
    s.queueFull q = true ↔ d.capacity ≤ (s.queue q).count := by
  simp [State.queueFull, hd]

theorem QuItem.isEntry_iff (i : QuItem) : i.isEntry = true ↔ ∃ cells app, i = .entry cells app := by
  cases i <;> simp [QuItem.isEntry]

theorem Qu.entryPending_iff (u : Qu) : u.entryPending = true ↔ (∃ cells app, QuItem.entry cells app ∈ u.waiting) ∨
    ∃ f cells app, u.inFlight = some f ∧ f.item = .entry cells app := by
  have hwaiting : u.waiting.any (·.isEntry) = true ↔ ∃ cells app, QuItem.entry cells app ∈ u.waiting := by
    rw [List.any_eq_true]
    constructor
    · rintro ⟨i, hi, hentry⟩
      obtain ⟨cells, app, rfl⟩ := (QuItem.isEntry_iff i).mp hentry
      exact ⟨cells, app, hi⟩
    · rintro ⟨cells, app, hi⟩
      exact ⟨_, hi, rfl⟩
  unfold Qu.entryPending
  rw [Bool.or_eq_true, hwaiting]
  refine or_congr_right ?_
  cases u.inFlight with
  | none => simp
  | some f => simp [QuItem.isEntry_iff]

/-- An append claim by whether an entry write is pending and whether the queues are full. -/
theorem State.claimAppend_cases (svc : Service) (rec : Rec) (r : Route) (s : State) :
    (s.qu.entryPending = true →
      s.claimAppend svc rec r = { s with icu := { s.icu with stage := .appending svc rec r } }) ∧
    (s.qu.entryPending = false →
      (s.queueFull r.disp.queue = false → s.claimAppend svc rec r = s.appendTaken svc rec r) ∧
      (s.queueFull r.disp.queue = true →
        (r.disp = .hold → s.claimAppend svc rec r = s.endNoRoom svc rec r) ∧
        (r.disp ≠ .hold →
          (s.queueFull 5 = false → s.claimAppend svc rec r
            = (s.fallToHold svc r).2.appendTaken svc rec (s.fallToHold svc r).1) ∧
          (s.queueFull 5 = true → s.claimAppend svc rec r
            = (s.fallToHold svc r).2.endNoRoom svc rec (s.fallToHold svc r).1)))) := by
  have hfall : (s.fallToHold svc r).2.queueFull Disp.hold.queue = s.queueFull 5 := by
    unfold State.fallToHold
    split
    · exact State.queueFull_cancelResv 5 _ s
    · rfl
  unfold State.claimAppend State.takeAppend
  refine ⟨fun h => if_pos h, fun h => ?_⟩
  rw [if_neg (by simp [h])]
  refine ⟨fun hfull => if_neg (by simp [hfull]), fun hfull => ?_⟩
  rw [if_pos hfull]
  refine ⟨fun hr => if_pos hr, fun hr => ?_⟩
  rw [if_neg hr]
  exact ⟨fun h5 => if_neg (by simp [hfall, h5]), fun h5 => if_pos (hfall.trans h5)⟩

theorem Route.refusedEvents (r : Route) : EventKind.cmdRefused :: r.misfitEvent
    = if r.kind = .misfit then [.cmdRefused, .misfit] else [.cmdRefused] := by
  unfold Route.misfitEvent
  split <;> rfl

/-- Settles O40: what a full queue and a pending entry are, and the claim's cases. -/
theorem chainAppends : Obligations.ChainAppends := by
  refine ⟨fun s q d hd => State.queueFull_iff hd, Qu.entryPending_iff, fun svc a ha => by rw [Service.base, ha]; rfl,
    fun svc rec r s => ?_⟩
  intro taken noRoom held cancelled
  obtain ⟨hwaits, hgoes⟩ := State.claimAppend_cases svc rec r s
  have hfall : s.fallToHold svc r = (held, cancelled) := by
    simp only [State.fallToHold, Disp.isRestock_iff]
    rfl
  have hnoRoom (x : Route) (u : State) (hx : x.disp = .hold) : u.endNoRoom svc rec x = noRoom x u := by
    simp only [State.endNoRoom, Route.refusedEvents, Route.update, hx]
    rfl
  rw [hfall] at hgoes
  refine ⟨hwaits, fun hp hfull => (hgoes hp).1 hfull, fun hp hr hfull h5 => (((hgoes hp).2 hfull).2 hr).1 h5,
    fun hp hr hfull h5 => ?_, fun hp hr h5 => ?_⟩
  · exact ((((hgoes hp).2 hfull).2 hr).2 h5).trans (hnoRoom held cancelled rfl)
  · have hfull : s.queueFull r.disp.queue = true := by rw [hr]; exact h5
    exact (((hgoes hp).2 hfull).1 hr).trans (hnoRoom r s hr)

/-! ## The entry (R48, R107, R110, 12.2) -/

theorem Grade.code_lt (g : Grade) : g.code < 5 := by
  cases g <;> decide

theorem Reason.code_lt (r : Reason) : r.code < 7 := by
  cases r <;> decide

/-- The four parts of an entry. -/
theorem entryBytes_parts (t w g v : Nat) :
    let e := leBytes 4 t ++ leBytes 4 w ++ leBytes 6 g ++ leBytes 2 v
    e.length = 16 ∧ e.take 4 = leBytes 4 t ∧ (e.drop 4).take 4 = leBytes 4 w ∧ (e.drop 8).take 6 = leBytes 6 g ∧
    e.drop 14 = leBytes 2 v :=
  ⟨rfl, rfl, rfl, rfl, rfl⟩

theorem entryBytesOf_fields {ticket : Word32} {id : SlotId} {bin : Option Nat} {tag : Nat} {grade : Grade} {reason : Reason}
    {cls : Nat} {re fb : Bool} (harea : id.area < 4) (hslot : id.slot < 65536) (hbin : ∀ b, bin = some b → b < 2048)
    (htag : tag < 281474976710656) (hcls : cls < 32) :
    let e := entryBytesOf ticket id bin tag grade reason cls re fb
    e.length = 16 ∧ leNat (e.take 4) = ticket.toNat ∧
    leNat ((e.drop 4).take 4) = 1 + 4 * id.area + 16 * id.slot + 1048576 * bin.getD 4095 ∧
    leNat ((e.drop 8).take 6) = tag ∧
    leNat (e.drop 14) = grade.code + 8 * reason.code + 64 * cls + 2048 * re.toNat + 4096 * fb.toNat := by
  have hcode : entryBinCode bin = bin.getD 4095 := by cases bin <;> rfl
  have hbound : bin.getD 4095 < 4096 := by
    cases bin with
    | none => decide
    | some b => exact (hbin b rfl).trans (by decide)
  have hgrade := grade.code_lt
  have hreason := reason.code_lt
  have hre := Bool.toNat_le re
  have hfb := Bool.toNat_le fb
  obtain ⟨hlen, hticket, hlocation, htags, hword⟩ := entryBytes_parts ticket.toNat
    (entLive + 4 * id.area + 16 * id.slot + 1048576 * entryBinCode bin) tag
    (grade.code + 8 * reason.code + 64 * cls + 2048 * re.toNat + 4096 * fb.toNat)
  intro e
  refine ⟨hlen, ?_, ?_, ?_, ?_⟩
  · exact (congrArg leNat hticket).trans (leNat_leBytes 4 _ ticket.isLt)
  · refine (congrArg leNat hlocation).trans ?_
    rw [leNat_leBytes 4 _ (by simp only [hcode, entLive]; omega), hcode]
    rfl
  · exact (congrArg leNat htags).trans (leNat_leBytes 6 _ htag)
  · exact (congrArg leNat hword).trans (leNat_leBytes 2 _ (by omega))

theorem State.issueEntry_cases (q : Fin 6) {d : QDesc} (bytes : List Byte) {s : State} (hd : s.desc? q = some d) :
    let cells : Cells := cellsAt (d.ringBase + 64 + 16 * (s.queue q).tail) bytes
    (s.qu.inFlight = none → s.qu.waiting = [] → s.issueEntry q bytes
      = { s with qu := { s.qu with inFlight := some { item := .entry cells true, cells := cells } }
                 ma := s.ma.ask .queueWrite }) ∧
    (∀ i r, s.qu.inFlight = none → s.qu.waiting = i :: r → s.issueEntry q bytes
      = { s with qu := { s.qu with waiting := r ++ [.entry cells true]
                                   inFlight := some { item := i, cells := s.quCells i } }
                 ma := s.ma.ask .queueWrite }) ∧
    (s.qu.inFlight ≠ none → s.issueEntry q bytes
      = { s with qu := { s.qu with waiting := s.qu.waiting ++ [.entry cells true] } }) := by
  intro cells
  have hissue : s.issueEntry q bytes = s.joinQu (.entry cells true) := by
    simp only [State.issueEntry, hd]
    rfl
  rw [hissue]
  refine ⟨fun hf hw => ?_, fun i r hf hw => ?_, fun hf => ?_⟩
  · rw [State.joinQu_idle _ (.entry cells true) [] s hf (by rw [hw]; rfl), ← hw]
    rfl
  · exact State.joinQu_idle (.entry cells true) i (r ++ [.entry cells true]) s hf (by rw [hw]; rfl)
  · exact State.joinQu_behind _ s hf

/-- Settles O41: the four words of an entry, and the queue unit's write of it. -/
theorem appendsWriteTheirEntry : Obligations.AppendsWriteTheirEntry := by
  refine ⟨fun ticket id bin tag grade reason cls re fb harea hslot hbin htag hcls => ?_,
    fun q d bytes s hd => State.issueEntry_cases q bytes hd⟩
  obtain ⟨hlen, hticket, hlocation, htags, hword⟩ := entryBytesOf_fields (ticket := ticket) (grade := grade)
    (reason := reason) (re := re) (fb := fb) harea hslot hbin htag hcls
  have hgrade := grade.code_lt
  have hreason := reason.code_lt
  have hre := Bool.toNat_le re
  refine ⟨hlen, hticket, ?_, ?_, ?_, ?_, htags, ?_, ?_, ?_, ?_, ?_⟩ <;> simp only [hlocation, hword] <;> omega

end Sys2Proof.Machine
end

section
/-! Appends that take effect (R45, R50, R109 to R111). -/

namespace Sys2Proof.Machine

/-! ## The ticket counter (R45) -/

theorem ticketAfter_eq : ticketAfter = fun x : Word32 => if x = 4294967295 then 1 else x + 1 := rfl

theorem ticketAfter_iterate_injOn {t : Word32} (ht : t ≠ 0) {i j : Nat} (hi : i < 4294967295) (hj : j < 4294967295)
    (h : (ticketAfter^[i]) t = (ticketAfter^[j]) t) : i = j := by
  obtain ⟨-, hti⟩ := ticketAfter_iterate i t ht
  obtain ⟨-, htj⟩ := ticketAfter_iterate j t ht
  have hmod : (t.toNat - 1 + i) % 4294967295 = (t.toNat - 1 + j) % 4294967295 := by
    rw [h] at hti
    omega
  omega

/-- Among more successive tickets than a list holds, one is not in it. -/
theorem exists_ticket_not_mem {t : Word32} (ht : t ≠ 0) {held : List Word32} {n : Nat} (hn : n < 4294967295)
    (hlen : held.length < n) : ¬∀ j < n, (ticketAfter^[j]) t ∈ held := by
  intro hall
  have hnodup : ((List.range n).map (fun j => (ticketAfter^[j]) t)).Nodup := by
    refine List.Nodup.map_on (fun i hi j hj h => ?_) List.nodup_range
    exact ticketAfter_iterate_injOn ht ((List.mem_range.mp hi).trans hn) ((List.mem_range.mp hj).trans hn) h
  have hsub : (List.range n).map (fun j => (ticketAfter^[j]) t) ⊆ held := by
    intro x hx
    obtain ⟨j, hj, rfl⟩ := List.mem_map.mp hx
    exact hall j (List.mem_range.mp hj)
  have hle := (List.subperm_of_subset hnodup hsub).length_le
  rw [List.length_map, List.length_range] at hle
  exact absurd hle (Nat.not_le.mpr hlen)

theorem freeTicket_spec (queues : Vector QState 6) {t : Word32} (hlen : (heldTickets queues).length ≤ 8192) (ht : t ≠ 0) :
    freeTicket queues t ∉ heldTickets queues ∧ freeTicket queues t ≠ 0 ∧
    (t ∉ heldTickets queues → freeTicket queues t = t) ∧
    ∃ k, freeTicket queues t = (ticketAfter^[k]) t ∧ ∀ j, j < k → (ticketAfter^[j]) t ∈ heldTickets queues := by
  obtain ⟨⟨k, -, hk, hskipped⟩, hfree⟩ := skipHeld_spec (heldTickets queues) ((heldTickets queues).length + 1) t
  refine ⟨?_, ?_, fun hnot => ?_, k, hk, hskipped⟩
  · rcases hfree with h | ⟨-, hall⟩
    · exact h
    · exact absurd hall (exists_ticket_not_mem ht (by omega) (Nat.lt_succ_self _))
  · rw [freeTicket, hk]
    exact (ticketAfter_iterate k t ht).1
  · rw [freeTicket, skipHeld, if_neg (by simpa using hnot)]

theorem mem_heldTickets (queues : Vector QState 6) (t : Word32) :
    t ∈ heldTickets queues ↔ ∃ q : Fin 6, ∃ c ∈ queues[q].positions, c.2.ticket = t := by
  have hall (q : Fin 6) : q ∈ queueIds := by revert q; decide
  simp only [heldTickets, List.mem_flatMap, List.mem_map, hall, true_and]

/-! ## The queue unit's cells and its write in flight (R109) -/

theorem State.kickQu_busy {s : State} (h : s.qu.inFlight ≠ none) : s.kickQu = s := by
  unfold State.kickQu
  split
  · next hnone _ => exact absurd hnone h
  · rfl

/-- The cells of an item depend on the layout, the queues and the ticket image alone. -/
theorem State.quCells_congr {s t : State} (hl : t.layout = s.layout) (hq : t.qu.queues = s.qu.queues)
    (ht : t.qu.lastTicket = s.qu.lastTicket) (hc : t.cu.cbsel = s.cu.cbsel) (i : QuItem) : t.quCells i = s.quCells i := by
  cases i with
  | entry cells app => rfl
  | header q => simp only [State.quCells, State.desc?, State.queue, hl, hq]
  | ticketImage => simp only [State.quCells, State.cbBase, ht, hc]

/-! ## The effect of an append (R45, R110, R111) -/

/-- The state after an append's effect, before the writes it queues. -/
def State.appended (q : Fin 6) (d : QDesc) (ticket : Word32) (id : SlotId) (s : State) : State :=
  { s with
    qu := { s.qu with
      queues := s.qu.queues.set q ((s.queue q).appendEntry d.capacity ticket id)
      lastTicket := ticket }
    icu := { s.icu with
      counter := freeTicket (s.qu.queues.set q ((s.queue q).appendEntry d.capacity ticket id)) (ticketAfter ticket) }
    eu := if (s.queue q).count < d.near ∧ (s.queue q).count + 1 = d.near then s.eu.raise .nearFull else s.eu }

theorem State.appendEffect_eq {q : Fin 6} {d : QDesc} (ticket : Word32) (id : SlotId) {s : State} (hd : s.desc? q = some d) :
    s.appendEffect q ticket id = ((s.appended q d ticket id).joinQu (.header q)).joinQu .ticketImage := by
  unfold State.appendEffect State.appended
  simp only [hd]
  by_cases h : (s.queue q).count < d.near ∧ ((s.queue q).appendEntry d.capacity ticket id).count = d.near
  · rw [if_pos h, if_pos (show (s.queue q).count < d.near ∧ (s.queue q).count + 1 = d.near from h)]
    rfl
  · rw [if_neg h, if_neg (show ¬((s.queue q).count < d.near ∧ (s.queue q).count + 1 = d.near) from h)]
    rfl

theorem joinWrite_header_cons (q : Fin 6) (l : List QuItem) : ∃ i r, joinWrite (.header q) l = i :: r := by
  rw [joinWrite_once _ _ rfl]
  cases l with
  | nil => exact ⟨_, _, rfl⟩
  | cons i l => exact ⟨_, _, rfl⟩

/-- With no write in flight an append's effect issues the first item that waits, and the ticket image waits. -/
theorem State.appendEffect_idle {q : Fin 6} {d : QDesc} (ticket : Word32) (id : SlotId) {s : State} (hd : s.desc? q = some d)
    (hf : s.qu.inFlight = none) {i : QuItem} {l : List QuItem} (hl : joinWrite (.header q) s.qu.waiting = i :: l) :
    s.appendEffect q ticket id = { s.appended q d ticket id with
      qu := { (s.appended q d ticket id).qu with
        waiting := joinWrite .ticketImage l
        inFlight := some { item := i, cells := (s.appended q d ticket id).quCells i } }
      ma := s.ma.ask .queueWrite } := by
  rw [State.appendEffect_eq ticket id hd, State.joinQu_idle (.header q) i l (s.appended q d ticket id) hf hl,
    State.joinQu_behind _ _ (by simp)]
  rfl

theorem State.appended_queue (q : Fin 6) (d : QDesc) (ticket : Word32) (id : SlotId) (s : State) (p : Fin 6) :
    (s.appended q d ticket id).queue p
      = if p = q then (s.queue q).appendEntry d.capacity ticket id else s.queue p :=
  State.queue_setQueue q p _ s

theorem exec_appendEntryWriteDone {s : State} {svc : Service} {rec : Rec} {r : Route} {f : QuFlight} {cells : Cells}
    (hs : s.icu.stage = .entryWrite svc rec r) (hf : s.qu.inFlight = some f) (hi : f.item = .entry cells true) :
    exec .appendEntryWriteDone s = .next ((s.landQuWrite f).acceptAppend svc rec r).kickQu := by
  refine congrArg Host.Outcome.next ?_
  simp only [hf, hs, hi]

/-- The write-back of a routed record, by its fields (R50). -/
theorem State.endRouted_eq (svc : Service) (rec : Rec) (r : Route) (ring : Nat) (s : State) :
    s.endRouted svc rec r ring = s.writesBack svc
      (RecUpdate.cells svc.base
        { clearCmd := true, state := some .routed, result := some .ok, disp := some r.disp, reason := some r.reason,
          flags := some (r.flags rec), grade := if r.kind = .misfit then none else some r.grade,
          score := if r.kind = .misfit then none else some r.score,
          spread := if r.kind = .misfit then none else some r.spread,
          regrades := if r.kind = .regrade then some (rec.regrades + 1) else none, queue := some (some r.disp.queue),
          bin := some r.bin, ringIndex := some ring, served := some (servedAfter rec), ticket := some r.ticket })
      ((if r.disp = .hold then [.hold] else []) ++ (if r.kind = .misfit then [.misfit] else [])) := rfl

/-- Settles O42: the counter's walk, the tickets held, and the effect with its two writes. -/
theorem appendTakesEffect : Obligations.AppendTakesEffect := by
  refine ⟨fun queues t hlen ht => freeTicket_spec queues hlen ht, mem_heldTickets,
    fun s svc rec r f cells d q hs hf hi hq hd => ?_⟩
  subst hq
  obtain ⟨i, l, hl⟩ := joinWrite_header_cons r.disp.queue s.qu.waiting
  have heffect := State.appendEffect_idle r.ticket svc.entry.slot (s := s.landQuWrite f) hd rfl hl
  have hqueued := State.appendEffect_eq r.ticket svc.entry.slot (s := s.landQuWrite f) hd
  have hqueue (p : Fin 6) := State.appended_queue r.disp.queue d r.ticket svc.entry.slot (s.landQuWrite f) p
  have hexec : exec .appendEntryWriteDone s = .next ((s.landQuWrite f).acceptAppend svc rec r) := by
    rw [exec_appendEntryWriteDone hs hf hi, State.kickQu_busy]
    rw [State.acceptAppend, heffect]
    exact Option.some_ne_none _
  refine ⟨_, hexec, ?_⟩
  rw [State.acceptAppend, State.endRouted_eq]
  have hheader : (s.landQuWrite f |>.appendEffect r.disp.queue r.ticket svc.entry.slot).queued (.header r.disp.queue) ∧
      (s.landQuWrite f |>.appendEffect r.disp.queue r.ticket svc.entry.slot).queued .ticketImage := by
    rw [hqueued]
    exact ⟨State.joinQu_still_queued _ _ _ (State.joinQu_queued _ _), State.joinQu_queued _ _⟩
  refine ⟨?_, ?_, fun p hp => ?_, ?_, ?_, ?_, hheader.1, hheader.2, ⟨i, l, ?_, ?_, ?_⟩, ?_, ?_, ?_⟩
  · rw [heffect]; rfl
  · rw [heffect]; exact (hqueue _).trans (if_pos rfl)
  · rw [heffect]; exact (hqueue p).trans (if_neg hp)
  · rw [heffect]; rfl
  · rw [heffect]; rfl
  · rw [heffect]; rfl
  · rw [← joinWrite_once _ _ rfl, hl]
  · rw [heffect]
    exact congrArg (fun c => some (QuFlight.mk i c)) (State.quCells_congr rfl rfl rfl rfl i)
  · rw [heffect]; exact joinWrite_once _ _ rfl
  · rw [heffect]; rfl
  · rw [heffect]; rfl
  · rw [heffect]; exact ⟨rfl, rfl, rfl, rfl, rfl, rfl, rfl, rfl, rfl⟩

end Sys2Proof.Machine
end

section
/-! Voids and takes (R112, R113, R115, R116). -/

namespace Sys2Proof.Machine

/-! ## The head clean-up (R113) -/

theorem QState.cleanHead_cases (cap : Nat) (v : QState) :
    ((∀ x, v.position v.head = some x → x.state ≠ .void) → v.cleanHead cap = v) ∧
    (∀ x, 0 < v.count → v.position v.head = some x → x.state = .void →
      v.cleanHead cap = ({ v with
        positions := Map.del v.head v.positions
        head := (v.head + 1) % cap
        count := v.count - 1 }).cleanHead cap) := by
  unfold QState.cleanHead
  refine ⟨fun h => ?_, fun x hcount hx hvoid => ?_⟩
  · cases v.count with
    | zero => rfl
    | succ n =>
      unfold cleanSteps
      split
      · next p hp => rw [if_neg (h p hp)]
      · rfl
  · obtain ⟨n, hn⟩ := Nat.exists_eq_succ_of_ne_zero (Nat.ne_of_gt hcount)
    simp only [hn, cleanSteps, hx, if_pos hvoid]
    rfl

/-! ## A void's answer (R112) -/

/-- The state after a void's entry write and header write have joined the write queue, the queue `q` at `w`. -/
theorem State.joinQu_entry_header (q : Fin 6) (w : QState) (cells : Cells) (s : State) :
    (s.qu.inFlight ≠ none → ((s.joinQu (.entry cells false)).setQueue q w).joinQu (.header q)
      = { s with qu := { s.qu with
            queues := s.qu.queues.set q w
            waiting := s.qu.waiting ++ [.entry cells false] ++ (if QuItem.header q ∈ s.qu.waiting then [] else [.header q]) } }) ∧
    (∀ i r, s.qu.inFlight = none → s.qu.waiting ++ [.entry cells false] = i :: r →
      ((s.joinQu (.entry cells false)).setQueue q w).joinQu (.header q)
      = { s with
          qu := { s.qu with
            queues := s.qu.queues.set q w
            waiting := r ++ (if QuItem.header q ∈ r then [] else [.header q])
            inFlight := some { item := i, cells := s.quCells i } }
          ma := s.ma.ask .queueWrite }) := by
  refine ⟨fun hf => ?_, fun i r hf hl => ?_⟩
  · rw [State.joinQu_behind _ s hf, State.joinQu_behind _ _ (by simpa using hf), joinWrite_once (.header q) _ rfl]
    simp [State.setQueue, joinWrite, QuItem.isEntry]
  · rw [State.joinQu_idle (.entry cells false) i r s hf hl, State.joinQu_behind _ _ (by simp), joinWrite_once (.header q) _ rfl]
    rfl

/-- A queue whose LIVE position a void has found (R112). -/
def QState.withVoid (ring : Nat) (ticket : Word32) (id : SlotId) (v : QState) : QState :=
  { v with
    positions := Map.ins ring { state := .void, ticket := ticket, id := id } v.positions
    live := v.live - 1
    voided := v.voided + 1 }

theorem State.voidEntry_of_live {q : Fin 6} {ring : Nat} {ticket : Word32} {id : SlotId} {d : QDesc} {s : State}
    (hd : s.desc? q = some d) (hr : ring < d.capacity)
    (hp : (s.queue q).position ring = some { state := .live, ticket := ticket, id := id }) :
    s.voidEntry q ring ticket id = (true,
      (((s.setQueue q ((s.queue q).withVoid ring ticket id)).joinQu
        (.entry [(d.ringBase + 64 + 16 * ring + 4, voidByte id)] false)).setQueue q
          (((s.queue q).withVoid ring ticket id).cleanHead d.capacity)).joinQu (.header q)) := by
  have hqueue : ((s.setQueue q ((s.queue q).withVoid ring ticket id)).joinQu
      (.entry [(d.ringBase + 64 + 16 * ring + 4, voidByte id)] false)).queue q = (s.queue q).withVoid ring ticket id := by
    obtain ⟨qu, own, heq, hqueues, -⟩ := State.joinQu_spec (.entry [(d.ringBase + 64 + 16 * ring + 4, voidByte id)] false)
      (s.setQueue q ((s.queue q).withVoid ring ticket id))
    rw [heq, State.queue, hqueues]
    exact (State.queue_setQueue q q _ s).trans (if_pos rfl)
  unfold State.voidEntry
  simp only [hd, hp, and_self, and_true, if_pos hr]
  refine congrArg (Prod.mk true) (congrArg (State.joinQu (.header q)) ?_)
  exact congrArg (fun v : QState => State.setQueue q (v.cleanHead d.capacity) _) hqueue

theorem State.voidEntry_of_void {q : Fin 6} {ring : Nat} {ticket : Word32} {id : SlotId} {d : QDesc} {s : State}
    (hd : s.desc? q = some d) (hr : ring < d.capacity)
    (hp : (s.queue q).position ring = some { state := .void, ticket := ticket, id := id }) :
    s.voidEntry q ring ticket id = (true, s) := by
  unfold State.voidEntry
  simp only [hd, hp, and_self, and_true, if_pos hr]

theorem State.voidEntry_already_taken {q : Fin 6} {ring : Nat} {ticket : Word32} {id : SlotId} {d : QDesc} {s : State}
    (hd : s.desc? q = some d)
    (h : d.capacity ≤ ring ∨ (s.queue q).position ring = none ∨
      ∃ x, (s.queue q).position ring = some x ∧ (x.state = .taking ∨ x.ticket ≠ ticket ∨ x.id ≠ id)) :
    s.voidEntry q ring ticket id = (false, s) := by
  unfold State.voidEntry
  simp only [hd]
  split
  · next d' p heq hp =>
    obtain rfl := Option.some.inj heq
    by_cases hc : ring < d.capacity ∧ p.ticket = ticket ∧ p.id = id
    · rw [if_pos hc]
      have hstate : p.state = .taking := by
        rcases h with h | h | ⟨x, hx, h⟩
        · exact absurd hc.1 (Nat.not_lt.mpr h)
        · exact absurd (hp.symm.trans h) (by simp)
        · obtain rfl := Option.some.inj (hp.symm.trans hx)
          exact h.resolve_right fun k => k.elim (fun k => k hc.2.1) fun k => k hc.2.2
      simp only [hstate]
    · rw [if_neg hc]
  · rfl

theorem State.joinQu_lastTicket (i : QuItem) (s : State) : (s.joinQu i).qu.lastTicket = s.qu.lastTicket := by
  obtain ⟨qu, own, heq, -, hlast⟩ := State.joinQu_spec i s
  rw [heq]
  exact hlast

/-- The queue unit after a void answered VOIDED (R109, R112). -/
theorem State.voided_qu {q : Fin 6} (w : QState) (cells : Cells) (s : State) :
    let t := ((s.joinQu (.entry cells false)).setQueue q w).joinQu (.header q)
    let header (l : List QuItem) : List QuItem := if QuItem.header q ∈ l then [] else [.header q]
    t.qu.lastTicket = s.qu.lastTicket ∧
    (s.qu.inFlight ≠ none → t.qu.inFlight = s.qu.inFlight ∧ t.ma = s.ma ∧
      t.qu.waiting = s.qu.waiting ++ [.entry cells false] ++ header s.qu.waiting) ∧
    (s.qu.inFlight = none → t.ma = s.ma.ask .queueWrite ∧
      (s.qu.waiting = [] → t.qu.inFlight = some { item := .entry cells false, cells := cells } ∧
        t.qu.waiting = [.header q]) ∧
      ∀ i r, s.qu.waiting ++ [.entry cells false] = i :: r →
        t.qu.inFlight.map (·.item) = some i ∧ t.qu.waiting = r ++ header r) := by
  intro t header
  obtain ⟨hbusy, hidle⟩ := State.joinQu_entry_header q w cells s
  refine ⟨?_, fun hf => ?_, fun hf => ⟨?_, fun hw => ?_, fun i r hl => ?_⟩⟩
  · exact (State.joinQu_lastTicket _ _).trans (State.joinQu_lastTicket _ s)
  · rw [show t = _ from hbusy hf]
    exact ⟨rfl, rfl, rfl⟩
  · obtain ⟨i, r, hl⟩ : ∃ i r, s.qu.waiting ++ [QuItem.entry cells false] = i :: r :=
      List.exists_cons_of_ne_nil (by simp)
    rw [show t = _ from hidle i r hf hl]
  · rw [show t = _ from hidle _ [] hf (by rw [hw]; rfl)]
    exact ⟨rfl, rfl⟩
  · rw [show t = _ from hidle i r hf hl]
    exact ⟨rfl, rfl⟩

theorem State.queued_setQueue (q : Fin 6) (w : QState) (i : QuItem) (s : State) :
    (s.setQueue q w).queued i ↔ s.queued i := Iff.rfl

theorem State.queue_joinQu (i : QuItem) (s : State) (p : Fin 6) : (s.joinQu i).queue p = s.queue p := by
  obtain ⟨qu, own, heq, hqueues, -⟩ := State.joinQu_spec i s
  rw [heq, State.queue, State.queue, hqueues]

/-- Settles O43: the clean-up's steps, and the answer by the position's state. -/
theorem voidAnswers : Obligations.VoidAnswers := by
  refine ⟨fun id => rfl, fun cap v => ?_, fun q ring ticket id d s hd => ?_⟩
  · obtain ⟨htail, hlive, hlast, happended, htaken, hvoided, hwaiters, hcount, hend⟩ := cleanSteps_spec cap v.count v
    obtain ⟨hstays, hstep⟩ := QState.cleanHead_cases cap v
    exact ⟨htail, hlive, hlast, happended, htaken, hvoided, hwaiters, hcount, hend rfl, hstays, hstep⟩
  · intro answer
    refine ⟨fun hr hp => ?_, fun hr hp => State.voidEntry_of_void hd hr hp, State.voidEntry_already_taken hd⟩
    have hanswer : answer = _ := State.voidEntry_of_live hd hr hp
    rw [hanswer]
    refine ⟨rfl, ?_, fun p hne => ?_, ?_, State.joinQu_queued _ _, ?_, ?_⟩
    · rw [State.queue_joinQu, State.queue_setQueue, if_pos rfl]
      rfl
    · rw [State.queue_joinQu, State.queue_setQueue, if_neg hne, State.queue_joinQu, State.queue_setQueue, if_neg hne]
    · exact State.joinQu_still_queued _ _ _ ((State.queued_setQueue _ _ _ _).mpr (State.joinQu_queued _ _))
    · exact State.voided_qu _ _ _
    · simp

/-! ## Takes (R115, R116) -/

theorem serveWaiters_cons (q : Fin 6) (p : Port) (l : List Port) (s : State) :
    ((s.queue q).takeInProgress = true → serveWaiters q (p :: l) s = s.setQueue q { s.queue q with waiters := p :: l }) ∧
    (∀ o, (s.queue q).takeInProgress = false → headRequest (s.port p).outstanding = some o →
      ∀ st u, s.beginTake q (tagOf o.req) = (st, u) → serveWaiters q (p :: l) s = serveWaiters q l (u.setHead p st)) := by
  refine ⟨fun h => ?_, fun o hn ho st u hbegin => ?_⟩
  · rw [serveWaiters, if_pos h]
  · rw [serveWaiters, if_neg (by simp [hn]), ho]
    simp only [hbegin]

/-- The state after a take's answer and its effect on the queue, before its header write is queued (R116). -/
def State.takeAnswered (q : Fin 6) (d : QDesc) (s : State) : State :=
  let data := Memory.bytes (s.readBy (.takeRead q)) (d.entryAddr (s.queue q).head) 16
  let answer (p : Port) (t : State) : State :=
    t.setOldest p (fun st => st == .taking q) (fun o => okData (tagOf o.req) data)
  (answer .B (answer .A (s.ownRead (.takeRead q)))).setQueue q
    { ((s.queue q).finishTake d.capacity).cleanHead d.capacity with waiters := [] }

theorem exec_takeComplete {s : State} {q : Fin 6} {d : QDesc} (hd : s.desc? q = some d)
    (ht : (s.queue q).takeInProgress = true) :
    exec (.takeComplete q) s = .next (serveWaiters q (s.queue q).waiters ((s.takeAnswered q d).joinQu (.header q))).finish := by
  refine congrArg Host.Outcome.next ?_
  simp only [hd, if_pos ht]
  rfl

theorem State.takeAnswered_outstanding (q : Fin 6) (d : QDesc) (s : State) (p : Port) :
    ((s.takeAnswered q d).port p).outstanding = Machine.setOldest (fun st => st == .taking q)
      (fun o => okData (tagOf o.req) (Memory.bytes (s.readBy (.takeRead q)) (d.entryAddr (s.queue q).head) 16))
      (s.port p).outstanding := by
  cases p <;> rfl

theorem State.port_joinQu (i : QuItem) (s : State) (p : Port) : (s.joinQu i).port p = s.port p := by
  cases p <;> simp only [State.port, State.joinQu_frame]

/-- A header write joins the items that wait, or the first of them is issued (R109). -/
theorem State.joinQu_header_cases (q : Fin 6) (s : State) :
    let items : List QuItem := s.qu.waiting ++ (if QuItem.header q ∈ s.qu.waiting then [] else [.header q])
    (s.qu.inFlight ≠ none → (s.joinQu (.header q)).ma = s.ma ∧ (s.joinQu (.header q)).qu.inFlight = s.qu.inFlight ∧
      (s.joinQu (.header q)).qu.waiting = items) ∧
    (s.qu.inFlight = none → (s.joinQu (.header q)).ma = s.ma.ask .queueWrite ∧
      ∃ i r, items = i :: r ∧
        (s.joinQu (.header q)).qu.inFlight = some { item := i, cells := (s.joinQu (.header q)).quCells i } ∧
        (s.joinQu (.header q)).qu.waiting = r) := by
  have hitems := joinWrite_once (.header q) s.qu.waiting rfl
  refine ⟨fun hf => ?_, fun hf => ?_⟩
  · rw [State.joinQu_behind _ s hf, ← hitems]
    exact ⟨rfl, rfl, rfl⟩
  · obtain ⟨i, r, hl⟩ := joinWrite_header_cons q s.qu.waiting
    rw [State.joinQu_idle _ i r s hf hl, ← hitems]
    exact ⟨rfl, i, r, hl, congrArg (fun c => some (QuFlight.mk i c)) (State.quCells_congr rfl rfl rfl rfl i), rfl⟩

/-- Settles O44: the reads that wait by `State.beginTake`, and the completed take. -/
theorem takeCompletes : Obligations.TakeCompletes := by
  refine ⟨fun q p l s => ⟨rfl, (serveWaiters_cons q p l s).1, fun o hn ho => ?_⟩, fun s q d hd ht => ?_⟩
  · have hserve := (serveWaiters_cons q p l s).2 o hn ho
    obtain ⟨hempty, hfull, hbegin⟩ := State.beginTake_cases q (tagOf o.req) s
    exact ⟨fun h => hserve _ _ (hempty h), fun h hp => hserve _ _ (hfull h hp), fun x h hp hx => hserve _ _ (hbegin x h hp hx)⟩
  · intro done data
    refine ⟨(s.takeAnswered q d).joinQu (.header q), exec_takeComplete hd ht, ?_, fun p hp => ?_,
      fun p l o r hl hfirst ho => ?_, State.joinQu_queued _ _, ?_⟩
    · rw [State.queue_joinQu, State.takeAnswered, State.queue_setQueue, if_pos rfl]
      rfl
    · rw [State.queue_joinQu, State.takeAnswered, State.queue_setQueue, if_neg hp]
      rfl
    · rw [State.port_joinQu, State.takeAnswered_outstanding, hl]
      exact setOldest_at_first _ _ l r o (fun x hx => by simpa using hfirst x hx) (by simp [ho])
    · simp only [State.joinQu_frame, State.joinQu_lastTicket]
      exact ⟨rfl, rfl, rfl, rfl, rfl, rfl, rfl, rfl, rfl, rfl, rfl, State.joinQu_header_cases q (s.takeAnswered q d)⟩

end Sys2Proof.Machine
end

section
/-! The queue unit's other writes (R109, R110, R112). -/

namespace Sys2Proof.Machine

theorem QuItem.isAppendEntry_eq_false {i : QuItem} (h : ∀ cells, i ≠ .entry cells true) : i.isAppendEntry = false := by
  cases i with
  | entry cells app =>
    cases app with
    | true => exact absurd rfl (h cells)
    | false => rfl
  | _ => rfl

theorem exec_quWriteDone {s : State} {f : QuFlight} (hf : s.qu.inFlight = some f) (hi : ∀ cells, f.item ≠ .entry cells true) :
    exec .quWriteDone s = .next (((s.landQuWrite f).kickQu).resumeClaim) := by
  refine congrArg Host.Outcome.next ?_
  simp only [hf, QuItem.isAppendEntry_eq_false hi, Bool.false_eq_true, if_false]

/-- The next write of the queue unit (R109). -/
theorem State.kickQu_cases {s : State} (h : s.qu.inFlight = none) :
    (s.qu.waiting = [] → s.kickQu = s) ∧
    ∀ i r, s.qu.waiting = i :: r → s.kickQu = { s with
      qu := { s.qu with waiting := r, inFlight := some { item := i, cells := s.quCells i } }
      ma := s.ma.ask .queueWrite } := by
  refine ⟨fun hw => ?_, fun i r hw => State.kickQu_idle i r s h hw⟩
  simp [State.kickQu, h, hw]

/-! ## The claim that waits (R110, R112) -/

theorem State.resumeClaim_stays {s : State} :
    (s.qu.entryPending = true → s.resumeClaim = s) ∧
    ((∀ svc rec x, s.icu.stage ≠ .appending svc rec x) → (∀ svc rec x, s.icu.stage ≠ .voiding svc rec x) →
      s.resumeClaim = s) := by
  unfold State.resumeClaim
  refine ⟨fun h => if_pos h, fun happend hvoid => ?_⟩
  split
  · rfl
  · split
    · next h => exact absurd h (hvoid _ _ _)
    · next h => exact absurd h (happend _ _ _)
    · rfl

/-- With no entry write left the claim that waits is made as at its first try (R110, R112). -/
theorem State.resumeClaim_goes {s : State} (h : s.qu.entryPending = false) :
    (∀ svc rec x, s.icu.stage = .appending svc rec x → s.resumeClaim = s.claimAppend svc rec x) ∧
    ∀ svc rec graded, s.icu.stage = .voiding svc rec graded → s.resumeClaim = s.claimVoid svc rec graded := by
  unfold State.resumeClaim
  refine ⟨fun svc rec x hs => ?_, fun svc rec graded hs => ?_⟩
  · rw [State.claimAppend, if_neg (by simp [h]), if_neg (by simp [h]), hs]
  · rw [State.claimVoid, if_neg (by simp [h]), if_neg (by simp [h]), hs]

/-- A WITHDRAW's void claim, answered (R57). -/
theorem State.claimVoid_withdraw {svc : Service} {rec : Rec} {s : State} (h : s.qu.entryPending = false) :
    s.claimVoid svc rec none = ((match rec.queue with
      | none => s
      | some q => (s.voidEntry q rec.ringIndex rec.ticket svc.entry.slot).2.cancelRestock q svc.entry.slot : State)).endVoid
        svc rec := by
  obtain ⟨-, hnone, hsome⟩ := State.claimVoid_cases svc rec none s
  cases hq : rec.queue with
  | none => exact (hnone hq).trans ((State.withdrawAfterVoid_eq svc rec s).1 hq)
  | some q => exact (hsome q hq h).trans ((State.withdrawAfterVoid_eq svc rec _).2 q hq)

/-- A REGRADE's void claim, answered (R51, R52). -/
theorem State.claimVoid_regrade {svc : Service} {rec : Rec} {g : Graded} {s : State} (h : s.qu.entryPending = false) :
    ((rec.queue = none ∨
        ∃ q, rec.queue = some q ∧ (s.voidEntry q rec.ringIndex rec.ticket svc.entry.slot).1 = false) →
      s.claimVoid svc rec (some g) = s.refuseCommand svc rec .tooLate) ∧
    ∀ q w, rec.queue = some q → s.voidEntry q rec.ringIndex rec.ticket svc.entry.slot = (true, w) →
      (s.layout.isTrial svc.entry.slot = true → s.claimVoid svc rec (some g)
        = (w.cancelRestock q svc.entry.slot).endTrial svc rec g (some (rec.regrades + 1))) ∧
      (s.layout.isTrial svc.entry.slot = false → s.claimVoid svc rec (some g)
        = (w.cancelRestock q svc.entry.slot).runChain svc rec
            { kind := .regrade, grade := g.grade, score := g.score, spread := g.spread, disp := g.disp,
              reason := g.reason, fellBack := false, bin := none, ticket := s.icu.counter }) := by
  obtain ⟨-, hnone, hsome⟩ := State.claimVoid_cases svc rec (some g) s
  refine ⟨fun hv => ?_, fun q w hq hv => ?_⟩
  · rcases hv with hq | ⟨q, hq, hv⟩
    · exact hnone hq
    · rw [hsome q hq h, hv, State.voidEntry_of_not_voided _ _ _ _ _ hv]
      rfl
  · obtain ⟨hlayout, hicu⟩ := State.voidEntry_frame q rec.ringIndex rec.ticket svc.entry.slot s
    obtain ⟨hlayout', hicu'⟩ := State.cancelRestock_frame q svc.entry.slot w
    rw [hv] at hlayout hicu
    have hclaim : s.claimVoid svc rec (some g) = w.regradeAfterVoid svc rec g true := by
      rw [hsome q hq h, hv]
      rfl
    rw [hclaim, State.regradeAfterVoid_voided hq, hlayout', hlayout]
    refine ⟨fun ht => if_pos ht, fun ht => ?_⟩
    rw [if_neg (by simp [ht]), State.routeGraded, hicu', hicu]

/-- Settles O45: the cells of an item, the next write, and the claim that waits. -/
theorem queueWritesGoInOrder : Obligations.QueueWritesGoInOrder := by
  refine ⟨fun _ => rfl, fun s => ⟨fun _ _ => rfl, fun q d hd => by simp only [State.quCells, hd], rfl⟩, fun s f hf hi => ?_⟩
  obtain ⟨qu, own, hkick, -, -⟩ := State.kickQu_spec (s.landQuWrite f)
  obtain ⟨hempty, hnext⟩ := State.kickQu_cases (s := s.landQuWrite f) rfl
  intro landed
  have hicu : ((s.landQuWrite f).kickQu).icu = s.icu := by rw [hkick]; rfl
  have hlayout : ((s.landQuWrite f).kickQu).layout = s.layout := by rw [hkick]; rfl
  obtain ⟨hpending, hother⟩ := State.resumeClaim_stays (s := (s.landQuWrite f).kickQu)
  rw [hicu] at hother
  refine ⟨(s.landQuWrite f).kickQu, exec_quWriteDone hf hi, ?_, fun hw => ?_, fun i r hw => ?_, hpending, hother,
    fun svc rec x hp hs => ?_, fun svc rec hp hs => ?_, fun svc rec g hp hs => ?_⟩
  · rw [hkick]
    rfl
  · rw [hempty hw]
    exact ⟨rfl, rfl⟩
  · rw [hnext i r hw]
    exact ⟨congrArg (fun c => ({ s.qu with waiting := r, inFlight := some (QuFlight.mk i c) } : Qu))
      (State.quCells_congr rfl rfl rfl rfl i), rfl⟩
  · exact (State.resumeClaim_goes hp).1 svc rec x (hicu ▸ hs)
  · exact ((State.resumeClaim_goes hp).2 svc rec none (hicu ▸ hs)).trans (State.claimVoid_withdraw hp)
  · obtain ⟨hlate, hvoided⟩ := State.claimVoid_regrade (svc := svc) (rec := rec) (g := g) hp
    have hclaim := (State.resumeClaim_goes hp).2 svc rec (some g) (hicu ▸ hs)
    rw [hclaim]
    refine ⟨hlate, fun q w v hq hv hcancel => ?_⟩
    obtain ⟨htrial, hroutes⟩ := hvoided q w hq hv
    rw [hlayout] at htrial hroutes
    rw [hicu] at hroutes
    subst hcancel
    exact ⟨htrial, hroutes⟩

end Sys2Proof.Machine
end

section
/-! A change of a bin: the lists, the image write queue, the kind of a bin (R65, R68, R71, R79, R85). -/

namespace Sys2Proof.Machine

/-! ## The availability lists (R71) -/

theorem getD_leaveList (key j b : Nat) (avail : Map (List Nat)) :
    Map.getD [] (leaveList key b avail) j
      = if j = key then (Map.getD [] avail key).filter (fun c => c != b) else Map.getD [] avail j :=
  getD_put_list _ _ _ _

theorem getD_joinList (key j b : Nat) (avail : Map (List Nat)) :
    Map.getD [] (joinList key b avail) j = if j = key then Map.getD [] avail key ++ [b] else Map.getD [] avail j :=
  getD_put_list _ _ _ _

theorem List.filter_bne_of_notMem {l : List Nat} {b : Nat} (h : b ∉ l) : l.filter (fun c => c != b) = l := by
  refine List.filter_eq_self.2 fun c hc => ?_
  simp only [bne_iff_ne]
  rintro rfl
  exact h hc

/-- No list of another kind changes (R71). -/
theorem relist_of_kind_ne {zones : List Zone} {b : Nat} {k : ZoneKind} (h : kindOf zones b ≠ some k) (c : Nat) (old new : Bin)
    (avail : Map (List Nat)) :
    Map.getD [] (relist zones b old new avail) (listKey c k) = Map.getD [] avail (listKey c k) := by
  unfold relist
  cases hk : kindOf zones b with
  | none => rfl
  | some j =>
    have hkey : ∀ d, listKey c k ≠ listKey d j := fun d he => h (by rw [hk, (listKey_inj c d k j he).2])
    dsimp only
    split <;> [rfl; skip]
    split <;> split <;> simp only [getD_joinList, getD_leaveList, hkey, if_false]

/-- The lists of the bin's kind: the bin keeps its place in a list that it is in before and after; from any other list it
leaves, and the list of its class it joins at the tail when it takes reservations (R71). -/
theorem relist_of_kind {zones : List Zone} {b : Nat} {k : ZoneKind} (hk : kindOf zones b = some k) {old : Bin} (new : Bin)
    {avail : Map (List Nat)}
    (hwas : ∀ d, b ∈ Map.getD [] avail (listKey d k) ↔ old.takesReservation = true ∧ old.cls = d) (c : Nat) :
    Map.getD [] (relist zones b old new avail) (listKey c k)
      = if (old.takesReservation = true ∧ old.cls = c) ∧ new.takesReservation = true ∧ new.cls = c
        then Map.getD [] avail (listKey c k)
        else (Map.getD [] avail (listKey c k)).filter (fun x => x != b)
          ++ (if new.takesReservation = true ∧ new.cls = c then [b] else []) := by
  have hcontains : (Map.getD [] avail (listKey old.cls k)).contains b = old.takesReservation := by
    rw [Bool.eq_iff_iff, List.contains_iff_mem, hwas]
    exact and_iff_left rfl
  have hkey : ∀ d, listKey c k = listKey d k ↔ d = c :=
    fun d => ⟨fun h => (listKey_inj c d k k h).1.symm, fun h => by rw [h]⟩
  have hout : ¬(old.takesReservation = true ∧ old.cls = c) →
      (Map.getD [] avail (listKey c k)).filter (fun x => x != b) = Map.getD [] avail (listKey c k) :=
    fun h => List.filter_bne_of_notMem (mt (hwas c).1 h)
  have hleft : Map.getD [] (if old.takesReservation = true then leaveList (listKey old.cls k) b avail else avail) (listKey c k)
      = (Map.getD [] avail (listKey c k)).filter (fun x => x != b) := by
    by_cases hin : old.takesReservation = true ∧ old.cls = c
    · rw [if_pos hin.1, getD_leaveList, hin.2, if_pos rfl]
    · rw [hout hin]
      split
      next ht => rw [getD_leaveList, if_neg (fun h => hin ⟨ht, (hkey _).1 h⟩)]
      next => rfl
  unfold relist
  simp only [hk, hcontains]
  by_cases hstay : (old.takesReservation && new.takesReservation && decide (old.cls = new.cls)) = true
  · rw [if_pos hstay]
    simp only [Bool.and_eq_true, decide_eq_true_eq] at hstay
    obtain ⟨⟨hold, hnew⟩, hcls⟩ := hstay
    by_cases hc : old.cls = c
    · rw [if_pos ⟨⟨hold, hc⟩, hnew, hcls ▸ hc⟩]
    · rw [if_neg (fun h => hc h.1.2), if_neg (fun h => hc (hcls.trans h.2)), hout (fun h => hc h.2), List.append_nil]
  · rw [if_neg hstay]
    simp only [Bool.and_eq_true, decide_eq_true_eq] at hstay
    have hmoves : ¬((old.takesReservation = true ∧ old.cls = c) ∧ new.takesReservation = true ∧ new.cls = c) :=
      fun ⟨⟨hold, ho⟩, hnew, hn⟩ => hstay ⟨⟨hold, hnew⟩, ho.trans hn.symm⟩
    rw [if_neg hmoves]
    generalize (if old.takesReservation = true then leaveList (listKey old.cls k) b avail else avail) = left at hleft ⊢
    by_cases hnew : new.takesReservation = true
    · rw [if_pos hnew, getD_joinList]
      by_cases hc : new.cls = c
      · rw [if_pos ((hkey _).2 hc), if_pos ⟨hnew, hc⟩, hc, hleft]
      · rw [if_neg (mt (hkey _).1 hc), if_neg (fun h => hc h.2), hleft, List.append_nil]
    · rw [if_neg hnew, if_neg (fun h => hnew h.1), hleft, List.append_nil]

/-- The four ways a list changes when a bin changes, while the lists hold exactly the eligible bins (R71). -/
theorem relist_cases {u : Bu} (hu : listsHoldEligible u) (b : Nat) (new : Bin) (c : Nat) (k : ZoneKind) :
    let eligible (x : Bin) : Prop := x.state = .opened ∧ 0 < x.free ∧ kindOf u.zones b = some k ∧ x.cls = c
    let before : List Nat := u.list (listKey c k)
    let after : List Nat := Map.getD [] (relist u.zones b (u.bin b) new u.avail) (listKey c k)
    (eligible (u.bin b) → eligible new → after = before) ∧
    (eligible (u.bin b) → ¬eligible new → after = before.erase b) ∧
    (¬eligible (u.bin b) → eligible new → after = before ++ [b]) ∧
    (¬eligible (u.bin b) → ¬eligible new → after = before) := by
  intro eligible before after
  by_cases hk : kindOf u.zones b = some k
  · have heligible : ∀ x : Bin, eligible x ↔ x.takesReservation = true ∧ x.cls = c := fun x => by
      simp only [eligible, hk, Bin.takesReservation_iff]
      tauto
    have hwas : ∀ d, b ∈ Map.getD [] u.avail (listKey d k) ↔ (u.bin b).takesReservation = true ∧ (u.bin b).cls = d := fun d => by
      refine ((hu d k).2 b).trans ?_
      rw [Bin.takesReservation_iff]
      tauto
    have hafter : after = _ := relist_of_kind hk new hwas c
    have herase : before.filter (fun x => x != b) = before.erase b := ((hu c k).1.erase_eq_filter b).symm
    have hsame : ¬((u.bin b).takesReservation = true ∧ (u.bin b).cls = c) →
        before.filter (fun x => x != b) = before := fun h => List.filter_bne_of_notMem (mt (hwas c).1 h)
    simp only [heligible]
    refine ⟨fun ho hn => ?_, fun ho hn => ?_, fun ho hn => ?_, fun ho hn => ?_⟩
    · rw [hafter, if_pos ⟨ho, hn⟩]
      rfl
    · rw [hafter, if_neg (fun h => hn h.2), if_neg hn, List.append_nil]
      exact herase
    · rw [hafter, if_neg (fun h => ho h.1), if_pos hn]
      exact congrArg (· ++ [b]) (hsame ho)
    · rw [hafter, if_neg (fun h => ho h.1), if_neg hn, List.append_nil]
      exact hsame ho
  · have hnone : ∀ x : Bin, ¬eligible x := fun x ⟨_, _, h, _⟩ => hk h
    have hsame : after = before := relist_of_kind_ne hk c _ _ _
    exact ⟨fun _ _ => hsame, fun h => absurd h (hnone _), fun _ h => absurd h (hnone _), fun _ _ => hsame⟩

/-! ## FREE and the kind of a bin (R65, R68) -/

theorem Bin.free_cases (b : Bin) :
    (b.occupied + b.reserved ≤ b.capacity → b.free + b.occupied + b.reserved = b.capacity) ∧
    (b.capacity < b.occupied + b.reserved → b.free = 0) := by
  unfold Bin.free
  omega

theorem Zone.covers_eq_false (z : Zone) (b : Nat) :
    (z.valid && decide (b ≤ z.last)) = false ↔ z.valid = false ∨ z.last < b := by
  simp only [Bool.and_eq_false_iff, decide_eq_false_iff_not, Nat.not_le]

theorem kindOf_eq_some (zones : List Zone) (b : Nat) (k : ZoneKind) :
    kindOf zones b = some k ↔ ∃ l z r, zones = l ++ z :: r ∧ z.valid = true ∧ b ≤ z.last ∧ z.kind = k ∧
      ∀ y ∈ l, y.valid = false ∨ y.last < b := by
  unfold kindOf
  simp only [Option.map_eq_some_iff, List.find?_eq_some_iff_append, Bool.not_eq_true', Zone.covers_eq_false,
    Bool.and_eq_true, decide_eq_true_eq]
  constructor
  · rintro ⟨z, ⟨⟨hv, hb⟩, l, r, hz, hl⟩, hk⟩
    exact ⟨l, z, r, hz, hv, hb, hk, hl⟩
  · rintro ⟨l, z, r, hz, hv, hb, hk, hl⟩
    exact ⟨z, ⟨⟨hv, hb⟩, l, r, hz, hl⟩, hk⟩

theorem kindOf_eq_none (zones : List Zone) (b : Nat) :
    kindOf zones b = none ↔ ∀ z ∈ zones, z.valid = false ∨ z.last < b := by
  unfold kindOf
  simp only [Option.map_eq_none_iff, List.find?_eq_none, Bool.not_eq_true, Zone.covers_eq_false]

/-! ## The image write queue (R79, R85) -/

theorem joinImages_eq (b : Nat) (l : List Nat) : joinImages b l = if b ∈ l then l else l ++ [b] := by
  simp only [joinImages, List.contains_iff_mem]

theorem mem_joinImages (b : Nat) (l : List Nat) : b ∈ joinImages b l := by
  rw [joinImages_eq]
  split
  next h => exact h
  next => exact List.mem_append_right l (List.mem_singleton_self b)

theorem joinImages_nodup {b : Nat} {l : List Nat} (h : l.Nodup) : (joinImages b l).Nodup := by
  rw [joinImages_eq]
  split
  next => exact h
  next hb => exact List.nodup_append.2 ⟨h, List.nodup_singleton b, fun x hx y hy hxy => hb (by
    rw [← List.mem_singleton.1 hy, ← hxy]; exact hx)⟩

theorem CuWork.noteIssued_of_waitImage (c : Nat) (seq : Word32) (n : Nat) (detail : Word32) (i : Bool) :
    (CuWork.waitImage seq n detail i).noteIssued c = .waitImage seq n detail (i || decide (n = c)) := rfl

theorem CuWork.noteIssued_of_other {w : CuWork} (h : ∀ seq n detail i, w ≠ .waitImage seq n detail i) (c : Nat) :
    w.noteIssued c = w := by
  cases w with
  | waitImage seq n detail i => exact absurd rfl (h seq n detail i)
  | _ => rfl

theorem State.changeBin_bu (b : Nat) (f : Bin → Bin) (s : State) :
    (s.changeBin b f).bu.bins = Map.put Bin.reset b (f (s.bu.bin b)) s.bu.bins ∧
    (s.changeBin b f).bu.zones = s.bu.zones ∧
    (s.changeBin b f).bu.avail = relist s.bu.zones b (s.bu.bin b) (f (s.bu.bin b)) s.bu.avail := by
  obtain ⟨bu, w, own, heq, hbins, hzones, havail, _⟩ := State.kickImages_spec { s with bu := s.bu.change b f }
  unfold State.changeBin
  rw [heq]
  exact ⟨hbins, hzones, havail⟩

theorem State.bin_changeBin (b : Nat) (f : Bin → Bin) (s : State) (c : Nat) :
    (s.changeBin b f).bu.bin c = if b = c then f (s.bu.bin b) else s.bu.bin c := by
  unfold Bu.bin
  rw [(s.changeBin_bu b f).1]
  exact Map.getD_put _ _ _ _ _

theorem listsHoldEligible_changeBin {s : State} (h : listsHoldEligible s.bu) (b : Nat) (f : Bin → Bin) :
    listsHoldEligible (s.changeBin b f).bu := by
  obtain ⟨hbins, hzones, havail⟩ := s.changeBin_bu b f
  have hchanged := listsHoldEligible_relist s.bu b (f (s.bu.bin b)) h
  simp only [listsHoldEligible, Bu.list, Bu.bin, hbins, hzones, havail] at hchanged ⊢
  exact hchanged

/-- The image of the changed bin joins the tail of the queue, and the head of the queue is issued when no write is in flight. -/
theorem State.changeBin_images (b : Nat) (f : Bin → Bin) (s : State) :
    (∃ w, s.bu.imageInFlight = some w ∧ (s.changeBin b f).bu.imageInFlight = some w ∧
      (s.changeBin b f).bu.imageQueue = joinImages b s.bu.imageQueue ∧
      (s.changeBin b f).ma = s.ma ∧ (s.changeBin b f).cu = s.cu) ∨
    ∃ c r, s.bu.imageInFlight = none ∧ joinImages b s.bu.imageQueue = c :: r ∧
      (s.changeBin b f).bu.imageQueue = r ∧
      (s.changeBin b f).bu.imageInFlight = some
        { bin := c, cells := cellsAt (s.cbBase + 4096 + 8 * c) (binImageBytes ((s.changeBin b f).bu.bin c)) } ∧
      (s.changeBin b f).ma = s.ma.ask .imageWrite ∧
      (s.changeBin b f).cu = { s.cu with work := s.cu.work.noteIssued c } := by
  cases hf : s.bu.imageInFlight with
  | some w =>
    rw [s.changeBin_behind b f w hf]
    exact .inl ⟨w, rfl, hf, rfl, rfl, rfl⟩
  | none =>
    obtain ⟨c, r, hq⟩ := List.exists_cons_of_ne_nil (List.ne_nil_of_mem (mem_joinImages b s.bu.imageQueue))
    rw [State.changeBin_idle b c r f s hf hq]
    exact .inr ⟨c, r, rfl, hq, rfl, rfl, rfl, rfl⟩

theorem State.changeBin_joins (b : Nat) (f : Bin → Bin) (s : State) :
    (b ∈ (s.changeBin b f).bu.imageQueue ∨
      ∃ w, (s.changeBin b f).bu.imageInFlight = some w ∧ w.bin = b ∧ s.bu.imageInFlight = none) ∧
    (s.bu.imageQueue.Nodup → (s.changeBin b f).bu.imageQueue.Nodup) := by
  rcases s.changeBin_images b f with ⟨w, _, _, hq, _⟩ | ⟨c, r, hnone, hq, hr, hw, _⟩
  · rw [hq]
    exact ⟨.inl (mem_joinImages _ _), joinImages_nodup⟩
  · have hb := mem_joinImages b s.bu.imageQueue
    rw [hq] at hb
    rw [hr]
    refine ⟨?_, fun h => (List.nodup_cons.1 (hq ▸ joinImages_nodup h)).2⟩
    rcases List.mem_cons.1 hb with hbc | hbr
    · exact .inr ⟨_, hw, hbc.symm, hnone⟩
    · exact .inl hbr

/-- Settles O46: the lists by the four cases of `relist`, the image write queue by whether a write is in flight. -/
theorem binChangesKeepTheLists : Obligations.BinChangesKeepTheLists := by
  refine ⟨Bin.free_cases, fun zones b => ⟨kindOf_eq_some zones b, kindOf_eq_none zones b⟩, fun b f s => ?_,
    fun b c l k s => ?_⟩
  · obtain ⟨hjoins, hnodup⟩ := s.changeBin_joins b f
    obtain ⟨_, hzones, havail⟩ := s.changeBin_bu b f
    obtain ⟨hlayout, hicu, hqu, hru, hgu, heu, hdram, hmode⟩ := s.changeBin_frame_units b f
    refine ⟨by rw [State.bin_changeBin, if_pos rfl], fun c hc => by rw [State.bin_changeBin, if_neg (Ne.symm hc)],
      hjoins, ?_, fun h => listsHoldEligible_changeBin h b f, fun h c k => ?_,
      hzones, hru, hqu, hicu, hgu, heu, hdram, hlayout, hmode, by simp, by simp, by simp, by simp⟩
    · rw [← joinImages_eq b s.bu.imageQueue]
      intro waits
      rcases s.changeBin_images b f with ⟨w, hw, hflight, hq, hma, hcu⟩ | ⟨c, r, hnone, hq, hr, hw, hma, hcu⟩
      · simp only [hw, reduceCtorEq, false_imp_iff, implies_true, true_and]
        refine ⟨fun v hv => ?_, fun _ _ => ⟨hma, hcu⟩, hnodup⟩
        rw [← hv]
        exact ⟨hflight, hq⟩
      · simp only [hnone, reduceCtorEq, false_imp_iff, implies_true, true_and]
        refine ⟨fun _ => ?_, fun d t _ hd => ?_, hnodup⟩
        · rw [hw, hr]
          exact hq.symm
        · obtain ⟨rfl, rfl⟩ := List.cons.inj (hq.symm.trans hd)
          refine ⟨hr, hw, hma, fun seq n detail i h => ?_, fun h => ?_⟩
          · rw [hcu, h, CuWork.noteIssued_of_waitImage]
          · rw [hcu, CuWork.noteIssued_of_other h]
    · have hcases := relist_cases h b (f (s.bu.bin b)) c k
      rw [← havail] at hcases
      exact hcases
  · obtain ⟨hempty, hhead⟩ := s.reserveBin_cases c k
    exact ⟨hempty, hhead b l, rfl, rfl, rfl⟩

end Sys2Proof.Machine
end

section
/-! A bin image write answered (R79, R85). -/

namespace Sys2Proof.Machine

/-- The control unit's note of the issue of the image that heads a queue, if one does (R79). -/
def CuWork.noteHead (w : CuWork) : List Nat → CuWork
  | [] => w
  | b :: _ => w.noteIssued b

theorem CuWork.noteHead_result (r : ResultWrite) (q : List Nat) : (CuWork.result r).noteHead q = .result r := by
  cases q <;> rfl

theorem CuWork.noteHead_waitImage (seq : Word32) (n : Nat) (detail : Word32) (i : Bool) (q : List Nat) :
    (CuWork.waitImage seq n detail i).noteHead q = .waitImage seq n detail (i || decide (q.head? = some n)) := by
  cases q with
  | nil => simp [CuWork.noteHead]
  | cons b r => simp [CuWork.noteHead, CuWork.noteIssued_of_waitImage, eq_comm]

theorem CuWork.noteHead_of_other {w : CuWork} (h : ∀ seq n detail i, w ≠ .waitImage seq n detail i) (q : List Nat) :
    w.noteHead q = w := by
  cases q with
  | nil => rfl
  | cons b r => exact CuWork.noteIssued_of_other h b

theorem State.cbBase_congr {t s : State} (h : t.cu.cbsel = s.cu.cbsel) : t.cbBase = s.cbBase := by
  unfold State.cbBase
  rw [h]

/-- The issue at the bin unit when no image write is in flight (R85). -/
theorem State.kickImages_eq {s : State} (h : s.bu.imageInFlight = none) {cb : Nat} (hcb : s.cbBase = cb) :
    s.kickImages = { s with
      bu := { s.bu with
        imageQueue := s.bu.imageQueue.tail
        imageInFlight := s.bu.imageQueue.head?.map (fun b =>
          { bin := b, cells := cellsAt (cb + 4096 + 8 * b) (binImageBytes (s.bu.bin b)) }) }
      cu := { s.cu with work := s.cu.work.noteHead s.bu.imageQueue }
      ma := if s.bu.imageQueue = [] then s.ma else s.ma.ask .imageWrite } := by
  obtain ⟨pA, pB, ia, fwd, ma, layout, gu, bu, ru, qu, icu, cu, eu, dram, pending⟩ := s
  obtain ⟨bins, zones, avail, queue, flight⟩ := bu
  subst h hcb
  cases queue <;> rfl

/-- What the answer of an image write changes at the control unit (R79). -/
theorem State.imageDone_spec (b : Nat) (s : State) : ∃ work ma,
    s.imageDone b = { s with cu := { s.cu with work := work }, ma := ma } ∧
    (∀ seq detail, s.cu.work = .waitImage seq b detail true →
      work = .result (report seq .ok detail) ∧ ma = s.ma.ask .result) ∧
    ((∀ seq detail, s.cu.work ≠ .waitImage seq b detail true) → work = s.cu.work ∧ ma = s.ma) := by
  by_cases hwaits : ∃ seq detail, s.cu.work = .waitImage seq b detail true
  · obtain ⟨seq, detail, hw⟩ := hwaits
    refine ⟨.result (report seq .ok detail), s.ma.ask .result, ?_, fun seq' detail' h => ?_, fun h => absurd hw (h _ _)⟩
    · simp [State.imageDone, hw, State.answerOp, State.startResult, report, ResultWrite.request]
    · rw [hw] at h
      cases h
      exact ⟨rfl, rfl⟩
  · have hother : ∀ seq detail, s.cu.work ≠ .waitImage seq b detail true := fun seq detail h => hwaits ⟨seq, detail, h⟩
    refine ⟨s.cu.work, s.ma, ?_, fun seq detail h => absurd h (hother _ _), fun _ => ⟨rfl, rfl⟩⟩
    unfold State.imageDone
    split
    next seq c detail issued hw =>
      refine if_neg fun hdone => ?_
      simp only [Bool.and_eq_true, beq_iff_eq] at hdone
      obtain ⟨rfl, rfl⟩ := hdone
      exact hother seq detail hw
    next => rfl

/-- The state with an image write answered, before the next one is issued. -/
def State.imageLanded (f : ImageWrite) (s : State) : State :=
  { s.ownWrite .imageWrite f.cells .ok with bu := { s.bu with imageInFlight := none } }

theorem exec_binImageWriteDone {s : State} {f : ImageWrite} (h : s.bu.imageInFlight = some f) :
    exec .binImageWriteDone s = .next ((s.imageLanded f).imageDone f.bin).kickImages := by
  refine congrArg Host.Outcome.next ?_
  simp only [h]
  rfl

/-- The state that a bin image write answered leaves (R79, R85). -/
theorem binImageWriteDone_spec {s : State} {f : ImageWrite} (h : s.bu.imageInFlight = some f) : ∃ work ma,
    exec .binImageWriteDone s = .next { s.imageLanded f with
      bu := { s.bu with
        imageQueue := s.bu.imageQueue.tail
        imageInFlight := s.bu.imageQueue.head?.map (fun b =>
          { bin := b, cells := cellsAt (s.cbBase + 4096 + 8 * b) (binImageBytes (s.bu.bin b)) }) }
      cu := { s.cu with work := work.noteHead s.bu.imageQueue }
      ma := if s.bu.imageQueue = [] then ma else ma.ask .imageWrite } ∧
    (∀ seq detail, s.cu.work = .waitImage seq f.bin detail true →
      work = .result (report seq .ok detail) ∧ ma = (s.ownWrite .imageWrite f.cells .ok).ma.ask .result) ∧
    ((∀ seq detail, s.cu.work ≠ .waitImage seq f.bin detail true) →
      work = s.cu.work ∧ ma = (s.ownWrite .imageWrite f.cells .ok).ma) := by
  obtain ⟨work, ma, heq, hspec⟩ := (s.imageLanded f).imageDone_spec f.bin
  refine ⟨work, ma, ?_, hspec⟩
  rw [exec_binImageWriteDone h, heq, State.kickImages_eq (cb := s.cbBase)]
  · rfl
  · rfl
  · exact State.cbBase_congr rfl

/-- Settles O47: the memory arbiter and the control unit by what the bin operation waits for. -/
theorem imageWritesGoInOrder : Obligations.ImageWritesGoInOrder := by
  refine ⟨fun _ => rfl, rfl, fun s f hf => ?_⟩
  obtain ⟨work, ma, hexec, hwaits, hother⟩ := binImageWriteDone_spec hf
  refine ⟨_, hexec, rfl, ?_, rfl, rfl, rfl, fun hq => ?_, fun b r hq => ?_, fun seq detail hw => ?_,
    fun seq b detail hw hb => ?_, fun seq b detail hw => ?_, fun hw => ?_, rfl, rfl, rfl, rfl, rfl, rfl, rfl, rfl, rfl, rfl, rfl⟩
  · have hma : ma = if ∃ seq detail, s.cu.work = .waitImage seq f.bin detail true
        then (s.ownWrite .imageWrite f.cells .ok).ma.ask .result else (s.ownWrite .imageWrite f.cells .ok).ma := by
      split
      next h =>
        obtain ⟨seq, detail, hw⟩ := h
        exact (hwaits seq detail hw).2
      next h => exact (hother fun seq detail hw => h ⟨seq, detail, hw⟩).2
    rw [hma]
  · rw [hq]
    exact ⟨rfl, rfl⟩
  · rw [hq]
    exact ⟨rfl, rfl⟩
  · rw [(hwaits seq detail hw).1]
    exact CuWork.noteHead_result _ _
  · have hwork : work = s.cu.work := (hother fun seq' detail' h => by
      rw [hw, CuWork.waitImage.injEq] at h
      exact hb h.2.1).1
    rw [hwork, hw]
    exact CuWork.noteHead_waitImage _ _ _ _ _
  · have hwork : work = s.cu.work := (hother fun seq' detail' h => by
      rw [hw] at h
      cases h).1
    rw [hwork, hw]
    exact CuWork.noteHead_waitImage _ _ _ _ _
  · have hwork : work = s.cu.work := (hother fun seq' detail' => hw _ _ _ _).1
    show ({ s.cu with work := work.noteHead s.bu.imageQueue } : Cu) = s.cu
    rw [hwork, CuWork.noteHead_of_other hw]

end Sys2Proof.Machine
end

section
/-! The claims on the reservation table (R92, R95, R96, R99). -/

namespace Sys2Proof.Machine

theorem SlotId.bne_eq_decide (i j : SlotId) : (i != j) = decide (i ≠ j) := by
  simp only [bne, ne_eq, decide_not]
  rfl

theorem Ru.remove_eq (id : SlotId) (u : Ru) : u.remove id = { u with
    table := u.table.filter (fun r => decide (r.id ≠ id)), deadlines := u.deadlines.filter (fun j => decide (j ≠ id)) } := by
  simp only [Ru.remove, SlotId.bne_eq_decide]

/-! ## Looking up a slot (R88) -/

theorem Ru.id_of_find? {u : Ru} {id : SlotId} {r : Reservation} (h : u.find? id = some r) : r.id = id := by
  have hid : (r.id == id) = true := List.find?_some (p := fun x : Reservation => x.id == id) h
  exact eq_of_beq hid

theorem Ru.find?_remove_self (id : SlotId) (u : Ru) : (u.remove id).find? id = none := find_filter_self u.table id

theorem Ru.find?_remove_of_ne {id j : SlotId} (h : j ≠ id) (u : Ru) : (u.remove id).find? j = u.find? j :=
  find_filter_ne u.table id j h

theorem Ru.notMem_deadlines_remove (id : SlotId) (u : Ru) : id ∉ (u.remove id).deadlines := by
  simp [Ru.remove]

theorem Ru.find?_add_self {u : Ru} {id : SlotId} (h : u.find? id = none) (b : Nat) (q : Fin 6) (t : Word32) :
    (u.add id b q t).find? id = some { id := id, bin := b, queue := q, ticket := t, state := .queued } := by
  unfold Ru.find? at h
  simp only [Ru.add, Ru.find?, List.find?_append, h, Option.none_or, List.find?_singleton, beq_self_eq_true, if_true]

theorem Ru.find?_add_of_ne {id j : SlotId} (h : j ≠ id) (u : Ru) (b : Nat) (q : Fin 6) (t : Word32) :
    (u.add id b q t).find? j = u.find? j := by
  have hid : (id == j) = false := beq_eq_false_iff_ne.2 h.symm
  simp only [Ru.add, Ru.find?, List.find?_append, List.find?_singleton, hid, Bool.false_eq_true, if_false, Option.or_none]

theorem Ru.find?_remove_cases (id j : SlotId) (u : Ru) :
    (u.remove id).find? j = if j = id then none else u.find? j := by
  split
  next h => rw [h, Ru.find?_remove_self]
  next h => exact Ru.find?_remove_of_ne h u

/-! ## Cancel and create (R95, R96) -/

theorem State.cancelResv_of_none {s : State} {id : SlotId} (h : s.ru.find? id = none) : s.cancelResv id = s := by
  unfold State.cancelResv
  rw [h]

theorem State.cancelResv_of_some {s : State} {id : SlotId} {r : Reservation} (h : s.ru.find? id = some r) :
    s.cancelResv id = ({ s with ru := s.ru.remove id }).releaseBin r.bin := by
  unfold State.cancelResv
  rw [h]
  rfl

theorem State.ru_releaseBin (b : Nat) (s : State) : (s.releaseBin b).ru = s.ru := by
  obtain ⟨_, _, _, hru, _⟩ := s.changeBin_frame_units b (fun x => { x with reserved := x.reserved - 1 })
  exact hru

theorem State.find?_cancelResv (id j : SlotId) (s : State) :
    (s.cancelResv id).ru.find? j = if j = id then none else s.ru.find? j := by
  cases h : s.ru.find? id with
  | none =>
    rw [State.cancelResv_of_none h]
    split
    next hj => rw [hj, h]
    next => rfl
  | some r =>
    rw [State.cancelResv_of_some h, State.ru_releaseBin]
    exact Ru.find?_remove_cases id j s.ru

theorem State.createResv_of_none {s : State} {id : SlotId} (h : s.ru.find? id = none) (b : Nat) (q : Fin 6) (t : Word32) :
    s.createResv id b q t = { s with ru := { s.ru with
      table := s.ru.table ++ [{ id := id, bin := b, queue := q, ticket := t, state := .queued }] } } := by
  unfold State.createResv
  rw [State.cancelResv_of_none h]
  rfl

/-- An older reservation of the slot leaves the table and the deadline list, whose other members keep their order (R95). -/
theorem State.createResv_of_some {s : State} {id : SlotId} {r : Reservation} (h : s.ru.find? id = some r) (b : Nat) (q : Fin 6)
    (t : Word32) :
    s.createResv id b q t = { ({ s with ru := s.ru.remove id }).releaseBin r.bin with ru := { s.ru with
      table := s.ru.table.filter (fun r => decide (r.id ≠ id))
        ++ [{ id := id, bin := b, queue := q, ticket := t, state := .queued }]
      deadlines := s.ru.deadlines.filter (fun j => decide (j ≠ id)) } } := by
  unfold State.createResv
  dsimp only
  rw [State.cancelResv_of_some h, State.ru_releaseBin, Ru.remove_eq]
  rfl

/-! ## Take notice (R92, R99) -/

theorem insertDeadline_split (f : SlotId → Nat) (id : SlotId) (d : Nat) (l : List SlotId)
    (h : l.Pairwise (fun i j => f i ≤ f j)) :
    ∃ before after, l = before ++ after ∧ insertDeadline f id d l = before ++ id :: after ∧
      (∀ j ∈ before, f j ≤ d) ∧ ∀ j ∈ after, d < f j := by
  induction l with
  | nil => exact ⟨[], [], rfl, rfl, by simp, by simp⟩
  | cons i r ih =>
    obtain ⟨hi, hr⟩ := List.pairwise_cons.1 h
    unfold insertDeadline
    by_cases hle : f i ≤ d
    · obtain ⟨before, after, hsplit, hins, hbefore, hafter⟩ := ih hr
      refine ⟨i :: before, after, by rw [hsplit]; rfl, by rw [if_pos hle, hins]; rfl, ?_, hafter⟩
      exact List.forall_mem_cons.2 ⟨hle, hbefore⟩
    · refine ⟨[], i :: r, rfl, by rw [if_neg hle]; rfl, by simp, ?_⟩
      exact List.forall_mem_cons.2 ⟨by omega, fun j hj => lt_of_lt_of_le (by omega) (hi j hj)⟩

/-- A QUEUED reservation with the notice's queue and ticket becomes TAKEN (R99). -/
theorem Ru.takeNotice_of_match {u : Ru} {id : SlotId} {r : Reservation} (hr : u.find? id = some r) (hs : r.state = .queued) :
    (u.takeNotice id r.queue r.ticket).find? id = some { r with state := .taken (u.now + u.setting) } ∧
    (u.takeNotice id r.queue r.ticket).deadlines = insertDeadline u.deadlineOf id (u.now + u.setting) u.deadlines ∧
    ∀ j, j ≠ id → (u.takeNotice id r.queue r.ticket).find? j = u.find? j := by
  have heq : u.takeNotice id r.queue r.ticket = { u with
      table := u.table.map (fun x => if x.id = id then { x with state := .taken (u.now + u.setting) } else x)
      deadlines := insertDeadline u.deadlineOf id (u.now + u.setting) u.deadlines } := by
    unfold Ru.takeNotice
    simp only [hr, hs, and_self, if_true]
  have hfind : ∀ j, (u.takeNotice id r.queue r.ticket).find? j
      = (u.find? j).map (fun x => if x.id = id then { x with state := .taken (u.now + u.setting) } else x) := fun j => by
    rw [heq]
    refine find_map_same_id _ _ _ fun x => ?_
    split <;> rfl
  refine ⟨?_, by rw [heq], fun j hj => ?_⟩
  · rw [hfind, hr, Option.map_some, if_pos (Ru.id_of_find? hr)]
  · rw [hfind]
    cases hx : u.find? j with
    | none => rfl
    | some x => rw [Option.map_some, if_neg (by rw [Ru.id_of_find? hx]; exact hj)]

theorem Ru.takeNotice_of_mismatch {u : Ru} {id : SlotId} {q : Fin 6} {t : Word32}
    (h : ∀ r, u.find? id = some r → r.state ≠ .queued ∨ r.queue ≠ q ∨ r.ticket ≠ t) : u.takeNotice id q t = u := by
  unfold Ru.takeNotice
  split
  next r hr =>
    refine if_neg fun ⟨hs, hq, ht⟩ => ?_
    rcases h r hr with hn | hn | hn
    · exact hn hs
    · exact hn hq
    · exact hn ht
  next => rfl

/-- Settles O48: the claims by whether the table holds the slot, the deadline list by induction on it. -/
theorem reservationClaims : Obligations.ReservationClaims := by
  intro id b q t s
  refine ⟨State.cancelResv_of_none, fun r hr => ?_, ?_, fun j hj => ?_, Ru.remove_eq id s.ru, fun r hr => ?_,
    fun h => State.createResv_of_none h b q t, fun r hr hs hq ht => ?_, Ru.takeNotice_of_mismatch,
    fun f d l hl => insertDeadline_split f id d l hl⟩
  · exact ⟨State.cancelResv_of_some hr, Ru.find?_remove_self _ _, Ru.notMem_deadlines_remove _ _,
      fun j hj => Ru.find?_remove_of_ne hj _⟩
  · exact Ru.find?_add_self (by rw [State.find?_cancelResv, if_pos rfl]) b q t
  · refine (Ru.find?_add_of_ne hj _ b q t).trans ?_
    rw [State.find?_cancelResv, if_neg hj]
  · exact State.createResv_of_some hr b q t
  · rw [← hq, ← ht]
    exact Ru.takeNotice_of_match hr hs

end Sys2Proof.Machine
end

section
/-! The tick and the expiry pass (R91, R100, R101). -/

namespace Sys2Proof.Machine

theorem Ru.due?_cons {u : Ru} {id : SlotId} {l : List SlotId} {r : Reservation} (hl : u.deadlines = id :: l)
    (hr : u.find? id = some r) : u.due? = if u.deadlineOf id ≤ u.now then some r else none := by
  unfold Ru.due?
  rw [hl]
  simp only [hr]

theorem State.lookPass_pass (s : State) : s.lookPass.ru.pass = true ↔
    s.places < 24 ∧ ∃ id l r, s.ru.deadlines = id :: l ∧ s.ru.find? id = some r ∧ s.ru.deadlineOf id ≤ s.ru.now := by
  have hpass : s.lookPass.ru.pass = (s.ru.due?.isSome && decide (s.places < 24)) := rfl
  rw [hpass, Bool.and_eq_true, Ru.due_iff, decide_eq_true_eq, and_comm]

theorem State.lookPass_ends {s : State} (h : s.lookPass.ru.pass = false) :
    s.lookPass = { s with ru := { s.ru with pass := false } } := by
  rw [← h]
  rfl

theorem exec_tick (s : State) : exec .tick s = .next ({ s with ru := s.ru.advance }).lookPass := rfl

theorem exec_expiry {s : State} (h : s.ru.pass = true) : exec .expiry s = .next (match s.ru.due? with
    | some r => if s.lookPass.ru.pass then (s.lookPass.expire r).lookPass else s.lookPass
    | none => s.lookPass) := by
  show Host.Outcome.next (if s.ru.pass = true then _ else s) = _
  rw [if_pos h]
  rfl

theorem State.pass_self {s : State} {p : Bool} (h : s.ru.pass = p) : { s with ru := { s.ru with pass := p } } = s := by
  subst h
  rfl

theorem State.places_releaseBin (b : Nat) (s : State) : (s.releaseBin b).places = s.places :=
  (State.places_of_same (State.sameCommands_of_units (State.changeBin_units _ _ s))).1

theorem State.places_raise (k : EventKind) (s : State) : (s.raise k).places = s.places := rfl

/-- An expiry with the head due and a place of CQ free (R100, R101). -/
theorem expiry_of_due {s : State} {id : SlotId} {l : List SlotId} {r : Reservation} (hp : s.ru.pass = true)
    (hl : s.ru.deadlines = id :: l) (hr : s.ru.find? id = some r) (hdue : s.ru.deadlineOf id ≤ s.ru.now)
    (hroom : s.places < 24) : exec .expiry s = .next (s.expire r).lookPass := by
  have hpass : s.lookPass.ru.pass = true := s.lookPass_pass.2 ⟨hroom, id, l, r, hl, hr, hdue⟩
  have hlook : s.lookPass = s := by
    refine Eq.trans ?_ (State.pass_self hp)
    rw [← hpass]
    rfl
  rw [exec_expiry hp, Ru.due?_cons hl hr, if_pos hdue]
  simp only [hpass, if_true]
  rw [hlook]

theorem expiry_of_end {s : State} (hp : s.ru.pass = true) (h : s.lookPass.ru.pass = false) :
    exec .expiry s = .next { s with ru := { s.ru with pass := false } } := by
  rw [exec_expiry hp, ← State.lookPass_ends h]
  simp only [h, Bool.false_eq_true, if_false]
  split <;> rfl

/-- Settles O49: the tick by NOW at its largest value or below, the expiry by whether the pass goes on. -/
theorem ticksAndExpiries : Obligations.TicksAndExpiries := by
  refine ⟨fun s => ⟨_, exec_tick s, rfl, fun h => ?_, fun h => ?_, State.lookPass_pass _⟩, fun s hp =>
    ⟨fun id l r hl hr hdue hroom => ⟨_, ?_, rfl, ?_⟩, fun hend => expiry_of_end hp ?_⟩⟩
  · show min (s.ru.now + 1) 4294967295 = s.ru.now + 1
    omega
  · show min (s.ru.now + 1) 4294967295 = 4294967295
    omega
  · rw [expiry_of_due hp hl hr hdue hroom]
    unfold State.expire
    rw [Ru.id_of_find? hr]
    rfl
  · obtain ⟨_, _, hplaces, _⟩ := State.joinCq_places (.expiry id r.ticket) (({ s with ru := s.ru.remove id }).releaseBin r.bin)
    rw [State.places_raise, hplaces, State.places_releaseBin]
    rfl
  · refine Bool.eq_false_iff.2 fun hpass => ?_
    obtain ⟨hroom, id, l, r, hl, hr, hdue⟩ := s.lookPass_pass.1 hpass
    rcases hend with hfull | hnil | ⟨id', l', hl', hno⟩
    · omega
    · rw [hl] at hnil
      cases hnil
    · rw [hl] at hl'
      obtain ⟨rfl, rfl⟩ := List.cons.inj hl'
      rcases hno with hnone | hlate
      · rw [hr] at hnone
        cases hnone
      · omega

end Sys2Proof.Machine
end

section
/-! The operations of the mailbox but for RELOAD and the starts: not carried out, mode, bias, bins (R35, R36, R79 to R84, R147,
R148, R151, R152, R158). -/

namespace Sys2Proof.Machine

/-! ## The modes that have an operation (R148) -/

theorem opAvailable_start (m : Mode) : ∀ op ∈ [1, 2], opAvailable op m = decide (m = .init) := by
  cases m <;> decide

theorem opAvailable_running (m : Mode) :
    ∀ op ∈ [3, 6, 7, 8, 9, 10, 11, 12], opAvailable op m = decide (m = .run ∨ m = .frozen) := by
  cases m <;> decide

theorem opAvailable_freeze (m : Mode) : opAvailable 4 m = decide (m = .run) := by
  cases m <;> decide

theorem opAvailable_thaw (m : Mode) : opAvailable 5 m = decide (m = .frozen) := by
  cases m <;> decide

theorem opAvailable_clearHalt (m : Mode) : opAvailable 13 m = decide (m = .halted) := by
  cases m <;> decide

theorem State.onOperation_of_unavailable {op : Nat} (f : Mailbox → State → State) {s : State} (h : s.atOperation op)
    (ha : opAvailable op s.cu.mode = false) : s.onOperation op f = s.mailboxFetched.answers (report s.mailbox.seq .notNow 0) := by
  unfold State.onOperation
  rw [if_pos (show s.cu.work = .reading ∧ s.mailbox.op = op from h), ha]
  rfl

theorem State.readingOperation_of_unavailable {use : TableUse} {op : Nat} (reads : Nat) (fault : Option ReadSite) {s : State}
    (h : s.atOperation op) (ha : opAvailable op s.cu.mode = false) :
    s.readingOperation use op reads fault = s.mailboxFetched.answers (report s.mailbox.seq .notNow 0) := by
  have hreads : s.cu.work.readsFor use = false := by
    rw [h.1]
    rfl
  unfold State.readingOperation
  rw [if_neg (by rw [hreads]; exact Bool.false_ne_true)]
  exact State.onOperation_of_unavailable _ h ha

theorem exec_startRestore_of_unavailable (n : Nat) (fault : Option ReadSite) {s : State} (h : s.atOperation 2)
    (ha : opAvailable 2 s.cu.mode = false) :
    exec (.startRestore ⟨n, fault⟩) s = .next (s.mailboxFetched.answers (report s.mailbox.seq .notNow 0)) := by
  refine congrArg Host.Outcome.next ?_
  rw [if_neg (by rw [h.1]; exact CuWork.noConfusion)]
  exact State.readingOperation_of_unavailable _ _ h ha

/-- Settles O51: by the modes that have each operation. -/
theorem operationsNotCarriedOut : Obligations.OperationsNotCarriedOut := by
  refine ⟨fun _ _ => rfl, fun s => ⟨rfl, rfl⟩, fun s hw => ⟨?_, fun hop => ?_, ?_⟩⟩
  · exact congrArg Host.Outcome.next (if_pos hw)
  · exact congrArg Host.Outcome.next (if_pos ⟨hw, hop⟩)
  · have refused : ∀ {op : Nat} (f : Mailbox → State → State), opAvailable op s.cu.mode = false → s.mailbox.op = op →
        Host.Outcome.next (s.onOperation op f)
          = (Host.Outcome.next (s.mailboxFetched.answers (report s.mailbox.seq .notNow 0)) : Host.Outcome State Fault Refusal) :=
      fun f ha hop => congrArg Host.Outcome.next (State.onOperation_of_unavailable f ⟨hw, hop⟩ ha)
    refine ⟨fun n f hm => ?_, fun n f hrun hfrozen => ?_, fun hm => ?_, fun hm => ?_, fun hm => ?_⟩
    · have ha : ∀ op ∈ [1, 2], opAvailable op s.cu.mode = false := fun op hop =>
        (opAvailable_start s.cu.mode op hop).trans (decide_eq_false hm)
      exact ⟨fun hop => congrArg Host.Outcome.next (State.readingOperation_of_unavailable n f ⟨hw, hop⟩ (ha 1 (by decide))),
        fun hop => exec_startRestore_of_unavailable n f ⟨hw, hop⟩ (ha 2 (by decide))⟩
    · have ha : ∀ op ∈ [3, 6, 7, 8, 9, 10, 11, 12], opAvailable op s.cu.mode = false := fun op hop =>
        (opAvailable_running s.cu.mode op hop).trans (decide_eq_false (fun h => h.elim hrun hfrozen))
      exact ⟨fun hop => congrArg Host.Outcome.next (State.readingOperation_of_unavailable n f ⟨hw, hop⟩ (ha 3 (by decide))),
        refused _ (ha 6 (by decide)), refused _ (ha 7 (by decide)), refused _ (ha 8 (by decide)), refused _ (ha 9 (by decide)),
        refused _ (ha 10 (by decide)), refused _ (ha 11 (by decide)), refused _ (ha 12 (by decide))⟩
    · exact refused _ ((opAvailable_freeze _).trans (decide_eq_false hm))
    · exact refused _ ((opAvailable_thaw _).trans (decide_eq_false hm))
    · exact refused _ ((opAvailable_clearHalt _).trans (decide_eq_false hm))

/-! ## SET_BIAS and NUDGE (R35, R36) -/

theorem State.setBias_cases (mb : Mailbox) (s : State) :
    ((15 < mb.arg0 ∨ mb.arg1.toInt < -32 ∨ 31 < mb.arg1.toInt) → s.setBias mb = s.answers (report mb.seq .badArg 0)) ∧
    (mb.arg0 ≤ 15 → -32 ≤ mb.arg1.toInt → mb.arg1.toInt ≤ 31 → s.setBias mb = s.writeBias mb mb.arg1.toInt) := by
  unfold State.setBias
  exact ⟨fun h => if_pos h, fun _ _ _ => if_neg (by omega)⟩

theorem State.nudge_of_badArg {mb : Mailbox} (h : 15 < mb.arg0 ∨ (mb.arg1 ≠ 1 ∧ mb.arg1 ≠ 2)) (s : State) :
    s.nudge mb = s.answers (report mb.seq .badArg 0) := by
  unfold State.nudge
  exact if_pos h

/-- An accepted NUDGE: the bias it would set is beyond the limits, or is set (R36). -/
theorem State.nudge_of_accepted {mb : Mailbox} (h0 : mb.arg0 ≤ 15) (h1 : mb.arg1 = 1 ∨ mb.arg1 = 2) (s : State) {new : Int}
    (hnew : new = if mb.arg1 = 1 then s.gu.biasOf mb.arg0 + 1 else s.gu.biasOf mb.arg0 - 1) :
    ((new < -32 ∨ 31 < new) →
      s.nudge mb = s.answers (report mb.seq .saturated (BitVec.ofInt 32 (s.gu.biasOf mb.arg0)))) ∧
    (-32 ≤ new → new ≤ 31 → s.nudge mb = s.writeBias mb new) := by
  have hok : ¬(15 < mb.arg0 ∨ (mb.arg1 ≠ 1 ∧ mb.arg1 ≠ 2)) := by
    rintro (h | ⟨hn1, hn2⟩)
    · omega
    · exact h1.elim hn1 hn2
  unfold State.nudge
  rw [if_neg hok]
  dsimp only
  rw [← hnew]
  exact ⟨fun h => if_pos h, fun _ _ => if_neg (by omega)⟩

theorem State.nudge_up {mb : Mailbox} (h0 : mb.arg0 ≤ 15) (h1 : mb.arg1 = 1) (s : State) :
    (31 ≤ s.gu.biasOf mb.arg0 →
      s.nudge mb = s.answers (report mb.seq .saturated (BitVec.ofInt 32 (s.gu.biasOf mb.arg0)))) ∧
    (-32 ≤ s.gu.biasOf mb.arg0 → s.gu.biasOf mb.arg0 < 31 → s.nudge mb = s.writeBias mb (s.gu.biasOf mb.arg0 + 1)) := by
  obtain ⟨hsat, hset⟩ := State.nudge_of_accepted h0 (.inl h1) s (if_pos h1).symm
  exact ⟨fun h => hsat (by omega), fun _ _ => hset (by omega) (by omega)⟩

theorem State.nudge_down {mb : Mailbox} (h0 : mb.arg0 ≤ 15) (h1 : mb.arg1 = 2) (s : State) :
    (s.gu.biasOf mb.arg0 ≤ -32 →
      s.nudge mb = s.answers (report mb.seq .saturated (BitVec.ofInt 32 (s.gu.biasOf mb.arg0)))) ∧
    (-32 < s.gu.biasOf mb.arg0 → s.gu.biasOf mb.arg0 ≤ 31 → s.nudge mb = s.writeBias mb (s.gu.biasOf mb.arg0 - 1)) := by
  obtain ⟨hsat, hset⟩ := State.nudge_of_accepted h0 (.inr h1) s (if_neg (by rw [h1]; decide)).symm
  exact ⟨fun h => hsat (by omega), fun _ _ => hset (by omega) (by omega)⟩

/-- An available operation of a code is its rule at the mailbox block. -/
theorem exec_onOperation {op : Nat} {s : State} (h : s.atOperation op) (ha : opAvailable op s.cu.mode = true)
    {f : Mailbox → State → State} {t : State} (hf : f s.mailbox s.mailboxFetched = t) :
    (Host.Outcome.next (s.onOperation op f) : Host.Outcome State Fault Refusal) = .next t := by
  rw [State.onOperation_of_available op f s h ha, hf]

theorem opAvailable_of_running {m : Mode} (h : m = .run ∨ m = .frozen) :
    ∀ op ∈ [3, 6, 7, 8, 9, 10, 11, 12], opAvailable op m = true :=
  fun op hop => (opAvailable_running m op hop).trans (decide_eq_true h)

/-- Settles O52: by the arguments of the operation. -/
theorem modeAndBiasOperations : Obligations.ModeAndBiasOperations := by
  refine ⟨fun s => ⟨fun ho hm => ?_, fun ho hm => ?_, fun ho hm => ?_⟩, fun s hm => ?_⟩
  · exact exec_onOperation ho ((opAvailable_freeze _).trans (decide_eq_true hm)) rfl
  · exact exec_onOperation ho ((opAvailable_thaw _).trans (decide_eq_true hm)) rfl
  · exact exec_onOperation ho ((opAvailable_clearHalt _).trans (decide_eq_true hm)) rfl
  · have ha := opAvailable_of_running hm
    refine ⟨fun ho => ?_, fun ho => ?_⟩
    · obtain ⟨hbad, hset⟩ := s.mailboxFetched.setBias_cases s.mailbox
      exact ⟨fun h => exec_onOperation ho (ha 6 (by decide)) (hbad h),
        fun h0 hlow hhigh => exec_onOperation ho (ha 6 (by decide)) (hset h0 hlow hhigh)⟩
    · have hup := fun h0 h1 => State.nudge_up (mb := s.mailbox) h0 h1 s.mailboxFetched
      have hdown := fun h0 h1 => State.nudge_down (mb := s.mailbox) h0 h1 s.mailboxFetched
      exact ⟨fun h => exec_onOperation ho (ha 7 (by decide)) (State.nudge_of_badArg h _),
        fun h0 h1 h => exec_onOperation ho (ha 7 (by decide)) ((hup h0 h1).1 h),
        fun h0 h1 h => exec_onOperation ho (ha 7 (by decide)) ((hdown h0 h1).1 h),
        fun h0 h1 hlow hhigh => exec_onOperation ho (ha 7 (by decide)) ((hup h0 h1).2 hlow hhigh),
        fun h0 h1 hlow hhigh => exec_onOperation ho (ha 7 (by decide)) ((hdown h0 h1).2 hlow hhigh)⟩

/-! ## The bin operations (R79 to R84) -/

theorem State.binOperation_of_noBin (verdict : Mailbox → Bin → BinVerdict) {mb : Mailbox} (h : 2047 < mb.arg0) (s : State) :
    s.binOperation verdict mb = s.answers (report mb.seq .badArg 0) := by
  unfold State.binOperation
  exact if_pos h

theorem State.binOperation_of_badArg {verdict : Mailbox → Bin → BinVerdict} {mb : Mailbox} {s : State}
    (h : verdict mb (s.bu.bin mb.arg0) = .badArg) : s.binOperation verdict mb = s.answers (report mb.seq .badArg 0) := by
  unfold State.binOperation
  dsimp only
  rw [h]
  exact ite_self _

/-- What the verdict on an existing bin comes to (R79). -/
theorem State.binOperation_of_bin (verdict : Mailbox → Bin → BinVerdict) {mb : Mailbox} (h : mb.arg0 ≤ 2047) (s : State) :
    (verdict mb (s.bu.bin mb.arg0) = .busy → s.binOperation verdict mb = s.answers
      (report mb.seq .binBusy (BitVec.ofNat 32 ((s.bu.bin mb.arg0).occupied + (s.bu.bin mb.arg0).reserved)))) ∧
    ∀ new, verdict mb (s.bu.bin mb.arg0) = .change new → s.binOperation verdict mb
      = ({ s with cu := { s.cu with
          work := .waitImage mb.seq mb.arg0 (BitVec.ofNat 32 new.free) false } }).changeBin mb.arg0 (fun _ => new) := by
  have hbin : ¬Config.bins ≤ mb.arg0 := Nat.not_le.2 (Nat.lt_succ_of_le h)
  unfold State.binOperation
  rw [if_neg hbin]
  refine ⟨fun hv => ?_, fun new hv => ?_⟩ <;> dsimp only <;> rw [hv]
  rfl

theorem binSetVerdict_cases (mb : Mailbox) (b : Bin) :
    ((255 < mb.arg1.toNat % 65536 ∨ 31 < mb.arg1.toNat / 65536) → binSetVerdict mb b = .badArg) ∧
    (mb.arg1.toNat % 65536 ≤ 255 → mb.arg1.toNat / 65536 ≤ 31 →
      (mb.arg1.toNat / 65536 ≠ b.cls → 0 < b.occupied + b.reserved → binSetVerdict mb b = .busy) ∧
      ((mb.arg1.toNat / 65536 = b.cls ∨ b.occupied + b.reserved = 0) → binSetVerdict mb b = .change { b with
        cls := mb.arg1.toNat / 65536, capacity := mb.arg1.toNat % 65536
        state := if b.state = .full ∨ b.state = .retired then .opened else b.state })) := by
  unfold binSetVerdict
  dsimp only [Config.binCapMax, Config.classes]
  refine ⟨fun h => if_pos (by omega), fun hcap hcls => ?_⟩
  rw [if_neg (by omega)]
  exact ⟨fun hne hpos => if_pos ⟨hne, hpos⟩, fun h => if_neg (by omega)⟩

/-- Settles O53: by the verdict of each operation on the bin. -/
theorem binOperations : Obligations.BinOperations := by
  intro s hm mb b badArg busy changed cap cls
  have ha := opAvailable_of_running hm
  have noBin : ∀ verdict, 2047 < mb.arg0 → s.mailboxFetched.binOperation verdict mb = _ :=
    fun verdict h => State.binOperation_of_noBin verdict h s.mailboxFetched
  have onBad : ∀ verdict, verdict mb b = .badArg → s.mailboxFetched.binOperation verdict mb = _ :=
    fun verdict h => State.binOperation_of_badArg (s := s.mailboxFetched) h
  have onBin := fun verdict (h : mb.arg0 ≤ 2047) => State.binOperation_of_bin verdict h s.mailboxFetched
  refine ⟨fun ho => ?_, fun ho => ?_, fun ho => ?_, fun ho => ?_, fun ho => ?_⟩
  · obtain ⟨hbad, hset⟩ := binSetVerdict_cases mb b
    have h8 := fun t => exec_onOperation (t := t) ho (ha 8 (by decide)) (f := State.binOperation binSetVerdict)
    refine ⟨fun h => h8 _ ?_, fun hbin hcap hcls => ⟨fun hne hpos => h8 _ ?_, fun h => h8 _ ?_⟩⟩
    · exact h.elim (noBin _) (fun h => onBad _ (hbad h))
    · exact (onBin _ hbin).1 ((hset hcap hcls).1 hne hpos)
    · exact (onBin _ hbin).2 _ ((hset hcap hcls).2 h)
  · have h9 := fun t => exec_onOperation (t := t) ho (ha 9 (by decide)) (f := State.binOperation binLockVerdict)
    exact ⟨fun h => h9 _ (h.elim (noBin _) (fun h => onBad _ (if_pos h))),
      fun hbin h => h9 _ ((onBin _ hbin).2 _ (if_neg h))⟩
  · have h10 := fun t => exec_onOperation (t := t) ho (ha 10 (by decide)) (f := State.binOperation binUnlockVerdict)
    exact ⟨fun h => h10 _ (h.elim (noBin _) (fun h => onBad _ (if_pos h))),
      fun hbin h => h10 _ ((onBin _ hbin).2 _ (if_neg h))⟩
  · have h11 := fun t => exec_onOperation (t := t) ho (ha 11 (by decide)) (f := State.binOperation binRetireVerdict)
    exact ⟨fun h => h11 _ (noBin _ h), fun hbin h => h11 _ ((onBin _ hbin).1 (if_pos h)),
      fun hbin hocc hres => h11 _ ((onBin _ hbin).2 _ (if_neg (show ¬0 < b.occupied + b.reserved by omega)))⟩
  · have h12 := fun t => exec_onOperation (t := t) ho (ha 12 (by decide)) (f := State.binOperation binPickedVerdict)
    exact ⟨fun h => h12 _ (h.elim (noBin _) (fun h => onBad _ (if_pos h))),
      fun hbin h => h12 _ ((onBin _ hbin).2 _ (if_neg (Nat.not_lt.2 h)))⟩

end Sys2Proof.Machine
end

section
/-! The mailbox result write (R37, R147, R149, R151, R152, R156, R158). -/

namespace Sys2Proof.Machine

theorem resultCells_eq (cb : Nat) (r : ResultWrite) : resultCells cb r = cellsAt (cb + 68) [0, 0, 0, 0]
    ++ (match r.seq with | some q => cellsAt (cb + 80) (leBytes 4 q.toNat) | none => [])
    ++ cellsAt (cb + 84) (leBytes 4 r.result.code) ++ cellsAt (cb + 88) (leBytes 4 r.detail.toNat) := by
  obtain ⟨seq, result, detail, prior, after⟩ := r
  cases seq <;> rfl

/-- A faulted result write leaves every byte but those of RESULT and DETAIL (R149). -/
theorem resultLeftCells_bounds {cb : Nat} {r : ResultWrite} {k : Host.Cell} (h : k ∈ resultLeftCells cb r) :
    cb + 84 ≤ k.1 ∧ k.1 < cb + 92 := by
  rcases List.mem_append.1 h with h | h
  · have hbounds : cb + 84 ≤ k.1 ∧ k.1 < cb + 84 + _ := mem_cellsAt _ _ _ h
    rw [leBytes_length] at hbounds
    omega
  · have hbounds : cb + 88 ≤ k.1 ∧ k.1 < cb + 88 + _ := mem_cellsAt _ _ _ h
    rw [leBytes_length] at hbounds
    omega

/-! ## The write before the result write (R37, R151) -/

theorem State.work_self {s : State} {w : CuWork} (h : s.cu.work = w) : { s with cu := { s.cu with work := w } } = s := by
  subst h
  rfl

theorem State.answerPrior_of_nothing {s : State} {r : ResultWrite} (h : s.cu.work = .result r) (hp : r.prior = .nothing) :
    s.answerPrior = s := by
  unfold State.answerPrior
  simp only [h, hp]

theorem State.answerPrior_of_prior {s : State} {r : ResultWrite} (h : s.cu.work = .result r) (hp : r.prior ≠ .nothing) :
    s.answerPrior = { (s.ownWrite .cuWrite (r.prior.cells s.cbBase) .ok).askOwn .result with
      cu := { s.cu with work := .result { r with prior := .nothing } } } := by
  unfold State.answerPrior
  simp only [h]
  rfl

/-- The answer of the write before the result write changes DRAM, the memory arbiter and the control unit alone. -/
theorem State.answerPrior_spec {s : State} {r : ResultWrite} (h : s.cu.work = .result r) : ∃ dram ma,
    s.answerPrior = { s with
      dram := dram, ma := ma, cu := { s.cu with work := .result { r with prior := .nothing } } } := by
  by_cases hp : r.prior = .nothing
  · have hr : { r with prior := .nothing } = r := by rw [← hp]
    refine ⟨s.dram, s.ma, ?_⟩
    rw [State.answerPrior_of_nothing h hp, hr]
    exact (State.work_self h).symm
  · exact ⟨_, _, State.answerPrior_of_prior h hp⟩

/-! ## The end of the operation (R149) -/

theorem State.endOperation_eq (s : State) : s.endOperation = { s with
    portA := s.portA.restage (fun st => if st = .held .mailbox then .waiting else st)
    portB := s.portB.restage (fun st => if st = .held .mailbox then .waiting else st)
    cu := { s.cu with work := .idle }
    ma := s.ma.drop .result } :=
  State.releaseHolds_mailbox _

/-- What of an operation takes effect at its completion (R37, R152, R158). -/
theorem State.applyAfter_eq (a : CuAfter) (s : State) : s.applyAfter a = { s with
    gu := { s.gu with bias := match a with | .bias n v => Map.put 0 n v s.gu.bias | _ => s.gu.bias }
    cu := { s.cu with mode := match a with | .mode m => m | _ => s.cu.mode } } := by
  cases a <;> rfl

theorem exec_resultWrite_ok {s : State} {r : ResultWrite} (h : s.cu.work = .result r) (ha : HaltAnswers) :
    exec (.mailboxResultWriteDone .ok ha) s = .next
      ((((s.answerPrior.ownWrite .result (resultCells s.cbBase r) .ok).applyAfter r.after).raise .mailbox).endOperation).finish := by
  refine congrArg Host.Outcome.next ?_
  simp only [h]

theorem exec_resultWrite_fault {s : State} {r : ResultWrite} (h : s.cu.work = .result r) (left : List Byte) (ha : HaltAnswers) :
    exec (.mailboxResultWriteDone (.fault left) ha) s = .next (s.ownFault .resultWrite (resultLeftCells s.cbBase r) left ha) := by
  refine congrArg Host.Outcome.next ?_
  simp only [h]

/-- A faulted write of the part, in each mode (R149, R151, R156). -/
theorem State.ownFault_cases (c : HaltCause) (cells : Cells) (left : List Byte) (h : HaltAnswers) (s : State) :
    let faulted : State := (s.atCause c).ownWrite (causeRequest c) cells (.fault left)
    (s.cu.mode = .init → s.ownFault c cells left h = (faulted.endOperation.raise .memFault).finish) ∧
    (s.cu.mode = .halted → s.ownFault c cells left h = faulted.endOperation.finish) ∧
    ((s.cu.mode = .run ∨ s.cu.mode = .frozen) → s.ownFault c cells left h = faulted.enterHalt c h) := by
  unfold State.ownFault
  refine ⟨fun hm => ?_, fun hm => ?_, fun hm => ?_⟩
  · rw [hm]
  · rw [hm]
  · rcases hm with hm | hm <;> rw [hm]

theorem Arbiter.mem_drop (m : Arbiter) (x y : OwnReq) : x ∈ (m.drop y).own ↔ x ∈ m.own ∧ x ≠ y := by
  unfold Arbiter.drop
  simp only [List.mem_filter, bne_iff_ne]

theorem Gu.biasOf_put (g : Gu) (n m : Nat) (v : Int) :
    ({ g with bias := Map.put 0 n v g.bias }).biasOf m = if m = n then v else g.biasOf m := by
  refine (Map.getD_put 0 n m v g.bias).trans ?_
  simp only [eq_comm]
  rfl

/-- Settles O54: by memory's answer and, on a FAULT, by the mode. -/
theorem resultWriteEndsTheOperation : Obligations.ResultWriteEndsTheOperation := by
  refine ⟨resultCells_eq, fun s r ha hw => ?_, fun m x y => ⟨Arbiter.mem_drop m x y, rfl, rfl, rfl⟩, ⟨rfl, rfl⟩,
    Gu.biasOf_put⟩
  intro prior issued released
  have hissued : s.answerPrior = issued := by
    by_cases hp : r.prior = .nothing
    · rw [State.answerPrior_of_nothing hw hp]
      simp only [issued, hp]
    · rw [State.answerPrior_of_prior hw hp]
      obtain ⟨seq, result, detail, p, after⟩ := r
      cases p with
      | nothing => exact absurd rfl hp
      | echo m => rfl
      | bias n v => rfl
  obtain ⟨dram, ma, heq⟩ := State.answerPrior_spec hw
  refine ⟨⟨_, exec_resultWrite_ok hw ha, ?_⟩, fun left => ?_⟩
  · rw [← hissued, State.endOperation_eq, State.applyAfter_eq, heq]
    rfl
  · intro u ended
    have hu : s.answerPrior.ownWrite .result (resultLeftCells s.cbBase r) (.fault left) = u := by
      simp only [u, ← hissued, heq]
      rfl
    have hended : u.endOperation = ended := by
      rw [State.endOperation_eq]
      simp only [ended, u, ← hissued, heq]
      rfl
    obtain ⟨hinit, hhalted, hrun⟩ := State.ownFault_cases .resultWrite (resultLeftCells s.cbBase r) left ha s
    rw [show s.atCause .resultWrite = s.answerPrior from rfl, show causeRequest .resultWrite = .result from rfl, hu] at hinit hhalted hrun
    rw [exec_resultWrite_fault hw left ha]
    refine ⟨fun x hx => ?_, fun hm => ?_, fun hm => ?_, fun hm => ?_⟩
    · rw [← hu, ← hissued]
      refine State.read_ownWrite_of_not_mem _ _ _ _ x fun k hk hkx => ?_
      have := resultLeftCells_bounds hk
      omega
    · rw [hinit hm, hended]
    · rw [hhalted hm, hended]
    · rw [hrun hm]

end Sys2Proof.Machine
end

section
/-! The entry into HALTED (R18, R37, R117, R125, R136, R144, R151, R156). -/

namespace Sys2Proof.Machine

/-! ## The part's outstanding writes (R144) -/

theorem State.ifGranted_eq (r : OwnReq) (cells : Cells) (a : WriteAnswer) (s : State) :
    s.ifGranted r cells a = if Grant.own r ∈ s.ma.order then s.ownWrite r cells a else s := by
  unfold State.ifGranted
  simp only [List.contains_iff_mem]

theorem State.read_ifGranted {r : OwnReq} {cells : Cells} (a : WriteAnswer) (s : State) {x : Nat} (h : ∀ k ∈ cells, k.1 ≠ x) :
    Memory.read (s.ifGranted r cells a).dram x = Memory.read s.dram x := by
  rw [State.ifGranted_eq]
  split
  · exact State.read_ownWrite_of_not_mem r cells a s x h
  · rfl

theorem State.priorPending_iff (s : State) : s.priorPending = true ↔ s.priorCells ≠ [] := by
  unfold State.priorPending State.priorCells
  cases s.cu.work with
  | result r =>
    obtain ⟨seq, result, detail, prior, after⟩ := r
    cases prior with
    | nothing => exact iff_of_false Bool.false_ne_true (not_not_intro rfl)
    | echo m => exact iff_of_true rfl (List.cons_ne_nil _ _)
    | bias n v => exact iff_of_true rfl (List.cons_ne_nil _ _)
  | _ => exact iff_of_false Bool.false_ne_true (not_not_intro rfl)

theorem causeOfCu_iff (c : HaltCause) : causeOfCu c = true ↔ c = .biasImage ∨ c = .modeEcho ∨ c = .resultWrite := by
  cases c <;> simp [causeOfCu]

theorem State.toGrant_eq (c : HaltCause) (s : State) :
    s.toGrant c = if s.priorCells = [] ∨ causeOfCu c = true then s.ma else s.ma.ask .result := by
  unfold State.toGrant
  by_cases hnone : s.priorCells = []
  · have hpending : s.priorPending = false := Bool.eq_false_iff.2 fun h => s.priorPending_iff.1 h hnone
    rw [hpending, if_pos (Or.inl hnone)]
    rfl
  · rw [s.priorPending_iff.2 hnone]
    cases hcause : causeOfCu c <;> simp [hnone]

theorem State.read_endWrites (c : HaltCause) (h : HaltAnswers) (s : State) {x : Nat}
    (hx : ∀ l : Cells, l = s.writeBackCells ∨ l = s.quFlightCells ∨ l = s.imageFlightCells ∨ l = s.priorCells ∨
      l = s.resultOutstanding h.resultWrite → ∀ k ∈ l, k.1 ≠ x) :
    Memory.read (s.endWrites c h).dram x = Memory.read s.dram x := by
  unfold State.endWrites
  dsimp only
  rw [State.read_ifGranted _ _ (hx _ (by simp)), State.read_ifGranted _ _ (hx _ (by simp)),
    State.read_ifGranted _ _ (hx _ (by simp)), State.read_ifGranted _ _ (hx _ (by simp)),
    State.read_ifGranted _ _ (hx _ (by simp))]

/-! ## The clearing (R156) -/

/-- The units cleared, on the state that the writes outstanding leave. -/
theorem State.clearUnits_eq (dram : Memory) (ma : Arbiter) (s : State) : ({ s with dram := dram, ma := ma }).clearUnits = {
    (s.mapStages (haltedStage (decide (s.cu.work ≠ .idle)))) with
    dram := dram
    fwd := s.fwd.map (·.halted)
    bu := s.bu.halted
    ru := s.ru.halted
    qu := Qu.reset
    icu := s.icu.halted
    cu := { s.cu with mode := .halted, work := .idle }
    ma := { ma with own := [], order := dropDone (ma.order.filter (fun g => !g.isOwn)), found := [] } } := rfl

theorem State.haltedStage_eq (s : State) (o : Outstanding) : haltedStage (decide (s.cu.work ≠ .idle)) o = match o.stage with
    | .held .mailbox => if s.cu.work = .idle then .held .mailbox else .waiting
    | .held (.busySlot _) => faulted (tagOf o.req)
    | .held .cqCommand => faulted (tagOf o.req)
    | .held .cqNotice => faulted (tagOf o.req)
    | .atQueue _ => faulted (tagOf o.req)
    | .taking _ => faulted (tagOf o.req)
    | .stalled .postingStopped => .waiting
    | st => st := by
  unfold haltedStage
  cases o.stage with
  | held h => cases h <;> simp
  | stalled st => cases st <;> rfl
  | _ => rfl

/-- Where writes alone wait on the own side, what a write of the part leaves of DRAM and of the arbiter follows from those and
the number of forwarded writes. -/
theorem State.ownWrite_congr {s t : State} (r : OwnReq) (cells : Cells) (a : WriteAnswer) (hdram : t.dram = s.dram)
    (hma : t.ma = s.ma) (hfwd : t.fwd.length = s.fwd.length) (hwrites : ∀ q ∈ s.ma.own, q.isWrite = true) :
    (t.ownWrite r cells a).dram = (s.ownWrite r cells a).dram ∧ (t.ownWrite r cells a).ma = (s.ownWrite r cells a).ma := by
  have hgrant : t.ma.grantOwn t.finds t.fwd.length r = s.ma.grantOwn s.finds s.fwd.length r := by
    rw [hma, hfwd]
    exact (Arbiter.grantUntil_writes t.finds s.finds _ _ _ _ hwrites).1
  simp only [State.ownWrite, State.grantOwn, State.performed, hdram, hgrant, and_self]

/-- The echo write of HALTED leaves no request of the part at the memory arbiter (R151). -/
theorem State.ownWrite_cuWrite_own {s : State} (hown : s.ma.own = [.cuWrite]) (hfound : s.ma.found = []) (cells : Cells)
    (a : WriteAnswer) : (s.ownWrite .cuWrite cells a).ma.own = [] ∧ (s.ownWrite .cuWrite cells a).ma.found = [] := by
  refine ⟨Arbiter.grantOwn_single _ _ _ _ hown, ?_⟩
  refine (Arbiter.grantUntil_writes s.finds s.finds _ _ _ _ fun q hq => ?_).2.trans hfound
  rw [hown, List.mem_singleton] at hq
  rw [hq]
  rfl

theorem filter_isPosted_halted (l : List FwdWrite) : (l.map (·.halted)).filter (·.isPosted) = l.filter (·.isPosted) := by
  have hposted : ∀ w : FwdWrite, w.isPosted = true → w.halted = w := fun w hw => by
    unfold FwdWrite.halted
    rw [of_decide_eq_true hw]
  rw [List.filter_map]
  simp only [Function.comp_def, FwdWrite.isPosted_halted]
  exact (List.map_congr_left fun w hw => hposted w (List.mem_filter.1 hw).2).trans (List.map_id' _)

/-- The state with the units cleared and no request of the part at the memory arbiter, before the echo write of HALTED. -/
def State.cleared (c : HaltCause) (h : HaltAnswers) (s : State) : State := (s.endWrites c h).clearUnits

theorem State.cleared_eq (c : HaltCause) (h : HaltAnswers) (s : State) : s.cleared c h = {
    (s.mapStages (haltedStage (decide (s.cu.work ≠ .idle)))) with
    dram := (s.endWrites c h).dram
    fwd := s.fwd.map (·.halted)
    bu := s.bu.halted
    ru := s.ru.halted
    qu := Qu.reset
    icu := s.icu.halted
    cu := { s.cu with mode := .halted, work := .idle }
    ma := { (s.endWrites c h).ma with
      own := [], order := dropDone ((s.endWrites c h).ma.order.filter (fun g => !g.isOwn)), found := [] } } := by
  obtain ⟨dram, ma, hs, _⟩ := State.endWrites_spec c h s
  unfold State.cleared
  rw [hs]
  exact State.clearUnits_eq dram ma s

theorem State.enterHalt_eq (c : HaltCause) (h : HaltAnswers) (s : State) : s.enterHalt c h
    = (((s.cleared c h).askOwn .cuWrite).ownWrite .cuWrite (echoCells s.cbBase .halted) h.echo |>.raise .halt).finish := rfl

/-- What the entry into HALTED leaves, before the ports go on (R156). -/
theorem State.enterHalt_spec (c : HaltCause) (h : HaltAnswers) (s : State) {dram : Memory} {ma : Arbiter}
    (hdram : (s.endWrites c h).dram = dram)
    (hma : { (s.endWrites c h).ma with
      own := [], order := dropDone ((s.endWrites c h).ma.order.filter (fun g => !g.isOwn)), found := [] } = ma) :
    let echoed : State :=
      (({ s with dram := dram, ma := ma }).askOwn .cuWrite).ownWrite .cuWrite (echoCells s.cbBase .halted) h.echo
    ∃ u : State, s.enterHalt c h = u.finish ∧ u = {
      (s.mapStages (haltedStage (decide (s.cu.work ≠ .idle)))) with
      dram := echoed.dram
      ma := echoed.ma
      fwd := s.fwd.map (·.halted)
      bu := s.bu.halted
      ru := s.ru.halted
      qu := Qu.reset
      icu := s.icu.halted
      cu := { s.cu with mode := .halted, work := .idle }
      eu := s.eu.raise .halt } ∧ u.ma.own = [] ∧ u.ma.found = [] ∧
      ∀ x, (∀ k ∈ echoCells s.cbBase .halted, k.1 ≠ x) → Memory.read echoed.dram x = Memory.read dram x := by
  intro echoed
  have hcleared := s.cleared_eq c h
  rw [hdram, hma] at hcleared
  have hown : ma.own = [] ∧ ma.found = [] := by
    rw [← hma]
    exact ⟨rfl, rfl⟩
  have hask : (ma.ask .cuWrite).own = [.cuWrite] := congrArg (· ++ [OwnReq.cuWrite]) hown.1
  have hwrites : ∀ q ∈ (ma.ask .cuWrite).own, q.isWrite = true := by
    rw [hask]
    exact List.forall_mem_singleton.2 rfl
  obtain ⟨hechoDram, hechoMa⟩ := State.ownWrite_congr (s := ({ s with dram := dram, ma := ma }).askOwn .cuWrite)
    (t := (s.cleared c h).askOwn .cuWrite) .cuWrite (echoCells s.cbBase .halted) h.echo
    (by rw [hcleared]; rfl) (by rw [hcleared]; rfl)
    (by rw [hcleared]; exact List.length_map _) hwrites
  refine ⟨_, State.enterHalt_eq c h s, ?_, ?_⟩
  · rw [← hechoDram, ← hechoMa, hcleared]
    rfl
  · obtain ⟨hnone, hfound⟩ := State.ownWrite_cuWrite_own (s := ({ s with dram := dram, ma := ma }).askOwn .cuWrite)
      hask hown.2 (echoCells s.cbBase .halted) h.echo
    exact ⟨(congrArg Arbiter.own hechoMa).trans hnone, (congrArg Arbiter.found hechoMa).trans hfound,
      fun x hx => State.read_ownWrite_of_not_mem _ _ _ _ x hx⟩

/-! ## The causes of a halt (R156) -/

theorem exec_halt_of_cells {s : State} {c : HaltCause} {cells : Cells} (h : s.haltCells c = some cells) (left : List Byte)
    (ha : HaltAnswers) : exec (.halt c left ha) s = .next (s.ownFault c cells left ha) := by
  refine congrArg Host.Outcome.next ?_
  rw [h]

theorem State.atCause_of_ne {c : HaltCause} (h : c ≠ .resultWrite) (s : State) : s.atCause c = s := by
  cases c with
  | resultWrite => exact absurd rfl h
  | _ => rfl

theorem State.haltCells_of_result {s : State} {r : ResultWrite} (h : s.cu.work = .result r) :
    s.haltCells .resultWrite = some (resultLeftCells s.cbBase r) ∧
    (∀ m, r.prior = .echo m → s.haltCells .modeEcho = some (cellsAt (s.cbBase + 4) (leBytes 4 m.code))) ∧
    ∀ n v, r.prior = .bias n v → s.haltCells .biasImage = some [(s.cbBase + 320 + n, BitVec.ofInt 8 v)] := by
  unfold State.haltCells
  simp only [h]
  refine ⟨trivial, fun m hp => ?_, fun n v hp => ?_⟩ <;> rw [hp] <;> rfl

theorem State.haltCells_of_units (s : State) :
    (∀ f, s.bu.imageInFlight = some f → s.haltCells .imageWrite = some f.cells) ∧
    (∀ f, s.qu.inFlight = some f → s.haltCells .queueWrite = some f.cells) ∧
    (∀ svc cells events, s.icu.stage = .writeBack svc cells events → s.haltCells .writeBack = some cells) ∧
    (∀ svc, s.icu.stage = .fetching svc → svc.entry.isCommand = false → svc.addr.isSome = true →
      s.haltCells .noticeFetch = some []) ∧
    ∀ q, (s.queue q).takeInProgress = true → s.haltCells (.takeRead q) = some [] := by
  unfold State.haltCells
  refine ⟨fun f hf => ?_, fun f hf => ?_, fun svc cells events hs => ?_, fun svc hs hnotice hslot => ?_, fun q hq => ?_⟩
  · simp only [hf, Option.map_some]
  · simp only [hf, Option.map_some]
  · simp only [hs]
  · have haddr : svc.addr.isNone = false := by rw [← Option.not_isSome, hslot]; rfl
    simp only [hs, hnotice, haddr, Bool.or_self, Bool.false_eq_true, if_false]
  · simp only [hq, if_true]

/-- Settles O55: the entry into HALTED unit by unit, then each cause by the mode. -/
theorem haltClearsTheUnits : Obligations.HaltClearsTheUnits := by
  refine ⟨fun s c h => ?_, fun s c cells left h hcells hc => ?_, fun s r left h hw => ?_,
    ⟨rfl, rfl, rfl, rfl, rfl, rfl, rfl, fun _ => rfl⟩, State.haltCells_of_units⟩
  · intro behind prior result granted performed w kept
    have hprior : prior = s.priorCells := by
      simp only [prior, State.priorCells]
      cases s.cu.work with
      | result r => obtain ⟨seq, result, detail, p, after⟩ := r; cases p <;> rfl
      | _ => rfl
    have hresult : result = s.resultOutstanding h.resultWrite := rfl
    have hgranted : granted = (s.toGrant c).grantMany s.finds s.fwd.length h.granted := by
      simp only [granted, hprior, behind, State.toGrant_eq, causeOfCu_iff]
    have hw : s.endWrites c h = w := by
      simp only [w, performed, hprior, hresult, hgranted]
      unfold State.endWrites
      simp only [State.ifGranted_eq, State.priorAnswer, List.contains_iff_mem]
    have hkept : { (s.endWrites c h).ma with
        own := [], order := dropDone ((s.endWrites c h).ma.order.filter (fun g => !g.isOwn)), found := [] } = kept := by
      rw [hw]
      refine congrArg (fun o : List Grant => { w.ma with own := [], order := dropDone o, found := [] })
        (List.filter_congr fun g _ => ?_)
      cases g <;> rfl
    clear_value kept w prior result
    obtain ⟨u, hu, heq, hown, hfound, hecho⟩ := State.enterHalt_spec c h s (congrArg State.dram hw) hkept
    refine ⟨u, hu, ?_⟩
    rw [heq] at hown hfound ⊢
    refine ⟨rfl, rfl, rfl, rfl, rfl, rfl, rfl, rfl, rfl, rfl, hown, hfound, filter_isPosted_halted _, commandSlots_halted _,
      fun p => ?_, rfl, fun x hx => ?_⟩
    · cases p <;> exact List.map_congr_left fun o _ =>
        congrArg (fun st => ({ o with stage := st } : Outstanding)) (State.haltedStage_eq s o)
    · rw [hprior, hresult] at hx
      have hread : Memory.read (s.endWrites c h).dram x = Memory.read s.dram x := by
        refine State.read_endWrites c h s fun l hl => hx l ?_
        rcases hl with hl | hl | hl | hl | hl
        · exact .inl hl
        · exact .inr (.inl hl)
        · exact .inr (.inr (.inl hl))
        · exact .inr (.inr (.inr (.inl hl)))
        · exact .inr (.inr (.inr (.inr (.inl hl))))
      rw [hw] at hread
      exact (hecho x (hx _ (.inr (.inr (.inr (.inr (.inr rfl))))))).trans hread
  · intro u
    obtain ⟨_, hhalted, hrun⟩ := State.ownFault_cases c cells left h s
    rw [State.atCause_of_ne hc] at hhalted hrun
    rw [exec_halt_of_cells hcells]
    refine ⟨fun hm => congrArg Host.Outcome.next (hrun hm), ?_⟩
    intro released hm
    rw [hhalted hm, State.endOperation_eq]
    rfl
  · obtain ⟨hcells, hecho, hbias⟩ := State.haltCells_of_result hw
    exact ⟨(exec_halt_of_cells hcells left h).trans (exec_resultWrite_fault hw left h).symm, hecho, hbias⟩

end Sys2Proof.Machine
end

section
/-! The reads of a start and of a RELOAD, one by one, and START_FRESH (R138, R148, R154, R160 to R163, R169). -/

namespace Sys2Proof.Machine

/-! ## One read -/

theorem exec_oneRead {use : TableUse} {s : State} (hu : s.cu.work.readsFor use = true) (f : Option ReadSite) :
    exec (readsOf use 1 f) s = .next (s.readNext f) :=
  exec_readsOf_reading use 1 f s hu

theorem State.cuMayRead_of_overlaps {s : State} {a n : Nat} (h : overlapsForward s.fwd a n = true) : s.cuMayRead a n = false := by
  unfold State.cuMayRead
  rw [h]
  rfl

theorem State.cuMayRead_of_clear {s : State} {a n : Nat} (h : overlapsForward s.fwd a n = false) : s.cuMayRead a n = true := by
  unfold State.cuMayRead
  rw [h]
  rfl

theorem State.failTables_start {use : TableUse} (h : use ≠ .reload) (seq : Word32) (f : StartFail) (s : State) :
    s.failTables use seq f = s.clearStart.answers (report seq f.result (BitVec.ofNat 32 f.detail)) := by
  cases use with
  | reload => exact absurd rfl h
  | _ => rfl

theorem State.cbBase_cuRead (s : State) : s.cuRead.cbBase = s.cbBase := State.cbBase_congr rfl

/-- One read of the tables phase (R138, R153, R160). -/
theorem State.readNext_tables_cases {use : TableUse} {seq : Word32} {k : Nat} {t : TablesRead} {site : ReadSite} {s : State}
    (hw : s.cu.work = .tables use seq k t) (hx : (tableSites use)[k]? = some site) (f : Option ReadSite) :
    (overlapsForward s.fwd (s.cbBase + (tableRun site).1) (tableRun site).2 = true → s.readNext f = s) ∧
    (overlapsForward s.fwd (s.cbBase + (tableRun site).1) (tableRun site).2 = false →
      (f = some site → s.readNext f
        = s.cuRead.failTables use seq { result := .memFault, detail := tableNumber site }) ∧
      (f ≠ some site → k + 1 < (tableSites use).length → s.readNext f
        = s.cuRead.working (.tables use seq (k + 1) (t.take s.cuRead.memory s.cbBase site))) ∧
      (f ≠ some site → (tableSites use).length ≤ k + 1 → s.readNext f
        = s.cuRead.endTables use seq (t.take s.cuRead.memory s.cbBase site))) := by
  unfold State.readNext State.readTable
  simp only [hw, hx]
  refine ⟨fun ho => ?_, fun ho => ?_⟩
  · rw [State.cuMayRead_of_overlaps ho, if_neg Bool.false_ne_true]
  · rw [if_pos (State.cuMayRead_of_clear ho)]
    exact ⟨fun hf => if_pos hf, fun hf hk => by rw [if_neg hf, if_pos hk],
      fun hf hk => by rw [if_neg hf, if_neg (Nat.not_lt.2 hk)]⟩

theorem State.endTables_cases (use : TableUse) (seq : Word32) (t : TablesRead) (s : State) :
    (∀ n, t.check s.cbBase = .error n → s.endTables use seq t
      = s.failTables use seq { result := .tableInvalid, detail := n }) ∧
    (∀ x, t.check s.cbBase = .ok x → use ≠ .reload → s.endTables use seq t
      = s.working (.images (decide (use = .fresh)) { seq := seq, tables := x, mask := t.mask, images := [] } 0)) ∧
    ∀ x, t.check s.cbBase = .ok x → use = .reload → s.endTables use seq t = s.reloadTests seq x := by
  unfold State.endTables
  refine ⟨fun n h => by rw [h], fun x h hu => ?_, fun x h hu => ?_⟩
  · rw [h]
    cases use with
    | reload => exact absurd rfl hu
    | _ => rfl
  · rw [h, hu]

theorem length_tableSites_start {use : TableUse} (h : use ≠ .reload) : (tableSites use).length = 8 := by
  cases use with
  | reload => exact absurd rfl h
  | _ => rfl

/-! ## The bin images (R162) -/

/-- One read of the bin image phase (R138, R162). -/
theorem State.readNext_images_cases {fresh : Bool} {d : StartData} {k : Nat} {s : State} (hw : s.cu.work = .images fresh d k)
    (f : Option ReadSite) :
    (overlapsForward s.fwd (s.cbBase + 4096 + 64 * k) 64 = true → s.readNext f = s) ∧
    (overlapsForward s.fwd (s.cbBase + 4096 + 64 * k) 64 = false →
      (f = some (.imageBlock k) → s.readNext f = s.cuRead.failStart d.seq { result := .memFault, detail := 8 }) ∧
      (f ≠ some (.imageBlock k) →
        (readImages s.cuRead.memory s.cbBase (blockBins k) = none →
          s.readNext f = s.cuRead.failStart d.seq { result := .tableInvalid, detail := 8 }) ∧
        ∀ m, readImages s.cuRead.memory s.cbBase (blockBins k) = some m →
          (k + 1 < 256 → s.readNext f = s.cuRead.working (.images fresh { d with images := d.images ++ m } (k + 1))) ∧
          (k + 1 = 256 → fresh = false → s.readNext f = s.cuRead.working (.headers { d with images := d.images ++ m } [])) ∧
          (k + 1 = 256 → fresh = true → s.readNext f = s.cuRead.buildFresh { d with images := d.images ++ m }))) := by
  have himages : imagesOff = 4096 := rfl
  have hreads : imageReads = 256 := rfl
  unfold State.readNext State.readImageBlock
  simp only [hw, himages, hreads]
  refine ⟨fun ho => ?_, fun ho => ?_⟩
  · rw [State.cuMayRead_of_overlaps ho, if_neg Bool.false_ne_true]
  · rw [if_pos (State.cuMayRead_of_clear ho)]
    refine ⟨fun hf => if_pos hf, fun hf => ?_⟩
    rw [if_neg hf]
    refine ⟨fun hm => by rw [hm], fun m hm => ?_⟩
    simp only [hm]
    refine ⟨fun hk => if_pos hk, fun hk hfresh => ?_, fun hk hfresh => ?_⟩
    · rw [if_neg (by omega), hfresh, if_neg Bool.false_ne_true]
    · rw [if_neg (by omega), hfresh, if_pos rfl]

/-! ## The beginning of an operation that reads (R148, R154, R160) -/

/-- A command given by the mailbox serves its reads from the state in which the operation has begun. -/
theorem exec_readsOf_begun {use : TableUse} {op : Nat} {s b : State} (ho : s.atOperation op)
    (ha : opAvailable op s.cu.mode = true)
    (he : ∀ n f u, u.cu.work ≠ .automatic → exec (readsOf use n f) u = .next (u.readingOperation use op n f))
    (hb : b = { s.mailboxFetched with cu := { s.cu with work := .tables use s.mailbox.seq 0 TablesRead.none } })
    (n : Nat) (f : Option ReadSite) :
    exec (readsOf use 0 f) s = .next b ∧ exec (readsOf use n f) s = exec (readsOf use n f) b := by
  have hbegun : b = s.mailboxFetched.beginTables use s.mailbox.seq := hb
  have hreads : b.cu.work.readsFor use = true := by
    rw [hb]
    exact beq_self_eq_true use
  refine ⟨?_, ?_⟩
  · rw [exec_readsOf_begin use op 0 f s ho ha (he 0 f), ← hbegun]
    rfl
  · rw [exec_readsOf_begin use op n f s ho ha (he n f), ← hbegun, exec_readsOf_reading use n f b hreads]

/-- The state in which an operation has begun still reads DRAM (R141). -/
theorem State.readsDram_begun {s : State} (ho : s.noOwnWrite) (hc : s.forwardCovers) (use : TableUse) (seq : Word32) :
    (s.mailboxFetched.beginTables use seq).readsDram := by
  obtain ⟨hwriteBack, hqueue, himage, hcu, hdone⟩ := ho
  exact ⟨⟨hwriteBack, hqueue, himage, rfl, fun c hd => hdone c ((Arbiter.done_grantUntil _ _ _ _ s.ma c).mp hd)⟩, hc⟩

theorem State.readsDram_working {s : State} (h : s.readsDram) {w : CuWork} (hw : ∀ r, w ≠ .result r) {m : Arbiter}
    (hm : ∀ c, Grant.done c ∈ m.order → Grant.done c ∈ s.ma.order) :
    ({ s with ma := m, cu := { s.cu with work := w } } : State).readsDram :=
  State.readsDram_of_readTo ⟨m, rfl, hm⟩ hw h

/-- The tables phase and the image phase served together, when every read is answered OK and passes its check. -/
theorem State.reads_to_images {use : TableUse} (hu : use ≠ .reload) {seq : Word32} {s : State}
    (hw : s.cu.work = .tables use seq 0 TablesRead.none) (hf : overlapsForward s.fwd s.cbBase 20480 = false)
    (hr : s.readsDram) {t : Tables} (ht : (tablesIn s.dram s.cbBase use).check s.cbBase = .ok t)
    (hok : ∀ b, b < 2048 → (Memory.binImage s.dram (binImageAddr s.cbBase b)).ok = true) :
    ∃ (images : Map BinImage) (m : Arbiter) (w : CuWork), (∀ r, w ≠ .result r) ∧
      (∀ c, Grant.done c ∈ m.order → Grant.done c ∈ s.ma.order) ∧ imagesAre s.dram s.cbBase 256 images ∧
      ∀ d, d = { seq := seq, tables := t, mask := (tablesIn s.dram s.cbBase use).mask, images := images } →
      State.reads none 264 s = if use = .fresh
        then State.buildFresh d { s with ma := m, cu := { s.cu with work := w } }
        else { s with ma := m, cu := { s.cu with work := .headers d [] } } := by
  obtain ⟨m, w, hwork, hdone, htables⟩ := State.reads_tables_end use seq s hw hf hr
  rw [length_tableSites_start hu] at htables
  let d0 : StartData := { seq := seq, tables := t, mask := (tablesIn s.dram s.cbBase use).mask, images := [] }
  let y : State := { s with ma := m, cu := { s.cu with work := .images (decide (use = .fresh)) d0 0 } }
  have hcb : y.cbBase = s.cbBase := State.cbBase_congr rfl
  have hy : State.reads none 8 s = y := by
    let x : State := { s with ma := m, cu := { s.cu with work := w } }
    have hx : x.cbBase = s.cbBase := State.cbBase_congr rfl
    obtain ⟨_, hend, _⟩ := State.endTables_cases use seq (tablesIn s.dram s.cbBase use) x
    rw [hx] at hend
    exact htables.trans (hend t ht hu)
  have hdram : y.readsDram := State.readsDram_working hr (fun _ => CuWork.noConfusion) hdone
  obtain ⟨images, m', w', hwork', hdone', himages, hreads⟩ := State.reads_images_end (decide (use = .fresh)) d0 y rfl rfl
    (by rw [hcb]; exact hf) hdram (by rw [hcb]; exact hok)
  refine ⟨images, m', w', hwork', fun c hc => hdone c (hdone' c hc), by rw [← hcb]; exact himages, fun d hd => ?_⟩
  rw [State.reads_add none 8 256, hy, hreads, hd]
  simp only [decide_eq_true_eq]
  rfl

theorem tablesIn_mask (d : Memory) (cb : Nat) {use : TableUse} (h : use ≠ .reload) :
    (tablesIn d cb use).mask = BitVec.ofNat 12 (Memory.word d (cb + 136)).toNat := by
  cases use with
  | reload => exact absurd rfl h
  | _ => rfl

/-- START_FRESH from its beginning to the wait for its switch, with every read answered OK and in range (R160 to R163). -/
theorem startFresh_completes {s : State} {t : Tables} (ho : s.atOperation 1) (hm : s.cu.mode = .init) (hown : s.noOwnWrite)
    (hcov : s.forwardCovers) (hf : overlapsForward s.fwd s.cbBase 20480 = false)
    (ht : (tablesIn s.dram s.cbBase .fresh).check s.cbBase = .ok t)
    (hok : ∀ b, b < 2048 → (Memory.binImage s.dram (s.cbBase + 4096 + 8 * b)).ok = true) :
    ∃ (images : Map BinImage) (m : Arbiter),
      (∀ b, b < 2048 → Map.getD BinImage.zero images b = Memory.binImage s.dram (s.cbBase + 4096 + 8 * b)) ∧
      exec (.startFresh ⟨264, none⟩) s = .next { s with
        bu := { s.bu with bins := loadBins true images, avail := [], imageQueue := [] }
        ru := { s.ru with table := [], deadlines := [] }
        qu := Qu.reset
        ma := m
        cu := { s.cu with
          work := .startSwitch
            { data := { seq := s.mailbox.seq, tables := t, images := images,
                        mask := BitVec.ofNat 12 (Memory.word s.dram (s.cbBase + 136)).toNat }
              detail := 0, counter := 1 } } } := by
  let b : State := s.mailboxFetched.beginTables .fresh s.mailbox.seq
  have hcb : b.cbBase = s.cbBase := State.cbBase_congr rfl
  have hbegin : exec (readsOf .fresh 264 none) s = .next (State.reads none 264 b) :=
    exec_readsOf_begin .fresh 1 264 none s ho ((opAvailable_start _ 1 (by decide)).trans (decide_eq_true hm)) (fun _ _ => rfl)
  obtain ⟨images, m, w, _, _, himages, hreads⟩ := State.reads_to_images (s := b) (use := .fresh) TableUse.noConfusion rfl
    (by rw [hcb]; exact hf) (State.readsDram_begun hown hcov _ _) (t := t) (by rw [hcb]; exact ht) (by rw [hcb]; exact hok)
  rw [hcb] at himages hreads
  refine ⟨images, m, fun c hc => (himages c).1 (by omega), hbegin.trans ?_⟩
  rw [hreads _ rfl, tablesIn_mask _ _ TableUse.noConfusion, if_pos rfl]
  rfl

/-- Settles O56: the clauses on one read by its answer and its checks, the whole start by its phases. -/
theorem startFreshBuilds : Obligations.StartFreshBuilds := by
  refine ⟨fun s n f ho hm => ?_, exec_readsOf_add, ⟨rfl, rfl, rfl, rfl⟩, fun _ => rfl, fun _ => rfl,
    fun s use seq k t site f hu hw hx => ?_, fun s fresh d k f hw => ?_, fun _ _ => rfl, BinImage.ok_iff,
    fun fresh images b hb => ?_, fun s t ho hm hown hcov hf ht hok => ?_⟩
  · exact exec_readsOf_begun (use := .fresh) ho ((opAvailable_start _ 1 (by decide)).trans (decide_eq_true hm))
      (fun _ _ _ _ => rfl) rfl n f
  · have hreads : s.cu.work.readsFor use = true := by
      rw [hw]
      exact beq_self_eq_true use
    obtain ⟨hwaits, hready⟩ := State.readNext_tables_cases hw hx f
    rw [length_tableSites_start hu] at hready
    rw [exec_oneRead hreads f]
    refine ⟨fun ho => congrArg _ (hwaits ho), fun ho => ?_⟩
    obtain ⟨hfault, hnext, hend⟩ := hready ho
    refine ⟨fun h => ?_, fun h hk => congrArg _ (hnext h hk), fun h hk => ?_⟩
    · rw [hfault h, State.failTables_start hu]
    · obtain ⟨herror, hstart, _⟩ := State.endTables_cases use seq (t.take s.cuRead.memory s.cbBase site) s.cuRead
      rw [State.cbBase_cuRead] at herror hstart
      rw [hend h (by omega)]
      refine ⟨fun n hn => ?_, fun x hx => ?_⟩
      · rw [herror n hn, State.failTables_start hu]
      · rw [hstart x hx hu]
        rfl
  · have hreads : s.cu.work.readsFor (if fresh then .fresh else .restore) = true := by
      rw [hw]
      exact beq_self_eq_true _
    obtain ⟨hwaits, hready⟩ := State.readNext_images_cases hw f
    rw [exec_oneRead hreads f]
    refine ⟨fun ho => congrArg _ (hwaits ho), fun ho => ?_⟩
    obtain ⟨hfault, hrest⟩ := hready ho
    refine ⟨fun h => congrArg _ (hfault h), fun h => ?_⟩
    obtain ⟨hbad, hgood⟩ := hrest h
    refine ⟨fun ⟨b, hlow, hhigh, hb⟩ => ?_, fun hok => ?_⟩
    · exact congrArg _ (hbad ((readImages_eq_none _ _ _).2 ⟨b, (mem_blockBins k b).2 ⟨hlow, hhigh⟩, hb⟩))
    · obtain ⟨m, hm, hnone, himage⟩ := readImages_of_ok s.cuRead.memory s.cbBase (blockBins k) fun b hb =>
        hok b ((mem_blockBins k b).1 hb).1 ((mem_blockBins k b).1 hb).2
      obtain ⟨hmore, hheaders, hbuild⟩ := hgood m hm
      refine ⟨m, fun b hlow hhigh => himage b ((mem_blockBins k b).2 ⟨hlow, hhigh⟩),
        fun b hb => hnone b fun hmem => ?_, fun d1 hd => ?_⟩
      · have hbounds := (mem_blockBins k b).1 hmem
        omega
      · rw [hd]
        exact ⟨fun hk => congrArg _ (hmore hk), fun hk hfresh => congrArg _ (hheaders hk hfresh),
          fun hk hfresh => congrArg _ (hbuild hk hfresh)⟩
  · intro i x
    have hx : x = i.load fresh := (getD_loadBins fresh images b).trans (if_pos hb)
    rw [hx]
    exact BinImage.load_spec fresh i
  · obtain ⟨images, m, himages, hexec⟩ := startFresh_completes ho hm hown hcov hf ht hok
    exact ⟨images, m, _, himages, hexec, rfl, rfl⟩

end Sys2Proof.Machine
end

section
/-! START_RESTORE (R78, R102, R123, R159, R160, R164 to R167, R169). -/

namespace Sys2Proof.Machine

/-! ## The headers (R164) -/

theorem headerOf_of_read {hs : List QHeader} {q : Fin 6} {h : QHeader} (hq : hs[q.val]? = some h) : headerOf hs q = h := by
  unfold headerOf
  rw [List.getD_eq_getElem?_getD, hq, Option.getD_some]

/-- The first header out of range ends the start; without one the entries are read (R164). -/
theorem State.endHeaders_cases (d : StartData) (hs : List QHeader) (s : State) :
    (∀ p n, (headerOf hs p).check d.tables.descs[p].capacity = some n →
      (∀ j k, j < p → (headerOf hs j).check d.tables.descs[j].capacity ≠ some k) →
      s.endHeaders d hs = s.failStart d.seq (checkFail n p)) ∧
    ((∀ p n, (headerOf hs p).check d.tables.descs[p].capacity ≠ some n) → s.endHeaders d hs = s.toEntries d hs []) := by
  unfold State.endHeaders
  refine ⟨fun p n hp hfirst => ?_, fun hnone => ?_⟩
  · obtain ⟨hsplit, hbefore⟩ := queueIds_split p
    rw [hsplit, checkHeaders_of_first d.tables.descs hs _ _ p n
      (fun j hj => Option.eq_none_iff_forall_ne_some.2 fun k => hfirst j k (hbefore j hj)) hp]
  · rw [checkHeaders_of_none d.tables.descs hs queueIds fun p _ => Option.eq_none_iff_forall_ne_some.2 (hnone p)]

/-- The entry phase is skipped when no queue has an entry (R165). -/
theorem State.toEntries_cases (d : StartData) (hs : List QHeader) (read : List RingEntry) (s : State) :
    (read.length < (entrySites hs).length → s.toEntries d hs read = s.working (.entries d hs read)) ∧
    ((entrySites hs).length ≤ read.length → s.toEntries d hs read = s.endEntries d hs read) := by
  unfold State.toEntries
  exact ⟨fun h => if_pos h, fun h => if_neg (Nat.not_lt.2 h)⟩

/-- One read of the header phase (R138, R164). -/
theorem State.readNext_headers_cases {d : StartData} {read : List QHeader} {q : Fin 6} {s : State}
    (hw : s.cu.work = .headers d read) (hq : read.length = q.val) (f : Option ReadSite) :
    let hs : List QHeader := read ++ [Memory.header s.cuRead.memory d.tables.descs[q].ringBase]
    (overlapsForward s.fwd d.tables.descs[q].ringBase 48 = true → s.readNext f = s) ∧
    (overlapsForward s.fwd d.tables.descs[q].ringBase 48 = false →
      (f = some (.queueHeader q) → s.readNext f = s.cuRead.failStart d.seq ringFault) ∧
      (f ≠ some (.queueHeader q) → q.val < 5 → s.readNext f = s.cuRead.working (.headers d hs)) ∧
      (f ≠ some (.queueHeader q) → q.val = 5 → s.readNext f = s.cuRead.endHeaders d hs)) := by
  have hlength : queueIds.length = 6 := rfl
  unfold State.readNext State.readHeader
  simp only [hw, hq, queueIds_getElem, hlength]
  refine ⟨fun ho => ?_, fun ho => ?_⟩
  · rw [State.cuMayRead_of_overlaps ho, if_neg Bool.false_ne_true]
  · rw [if_pos (State.cuMayRead_of_clear ho)]
    exact ⟨fun hf => if_pos hf, fun hf h => by rw [if_neg hf, if_pos (by omega)],
      fun hf h => by rw [if_neg hf, if_neg (by omega)]⟩

/-! ## The entries (R165) -/

/-- One read of the entry phase (R138, R165). -/
theorem State.readNext_entries_cases {d : StartData} {hs : List QHeader} {read : List RingEntry} {q : Fin 6} {k : Nat}
    {s : State} (hw : s.cu.work = .entries d hs read) (hx : (entrySites hs)[read.length]? = some (q, k))
    (f : Option ReadSite) :
    let pos : Nat := entryPos d.tables.descs[q].capacity (headerOf hs q) k
    let a : Nat := d.tables.descs[q].entryAddr pos
    let e : EntryRead := Memory.entry s.cuRead.memory a
    let checked : Option Nat := checkEntry d.tables.areas d.images (read.map (·.position.ticket)) q e
    (overlapsForward s.fwd a 16 = true → s.readNext f = s) ∧
    (overlapsForward s.fwd a 16 = false →
      (f = some (.ringEntry q k) → s.readNext f = s.cuRead.failStart d.seq ringFault) ∧
      (f ≠ some (.ringEntry q k) →
        (∀ n, checked = some n → s.readNext f = s.cuRead.failStart d.seq (checkFail n q)) ∧
        (checked = none → s.readNext f = s.cuRead.toEntries d hs (read ++ [e.entered q pos])))) := by
  intro pos a e checked
  unfold State.readNext State.readEntry
  simp only [hw, hx]
  refine ⟨fun ho => ?_, fun ho => ?_⟩
  · rw [State.cuMayRead_of_overlaps ho, if_neg Bool.false_ne_true]
  · rw [if_pos (State.cuMayRead_of_clear ho)]
    refine ⟨fun hf => if_pos hf, fun hf => ?_⟩
    rw [if_neg hf]
    refine ⟨fun n hn => ?_, fun hn => ?_⟩
    · change (match checked with | some c => _ | none => _) = _
      rw [hn]
    · change (match checked with | some c => _ | none => _) = _
      rw [hn]

/-! ## The reservations (R78, R102, R166) -/

theorem Bu.bin_loaded (bu : Bu) (fresh : Bool) (images : Map BinImage) (b : Nat) :
    (bu.loaded fresh images).bin b = Map.getD Bin.reset (loadBins fresh images) b := by
  unfold Bu.bin Bu.loaded
  dsimp only

theorem reservationsFit_loaded (ru : Ru) (bu : Bu) (images : Map BinImage) (l : List RingEntry) :
    reservationsFit { ru with table := [], deadlines := [] } (bu.loaded false images) l ↔
      l.length ≤ 1024 ∧ (l.map (·.position.id)).Nodup ∧
      ∀ b, madeFor l b = 0 ∨ (Map.getD Bin.reset (loadBins false images) b).occupied + madeFor l b ≤ 255 := by
  simp only [reservationsFit, Bu.bin_loaded, loadBins_reserved, Nat.add_zero, List.length_nil, Nat.zero_add, List.not_mem_nil,
    false_imp_iff, implies_true, true_and]

/-- What START_RESTORE builds when every LIVE entry of Q0 and Q1 fits (R123, R166, R167). -/
theorem State.endEntries_of_fits {d : StartData} {hs : List QHeader} {read : List RingEntry} {s : State}
    (h : reservationsFit { s.ru with table := [], deadlines := [] } (s.bu.loaded false d.images) (restockLive read)) :
    ∃ bins, s.endEntries d hs read = { s with
        qu := rebuildQueues hs read
        ru := { s.ru with table := (restockLive read).map (·.reservation), deadlines := [] }
        bu := { s.bu with bins := bins, avail := [], imageQueue := [] }
        cu := { s.cu with
          work := .startSwitch
            { data := d, detail := BitVec.ofNat 32 (restockLive read).length
              counter := freeTicket (rebuildQueues hs read).queues
                (if d.tables.ticketImage = 4294967295 then 1 else d.tables.ticketImage + 1) } } } ∧
      ∀ b, Map.getD Bin.reset bins b
        = { Map.getD Bin.reset (loadBins false d.images) b with reserved := madeFor (restockLive read) b } := by
  obtain ⟨v, hmade, hv, hbins⟩ := recreate_of_fits read _ _ 0 h
  obtain ⟨bins, zones, avail, queue, flight⟩ := v
  obtain ⟨_, rfl, rfl, rfl, rfl⟩ := (Bu.mk.injEq ..).mp hv
  refine ⟨bins, ?_, fun b => ?_⟩
  · unfold State.endEntries
    rw [hmade, Nat.zero_add, ticketAfter_eq]
    dsimp only [State.awaitSwitch, State.working, Bu.loaded, Ru.withRestored, List.nil_append]
  · have hbin := hbins b
    rw [Bu.bin_loaded, loadBins_reserved, Nat.zero_add] at hbin
    exact hbin

theorem State.endEntries_of_error {d : StartData} {hs : List QHeader} {read : List RingEntry} {s : State} {n : Nat}
    (h : recreate read ({ s.ru with table := [], deadlines := [] }, s.bu.loaded false d.images, 0)
      = .error { result := .restoreFailed, detail := n }) :
    s.endEntries d hs read = s.clearStart.answers (report d.seq .restoreFailed (BitVec.ofNat 32 n)) := by
  unfold State.endEntries
  rw [h]
  rfl

/-- The first entry that does not fit ends the start (R166). -/
theorem State.endEntries_of_first {d : StartData} {hs : List QHeader} {read before after : List RingEntry} {e : RingEntry}
    {s : State} (hl : restockLive read = before ++ e :: after)
    (h : reservationsFit { s.ru with table := [], deadlines := [] } (s.bu.loaded false d.images) before) :
    let failed (n : Nat) : State := s.clearStart.answers (report d.seq .restoreFailed (BitVec.ofNat 32 n))
    (before.length = 1024 → s.endEntries d hs read = failed 7) ∧
    (before.length < 1024 → e.position.id ∈ before.map (·.position.id) → s.endEntries d hs read = failed 8) ∧
    (before.length < 1024 → e.position.id ∉ before.map (·.position.id) →
      255 ≤ (Map.getD Bin.reset (loadBins false d.images) e.bin).occupied + madeFor before e.bin →
      s.endEntries d hs read = failed 9) := by
  obtain ⟨hfull, htwice, hcount⟩ := recreate_of_first read _ _ 0 before after e hl h
  simp only [List.length_nil, Nat.zero_add, List.not_mem_nil, false_and, exists_false, false_or, false_imp_iff,
    implies_true, true_imp_iff] at hfull htwice hcount
  refine ⟨fun h7 => State.endEntries_of_error (hfull h7), fun h8 hid => State.endEntries_of_error (htwice h8 hid),
    fun h9 hid hbin => State.endEntries_of_error (hcount h9 hid ?_)⟩
  rw [Bu.bin_loaded, loadBins_reserved, Nat.add_zero]
  exact hbin

/-! ## The whole of START_RESTORE -/

theorem List.notMem_map_take {α β : Type} {g : α → β} {l : List α} (hn : (l.map g).Nodup) {k : Nat} {a : α}
    (h : l[k]? = some a) : g a ∉ (l.take k).map g := by
  rw [List.map_take]
  intro hm
  refine List.disjoint_take_drop hn (Nat.le_refl k) hm ?_
  refine List.mem_of_getElem? (i := 0) ?_
  rw [List.getElem?_drop, Nat.add_zero, List.getElem?_map, h, Option.map_some]

theorem QDesc.entryAddr_in_ring {d : QDesc} {pos : Nat} (h : pos < d.capacity) :
    d.ringBase ≤ d.entryAddr pos ∧ d.entryAddr pos + 16 ≤ d.ringBase + d.ringLen := by
  simp only [QDesc.entryAddr, QDesc.ringLen, Config.hdrBytes, Config.entryBytes]
  omega

theorem entriesIn_getElem? {d : Memory} {descs : Vector QDesc 6} {hs : List QHeader} {k : Nat} {x : Fin 6 × Nat}
    (hx : (entrySites hs)[k]? = some x) : (entriesIn d descs hs)[k]?
      = some ((entryIn d descs hs x).entered x.1 (entryPos descs[x.1].capacity (headerOf hs x.1) x.2)) := by
  unfold entriesIn
  rw [List.getElem?_map, hx, Option.map_some]

/-- The entries of the rings as DRAM holds them all pass their checks (R165). -/
structure EntriesSound (d : Memory) (cb : Nat) (t : Tables) (hs : List QHeader) (l : List RingEntry) : Prop where
  headers : ∀ q : Fin 6, (headerOf hs q).check t.descs[q].capacity = none
  states : ∀ x ∈ entrySites hs, (entryIn d t.descs hs x).state = 1 ∨ (entryIn d t.descs hs x).state = 2
  tickets : ∀ e ∈ l, e.position.ticket ≠ 0
  ticketsDiffer : (l.map (·.position.ticket)).Nodup
  slots : ∀ e ∈ restockLive l,
    ∃ a, t.areas[e.position.id.area]? = some a ∧ a.valid = true ∧ e.position.id.slot < a.slots
  bins : ∀ e ∈ restockLive l, e.bin < 2048 ∧ (Memory.binImage d (cb + 4096 + 8 * e.bin)).state ≠ 3

theorem EntriesSound.checkEntry {d : Memory} {cb : Nat} {t : Tables} {hs : List QHeader} {l : List RingEntry}
    (h : EntriesSound d cb t hs l) (hl : l = entriesIn d t.descs hs) {images : Map BinImage} (himages : imagesAre d cb 256 images)
    {k : Nat} {x : Fin 6 × Nat} (hx : (entrySites hs)[k]? = some x) :
    Machine.checkEntry t.areas images ((l.take k).map (·.position.ticket)) x.1 (entryIn d t.descs hs x) = none := by
  set e := entryIn d t.descs hs x with he
  have hentered : l[k]? = some (e.entered x.1 (entryPos t.descs[x.1].capacity (headerOf hs x.1) x.2)) := by
    rw [hl]
    exact entriesIn_getElem? hx
  have hmem := List.mem_of_getElem? hentered
  have hstate : e.state = 1 ∨ e.state = 2 := h.states x (List.mem_of_getElem? hx)
  have hnew : e.ticket ∉ (l.take k).map (·.position.ticket) := List.notMem_map_take h.ticketsDiffer hentered
  obtain ⟨_, _, hpasses⟩ := checkEntry_spec t.areas images ((l.take k).map (·.position.ticket)) x.1 e
  obtain ⟨hother, hrestock⟩ := hpasses hstate (h.tickets _ hmem) hnew
  by_cases hlive : e.state = 1 ∧ (x.1 = 0 ∨ x.1 = 1)
  · obtain ⟨hone, hq⟩ := hlive
    have hin : e.entered x.1 (entryPos t.descs[x.1].capacity (headerOf hs x.1) x.2) ∈ restockLive l := by
      refine List.mem_filter.2 ⟨hmem, ?_⟩
      simp only [EntryRead.entered, entLive, hone, if_true, decide_true, hq, Bool.and_self]
    obtain ⟨a, ha, hvalid, hslot⟩ := h.slots _ hin
    obtain ⟨hbin, himage⟩ := h.bins _ hin
    obtain ⟨_, hslotOk⟩ := hrestock hone hq
    refine (hslotOk a ha hvalid hslot).2 hbin ?_
    rw [(himages e.bin).1 (show e.bin < 8 * 256 from hbin)]
    exact himage
  · refine hother ?_
    rcases hstate with hone | htwo
    · exact .inr ⟨fun h0 => hlive ⟨hone, .inl h0⟩, fun h1 => hlive ⟨hone, .inr h1⟩⟩
    · exact .inl htwo

end Sys2Proof.Machine
end

section
/-! START_RESTORE served from its beginning to the wait for its switch (R159, R160, R164 to R167). -/

namespace Sys2Proof.Machine

/-- Rings that no forwarded write overlaps, with entries that pass their checks, are read to their end (R138, R165). -/
theorem EntriesSound.entriesPass {s x : State} {t : Tables} {hs : List QHeader} {l : List RingEntry}
    (h : EntriesSound s.dram s.cbBase t hs l) (hl : l = entriesIn s.dram t.descs hs)
    (hrings : ∀ q : Fin 6, overlapsForward s.fwd t.descs[q].ringBase t.descs[q].ringLen = false) {d : StartData}
    (ht : d.tables = t) (himages : imagesAre s.dram s.cbBase 256 d.images) (hdram : x.dram = s.dram) (hfwd : x.fwd = s.fwd) :
    x.entriesPass d hs := by
  intro k e hx
  rw [hdram, hfwd, ht, ← hl]
  have hcount := mem_entrySites hs e (List.mem_of_getElem? hx)
  obtain ⟨_, _, hcap⟩ := QHeader.check_eq_none _ _ (h.headers e.1)
  have hpos : entryPos t.descs[e.1].capacity (headerOf hs e.1) e.2 < t.descs[e.1].capacity := Nat.mod_lt _ (by omega)
  obtain ⟨hlow, hhigh⟩ := QDesc.entryAddr_in_ring hpos
  exact ⟨overlapsForward_part _ _ _ _ _ (hrings e.1) hlow hhigh, h.checkEntry hl himages hx⟩

/-- The reads of START_RESTORE, every one answered OK and within its checks. -/
theorem State.reads_restore {s : State} {seq : Word32} {t : Tables} {hs : List QHeader} {l : List RingEntry}
    (hw : s.cu.work = .tables .restore seq 0 TablesRead.none) (hf : overlapsForward s.fwd s.cbBase 20480 = false)
    (hr : s.readsDram) (ht : (tablesIn s.dram s.cbBase .restore).check s.cbBase = .ok t)
    (hok : ∀ b, b < 2048 → (Memory.binImage s.dram (binImageAddr s.cbBase b)).ok = true)
    (hrings : ∀ q : Fin 6, overlapsForward s.fwd t.descs[q].ringBase t.descs[q].ringLen = false)
    (hhs : hs = headersIn s.dram t.descs) (hl : l = entriesIn s.dram t.descs hs)
    (hsound : EntriesSound s.dram s.cbBase t hs l) :
    ∃ (d : StartData) (m : Arbiter) (w : CuWork), imagesAre s.dram s.cbBase 256 d.images ∧ d.seq = seq ∧ d.tables = t ∧
      d.mask = BitVec.ofNat 12 (Memory.word s.dram (s.cbBase + 136)).toNat ∧
      State.reads none (270 + l.length) s
        = ({ s with ma := m, cu := { s.cu with work := w } } : State).endEntries d hs l := by
  obtain ⟨images, m1, _, _, hdone1, himages, hreads1⟩ :=
    State.reads_to_images (use := .restore) TableUse.noConfusion hw hf hr ht hok
  rw [tablesIn_mask _ _ TableUse.noConfusion] at hreads1
  let d : StartData :=
    { seq := seq, tables := t, images := images,
      mask := BitVec.ofNat 12 (Memory.word s.dram (s.cbBase + 136)).toNat }
  let x : State := { s with ma := m1, cu := { s.cu with work := .headers d [] } }
  have hx : x.readsDram := State.readsDram_working hr (fun _ => CuWork.noConfusion) hdone1
  have hheader : ∀ q : Fin 6, overlapsForward s.fwd t.descs[q].ringBase 48 = false := fun q =>
    overlapsForward_part _ _ _ _ _ (hrings q) (Nat.le_refl _) (by
      simp only [QDesc.ringLen, Config.hdrBytes]
      omega)
  obtain ⟨m2, w2, hwork2, hdone2, hreads2⟩ := State.reads_headers_end d x rfl hheader hx
  let y : State := { s with ma := m2, cu := { s.cu with work := w2 } }
  have hy : y.readsDram := State.readsDram_working hr hwork2 fun c hc => hdone1 c (hdone2 c hc)
  have hends : y.endHeaders d hs = y.toEntries d hs [] :=
    (State.endHeaders_cases d hs y).2 fun p n hp => by
      rw [hsound.headers p] at hp
      cases hp
  obtain ⟨m3, w3, hreads3⟩ := State.reads_entries_end d hs y
    (hsound.entriesPass hl hrings rfl himages rfl rfl) hy
  refine ⟨d, m3, w3, himages, rfl, rfl, rfl, ?_⟩
  have hlength : l.length = (entrySites hs).length := by rw [hl, length_entriesIn]
  calc State.reads none (270 + l.length) s
      = State.reads none l.length (State.reads none 6 (State.reads none 264 s)) := by
        rw [show 270 + l.length = 264 + (6 + l.length) by omega, State.reads_add, State.reads_add]
    _ = State.reads none l.length (State.reads none 6 x) := by rw [hreads1 d rfl, if_neg TableUse.noConfusion]
    _ = State.reads none l.length (y.endHeaders d hs) := by rw [hreads2, hhs]
    _ = State.reads none l.length (y.toEntries d hs []) := by rw [hends]
    _ = ({ s with ma := m3, cu := { s.cu with work := w3 } } : State).endEntries d hs l := by
        have hentries : entriesIn y.dram d.tables.descs hs = l := hl.symm
        rw [hlength, hreads3, hentries]

/-- The state in which START_RESTORE has begun, given by the mailbox or by AUTOLOAD (R148, R159). -/
theorem exec_startRestore_begins {s : State} {seq : Word32} (hm : s.cu.mode = .init)
    (hstart : (s.atOperation 2 ∧ seq = s.mailbox.seq) ∨ (s.cu.work = .automatic ∧ seq = 0)) (hown : s.noOwnWrite)
    (hcov : s.forwardCovers) :
    ∃ (m : Arbiter) (b : State),
      b = { s with ma := m, cu := { s.cu with work := .tables .restore seq 0 TablesRead.none } } ∧ b.readsDram ∧
      ∀ n f, exec (.startRestore ⟨n, f⟩) s = .next (State.reads f n b) := by
  rcases hstart with ⟨ho, hseq⟩ | ⟨hw, hseq⟩
  · refine ⟨_, s.mailboxFetched.beginTables .restore seq, rfl, State.readsDram_begun hown hcov _ _, fun n f => ?_⟩
    rw [hseq]
    exact exec_readsOf_begin .restore 2 n f s ho ((opAvailable_start _ 2 (by decide)).trans (decide_eq_true hm))
      fun u hu => congrArg Host.Outcome.next (if_neg hu)
  · refine ⟨s.ma, s.beginTables .restore 0, by rw [hseq]; rfl, ?_, fun n f => congrArg Host.Outcome.next (if_pos hw)⟩
    exact State.readsDram_working (w := .tables .restore 0 0 TablesRead.none) ⟨hown, hcov⟩ (fun _ => CuWork.noConfusion)
      fun _ hc => hc

theorem exec_startRestore_reading {s b : State} (h : s.cu.work = .automatic)
    (hb : b = { s with cu := { s.cu with work := .tables .restore 0 0 TablesRead.none } }) (n : Nat) (f : Option ReadSite) :
    exec (.startRestore ⟨0, f⟩) s = .next b ∧ exec (.startRestore ⟨n, f⟩) s = exec (.startRestore ⟨n, f⟩) b := by
  have hreads : ∀ n, exec (.startRestore ⟨n, f⟩) s = .next (State.reads f n b) := fun n => by
    rw [hb]
    exact congrArg Host.Outcome.next (if_pos h)
  refine ⟨hreads 0, (hreads n).trans (exec_readsOf_reading .restore n f b ?_).symm⟩
  rw [hb]
  rfl

theorem reservationsFit_of_images {ru : Ru} {bu : Bu} {images : Map BinImage} {d : Memory} {cb : Nat} {l : List RingEntry}
    (himages : imagesAre d cb 256 images) (hlength : l.length ≤ 1024) (hids : (l.map (·.position.id)).Nodup)
    (hcounts : ∀ b, b < 2048 → (Memory.binImage d (cb + 4096 + 8 * b)).occupied + l.countP (fun e => decide (e.bin = b)) ≤ 255)
    (hbins : ∀ e ∈ l, e.bin < 2048) :
    reservationsFit { ru with table := [], deadlines := [] } (bu.loaded false images) l := by
  refine (reservationsFit_loaded ru bu images l).2 ⟨hlength, hids, fun b => ?_⟩
  by_cases hb : b < 2048
  · refine .inr ?_
    rw [getD_loadBins, if_pos hb, (BinImage.load_spec false _).2.2.1, (himages b).1 (by omega)]
    exact hcounts b hb
  · refine .inl (List.countP_eq_zero.2 fun e he => ?_)
    have := hbins e he
    simp only [decide_eq_true_eq]
    omega

/-- Settles O57: the clauses on one read by its answer and its checks, the whole start by its phases. -/
theorem startRestoreBuilds : Obligations.StartRestoreBuilds := by
  refine ⟨fun _ _ => ⟨rfl, rfl⟩, QHeader.check_spec, checkEntry_spec, fun s n f b => ⟨fun ho hm hb => ?_, fun hw hb => ?_⟩,
    fun s d read q f hw hq => ?_, fun hs => ⟨rfl, fun q h => headerOf_of_read⟩, fun s d hs read q k f hw hx => ?_,
    fun s d hs read => ?_, rebuildQueues_spec, ?_⟩
  · exact exec_readsOf_begun (use := .restore) ho ((opAvailable_start _ 2 (by decide)).trans (decide_eq_true hm))
      (fun _ _ _ hu => congrArg Host.Outcome.next (if_neg hu)) hb n f
  · exact exec_startRestore_reading hw hb n f
  · intro one failed base hs bad
    obtain ⟨hwaits, hready⟩ := State.readNext_headers_cases hw hq f
    have hone : one = .next (s.readNext f) := exec_oneRead (use := .restore) (by rw [hw]; rfl) f
    obtain ⟨hbad, hgood⟩ := State.endHeaders_cases d hs s.cuRead
    rw [hone]
    refine ⟨fun ho => congrArg _ (hwaits ho), fun ho hf => congrArg _ ((hready ho).1 hf), fun ho hf => ?_⟩
    obtain ⟨_, hmore, hend⟩ := hready ho
    refine ⟨fun h => congrArg _ (hmore hf h), fun h => ?_⟩
    rw [hend hf h]
    refine ⟨fun p n hp hfirst => congrArg _ (hbad p n hp hfirst), fun hnone => ?_⟩
    obtain ⟨hentries, hskip⟩ := State.toEntries_cases d hs [] s.cuRead
    rw [hgood hnone]
    exact ⟨fun hne => congrArg _ (hentries (List.length_pos_of_ne_nil hne)),
      fun hnil => congrArg _ (hskip (by rw [hnil]; exact Nat.le_refl _))⟩
  · intro one failed pos a e checked now
    obtain ⟨hwaits, hready⟩ := State.readNext_entries_cases hw hx f
    have hone : one = .next (s.readNext f) := exec_oneRead (use := .restore) (by rw [hw]; rfl) f
    rw [hone]
    refine ⟨fun ho => congrArg _ (hwaits ho), fun ho hf => congrArg _ ((hready ho).1 hf), fun ho hf => ?_⟩
    obtain ⟨hfails, hpasses⟩ := (hready ho).2 hf
    obtain ⟨hmore, hend⟩ := State.toEntries_cases d hs now s.cuRead
    exact ⟨fun n hn => congrArg _ (hfails n hn), fun hn hlength => congrArg _ ((hpasses hn).trans (hmore hlength)),
      fun hn hlength => congrArg _ ((hpasses hn).trans (hend (Nat.le_of_eq hlength.symm)))⟩
  · intro live reserved loaded made fits failed
    have hfits := fun l => (reservationsFit_loaded s.ru s.bu d.images l).2
    refine ⟨fun h => ?_, fun before e after hlive h => State.endEntries_of_first hlive (hfits before h)⟩
    obtain ⟨bins, heq, hbins⟩ := State.endEntries_of_fits (hs := hs) (hfits live h)
    exact ⟨_, heq, rfl, hbins, rfl⟩
  · intro s seq t hm hstart hown hcov hf ht hok hrings hs l live hhs hl hlive hcheck hstates htickets hdiffer hslots hbins
      hlength hids hcounts
    subst hlive
    obtain ⟨m0, b, hb, hreadsDram, hexec⟩ := exec_startRestore_begins hm hstart hown hcov
    have hwork : b.cu.work = .tables .restore seq 0 TablesRead.none := by rw [hb]
    have hcb : b.cbBase = s.cbBase := State.cbBase_congr (by rw [hb])
    have hdram : b.dram = s.dram := by rw [hb]
    have hfwd : b.fwd = s.fwd := by rw [hb]
    obtain ⟨d, m, w, himages, hseq, htables, hmask, hreads⟩ := State.reads_restore (s := b) (t := t) (hs := hs) (l := l) hwork
      (by rw [hcb, hfwd]; exact hf) hreadsDram (by rw [hdram, hcb]; exact ht) (by rw [hdram, hcb]; exact hok)
      (by rw [hfwd]; exact hrings) (by rw [hdram]; exact hhs) (by rw [hdram]; exact hl)
      (by rw [hdram, hcb]; exact ⟨hcheck, hstates, htickets, hdiffer, hslots, hbins⟩)
    rw [hdram, hcb] at himages hmask
    obtain ⟨bins, hbuilt, hloaded⟩ := State.endEntries_of_fits (d := d) (hs := hs) (read := l)
      (s := { b with ma := m, cu := { b.cu with work := w } })
      (reservationsFit_of_images himages hlength hids hcounts fun e he => (hbins e he).1)
    refine ⟨d, m, _, fun c hc => (himages c).1 (by omega), hseq, htables, hmask, hexec _ _, ?_⟩
    rw [hreads, hbuilt, hb, htables]
    refine ⟨rfl, hloaded, fun q => ?_⟩
    rw [hl]
    exact entriesIn_filter s.dram t.descs hs q (hcheck q)

end Sys2Proof.Machine
end

section
/-! The switch of a start (R72, R123, R134, R151, R168). -/

namespace Sys2Proof.Machine

/-! ## The header writes of the queues -/

theorem State.setQueue_self (q : Fin 6) (s : State) : s.setQueue q (s.queue q) = s := by
  unfold State.setQueue State.queue
  rw [show s.qu.queues.set q s.qu.queues[q] = s.qu.queues from Vector.set_getElem_self _]

/-- The header writes of some queues join the write queue without a change of the queues. -/
theorem foldl_joinHeader_eq (l : List (Fin 6)) (s : State) : l.foldl (fun u q => u.joinQu (.header q)) s
    = l.foldl (fun u q => (u.setQueue q (id (u.queue q))).joinQu (.header q)) s := by
  simp only [id, State.setQueue_self]

/-- A queue whose header write joins has it queued from then on. -/
theorem foldl_changeQueue_queued (f : QState → QState) (l : List (Fin 6)) (s : State) :
    (∀ i, s.queued i → (l.foldl (fun u q => (u.setQueue q (f (u.queue q))).joinQu (.header q)) s).queued i) ∧
    ∀ q ∈ l, (l.foldl (fun u q => (u.setQueue q (f (u.queue q))).joinQu (.header q)) s).queued (.header q) := by
  induction l generalizing s with
  | nil => exact ⟨fun _ h => h, fun q h => absurd h List.not_mem_nil⟩
  | cons p r ih =>
    obtain ⟨hkeeps, hjoins⟩ := ih ((s.setQueue p (f (s.queue p))).joinQu (.header p))
    refine ⟨fun i h => hkeeps i (State.joinQu_still_queued _ _ _ h), fun q hq => ?_⟩
    rcases List.mem_cons.1 hq with rfl | hq
    · exact hkeeps _ (State.joinQu_queued _ _)
    · exact hjoins q hq

theorem mem_queueIds (q : Fin 6) : q ∈ queueIds := by
  revert q
  decide

theorem queueIds_nodup : queueIds.Nodup := by decide

/-! ## The head clean-up of every queue (R123) -/

theorem getElem_foldl_set (g : Fin 6 → QState → QState) (l : List (Fin 6)) (hl : l.Nodup) (v : Vector QState 6) (q : Fin 6) :
    (l.foldl (fun v (p : Fin 6) => v.set p (g p v[p])) v)[q] = if q ∈ l then g q v[q] else v[q] := by
  induction l generalizing v with
  | nil => simp
  | cons p r ih =>
    obtain ⟨hp, hr⟩ := List.nodup_cons.1 hl
    have hset : (v.set p (g p v[p]))[q] = if p = q then g p v[p] else v[q] := by
      refine (Vector.getElem_set p.isLt q.isLt).trans ?_
      simp only [Fin.val_inj]
      rfl
    rw [List.foldl_cons, ih hr, hset]
    by_cases hpq : p = q
    · subst hpq
      simp [hp]
    · simp [hpq, Ne.symm hpq]

theorem getElem_cleanAll (descs : Vector QDesc 6) (queues : Vector QState 6) (q : Fin 6) :
    (cleanAll descs queues)[q] = queues[q].cleanHead descs[q].capacity := by
  refine (getElem_foldl_set (fun p v => v.cleanHead descs[p].capacity) queueIds queueIds_nodup queues q).trans ?_
  rw [if_pos (mem_queueIds q)]

/-! ## The image writes (R85, R87) -/

/-- The issue at the bin unit, whatever stands there (R85). -/
theorem State.kickImages_parts (s : State) : ∃ flight queue work,
    s.kickImages = { s with
      bu := { s.bu with imageQueue := queue, imageInFlight := flight }
      cu := { s.cu with work := work }
      ma := { s.ma with
        own := s.ma.own ++ (if s.bu.imageInFlight = none ∧ s.bu.imageQueue ≠ [] then [.imageWrite] else []) } } ∧
    (s.bu.imageInFlight = none → (flight.map (·.bin)).toList ++ queue = s.bu.imageQueue) ∧
    ∀ b r, s.bu.imageInFlight = none → s.bu.imageQueue = b :: r →
      flight = some { bin := b, cells := cellsAt (s.cbBase + 4096 + 8 * b) (binImageBytes (s.bu.bin b)) } := by
  by_cases hf : s.bu.imageInFlight = none
  · have hma : (if s.bu.imageQueue = [] then s.ma else s.ma.ask .imageWrite) = { s.ma with
        own := s.ma.own ++ (if s.bu.imageInFlight = none ∧ s.bu.imageQueue ≠ [] then [.imageWrite] else []) } := by
      by_cases hq : s.bu.imageQueue = []
      · simp only [hf, hq, if_true, ne_eq, not_true_eq_false, and_false, if_false, List.append_nil]
      · simp only [hf, hq, if_false, ne_eq, not_false_eq_true, and_self, if_true]
        rfl
    rw [State.kickImages_eq hf rfl, hma]
    refine ⟨_, _, _, rfl, fun _ => ?_, fun b r _ hq => ?_⟩
    · cases s.bu.imageQueue <;> rfl
    · rw [hq]
      rfl
  · refine ⟨s.bu.imageInFlight, s.bu.imageQueue, s.cu.work, ?_, fun h => absurd h hf, fun b r h => absurd h hf⟩
    obtain ⟨f, hf'⟩ := Option.ne_none_iff_exists'.1 hf
    unfold State.kickImages
    simp only [hf', reduceCtorEq, false_and, if_false, List.append_nil]
    rw [← hf']

theorem changedBins_eq (u : Bu) (images : Map BinImage) : changedBins u.bins images = (List.range 2048).filter (fun b =>
    decide ((u.bin b).image ≠ Map.getD BinImage.zero images b)) := by
  have hbins : Config.bins = 2048 := rfl
  unfold changedBins Bu.bin
  rw [hbins]

/-- Lists built anew hold the eligible bins in ascending bin number (R72). -/
theorem Bu.list_of_buildLists {u : Bu} {zones : List Zone} {s : State} (h : u.avail = buildLists zones s.bu.bins) (c : Nat)
    (k : ZoneKind) : u.list (listKey c k) = (List.range 2048).filter (fun b =>
      decide ((s.bu.bin b).state = .opened ∧ 0 < (s.bu.bin b).free ∧ kindOf zones b = some k ∧ (s.bu.bin b).cls = c)) := by
  unfold Bu.list
  rw [h]
  exact buildLists_eq_filter zones s c k

/-! ## The switch (R168) -/

theorem State.avail_switched (p : StartPlan) (s : State) :
    (s.switched p).bu.avail = buildLists p.data.tables.zones s.bu.bins := by
  dsimp only [State.switched]

theorem exec_startSwitch {s : State} {p : StartPlan} (hw : s.cu.work = .startSwitch p) :
    (0 < s.buffered → exec .startSwitch s = .next s) ∧
    (s.buffered = 0 → exec .startSwitch s
      = .next (((s.switched p).afterSwitch p).releaseStalls Stall.isPosting).finish) := by
  refine ⟨fun hb => congrArg Host.Outcome.next ?_, fun hb => congrArg Host.Outcome.next ?_⟩
  · simp only [hw]
    exact if_neg (by omega)
  · simp only [hw]
    exact if_pos hb

/-- The units after the writes that follow the switch are queued and the stalled writes are ready again. -/
theorem State.afterSwitch_spec (p : StartPlan) (s : State) : ∃ qu flight queue,
    ((s.switched p).afterSwitch p).releaseStalls Stall.isPosting = { s.switched p with
      qu := qu
      bu := { (s.switched p).bu with imageQueue := queue, imageInFlight := flight }
      cu := { s.cu with
        mode := .run
        work := .result
          { seq := some p.data.seq, result := .ok, detail := p.detail, prior := .echo .run, after := .nothing } }
      ma := { s.ma with own := s.ma.own ++ (if s.qu.inFlight = none then [.queueWrite] else [])
        ++ (if s.bu.imageInFlight = none ∧ changedBins s.bu.bins p.data.images ≠ [] then [.imageWrite] else [])
        ++ [.cuWrite] }
      portA := s.portA.restage (fun st => if st = .stalled .postingStopped then .waiting else st)
      portB := s.portB.restage (fun st => if st = .stalled .postingStopped then .waiting else st) } ∧
    qu.lastTicket = s.qu.lastTicket ∧
    (∀ q : Fin 6, qu.queues[q] = (s.queue q).cleanHead p.data.tables.descs[q].capacity) ∧
    (∀ q, QuItem.header q ∈ qu.waiting ∨ ∃ f, qu.inFlight = some f ∧ f.item = .header q) ∧
    (s.qu.waiting = [] → s.qu.inFlight = none →
      qu.inFlight = some
        { item := .header 0, cells := cellsAt p.data.tables.descs[(0 : Fin 6)].ringBase
            (headerBytes ((s.queue 0).cleanHead p.data.tables.descs[(0 : Fin 6)].capacity)) } ∧
      qu.waiting = [.header 1, .header 2, .header 3, .header 4, .header 5]) ∧
    (s.bu.imageInFlight = none → (flight.map (·.bin)).toList ++ queue = changedBins s.bu.bins p.data.images) ∧
    ∀ b r, s.bu.imageInFlight = none → changedBins s.bu.bins p.data.images = b :: r →
      flight = some { bin := b, cells := cellsAt (s.cbBase + 4096 + 8 * b) (binImageBytes (s.bu.bin b)) } := by
  obtain ⟨qu, heq, hticket, _, _, hqueues⟩ := foldl_changeQueue_spec id queueIds (s.switched p)
  have hclean : ∀ q : Fin 6, (s.switched p).queue q = (s.queue q).cleanHead p.data.tables.descs[q].capacity :=
    fun q => getElem_cleanAll p.data.tables.descs s.qu.queues q
  have hqueued := (foldl_changeQueue_queued id queueIds (s.switched p)).2
  have hfirst := foldl_changeQueue_first id 0 [1, 2, 3, 4, 5] (s.switched p) p.data.tables.descs[(0 : Fin 6)]
    queueIds_nodup rfl
  rw [heq] at hqueued
  change s.qu.inFlight = none → s.qu.waiting = [] → _ at hfirst
  rw [show (0 :: [1, 2, 3, 4, 5] : List (Fin 6)) = queueIds from rfl, heq, hclean] at hfirst
  obtain ⟨x, hx⟩ : ∃ x : State, x = { s.switched p with
    qu := qu, ma := { s.ma with own := s.ma.own ++ (if s.qu.inFlight = none then [.queueWrite] else []) } } := ⟨_, rfl⟩
  have hjoined : queueIds.foldl (fun u q => u.joinQu (.header q)) (s.switched p) = x := by
    rw [foldl_joinHeader_eq, heq, hx]
    simp only [ne_eq, queueIds, List.cons_ne_nil, not_false_eq_true, and_true]
    rfl
  have hcb : x.cbBase = s.cbBase := State.cbBase_congr (by rw [hx]; rfl)
  obtain ⟨flight, queue, work, hkick, hlist, hhead⟩ := x.kickImages_parts
  rw [hcb] at hhead
  have hbu : x.bu = (s.switched p).bu := by rw [hx]
  have hqueue : (s.switched p).bu.imageQueue = changedBins s.bu.bins p.data.images := by dsimp only [State.switched]
  have hflight : (s.switched p).bu.imageInFlight = s.bu.imageInFlight := rfl
  rw [hbu, hqueue, hflight] at hlist hhead hkick
  refine ⟨qu, flight, queue, ?_, hticket, fun q => (hqueues queueIds_nodup q (mem_queueIds q)).trans (hclean q),
    fun q => hqueued q (mem_queueIds q), fun hw hf => hfirst hf hw, hlist, hhead⟩
  rw [State.releaseStalls_posting]
  unfold State.afterSwitch
  dsimp only
  rw [hjoined, hkick, hx]
  dsimp only [State.switched, State.startResult, ResultWrite.request, Arbiter.ask]

/-- Settles O58: with the buffer empty, the switch unit by unit. -/
theorem startSwitchPutsInForce : Obligations.StartSwitchPutsInForce := by
  intro s p hw
  obtain ⟨hwaits, hexec⟩ := exec_startSwitch hw
  refine ⟨hwaits, fun hb => ?_⟩
  obtain ⟨qu, flight, queue, heq, hticket, hqueues, hqueued, hfirst, hlist, hhead⟩ := s.afterSwitch_spec p
  rw [heq] at hexec
  refine ⟨_, hexec hb, rfl, (State.quietly_finish _).1, rfl, rfl, rfl, rfl, rfl,
    fun c k => ?_, rfl, hqueues, hlist, hhead, changedBins_eq s.bu _, hqueued,
    fun hw hf => ?_, hticket, rfl, rfl, fun q => ?_, rfl, rfl, rfl, rfl⟩
  · refine Bu.list_of_buildLists ?_ c k
    dsimp only
    exact s.avail_switched p
  · obtain ⟨hflight, hwaiting⟩ := hfirst hw hf
    refine ⟨?_, ?_⟩
    · show (qu.inFlight.map (·.item)).toList ++ qu.waiting = _
      rw [hflight, hwaiting]
      rfl
    · refine hflight.trans ?_
      rw [← hqueues 0]
      rfl
  · cases q <;> rfl

end Sys2Proof.Machine
end

section
/-! The switch of a RELOAD (R39, R72, R124, R134, R135, R155). -/

namespace Sys2Proof.Machine

/-! ## The tests of a RELOAD (R154) -/

theorem State.reloadRefusal_cases (t : Tables) (s : State) :
    (∀ q, s.busyQueue t.descs = some q → s.reloadRefusal t = some (.queueBusy, q.val)) ∧
    (∀ i, s.busyQueue t.descs = none → s.busyArea t.areas = some i → s.reloadRefusal t = some (.areaBusy, i.val)) ∧
    (s.busyQueue t.descs = none → s.busyArea t.areas = none → s.reloadRefusal t = none) := by
  unfold State.reloadRefusal
  exact ⟨fun q hq => by rw [hq], fun i hq hi => by rw [hq, hi], fun hq hi => by rw [hq, hi]⟩

/-! ## The resume of the item command unit (R39) -/

/-- The item command unit `icu` and its request `fetch` when a paused unit `old` is resumed under a layout, in a mode. -/
def Icu.resumes (old : Icu) (mode : Mode) (l : Layout) (icu : Icu) (fetch : List OwnReq) : Prop :=
  ((old.cq = [] ∨ (mode ≠ .run ∧ mode ≠ .frozen)) →
    icu = { old with pauseAsked := false, stage := .idle } ∧ fetch = []) ∧
  ∀ e r, old.cq = e :: r → (mode = .run ∨ mode = .frozen) →
    icu = { old with
      pauseAsked := false
      cq := r
      stage := .fetching { entry := e, frozen := decide (mode = .frozen), addr := l.slotAddr e.slot } } ∧
    fetch = (if l.slotAddr e.slot = none then [] else [OwnReq.fetch])

theorem State.resumeIcu_spec {s : State} (h : s.icu.stage = .paused) : ∃ icu fetch,
    s.icu.resumes s.cu.mode s.layout icu fetch ∧
    s.resumeIcu = { s with icu := icu, ma := { s.ma with own := s.ma.own ++ fetch } } := by
  rw [State.resumeIcu_of_paused s h]
  by_cases hwaits : s.icu.cq = [] ∨ (s.cu.mode ≠ .run ∧ s.cu.mode ≠ .frozen)
  · refine ⟨{ s.icu with pauseAsked := false, stage := .idle }, [], ⟨fun _ => ⟨rfl, rfl⟩, fun e r hcq hm => ?_⟩, ?_⟩
    · rcases hwaits with hnil | ⟨hrun, hfrozen⟩
      · rw [hcq] at hnil
        cases hnil
      · exact absurd hm (not_or.2 ⟨hrun, hfrozen⟩)
    · rw [List.append_nil]
      exact State.takeNext_waits _ (.inr hwaits)
  · obtain ⟨hne, hserves⟩ := not_or.1 hwaits
    obtain ⟨e, r, hcq⟩ := List.exists_cons_of_ne_nil hne
    have hm : s.cu.mode = .run ∨ s.cu.mode = .frozen := by
      by_contra hno
      exact hserves (not_or.1 hno)
    refine ⟨_, _, ⟨fun hw => absurd hw hwaits, fun e' r' hcq' _ => ?_⟩, State.takeNext_takes _ e r rfl hm hcq⟩
    rw [hcq] at hcq'
    obtain ⟨rfl, rfl⟩ := List.cons.inj hcq'
    exact ⟨rfl, rfl⟩

/-- The end of a RELOAD's wait (R39, R134, R135, R155). -/
theorem State.endReload_spec {s : State} (h : s.icu.stage = .paused) (seq : Word32) (res : MbResult) (n : Nat) : ∃ icu fetch,
    s.icu.resumes s.cu.mode s.layout icu fetch ∧
    s.endReload seq res n = ({ s with
      icu := icu
      cu := { s.cu with work := .result (report seq res (BitVec.ofNat 32 n)) }
      ma := { s.ma with own := s.ma.own ++ fetch ++ [OwnReq.result] }
      portA := s.portA.restage (fun st => if st = Stage.stalled .postingStopped then .waiting else st)
      portB := s.portB.restage (fun st => if st = Stage.stalled .postingStopped then .waiting else st) } : State).finish := by
  obtain ⟨icu, fetch, hresumes, heq⟩ := State.resumeIcu_spec h
  refine ⟨icu, fetch, hresumes, ?_⟩
  unfold State.endReload
  rw [heq, State.releaseStalls_posting]
  rfl

/-! ## The switch (R72, R124, R155) -/

theorem exec_reloadSwitch {s : State} {seq : Word32} {t : Tables} (hw : s.cu.work = .reloadSwitch seq t) :
    ((0 < s.buffered ∨ s.icu.stage ≠ .paused) → exec .reloadSwitch s = .next s) ∧
    (s.buffered = 0 → s.icu.stage = .paused →
      (∀ res n, s.reloadRefusal t = some (res, n) → exec .reloadSwitch s = .next (s.endReload seq res n)) ∧
      (s.reloadRefusal t = none → exec .reloadSwitch s
        = .next ((s.reloaded t).endReload seq .ok (if t.zones = s.bu.zones then 0 else 1)))) := by
  refine ⟨fun h => congrArg Host.Outcome.next ?_, fun hb hp => ⟨fun res n hr => congrArg Host.Outcome.next ?_,
    fun hr => congrArg Host.Outcome.next ?_⟩⟩
  · simp only [hw]
    refine if_neg fun ⟨hb, hp⟩ => ?_
    rcases h with h | h
    · omega
    · exact h hp
  · simp only [hw, hb, hp, and_self, if_true, hr]
  · simp only [hw, hb, hp, and_self, if_true, hr]

theorem State.mem_changedQueues (descs : Vector QDesc 6) (s : State) (q : Fin 6) :
    q ∈ s.changedQueues descs ↔ s.desc? q ≠ some descs[q] := by
  unfold State.changedQueues
  simp only [List.mem_filter, mem_queueIds, true_and, decide_eq_true_eq]

theorem State.changedQueues_nodup (descs : Vector QDesc 6) (s : State) : (s.changedQueues descs).Nodup :=
  queueIds_nodup.filter _

/-- The queue unit and the own side's requests after the queues whose descriptors change are laid anew (R124). -/
theorem State.reloaded_spec (t : Tables) (s : State) : ∃ qu : Qu,
    s.reloaded t = { s.tablesInForce t with
      qu := qu
      ma := { s.ma with
        own := s.ma.own ++ (if s.qu.inFlight = none ∧ s.changedQueues t.descs ≠ [] then [.queueWrite] else []) } } ∧
    qu.lastTicket = s.qu.lastTicket ∧ (s.changedQueues t.descs = [] → qu = s.qu) ∧
    (∀ q : Fin 6, s.desc? q = some t.descs[q] → qu.queues[q] = s.queue q) ∧
    (∀ q : Fin 6, s.desc? q ≠ some t.descs[q] → qu.queues[q] = (s.queue q).relaid true ∧
      (QuItem.header q ∈ qu.waiting ∨ ∃ f, qu.inFlight = some f ∧ f.item = .header q)) ∧
    (s.qu.inFlight ≠ none → qu.inFlight = s.qu.inFlight ∧
      qu.waiting = s.qu.waiting
        ++ ((s.changedQueues t.descs).map QuItem.header).filter (fun i => decide (i ∉ s.qu.waiting))) ∧
    ∀ q l, s.qu.inFlight = none → s.qu.waiting = [] → s.changedQueues t.descs = q :: l →
      qu.inFlight = some
        { item := .header q, cells := cellsAt t.descs[q].ringBase (headerBytes ((s.queue q).relaid true)) } ∧
      qu.waiting = l.map QuItem.header := by
  obtain ⟨qu, heq, hticket, hnone, hkept, hchanged⟩ :=
    foldl_changeQueue_spec (QState.relaid true) (s.changedQueues t.descs) (s.tablesInForce t)
  have hnodup := s.changedQueues_nodup t.descs
  have hmem := s.mem_changedQueues t.descs
  have hqueued := (foldl_changeQueue_queued (QState.relaid true) (s.changedQueues t.descs) (s.tablesInForce t)).2
  have hbehind := (foldl_joinHeader_spec (fun q u => u.setQueue q ((u.queue q).relaid true)) (fun _ _ => ⟨rfl, rfl⟩)
    (s.changedQueues t.descs) (s.tablesInForce t) hnodup).1
  rw [heq] at hqueued hbehind
  refine ⟨qu, (s.reloaded_eq t).trans heq, hticket, hnone, fun q hq => hkept q fun h => (hmem q).1 h hq,
    fun q hq => ⟨hchanged hnodup q ((hmem q).2 hq), hqueued q ((hmem q).2 hq)⟩, fun hf => ?_, fun q l hf hw hcons => ?_⟩
  · obtain ⟨f, hf⟩ := Option.ne_none_iff_exists'.1 hf
    obtain ⟨hflight, hwaiting⟩ := hbehind f hf
    exact ⟨hflight.trans hf.symm, hwaiting⟩
  · have hfirst := foldl_changeQueue_first (QState.relaid true) q l (s.tablesInForce t) t.descs[q] (hcons ▸ hnodup) rfl hf hw
    rw [← hcons, heq] at hfirst
    exact hfirst

/-- Settles O60: the switch waits, is refused, or puts the tables in force. -/
theorem reloadSwitchPutsInForce : Obligations.ReloadSwitchPutsInForce := by
  refine ⟨fun s t => s.reloadRefusal_cases t, fun s seq t hw => ?_⟩
  intro changed
  obtain ⟨hwaits, hready⟩ := exec_reloadSwitch hw
  refine ⟨hwaits, ?_⟩
  intro restarted resumed
  refine ⟨fun res n hb hp hr => ?_, fun hb hp hr => ?_⟩
  · obtain ⟨icu, fetch, hresumes, heq⟩ := State.endReload_spec hp seq res n
    exact ⟨icu, fetch, hresumes, ((hready hb hp).1 res n hr).trans (congrArg Host.Outcome.next heq)⟩
  · obtain ⟨qu, hreloaded, hticket, hsame, hkept, hchanged, hbehind, hfirst⟩ := s.reloaded_spec t
    have hpaused : (s.reloaded t).icu.stage = .paused := by
      rw [hreloaded]
      exact hp
    obtain ⟨icu, fetch, hresumes, heq⟩ := State.endReload_spec hpaused seq .ok (if t.zones = s.bu.zones then 0 else 1)
    have hexec := (hready hb hp).2 hr
    rw [heq, hreloaded] at hexec
    rw [hreloaded] at hresumes
    refine ⟨_, fetch, hexec, hresumes, rfl, ?_, rfl, rfl, rfl, rfl, fun hz => if_pos hz, fun hz => ?_, hkept, hchanged,
      hticket, hsame, hbehind, fun q l hf hw hcons => ?_, rfl, rfl, rfl, rfl, rfl, rfl, rfl⟩
    · show ({ s.cu with work := .result (report seq .ok (BitVec.ofNat 32 (if t.zones = s.bu.zones then 0 else 1))) } : Cu) = _
      split <;> rfl
    · refine Bu.list_of_buildLists ?_
      dsimp only [State.tablesInForce]
      exact if_neg hz
    · obtain ⟨hflight, hwaiting⟩ := hfirst q l hf hw hcons
      have hq : q ∈ s.changedQueues t.descs := by
        rw [show s.changedQueues t.descs = q :: l from hcons]
        exact List.mem_cons_self
      refine ⟨hflight.trans ?_, hwaiting⟩
      rw [← (hchanged q ((s.mem_changedQueues t.descs q).1 hq)).1]
      rfl

end Sys2Proof.Machine
end

section
/-! RELOAD: its reads, its tables and its tests (R1, R19 to R21, R68, R93, R103, R138, R153 to R155). -/

namespace Sys2Proof.Machine

/-! ## The tests of a RELOAD (R154) -/

theorem State.busyQueue_spec (descs : Vector QDesc 6) (s : State) :
    let busy (q : Fin 6) : Prop := s.desc? q ≠ some descs[q] ∧ 0 < (s.queue q).count
    (∀ q, s.busyQueue descs = some q ↔ busy q ∧ ∀ p, p < q → ¬busy p) ∧ (s.busyQueue descs = none ↔ ∀ q, ¬busy q) := by
  intro busy
  have htest : ∀ q, (decide (s.desc? q ≠ some descs[q]) && decide (0 < (s.queue q).count)) = decide (busy q) := fun q =>
    (Bool.decide_and _ _).symm
  unfold State.busyQueue
  simp only [htest]
  refine ⟨fun q => ?_, ?_⟩
  · rw [find?_queueIds]
    simp only [decide_eq_true_eq, decide_eq_false_iff_not]
  · simp only [List.find?_eq_none, mem_queueIds, true_imp_iff, decide_eq_true_eq]

theorem State.areaInUse_iff (area : Nat) (s : State) : s.areaInUse area = true ↔
    (∃ r ∈ s.ru.table, r.id.area = area) ∨ ∃ id ∈ s.busySlots, id.area = area := by
  unfold State.areaInUse
  simp only [Bool.or_eq_true, List.any_eq_true, beq_iff_eq]

theorem mem_areaIds (i : Fin 4) : i ∈ ([0, 1, 2, 3] : List (Fin 4)) := by
  revert i
  decide

theorem State.busyArea_spec (areas : Vector AreaDesc 4) (s : State) :
    let busy (i : Fin 4) : Prop := s.layout.areas[i] ≠ areas[i] ∧
      ((∃ r ∈ s.ru.table, r.id.area = i.val) ∨ ∃ id ∈ s.busySlots, id.area = i.val)
    (∀ i, s.busyArea areas = some i ↔ busy i ∧ ∀ j, j < i → ¬busy j) ∧ (s.busyArea areas = none ↔ ∀ i, ¬busy i) := by
  intro busy
  have htest : ∀ i : Fin 4, (decide (s.layout.areas[i] ≠ areas[i]) && s.areaInUse i.val) = true ↔ busy i := fun i => by
    rw [Bool.and_eq_true, decide_eq_true_eq, State.areaInUse_iff]
  unfold State.busyArea
  refine ⟨fun i => ?_, ?_⟩
  · rw [find?_areas]
    simp only [← Bool.not_eq_true, htest]
  · simp only [List.find?_eq_none, mem_areaIds, true_imp_iff, htest]

theorem State.reloadTests_spec (seq : Word32) (x : Tables) (s : State) :
    (∀ q, s.busyQueue x.descs = some q → s.reloadTests seq x = s.answers (report seq .queueBusy (BitVec.ofNat 32 q.val))) ∧
    (∀ i, s.busyQueue x.descs = none → s.busyArea x.areas = some i →
      s.reloadTests seq x = s.answers (report seq .areaBusy (BitVec.ofNat 32 i.val))) ∧
    (s.busyQueue x.descs = none → s.busyArea x.areas = none →
      s.reloadTests seq x = ({ s with cu := { s.cu with work := .reloadSwitch seq x } } : State).askPause) := by
  obtain ⟨hqueue, harea, hnone⟩ := s.reloadRefusal_cases x
  unfold State.reloadTests
  refine ⟨fun q hq => ?_, fun i hq hi => ?_, fun hq hi => ?_⟩
  · rw [hqueue q hq]
    rfl
  · rw [harea i hq hi]
    rfl
  · rw [hnone hq hi]

/-! ## The tables as they are read (R153) -/

theorem nonzero_eq (b : Byte) : (b.toNat != 0) = decide (b ≠ 0) := by
  have hzero : b.toNat = 0 ↔ b = 0 := BitVec.toNat_eq_nat.trans ⟨fun ⟨_, h⟩ => h, fun h => ⟨by decide, h⟩⟩
  by_cases h : b = 0
  · rw [h]
    rfl
  · rw [decide_eq_true h, bne_iff_ne]
    exact fun h0 => h (hzero.1 h0)

theorem Memory.area_eq (d : Memory) (a : Nat) : Memory.area d a = {
    base := Memory.nat d a 8
    slots := Memory.nat d (a + 8) 4
    trial := decide (Memory.read d (a + 12) ≠ 0)
    valid := decide (Memory.read d (a + 13) ≠ 0) } := by
  unfold Memory.area Memory.byte
  rw [nonzero_eq, nonzero_eq]

/-- The classes read (R19). -/
theorem TablesRead.take_classes (d : Memory) (cb : Nat) (t : TablesRead) :
    ∃ m, t.take d cb (.table 2) = { t with classes := m } ∧
      (m = .none ↔ ∃ k, k < 32 ∧ Memory.classEntry d (cb + 640 + 16 * k) = .none) ∧
      ∀ x k, m = some x → k < 32 → Memory.classEntry d (cb + 640 + 16 * k) = some (Map.at? x k) := by
  refine ⟨_, rfl, ?_, fun x k hx hk => ?_⟩
  · rw [collect_eq_none]
    simp only [List.mem_range]
    rfl
  · exact (collect_eq_some _ _ List.nodup_range x hx).1 k (List.mem_range.2 hk)

theorem mem_capKeys (k : Nat) : k ∈ (List.range 64).tail ↔ 0 < k ∧ k < 64 := by
  have hkeys : (List.range 64).tail = List.range' 1 63 := by decide
  rw [hkeys, List.mem_range'_1]
  omega

/-- The defect caps read (R20). -/
theorem TablesRead.take_caps (d : Memory) (cb : Nat) (t : TablesRead) :
    ∃ m, t.take d cb (.table 3) = { t with caps := m } ∧
      (m = .none ↔ ∃ k, 0 < k ∧ k < 64 ∧ 4 < (Memory.read d (cb + 576 + k)).toNat) ∧
      ∀ x k, m = some x → 0 < k → k < 64 → (Map.getD .A x k).code = (Memory.read d (cb + 576 + k)).toNat := by
  refine ⟨_, rfl, ?_, fun x k hx h0 hk => ?_⟩
  · rw [collect_eq_none]
    simp only [mem_capKeys, (Memory.cap_spec d _).1, and_assoc]
    rfl
  · have hread := (collect_eq_some _ _ (List.nodup_range.sublist (List.tail_sublist _)) x hx).1 k ((mem_capKeys k).2 ⟨h0, hk⟩)
    exact (Memory.cap_spec d _).2 _ hread

/-- The biases read (R21). -/
theorem TablesRead.take_bias (d : Memory) (cb : Nat) (t : TablesRead) :
    ∃ m, t.take d cb (.table 4) = { t with bias := m } ∧
      (m = .none ↔ ∃ k, k < 16 ∧
        ((Memory.read d (cb + 320 + k)).toInt < -32 ∨ 31 < (Memory.read d (cb + 320 + k)).toInt)) ∧
      ∀ x k, m = some x → k < 16 → Map.getD 0 x k = (Memory.read d (cb + 320 + k)).toInt := by
  refine ⟨_, rfl, ?_, fun x k hx hk => ?_⟩
  · rw [collect_eq_none]
    simp only [List.mem_range, (Memory.bias_spec d _).1]
    rfl
  · have hread := (collect_eq_some _ _ List.nodup_range x hx).1 k (List.mem_range.2 hk)
    exact (Memory.bias_spec d _).2 _ hread

/-- The zones read (R68). -/
theorem TablesRead.take_zones (d : Memory) (cb : Nat) (t : TablesRead) :
    ∃ m, t.take d cb (.table 5) = { t with zones := m } ∧
      (m = .none ↔ ∃ k, k < 8 ∧ Memory.zone d (cb + 256 + 4 * k) = .none) ∧
      ∀ x k, m = some x → k < 8 → x[k]? = Memory.zone d (cb + 256 + 4 * k) := by
  obtain ⟨hnone, hsome⟩ := Memory.zoneList_spec d ((List.range 8).map fun i => cb + zonesOff + 4 * i)
  refine ⟨_, rfl, hnone.trans ?_, fun x k hx hk => ?_⟩
  · simp only [List.mem_map, List.mem_range, exists_exists_and_eq_and]
    rfl
  · rw [hsome x hx k (by simpa using hk), List.getElem?_map, List.getElem?_range hk]
    rfl

/-- The item-area descriptors read (12.4). -/
theorem TablesRead.take_areas (d : Memory) (cb : Nat) (t : TablesRead) :
    ∃ v, t.take d cb (.table 6) = { t with areas := v } ∧
      ∀ i : Fin 4, v[i] = { base := Memory.nat d (cb + 192 + 16 * i.val) 8, slots := Memory.nat d (cb + 200 + 16 * i.val) 4,
                            trial := decide (Memory.read d (cb + 204 + 16 * i.val) ≠ 0),
                            valid := decide (Memory.read d (cb + 205 + 16 * i.val) ≠ 0) } := by
  have hlist : ∀ a (i : Fin 4), #v[Memory.area d a, Memory.area d (a + 16), Memory.area d (a + 32), Memory.area d (a + 48)][i]
      = Memory.area d (a + 16 * i.val) := fun a i => by
    match i with
    | 0 | 1 | 2 | 3 => rfl
  refine ⟨_, rfl, fun i => (hlist (cb + areasOff) i).trans ?_⟩
  rw [Memory.area_eq]
  have hmove : ∀ n, cb + areasOff + 16 * i.val + n = cb + (192 + n) + 16 * i.val := fun n => by
    rw [Nat.add_right_comm, ← Nat.add_assoc]
    rfl
  rw [hmove 8, hmove 12, hmove 13]
  rfl

/-- The queue descriptors read (12.4). -/
theorem TablesRead.take_descs (d : Memory) (cb : Nat) (t : TablesRead) :
    ∃ v, t.take d cb (.table 7) = { t with descs := v } ∧
      ∀ q : Fin 6, v[q] = { ringBase := Memory.nat d (cb + 384 + 32 * q.val) 8,
                            viewBase := Memory.nat d (cb + 392 + 32 * q.val) 8,
                            capacity := Memory.nat d (cb + 400 + 32 * q.val) 4,
                            near := Memory.nat d (cb + 404 + 32 * q.val) 4 } := by
  have hlist : ∀ a (q : Fin 6), #v[Memory.qdesc d a, Memory.qdesc d (a + 32), Memory.qdesc d (a + 64),
      Memory.qdesc d (a + 96), Memory.qdesc d (a + 128), Memory.qdesc d (a + 160)][q]
      = Memory.qdesc d (a + 32 * q.val) := fun a q => by
    match q with
    | 0 | 1 | 2 | 3 | 4 | 5 => rfl
  refine ⟨_, rfl, fun q => (hlist (cb + descsOff) q).trans ?_⟩
  unfold Memory.qdesc
  have hmove : ∀ n, cb + descsOff + 32 * q.val + n = cb + (384 + n) + 32 * q.val := fun n => by
    rw [Nat.add_right_comm, ← Nat.add_assoc]
    rfl
  rw [hmove 8, hmove 16, hmove 20]
  rfl

/-! ## The checks in order (R153) -/

theorem TablesRead.check_header (cb : Nat) {t : TablesRead} (h : ¬(t.format = 1 ∧ 30 ≤ t.deadline ∧ t.deadline ≤ 3600)) :
    t.check cb = .error 1 := by
  have hmin : Config.deadlineMin = 30 := rfl
  have hmax : Config.deadlineMax = 3600 := rfl
  unfold TablesRead.check
  exact if_pos (by rw [hmin, hmax]; omega)

/-- The checks after the header's. -/
theorem TablesRead.check_tables (cb : Nat) {t : TablesRead} (h : t.format = 1 ∧ 30 ≤ t.deadline ∧ t.deadline ≤ 3600) :
    (t.classes = .none → t.check cb = .error 2) ∧
    ∀ classes, t.classes = some classes →
      (t.caps = .none → t.check cb = .error 3) ∧
      ∀ caps, t.caps = some caps →
        (t.bias = .none → t.check cb = .error 4) ∧
        ∀ bias, t.bias = some bias →
          (t.zones = .none → t.check cb = .error 5) ∧
          ∀ z, t.zones = some z →
            (zonesRise z = false → t.check cb = .error 5) ∧
            (zonesRise z = true → areasOk cb t.areas.toList t.descs = false → t.check cb = .error 6) ∧
            (zonesRise z = true → areasOk cb t.areas.toList t.descs = true → queuesOk cb t.descs = false →
              t.check cb = .error 7) ∧
            (zonesRise z = true → areasOk cb t.areas.toList t.descs = true → queuesOk cb t.descs = true → t.check cb = .ok
              { deadline := t.deadline, ticketImage := t.ticketImage, classes := classes, caps := caps, bias := bias,
                zones := z, areas := t.areas, descs := t.descs }) := by
  have hmin : Config.deadlineMin = 30 := rfl
  have hmax : Config.deadlineMax = 3600 := rfl
  unfold TablesRead.check
  rw [if_neg (by rw [hmin, hmax]; omega)]
  refine ⟨fun hc => by simp only [hc], fun classes hc => ⟨fun hp => by simp only [hc, hp], fun caps hp =>
    ⟨fun hb => by simp only [hc, hp, hb], fun bias hb => ⟨fun hz => by simp only [hc, hp, hb, hz], fun z hz => ?_⟩⟩⟩⟩
  simp only [hc, hp, hb, hz]
  refine ⟨fun hr => by rw [hr]; rfl, fun hr ha => by rw [hr, ha]; rfl, fun hr ha hq => by rw [hr, ha, hq]; rfl,
    fun hr ha hq => by rw [hr, ha, hq]; rfl⟩

/-! ## One read of a RELOAD (R138, R153 to R155) -/

theorem tableSites_reload {k : Nat} (h : k < 7) : (tableSites .reload)[k]? = some (.table (k + 1)) := by
  interval_cases k <;> rfl

/-- What the last read of a RELOAD leads to. -/
theorem State.endTables_reload (seq : Word32) (t : TablesRead) (s : State) :
    (∀ n, t.check s.cbBase = .error n →
      s.cuRead.endTables .reload seq t = s.cuRead.answers (report seq .tableInvalid (BitVec.ofNat 32 n))) ∧
    ∀ x, t.check s.cbBase = .ok x → s.cuRead.endTables .reload seq t = s.cuRead.reloadTests seq x := by
  obtain ⟨hfails, -, hok⟩ := s.cuRead.endTables_cases .reload seq t
  rw [State.cbBase_cuRead] at hfails hok
  exact ⟨fun n h => (hfails n h).trans rfl, fun x h => hok x h rfl⟩

/-- Settles O59: the tables of a RELOAD are read, checked in order and tested against what is in use. -/
theorem reloadTestsTheTables : Obligations.ReloadTestsTheTables := by
  refine ⟨fun s n f ho hm => ?_, fun s seq k t f hw hk => ?_, fun d cb t => ?_, fun d a => ?_, fun cb t => ?_,
    fun s descs => s.busyQueue_spec descs, fun s areas => s.busyArea_spec areas⟩
  · exact exec_readsOf_begun (use := .reload) ho (opAvailable_of_running hm 3 (by decide)) (fun _ _ _ _ => rfl) rfl n f
  · have hone : exec (.reload ⟨1, f⟩) s = .next (s.readNext f) :=
      exec_oneRead (use := .reload) (by rw [hw]; exact beq_self_eq_true TableUse.reload) f
    intro one run next answered
    have hnext : one = .next (s.readNext f) := hone
    obtain ⟨hwaits, hready⟩ := State.readNext_tables_cases hw (tableSites_reload hk) f
    refine ⟨fun ho => hnext.trans (congrArg _ (hwaits ho)), fun ho => ?_⟩
    obtain ⟨hfault, hmore, hlast⟩ := hready ho
    refine ⟨fun hf => hnext.trans (congrArg _ (hfault hf)), fun hf hk6 => hnext.trans (congrArg _ (hmore hf (Nat.succ_lt_succ hk6))),
      fun hf hk6 => ?_⟩
    have hend : one = .next (s.cuRead.endTables .reload seq next) :=
      hnext.trans (congrArg _ (hlast hf (by rw [hk6]; exact le_refl 7)))
    obtain ⟨herror, hok⟩ := s.endTables_reload seq next
    refine ⟨fun n hn => hend.trans (congrArg _ (herror n hn)), fun x hx => ?_⟩
    have htests : one = .next (s.cuRead.reloadTests seq x) := hend.trans (congrArg _ (hok x hx))
    obtain ⟨hqueue, harea, hpause⟩ := s.cuRead.reloadTests_spec seq x
    exact ⟨fun q hq => htests.trans (congrArg _ (hqueue q hq)), fun i hq hi => htests.trans (congrArg _ (harea i hq hi)),
      fun hq hi => htests.trans (congrArg _ ((hpause hq hi).trans rfl))⟩
  · exact ⟨rfl, rfl, t.take_classes d cb, t.take_caps d cb, t.take_bias d cb, t.take_zones d cb, t.take_areas d cb,
      t.take_descs d cb⟩
  · obtain ⟨hclassVoid, hclass⟩ := Memory.classEntry_spec d a
    obtain ⟨hzoneVoid, hzone⟩ := Memory.zone_spec d a
    exact ⟨hclassVoid, hclass, hzoneVoid, hzone⟩
  · intro apart rings areas header zones items queues
    obtain ⟨hitems, hqueues⟩ := layoutChecks_spec cb t
    have hzones : ∀ z, zonesRise z = true ↔ zones z := fun z => decide_eq_true_iff
    refine ⟨fun h => t.check_header cb h, fun h => ?_⟩
    obtain ⟨hclasses, hrest⟩ := TablesRead.check_tables cb h
    refine ⟨hclasses, fun classes hc => ?_⟩
    obtain ⟨hcaps, hrest⟩ := hrest classes hc
    refine ⟨hcaps, fun caps hp => ?_⟩
    obtain ⟨hbias, hrest⟩ := hrest caps hp
    refine ⟨hbias, fun bias hb => ?_⟩
    obtain ⟨hzonesRead, hrest⟩ := hrest bias hb
    refine ⟨hzonesRead, fun z hz => ?_⟩
    obtain ⟨hrise, hareasFail, hqueuesFail, hpass⟩ := hrest z hz
    exact ⟨fun h => hrise (Bool.eq_false_iff.2 fun e => h ((hzones z).1 e)),
      fun hr h => hareasFail ((hzones z).2 hr) (Bool.eq_false_iff.2 fun e => h (hitems.1 e)),
      fun hr hi h => hqueuesFail ((hzones z).2 hr) (hitems.2 hi) (Bool.eq_false_iff.2 fun e => h (hqueues.1 e)),
      fun hr hi hq => hpass ((hzones z).2 hr) (hitems.2 hi) (hqueues.2 hq)⟩

end Sys2Proof.Machine
end
